-- ==== Sys2Proof/Word.lean ====
section
/-!
DEFINITION. The word types of the IG-4410 and the register numbers of its etas language
(spec/00_scope.md R1-R4, "Names"; spec/14 R295).
-/

namespace Sys2Proof

/-- A 64-bit scalar register, address or doubleword. -/
abbrev Word := BitVec 64
/-- One 32-bit parcel, lane or scratchpad word. -/
abbrev W32 := BitVec 32
/-- One byte of memory. -/
abbrev Byte := BitVec 8

/-- s0 to s63 (R295). -/
abbrev SReg := Fin 64
/-- p0 to p15. -/
abbrev PReg := Fin 16
/-- v0 to v767. -/
abbrev VReg := Fin 768

/-- The 64 lanes of a vector register (R398). -/
abbrev Vec := Vector W32 64

/-- tp, lk and sp are s61, s62 and s63 (R295). -/
abbrev SReg.tp : SReg := 61
abbrev SReg.lk : SReg := 62
abbrev SReg.sp : SReg := 63

end Sys2Proof
end

