-- ==== Sys2Proof/Syntax.lean ====
section
/-!
DEFINITION. Instr, the syntax of every row of spec/opcode_table.json: the stream words of classes SA, SM, VL,
VA, VS, EC and SY and the section header (spec/14 R288-R300), the commands of an ECB image (spec/14 R299) and the
events of the part (spec/95). A field that an instruction does not use has no place in its constructor.
-/

namespace Sys2Proof

/-! ## Enumerated fields (R297) -/

/-- SA and VCMP conditions, codes 0 to 9. -/
inductive Cond where
  | eq | ne | lt | le | gt | ge | ltu | leu | gtu | geu
  deriving DecidableEq, Repr, Inhabited

/-- The SA variant: .S signed, .U unsigned. -/
inductive Sgn where
  | s | u
  deriving DecidableEq, Repr, Inhabited

/-- SM access size. -/
inductive MSize where
  | b | h | w | d
  deriving DecidableEq, Repr, Inhabited

/-- VL and VS element size. -/
inductive ESize where
  | b | h | w
  deriving DecidableEq, Repr, Inhabited

/-- AMO operations, codes 0 to 8. -/
inductive AmoOp where
  | add | and | or | xor | min | max | minu | maxu | swap
  deriving DecidableEq, Repr, Inhabited

/-- SM cache hints, codes 0 to 4 (R144). -/
inductive Hint where
  | normal | evictFirst | noAllocate | bypass | retain
  deriving DecidableEq, Repr, Inhabited

/-- VA lane types, codes 0 to 2. -/
inductive Lane where
  | f32 | i32 | u32
  deriving DecidableEq, Repr, Inhabited

/-- Rounding codes 0 to 5 (R84). -/
inductive RMode where
  | rne | rtz | rdn | rup | rna | sr
  deriving DecidableEq, Repr, Inhabited

/-- VCMP combining types, codes 0 to 7 (R412). -/
inductive CType where
  | new | all | any | par | edge | drop | hist | split
  deriving DecidableEq, Repr, Inhabited

/-- Token channels, codes 0 (none) to 6 (R59). -/
inductive Chan where
  | none | la | as | sl | al | ca | ma
  deriving DecidableEq, Repr, Inhabited

/-- VRED sub-operations, codes 0 to 7 (R419). -/
inductive RedOp where
  | add | min | max | minu | maxu | and | or | xor
  deriving DecidableEq, Repr, Inhabited

/-- PLOG sub-operations, codes 0 to 7 (R376). -/
inductive PlogOp where
  | and | or | xor | andn | orn | nand | nor | xnor
  deriving DecidableEq, Repr, Inhabited

/-- Format codes 0x0 to 0xC (R74). -/
inductive Fmt where
  | fp32 | bf16 | fp16 | e4m3 | e5m2 | e2m3 | e3m2 | e2m1 | int4 | int6 | int8 | i32 | u32
  deriving DecidableEq, Repr, Inhabited

/-- The engines that an ECB can name: codes 1, 3 and 4 (R294). -/
inductive EcbEngine where
  | mx | nm | cl
  deriving DecidableEq, Repr, Inhabited

/-! ## Operand forms -/

/-- sb, or imm32 when I = 1 (R300). -/
inductive Src2 where
  | reg (sb : SReg)
  | imm (v : W32)
  deriving DecidableEq, Repr, Inhabited

/-- BR compares with sb, or with a 6-bit immediate (R328). -/
inductive BrSrc where
  | reg (sb : SReg)
  | imm6 (v : BitVec 6)
  deriving DecidableEq, Repr, Inhabited

/-- A JMP or CALL target: a parcel offset or a register (R333, R355). -/
inductive Target where
  | off (v : W32)
  | reg (sa : SReg)
  deriving DecidableEq, Repr, Inhabited

/-- An event mask: a register, or one event bit (R348). -/
inductive EvMask where
  | reg (sa : SReg)
  | bit (n : Fin 64)
  deriving DecidableEq, Repr, Inhabited

/-- A register or a 32-bit immediate: the TCB of SPAWN and DEPDEC, the id of CANCEL. -/
inductive RegImm where
  | reg (sa : SReg)
  | imm (v : W32)
  deriving DecidableEq, Repr, Inhabited

/-- An 11-bit vector operand specifier (R296). -/
inductive VSpec where
  | v (r : VReg)
  | s (r : SReg)
  deriving DecidableEq, Repr, Inhabited

/-- The memory attributes of an SM word (R291). -/
structure MemAttr where
  oc     : Fin 16
  scope  : Fin 8
  hint   : Hint
  strong : Bool
  deriving DecidableEq, Repr, Inhabited

/-- Governing predicate, Z and token fields of a vector word (R292, R293). -/
structure VCtl where
  qp   : PReg
  z    : Bool
  pop  : Chan
  push : Chan
  deriving DecidableEq, Repr, Inhabited

/-- The three forms of VGET (R415). -/
inductive VGetForm where
  | lane (va : VSpec) (lane : Fin 64) (ty : Lane)
  | first
  | count
  deriving DecidableEq, Repr, Inhabited

/-- The three sources of PSET (R379). -/
inductive PsetSrc where
  | bits (s : SReg)
  | firstReg (s : SReg)
  | firstImm (n : Fin 128)
  deriving DecidableEq, Repr, Inhabited

/-- A section header (R50). -/
structure Header where
  dVA : BitVec 8
  dVL : BitVec 8
  num : BitVec 4
  len : BitVec 9
  dVS : BitVec 8
  dMX : BitVec 8
  dCP : BitVec 8
  dNM : BitVec 8
  deriving DecidableEq, Repr, Inhabited

/-! ## ECB commands (R106, R107, R263, R265, R270, R329) -/

/-- Slots 0, 1 and 2 of an ECB image, less the opcode and the engine (R106). -/
structure EcbHead where
  tag    : BitVec 16
  budget : BitVec 8
  pushMA : Bool
  scope  : BitVec 3
  oc     : BitVec 4
  role   : BitVec 2
  strict : Bool
  katCmp : Bool
  tsm    : Bool
  wait   : Word
  signal : Word
  deriving DecidableEq, Repr, Inhabited

/-- One loop level, slots 6 to 11 (R106). -/
structure LoopLevel where
  count   : BitVec 16
  aStride : BitVec 12
  bStride : BitVec 8
  cStride : BitVec 5
  kLevel  : Bool
  ragged  : Bool
  deriving DecidableEq, Repr, Inhabited

/-- The MMA fields of slots 3, 4, 5, 6-11 and 12 (R107). -/
structure MmaCmd where
  aAddr     : BitVec 19
  bypass    : Bool
  aFmt      : BitVec 4
  scaleBase : BitVec 19
  dirBase   : BitVec 10
  transp    : Bool
  bFmt      : BitVec 4
  xv        : BitVec 6
  tile      : Fin 32
  overwrite : Bool
  l0 : LoopLevel
  l1 : LoopLevel
  l2 : LoopLevel
  l3 : LoopLevel
  l4 : LoopLevel
  l5 : LoopLevel
  raggedTable : BitVec 19
  groups      : BitVec 13
  deriving DecidableEq, Repr, Inhabited

/-- The DRAIN fields of slots 5, 12 and 13 (R107). -/
structure DrainCmd where
  tile       : Fin 32
  fmt        : BitVec 4
  rnd        : BitVec 3
  addr       : BitVec 19
  toBypass   : Bool
  row0       : BitVec 15
  col0       : BitVec 15
  frozen     : Bool
  frozenCols : BitVec 16
  statusCopy : Bool
  statusAddr : BitVec 19
  deriving DecidableEq, Repr, Inhabited

/-- The TWFILL fields of slots 3, 4, 6, 12 and 13 (R107). -/
structure TwfillCmd where
  src       : BitVec 19
  fmt       : BitVec 4
  scaleSrc  : BitVec 19
  firstDir  : BitVec 10
  blocks    : BitVec 16
  firstSlot : BitVec 10
  zeroMask  : Word
  deriving DecidableEq, Repr, Inhabited

/-- The KAT fields of slots 3, 4, 5, 13 and 14 (R107). -/
structure KatCmd where
  set     : BitVec 3
  fmtA    : BitVec 4
  fmtB    : BitVec 4
  fmtD    : BitVec 4
  sigAddr : BitVec 19
  expect  : Word
  deriving DecidableEq, Repr, Inhabited

/-- The NMATT fields (R263). -/
structure NmattCmd where
  query    : BitVec 48
  table    : BitVec 48
  toGlobal : Bool
  dest     : BitVec 48
  dim      : BitVec 9
  tokens   : BitVec 24
  sigma    : W32
  deriving DecidableEq, Repr, Inhabited

/-- The NMOPT fields (R265). -/
structure NmoptCmd where
  alg    : BitVec 4
  w      : BitVec 48
  m1     : BitVec 48
  m2     : BitVec 48
  g      : BitVec 48
  fmt    : BitVec 4
  narrow : BitVec 48
  cols   : BitVec 16
  n      : W32
  target : BitVec 16
  arrive : BitVec 48
  lambda : W32
  eta    : W32
  c1     : W32
  mu     : W32
  c2     : W32
  beta2  : W32
  b2     : W32
  b1     : W32
  gs     : W32
  eps    : W32
  deriving DecidableEq, Repr, Inhabited

/-- The NMXG fields (R270). -/
structure NmxgCmd where
  list  : BitVec 48
  count : BitVec 9
  deriving DecidableEq, Repr, Inhabited

/-- The collective fields (R329). -/
structure CollCmd where
  src    : BitVec 48
  dst    : BitVec 48
  arr    : Bool
  e      : W32
  bigW   : BitVec 5
  w      : BitVec 5
  b      : W32
  rank   : BitVec 16
  m      : BitVec 16
  arrive : BitVec 48
  deriving DecidableEq, Repr, Inhabited

/-! ## Operands of events -/

/-- The zones whose report names a core and aborts its task (R213). -/
inductive CoreZone where
  | s | v | d
  deriving DecidableEq, Repr, Inhabited

/-- The five scrubbed and logged structures of a core (R234, R236). -/
inductive Ring5 where
  | vrf | acc | sp | twa | queue
  deriving DecidableEq, Repr, Inhabited

/-- What a table walk is for (R242). -/
inductive Access where
  | read | write | fetch | nmRead | nmWrite
  deriving DecidableEq, Repr, Inhabited

/-- The requesters of a scratchpad bank, in the order of R64. -/
inductive Requester where
  | sq | vl | cp | mx | nm | xmc | vs | drain
  deriving DecidableEq, Repr, Inhabited

/-- A firmware image as the controller checks it (R285). -/
structure Firmware where
  rsaKey : List Byte
  slhKey : List Byte
  rsaSig : List Byte
  slhSig : List Byte
  body   : List Byte
  deriving DecidableEq, Repr, Inhabited

/-- Every row of spec/opcode_table.json. -/
inductive Instr where
  -- SA, scalar ALU and control (R300)
  | nop
  | add  (sd sa : SReg) (src : Src2)
  | sub  (sd sa : SReg) (src : Src2)
  | mul  (sd sa : SReg) (src : Src2)
  | mulh (v : Sgn) (sd sa : SReg) (src : Src2)
  | div  (v : Sgn) (sd sa : SReg) (src : Src2)
  | rem  (v : Sgn) (sd sa : SReg) (src : Src2)
  | and  (sd sa : SReg) (src : Src2)
  | or   (sd sa : SReg) (src : Src2)
  | xor  (sd sa : SReg) (src : Src2)
  | andn (sd sa : SReg) (src : Src2)
  | shl  (sd sa : SReg) (src : Src2)
  | shr  (sd sa : SReg) (src : Src2)
  | sra  (sd sa : SReg) (src : Src2)
  | clz  (sd sa : SReg)
  | popc (sd sa : SReg)
  | min  (v : Sgn) (sd sa : SReg) (src : Src2)
  | max  (v : Sgn) (sd sa : SReg) (src : Src2)
  | sel  (sd sa : SReg) (src : Src2) (sc : SReg)
  | cmp  (c : Cond) (sd sa : SReg) (src : Src2)
  | ext  (v : Sgn) (sd sa : SReg) (lo : Fin 64) (width : Fin 128)
  | ins  (sd sa sc : SReg) (lo : Fin 64) (width : Fin 128)
  | hash (sd sa sb sc : SReg)
  | li   (sd : SReg) (v : Word)
  | br   (c : Cond) (sa : SReg) (b : BrSrc) (off : W32)
  | jmp  (t : Target)
  | call (t : Target)
  | loop (sa : SReg) (off : W32)
  -- HD, section header (R50)
  | sectionHeader (h : Header)
  -- SM, scalar memory (R291)
  | ld  (sz : MSize) (sx : Bool) (at_ : MemAttr) (sd sa : SReg) (off : W32)
  | st  (sz : MSize) (at_ : MemAttr) (sa : SReg) (off : W32) (sd : SReg)
  | amo (op : AmoOp) (sz : MSize) (sx : Bool) (at_ : MemAttr) (sd sa : SReg) (off : W32) (sb : SReg)
  | cas (sz : MSize) (sx : Bool) (at_ : MemAttr) (sd sa : SReg) (off : W32) (sb : SReg)
  | ldfe (sx : Bool) (sd sa : SReg) (off : W32)
  | ldff (sx : Bool) (sd sa : SReg) (off : W32)
  | stef (sa : SReg) (off : W32) (sd : SReg)
  | stff (sa : SReg) (off : W32) (sd : SReg)
  | feclr (sa : SReg) (off : W32)
  | cpgo (chan : Fin 8) (tpl : Fin 256) (sa sb : SReg)
  | splook (sd sa : SReg) (off : W32)
  | spfill (hint : Hint) (oc : Fin 16) (sa : SReg) (off : W32) (sd : SReg)
  | spevictWb (sa : SReg) (off : W32)
  | spevictDrop (sa : SReg) (off : W32)
  | sppin (sa : SReg) (off : W32)
  | sppinUn (sa : SReg) (off : W32)
  | wenq (oc : Fin 16) (hint : Hint) (sa : SReg) (off : W32) (sd sb : SReg)
  | pref (hint : Hint) (oc : Fin 16) (sa : SReg) (off : W32)
  -- VL, vector load (R405)
  | vld  (e : ESize) (c : VCtl) (vd : VReg) (sa : SReg) (off : W32)
  | vlds (e : ESize) (c : VCtl) (vd : VReg) (sa : SReg) (off : W32) (sb : SReg)
  | vldx (e : ESize) (c : VCtl) (vd : VReg) (sa : SReg) (off : W32) (vx : VSpec)
  | vldb (e : ESize) (c : VCtl) (vd : VReg) (sa : SReg) (off : W32)
  | vldt (col : Bool) (q : Fin 4) (c : VCtl) (vd : VReg) (sa : SReg) (off : W32) (sb : SReg)
  | vaccr (col : Bool) (tile : Fin 32) (c : VCtl) (vd : VReg) (sa : SReg) (off : W32)
  -- VA, vector arithmetic (R403, R412-R421, R376, R379)
  | vadd (ty : Lane) (rm : RMode) (c : VCtl) (vd : VReg) (va vb : VSpec)
  | vsub (ty : Lane) (rm : RMode) (c : VCtl) (vd : VReg) (va vb : VSpec)
  | vmul (ty : Lane) (rm : RMode) (c : VCtl) (vd : VReg) (va vb : VSpec)
  | vfma (ty : Lane) (rm : RMode) (c : VCtl) (vd : VReg) (va vb vc : VSpec)
  | vmin (ty : Lane) (c : VCtl) (vd : VReg) (va vb : VSpec)
  | vmax (ty : Lane) (c : VCtl) (vd : VReg) (va vb : VSpec)
  | vabs (ty : Lane) (c : VCtl) (vd : VReg) (va : VSpec)
  | vand (ty : Lane) (c : VCtl) (vd : VReg) (va vb : VSpec)
  | vor  (ty : Lane) (c : VCtl) (vd : VReg) (va vb : VSpec)
  | vxor (ty : Lane) (c : VCtl) (vd : VReg) (va vb : VSpec)
  | vshl (ty : Lane) (c : VCtl) (vd : VReg) (va vb : VSpec)
  | vshr (ty : Lane) (c : VCtl) (vd : VReg) (va vb : VSpec)
  | vsra (ty : Lane) (c : VCtl) (vd : VReg) (va vb : VSpec)
  | vcmp (ty : Lane) (cond : Cond) (ct : CType) (c : VCtl) (pd1 pd2 : PReg) (va vb : VSpec)
  | vsel (ty : Lane) (c : VCtl) (vd : VReg) (ps : PReg) (va vb : VSpec)
  | vmov (ty : Lane) (c : VCtl) (vd : VReg) (va : VSpec)
  | vcvt (src dst : Fmt) (rm : RMode) (c : VCtl) (vd : VReg) (va vb vc : VSpec)
  | vred (ty : Lane) (op : RedOp) (rm : RMode) (c : VCtl) (vd : VReg) (va : VSpec)
  | vperm (ty : Lane) (c : VCtl) (vd : VReg) (va vb : VSpec)
  | vslide (dn : Bool) (ty : Lane) (c : VCtl) (vd : VReg) (va vb : VSpec) (k : Fin 64)
  | viota (ty : Lane) (c : VCtl) (vd : VReg) (va : VSpec) (step : BitVec 11)
  | vdiv (c : VCtl) (vd : VReg) (va vb : VSpec)
  | vsqrt (c : VCtl) (vd : VReg) (va : VSpec)
  | vexp2 (c : VCtl) (vd : VReg) (va : VSpec)
  | vlog2 (c : VCtl) (vd : VReg) (va : VSpec)
  | vget (form : VGetForm) (c : VCtl) (sd : SReg)
  | plog (op : PlogOp) (c : VCtl) (pd pa pb : PReg)
  | pset (src : PsetSrc) (c : VCtl) (pd : PReg)
  | vhash (ty : Lane) (c : VCtl) (vd : VReg) (va vb vc : VSpec)
  -- VS, vector store (R409)
  | vst  (e : ESize) (c : VCtl) (vs : VReg) (sa : SReg) (off : W32)
  | vsts (e : ESize) (c : VCtl) (vs : VReg) (sa : SReg) (off : W32) (sb : SReg)
  | vstx (e : ESize) (c : VCtl) (vs : VReg) (sa : SReg) (off : W32) (vx : VSpec)
  | vaccw (col : Bool) (tile : Fin 32) (c : VCtl) (vs : VReg) (sa : SReg) (off : W32)
  | vstc (e : ESize) (c : VCtl) (vs : VReg) (sa : SReg) (off : W32)
  -- EC, engine (R294)
  | ecgo (eng : EcbEngine) (sd sa : SReg)
  | mxw (sa : SReg) (slot : Fin 16)
  | mxgo (sd : SReg)
  | cptpl (tpl : Fin 256) (sa : SReg)
  | pubv (sd : SReg) (region : Fin 4096) (n : Fin 8) (final : Bool)
  | refstop (sd : SReg) (region : Fin 4096)
  | verget (sd : SReg) (region : Fin 4096)
  -- SY, system (R290)
  | trap (imm : W32)
  | eret
  | mfs (sd : SReg) (reg : Fin 4096)
  | mts (reg : Fin 4096) (sa : SReg)
  | fence (scope : Fin 8) (mask : BitVec 16)
  | waitc (ld st cp mx : BitVec 8)
  | evset (m : EvMask)
  | evclr (m : EvMask)
  | evwait (m : EvMask)
  | spawn (sd : SReg) (t : RegImm)
  | depdec (scope : Fin 8) (t : RegImm)
  | tend
  | cancel (sd : SReg) (level : Fin 16) (id : RegImm)
  | xsync (id : W32)
  | xmc (sa : SReg) (off : W32) (sb sc : SReg)
  | idle
  | trig
  | stepBegin (k : W32)
  | stepCommit (k : W32)
  | stepAbort (k : W32)
  | halt
  | unpin (sd : SReg) (n : Fin 8)
  -- ECB commands, at the head of their queue (R299)
  | mma (h : EcbHead) (m : MmaCmd)
  | drain (h : EcbHead) (d : DrainCmd)
  | zacc (h : EcbHead) (tile : Fin 32)
  | twfill (h : EcbHead) (t : TwfillCmd)
  | kat (h : EcbHead) (k : KatCmd)
  | nmatt (h : EcbHead) (a : NmattCmd)
  | nmopt (h : EcbHead) (o : NmoptCmd)
  | nmxg (h : EcbHead) (x : NmxgCmd)
  | crs (h : EcbHead) (c : CollCmd)
  | cag (h : EcbHead) (c : CollCmd)
  | car (h : EcbHead) (c : CollCmd)
  -- events of the part (spec/95); numbers are those of R12
  | nmuCompletion (nmu : Fin 512)
  | openRowAccess (nmu : Fin 512) (write : Bool) (pa : Nat) (value : Byte)
  | collectiveStepAck (tag : BitVec 16)
  | collectiveStepTimeout (tag : BitVec 16)
  | safetyNetRelease (core : Fin 1024)
  | xmcDelivery (die : Fin 8) (index : Nat)
  | xsyncBarrier (job : W32)
  | globalLoadReturn (core : Fin 1024) (index : Nat)
  | copySectorCounted (core : Fin 1024) (chan : Fin 8)
  | pageFillComplete (core : Fin 1024) (page : Fin 128)
  | tableWalk (core : Fin 1024) (va : BitVec 48) (acc : Access)
  | taskCommit (core : Fin 1024)
  | taskDispatch (die : Fin 8)
  | taskRestore (die : Fin 8)
  | preemption (die : Fin 8)
  | sliceExpiry (core : Fin 1024)
  | taskAgeing (die : Fin 8)
  | spillListMove (die : Fin 8) (cls : Fin 4)
  | launchRunning (job : W32) (launch : W32)
  | phaseBegin (job : W32)
  | exchangeStart (job : W32)
  | exchangeHoldExpiry (job : W32)
  | confirmationBarrier (job : W32)
  | coreStrikeReport (zone : CoreZone) (core : Fin 1024) (t : Nat)
  | matrixStrikeReport (core : Fin 1024) (t : Nat)
  | safetyNetStrike (cluster : Fin 256) (t : Nat)
  | l2Strike (slice : Fin 128) (t : Nat)
  | nmuStrike (nmu : Fin 512) (t : Nat)
  | routerStrike (port : Fin 6) (t : Nat)
  | queueDeadlock (core : Fin 1024)
  | bankAgeLimit (core : Fin 1024) (bank : Fin 16)
  | mxWindowAgeOut (core : Fin 1024)
  | governorPromotion (core : Fin 1024)
  | scrubStep (core : Fin 1024) (ring : Ring5)
  | l2Scrub (slice : Fin 128)
  | hbmPatrol (channel : Fin 512)
  | traceFreeze (core : Fin 1024)
  | errlogRead (core : Fin 1024) (ring : Ring5) (sd : SReg)
  | errlogClear (core : Fin 1024) (ring : Ring5)
  | tracectlWrite (core : Fin 1024) (v : Word)
  | retainWrite (n : Fin 8) (word : Fin 8) (v : Word)
  | counterClear (off : BitVec 26)
  | degradedClear (word : Fin 16) (v : Word)
  | tlbinvGo
  | tlbinvDone
  | resumeWrite (die : Fin 8) (va : Word)
  | pfConsumerIndexWrite (die : Fin 8) (v : Word)
  | mgmtRegisterWrite (off : BitVec 26) (v : Word)
  | jobOpen (seq : W32) (desc : List Word)
  | launchSubmit (seq : W32) (job : W32) (va : Word)
  | graphSubmit (seq : W32) (job : W32) (va : Word)
  | hostCancel (seq : W32) (job : W32) (level : BitVec 8) (id : W32)
  | hostRefstop (seq : W32) (job : W32) (region : Fin 4096)
  | memoryWrite (seq : W32) (pa : Nat) (bytes : List Byte)
  | memoryRead (seq : W32) (pa : Nat) (n : Nat)
  | resynchroniseRequest (seq : W32) (dh : W32)
  | attestationRequest (seq : W32) (nonce : List Byte)
  | unknownMessage (seq : W32) (type : Byte)
  | flitReceive (port : Fin 6) (bytes : List Byte)
  | linkReplayRequest (port : Fin 6) (seq : BitVec 12)
  | linkSignalChange (port : Fin 6) (signal : Bool)
  | linkTrainingComplete (port : Fin 6)
  | deviceLost (port : Fin 6)
  | lossNotice (x y z : Fin 16)
  | firmwareBoot (img : Firmware)
  | powerStateEntry
  | wake
  | governorBudgetRenewal (die : Fin 8)
  deriving DecidableEq, Repr

end Sys2Proof
end

