-- ==== Sys2Proof/WellFormed.lean ====
section
/-!
DEFINITION. Instr.wf: what the decode checks of spec/14 R289 and the entries of the instruction demand beyond the
types of Syntax.lean. A word that decodes is well-formed, and a well-formed word has an encoding.
-/

namespace Sys2Proof

/-- Numbers that R72 assigns to a system register. -/
def sysRegNumbers : List Nat :=
  [0x000, 0x001, 0x002, 0x003, 0x004, 0x005, 0x010, 0x011, 0x012, 0x013, 0x020, 0x021, 0x022, 0x023,
   0x030, 0x031, 0x032, 0x033, 0x040, 0x050, 0x051, 0x052, 0x060, 0x070, 0x071, 0x072, 0x073, 0x074,
   0x080, 0x081, 0x082, 0x083, 0x084, 0x090, 0x0A0]

/-- The RO registers of R72: MTS to one is ILLEGAL_FIELD at decode. -/
def sysRegReadOnly : List Nat :=
  [0x010, 0x011, 0x012, 0x013, 0x020, 0x021, 0x022, 0x023, 0x052]

/-- VL pops SL or AL and pushes LA (R59, R399). -/
def VCtl.okVL (c : VCtl) : Bool :=
  (c.pop == .none || c.pop == .sl || c.pop == .al) && (c.push == .none || c.push == .la)

/-- VA pops LA, CA or MA and pushes AS or AL (R59, R399). -/
def VCtl.okVA (c : VCtl) : Bool :=
  (c.pop == .none || c.pop == .la || c.pop == .ca || c.pop == .ma) &&
    (c.push == .none || c.push == .as || c.push == .al)

/-- VS pops AS and pushes SL, and has no Z (R59, R399, R409). -/
def VCtl.okVS (c : VCtl) : Bool :=
  (c.pop == .none || c.pop == .as) && (c.push == .none || c.push == .sl) && !c.z

/-- Rounding codes 0 to 4, and only RNE for an integer lane type (R94, R403). -/
def rmOk (ty : Lane) (rm : RMode) : Bool :=
  rm == .rne || (ty == .f32 && rm != .sr)

/-- EXT and INS: a width from 1 to 64 and lo + width at most 64 (R349). -/
def fieldOk (lo : Fin 64) (width : Fin 128) : Bool :=
  decide (1 ≤ width.val) && decide (lo.val + width.val ≤ 64)

/-- The legal pairs of VRED's op and lane type: those with an identity in R98. -/
def redOk (op : RedOp) (ty : Lane) : Bool :=
  match op, ty with
  | .add, _ => true
  | .min, .f32 | .min, .i32 | .max, .f32 | .max, .i32 => true
  | .minu, .u32 | .maxu, .u32 => true
  | .and, .i32 | .and, .u32 | .or, .i32 | .or, .u32 | .xor, .i32 | .xor, .u32 => true
  | _, _ => false

/-- VCMP: F32 takes no unsigned condition, pd1 differs from pd2, and Z goes only with NEW (R412). -/
def vcmpOk (ty : Lane) (cond : Cond) (ct : CType) (z : Bool) (pd1 pd2 : PReg) : Bool :=
  (ty != .f32 || !(cond == .ltu || cond == .leu || cond == .gtu || cond == .geu)) &&
    pd1 != pd2 && (ct == .new || !z)

/-- Whether the instruction may be encoded and decoded: every condition of R289 on its fields. Commands and
events carry any operands; what the part checks of those it checks when they run. -/
def Instr.wf : Instr → Bool
  | .ext _ _ _ lo w => fieldOk lo w
  | .ins _ _ _ lo w => fieldOk lo w
  | .loop sa _ => sa != 0
  | .ld sz sx _ _ _ _ => !(sx && sz == .d)
  | .amo _ sz _ _ _ _ _ _ => sz == .w || sz == .d
  | .cas sz _ _ _ _ _ _ => sz == .w || sz == .d
  | .vld _ c _ _ _ | .vlds _ c _ _ _ _ | .vldx _ c _ _ _ _ | .vldb _ c _ _ _ => c.okVL
  | .vldt _ _ c _ _ _ _ | .vaccr _ _ c _ _ _ => c.okVL
  | .vadd ty rm c _ _ _ | .vsub ty rm c _ _ _ | .vmul ty rm c _ _ _ => c.okVA && rmOk ty rm
  | .vfma ty rm c _ _ _ _ => c.okVA && rmOk ty rm
  | .vmin _ c _ _ _ | .vmax _ c _ _ _ | .vand _ c _ _ _ | .vor _ c _ _ _ | .vxor _ c _ _ _ => c.okVA
  | .vabs ty c _ _ => c.okVA && ty != .u32
  | .vshl ty c _ _ _ | .vshr ty c _ _ _ | .vsra ty c _ _ _ => c.okVA && ty != .f32
  | .vcmp ty cond ct c p1 p2 _ _ => c.okVA && vcmpOk ty cond ct c.z p1 p2
  | .vsel _ c _ _ _ _ | .vperm _ c _ _ _ | .vslide _ _ c _ _ _ _ => c.okVA
  | .vmov _ c _ _ => c.okVA
  | .vcvt _ _ rm c _ _ vb vc => c.okVA && (rm == .sr || (vb == .v 0 && vc == .v 0))
  | .vred ty op rm c _ _ =>
      c.okVA && !c.z && redOk op ty && (rm == .rne || (ty == .f32 && op == .add && rm != .sr))
  | .viota ty c _ _ _ => c.okVA && ty != .f32
  | .vdiv c _ _ _ => c.okVA
  | .vsqrt c _ _ | .vexp2 c _ _ | .vlog2 c _ _ => c.okVA
  | .vget f c _ =>
      c.okVA && !c.z && (match f with | .lane .. => c.qp == 0 | _ => true)
  | .plog _ c _ _ _ => c.okVA
  | .pset src c _ => c.okVA && (match src with | .firstImm n => decide (n.val ≤ 64) | _ => true)
  | .vhash _ c _ _ _ _ => c.okVA
  | .vst _ c _ _ _ | .vsts _ c _ _ _ _ | .vstx _ c _ _ _ _ | .vstc _ c _ _ _ => c.okVS
  | .vaccw _ _ c _ _ _ => c.okVS
  | .mxw _ slot => slot != 15
  | .pubv _ _ n _ => n != 0
  | .mfs _ reg => sysRegNumbers.contains reg.val
  | .mts reg _ => sysRegNumbers.contains reg.val && !sysRegReadOnly.contains reg.val
  | .fence scope _ => scope != 0
  | .depdec scope _ => scope != 0
  | .cancel _ level _ => decide (level.val ≤ 4)
  | .stepBegin k | .stepCommit k | .stepAbort k => k != 0
  | _ => true

/-- Whether the row is a word of a core's instruction stream (a 96-bit word or a section header). -/
def Instr.isStream : Instr → Bool
  | .mma .. | .drain .. | .zacc .. | .twfill .. | .kat .. | .nmatt .. | .nmopt .. | .nmxg ..
  | .crs .. | .cag .. | .car .. => false
  | .nmuCompletion .. | .openRowAccess .. | .collectiveStepAck .. | .collectiveStepTimeout ..
  | .safetyNetRelease .. | .xmcDelivery .. | .xsyncBarrier .. | .globalLoadReturn ..
  | .copySectorCounted .. | .pageFillComplete .. | .tableWalk .. | .taskCommit .. | .taskDispatch ..
  | .taskRestore .. | .preemption .. | .sliceExpiry .. | .taskAgeing .. | .spillListMove ..
  | .launchRunning .. | .phaseBegin .. | .exchangeStart .. | .exchangeHoldExpiry ..
  | .confirmationBarrier .. | .coreStrikeReport .. | .matrixStrikeReport .. | .safetyNetStrike ..
  | .l2Strike .. | .nmuStrike .. | .routerStrike .. | .queueDeadlock .. | .bankAgeLimit ..
  | .mxWindowAgeOut .. | .governorPromotion .. | .scrubStep .. | .l2Scrub .. | .hbmPatrol ..
  | .traceFreeze .. | .errlogRead .. | .errlogClear .. | .tracectlWrite .. | .retainWrite ..
  | .counterClear .. | .degradedClear .. | .tlbinvGo | .tlbinvDone | .resumeWrite ..
  | .pfConsumerIndexWrite .. | .mgmtRegisterWrite .. | .jobOpen .. | .launchSubmit ..
  | .graphSubmit .. | .hostCancel .. | .hostRefstop .. | .memoryWrite .. | .memoryRead ..
  | .resynchroniseRequest .. | .attestationRequest .. | .unknownMessage .. | .flitReceive ..
  | .linkReplayRequest .. | .linkSignalChange .. | .linkTrainingComplete .. | .deviceLost ..
  | .lossNotice .. | .firmwareBoot .. | .powerStateEntry | .wake | .governorBudgetRenewal .. => false
  | _ => true

/-- Whether the row is a command of an ECB image (R299). -/
def Instr.isEcb : Instr → Bool
  | .mma .. | .drain .. | .zacc .. | .twfill .. | .kat .. | .nmatt .. | .nmopt .. | .nmxg ..
  | .crs .. | .cag .. | .car .. => true
  | _ => false

/-- Whether the row is an event of the part rather than a word or a command. -/
def Instr.isEvent (i : Instr) : Bool := !i.isStream && !i.isEcb

end Sys2Proof
end

