-- ==== Sys2Proof/Decode.lean ====
section
/-!
DEFINITION. The decoder and, after it, the encoder: 96-bit words and section headers (spec/14 R288-R300, spec/03
R50), and the 128-byte images of ECB commands (spec/05 R106, R107; spec/12 R263, R265, R270; spec/15 R329).
Decoding is total; a refusal is one of the causes of R289, with the TRAPINFO of R255.
-/

namespace Sys2Proof

/-! ## Codes of the enumerated fields (R297) -/

def Cond.code : Cond → Nat
  | .eq => 0 | .ne => 1 | .lt => 2 | .le => 3 | .gt => 4 | .ge => 5 | .ltu => 6 | .leu => 7 | .gtu => 8 | .geu => 9
def Cond.ofCode (n : Nat) : Option Cond :=
  [Cond.eq, .ne, .lt, .le, .gt, .ge, .ltu, .leu, .gtu, .geu][n]?

def Sgn.code : Sgn → Nat
  | .s => 0 | .u => 1
def Sgn.ofCode (n : Nat) : Option Sgn := [Sgn.s, .u][n]?

def MSize.code : MSize → Nat
  | .b => 0 | .h => 1 | .w => 2 | .d => 3
def MSize.ofCode (n : Nat) : Option MSize := [MSize.b, .h, .w, .d][n]?

def ESize.code : ESize → Nat
  | .b => 0 | .h => 1 | .w => 2
def ESize.ofCode (n : Nat) : Option ESize := [ESize.b, .h, .w][n]?

def AmoOp.code : AmoOp → Nat
  | .add => 0 | .and => 1 | .or => 2 | .xor => 3 | .min => 4 | .max => 5 | .minu => 6 | .maxu => 7 | .swap => 8
def AmoOp.ofCode (n : Nat) : Option AmoOp :=
  [AmoOp.add, .and, .or, .xor, .min, .max, .minu, .maxu, .swap][n]?

def Hint.code : Hint → Nat
  | .normal => 0 | .evictFirst => 1 | .noAllocate => 2 | .bypass => 3 | .retain => 4
def Hint.ofCode (n : Nat) : Option Hint := [Hint.normal, .evictFirst, .noAllocate, .bypass, .retain][n]?

def Lane.code : Lane → Nat
  | .f32 => 0 | .i32 => 1 | .u32 => 2
def Lane.ofCode (n : Nat) : Option Lane := [Lane.f32, .i32, .u32][n]?

def RMode.code : RMode → Nat
  | .rne => 0 | .rtz => 1 | .rdn => 2 | .rup => 3 | .rna => 4 | .sr => 5
def RMode.ofCode (n : Nat) : Option RMode := [RMode.rne, .rtz, .rdn, .rup, .rna, .sr][n]?

def CType.code : CType → Nat
  | .new => 0 | .all => 1 | .any => 2 | .par => 3 | .edge => 4 | .drop => 5 | .hist => 6 | .split => 7
def CType.ofCode (n : Nat) : Option CType :=
  [CType.new, .all, .any, .par, .edge, .drop, .hist, .split][n]?

def Chan.code : Chan → Nat
  | .none => 0 | .la => 1 | .as => 2 | .sl => 3 | .al => 4 | .ca => 5 | .ma => 6
def Chan.ofCode (n : Nat) : Option Chan := [Chan.none, .la, .as, .sl, .al, .ca, .ma][n]?

def RedOp.code : RedOp → Nat
  | .add => 0 | .min => 1 | .max => 2 | .minu => 3 | .maxu => 4 | .and => 5 | .or => 6 | .xor => 7
def RedOp.ofCode (n : Nat) : Option RedOp :=
  [RedOp.add, .min, .max, .minu, .maxu, .and, .or, .xor][n]?

def PlogOp.code : PlogOp → Nat
  | .and => 0 | .or => 1 | .xor => 2 | .andn => 3 | .orn => 4 | .nand => 5 | .nor => 6 | .xnor => 7
def PlogOp.ofCode (n : Nat) : Option PlogOp :=
  [PlogOp.and, .or, .xor, .andn, .orn, .nand, .nor, .xnor][n]?

def Fmt.code : Fmt → Nat
  | .fp32 => 0 | .bf16 => 1 | .fp16 => 2 | .e4m3 => 3 | .e5m2 => 4 | .e2m3 => 5 | .e3m2 => 6 | .e2m1 => 7
  | .int4 => 8 | .int6 => 9 | .int8 => 10 | .i32 => 11 | .u32 => 12
def Fmt.ofCode (n : Nat) : Option Fmt :=
  [Fmt.fp32, .bf16, .fp16, .e4m3, .e5m2, .e2m3, .e3m2, .e2m1, .int4, .int6, .int8, .i32, .u32][n]?

def EcbEngine.code : EcbEngine → Nat
  | .mx => 1 | .nm => 3 | .cl => 4
def EcbEngine.ofCode (n : Nat) : Option EcbEngine :=
  if n = 1 then some .mx else if n = 3 then some .nm else if n = 4 then some .cl else none

/-! ## The fields of each format (R290-R294) -/

/-- Class SA, less LI (R290). -/
structure SaF where
  (r0 i sb sa sd op cls cond var r38 sc r46 imm : Nat)
  deriving DecidableEq, Repr

/-- The fields of a word, low bit first. -/
def SaF.ofNat (w : Nat) : SaF :=
  { r0 := w / 0x1 % 0x4,
    i := w / 0x4 % 0x2,
    sb := w / 0x8 % 0x40,
    sa := w / 0x200 % 0x40,
    sd := w / 0x8000 % 0x40,
    op := w / 0x200000 % 0x100,
    cls := w / 0x20000000 % 0x8,
    cond := w / 0x100000000 % 0x10,
    var := w / 0x1000000000 % 0x4,
    r38 := w / 0x4000000000 % 0x4,
    sc := w / 0x10000000000 % 0x40,
    r46 := w / 0x400000000000 % 0x40000,
    imm := w / 0x10000000000000000 % 0x100000000 }

/-- The word whose fields these are. -/
def SaF.toNat (f : SaF) : Nat :=
  f.r0 * 0x1 +
    f.i * 0x4 +
    f.sb * 0x8 +
    f.sa * 0x200 +
    f.sd * 0x8000 +
    f.op * 0x200000 +
    f.cls * 0x20000000 +
    f.cond * 0x100000000 +
    f.var * 0x1000000000 +
    f.r38 * 0x4000000000 +
    f.sc * 0x10000000000 +
    f.r46 * 0x400000000000 +
    f.imm * 0x10000000000000000

/-- Every field fits its width. -/
def SaF.Fits (f : SaF) : Prop :=
  f.r0 < 0x4 ∧ f.i < 0x2 ∧ f.sb < 0x40 ∧ f.sa < 0x40 ∧ f.sd < 0x40 ∧ f.op < 0x100 ∧ f.cls < 0x8 ∧ f.cond < 0x10 ∧ f.var < 0x4 ∧ f.r38 < 0x4 ∧ f.sc < 0x40 ∧ f.r46 < 0x40000 ∧ f.imm < 0x100000000

/-- Class SY; [45:39] is split where the scope and sc fields overlap (R290). -/
structure SyF where
  (r0 i sb sa sd op cls cond var r38 b39 s40 r42 r46 imm : Nat)
  deriving DecidableEq, Repr

/-- The fields of a word, low bit first. -/
def SyF.ofNat (w : Nat) : SyF :=
  { r0 := w / 0x1 % 0x4,
    i := w / 0x4 % 0x2,
    sb := w / 0x8 % 0x40,
    sa := w / 0x200 % 0x40,
    sd := w / 0x8000 % 0x40,
    op := w / 0x200000 % 0x100,
    cls := w / 0x20000000 % 0x8,
    cond := w / 0x100000000 % 0x10,
    var := w / 0x1000000000 % 0x4,
    r38 := w / 0x4000000000 % 0x2,
    b39 := w / 0x8000000000 % 0x2,
    s40 := w / 0x10000000000 % 0x4,
    r42 := w / 0x40000000000 % 0x10,
    r46 := w / 0x400000000000 % 0x40000,
    imm := w / 0x10000000000000000 % 0x100000000 }

/-- The word whose fields these are. -/
def SyF.toNat (f : SyF) : Nat :=
  f.r0 * 0x1 +
    f.i * 0x4 +
    f.sb * 0x8 +
    f.sa * 0x200 +
    f.sd * 0x8000 +
    f.op * 0x200000 +
    f.cls * 0x20000000 +
    f.cond * 0x100000000 +
    f.var * 0x1000000000 +
    f.r38 * 0x4000000000 +
    f.b39 * 0x8000000000 +
    f.s40 * 0x10000000000 +
    f.r42 * 0x40000000000 +
    f.r46 * 0x400000000000 +
    f.imm * 0x10000000000000000

/-- Every field fits its width. -/
def SyF.Fits (f : SyF) : Prop :=
  f.r0 < 0x4 ∧ f.i < 0x2 ∧ f.sb < 0x40 ∧ f.sa < 0x40 ∧ f.sd < 0x40 ∧ f.op < 0x100 ∧ f.cls < 0x8 ∧ f.cond < 0x10 ∧ f.var < 0x4 ∧ f.r38 < 0x2 ∧ f.b39 < 0x2 ∧ f.s40 < 0x4 ∧ f.r42 < 0x10 ∧ f.r46 < 0x40000 ∧ f.imm < 0x100000000

/-- Class SM (R291). -/
structure SmF where
  (r0 sb sa sd op cls size sx oc scope amo strong hint r50 off : Nat)
  deriving DecidableEq, Repr

/-- The fields of a word, low bit first. -/
def SmF.ofNat (w : Nat) : SmF :=
  { r0 := w / 0x1 % 0x8,
    sb := w / 0x8 % 0x40,
    sa := w / 0x200 % 0x40,
    sd := w / 0x8000 % 0x40,
    op := w / 0x200000 % 0x100,
    cls := w / 0x20000000 % 0x8,
    size := w / 0x100000000 % 0x4,
    sx := w / 0x400000000 % 0x2,
    oc := w / 0x800000000 % 0x10,
    scope := w / 0x8000000000 % 0x8,
    amo := w / 0x40000000000 % 0x10,
    strong := w / 0x400000000000 % 0x2,
    hint := w / 0x800000000000 % 0x8,
    r50 := w / 0x4000000000000 % 0x4000,
    off := w / 0x10000000000000000 % 0x100000000 }

/-- The word whose fields these are. -/
def SmF.toNat (f : SmF) : Nat :=
  f.r0 * 0x1 +
    f.sb * 0x8 +
    f.sa * 0x200 +
    f.sd * 0x8000 +
    f.op * 0x200000 +
    f.cls * 0x20000000 +
    f.size * 0x100000000 +
    f.sx * 0x400000000 +
    f.oc * 0x800000000 +
    f.scope * 0x8000000000 +
    f.amo * 0x40000000000 +
    f.strong * 0x400000000000 +
    f.hint * 0x800000000000 +
    f.r50 * 0x4000000000000 +
    f.off * 0x10000000000000000

/-- Every field fits its width. -/
def SmF.Fits (f : SmF) : Prop :=
  f.r0 < 0x8 ∧ f.sb < 0x40 ∧ f.sa < 0x40 ∧ f.sd < 0x40 ∧ f.op < 0x100 ∧ f.cls < 0x8 ∧ f.size < 0x4 ∧ f.sx < 0x2 ∧ f.oc < 0x10 ∧ f.scope < 0x8 ∧ f.amo < 0x10 ∧ f.strong < 0x2 ∧ f.hint < 0x8 ∧ f.r50 < 0x4000 ∧ f.off < 0x100000000

/-- Classes VL and VS (R292). -/
structure VmF where
  (z qp sa vd op cls vx sb esz pop push dir tile off : Nat)
  deriving DecidableEq, Repr

/-- The fields of a word, low bit first. -/
def VmF.ofNat (w : Nat) : VmF :=
  { z := w / 0x1 % 0x2,
    qp := w / 0x2 % 0x10,
    sa := w / 0x20 % 0x40,
    vd := w / 0x800 % 0x400,
    op := w / 0x200000 % 0x100,
    cls := w / 0x20000000 % 0x8,
    vx := w / 0x100000000 % 0x800,
    sb := w / 0x80000000000 % 0x40,
    esz := w / 0x2000000000000 % 0x4,
    pop := w / 0x8000000000000 % 0x8,
    push := w / 0x40000000000000 % 0x8,
    dir := w / 0x200000000000000 % 0x4,
    tile := w / 0x800000000000000 % 0x20,
    off := w / 0x10000000000000000 % 0x100000000 }

/-- The word whose fields these are. -/
def VmF.toNat (f : VmF) : Nat :=
  f.z * 0x1 +
    f.qp * 0x2 +
    f.sa * 0x20 +
    f.vd * 0x800 +
    f.op * 0x200000 +
    f.cls * 0x20000000 +
    f.vx * 0x100000000 +
    f.sb * 0x80000000000 +
    f.esz * 0x2000000000000 +
    f.pop * 0x8000000000000 +
    f.push * 0x40000000000000 +
    f.dir * 0x200000000000000 +
    f.tile * 0x800000000000000 +
    f.off * 0x10000000000000000

/-- Every field fits its width. -/
def VmF.Fits (f : VmF) : Prop :=
  f.z < 0x2 ∧ f.qp < 0x10 ∧ f.sa < 0x40 ∧ f.vd < 0x400 ∧ f.op < 0x100 ∧ f.cls < 0x8 ∧ f.vx < 0x800 ∧ f.sb < 0x40 ∧ f.esz < 0x4 ∧ f.pop < 0x8 ∧ f.push < 0x8 ∧ f.dir < 0x4 ∧ f.tile < 0x20 ∧ f.off < 0x100000000

/-- Class VA (R293). -/
structure VaF where
  (r0 lt z qp vd op cls va vb vc rnd pop push cond ct pd2 imm : Nat)
  deriving DecidableEq, Repr

/-- The fields of a word, low bit first. -/
def VaF.ofNat (w : Nat) : VaF :=
  { r0 := w / 0x1 % 0x4,
    lt := w / 0x4 % 0x10,
    z := w / 0x40 % 0x2,
    qp := w / 0x80 % 0x10,
    vd := w / 0x800 % 0x400,
    op := w / 0x200000 % 0x100,
    cls := w / 0x20000000 % 0x8,
    va := w / 0x100000000 % 0x800,
    vb := w / 0x80000000000 % 0x800,
    vc := w / 0x40000000000000 % 0x800,
    rnd := w / 0x20000000000000000 % 0x8,
    pop := w / 0x100000000000000000 % 0x8,
    push := w / 0x800000000000000000 % 0x8,
    cond := w / 0x4000000000000000000 % 0x10,
    ct := w / 0x40000000000000000000 % 0x8,
    pd2 := w / 0x200000000000000000000 % 0x10,
    imm := w / 0x2000000000000000000000 % 0x800 }

/-- The word whose fields these are. -/
def VaF.toNat (f : VaF) : Nat :=
  f.r0 * 0x1 +
    f.lt * 0x4 +
    f.z * 0x40 +
    f.qp * 0x80 +
    f.vd * 0x800 +
    f.op * 0x200000 +
    f.cls * 0x20000000 +
    f.va * 0x100000000 +
    f.vb * 0x80000000000 +
    f.vc * 0x40000000000000 +
    f.rnd * 0x20000000000000000 +
    f.pop * 0x100000000000000000 +
    f.push * 0x800000000000000000 +
    f.cond * 0x4000000000000000000 +
    f.ct * 0x40000000000000000000 +
    f.pd2 * 0x200000000000000000000 +
    f.imm * 0x2000000000000000000000

/-- Every field fits its width. -/
def VaF.Fits (f : VaF) : Prop :=
  f.r0 < 0x4 ∧ f.lt < 0x10 ∧ f.z < 0x2 ∧ f.qp < 0x10 ∧ f.vd < 0x400 ∧ f.op < 0x100 ∧ f.cls < 0x8 ∧ f.va < 0x800 ∧ f.vb < 0x800 ∧ f.vc < 0x800 ∧ f.rnd < 0x8 ∧ f.pop < 0x8 ∧ f.push < 0x8 ∧ f.cond < 0x10 ∧ f.ct < 0x8 ∧ f.pd2 < 0x10 ∧ f.imm < 0x800

/-- Class EC (R294). -/
structure EcF where
  (sd sb sa eng op cls imm : Nat)
  deriving DecidableEq, Repr

/-- The fields of a word, low bit first. -/
def EcF.ofNat (w : Nat) : EcF :=
  { sd := w / 0x1 % 0x40,
    sb := w / 0x40 % 0x40,
    sa := w / 0x1000 % 0x40,
    eng := w / 0x40000 % 0x8,
    op := w / 0x200000 % 0x100,
    cls := w / 0x20000000 % 0x8,
    imm := w / 0x100000000 % 0x10000000000000000 }

/-- The word whose fields these are. -/
def EcF.toNat (f : EcF) : Nat :=
  f.sd * 0x1 +
    f.sb * 0x40 +
    f.sa * 0x1000 +
    f.eng * 0x40000 +
    f.op * 0x200000 +
    f.cls * 0x20000000 +
    f.imm * 0x100000000

/-- Every field fits its width. -/
def EcF.Fits (f : EcF) : Prop :=
  f.sd < 0x40 ∧ f.sb < 0x40 ∧ f.sa < 0x40 ∧ f.eng < 0x8 ∧ f.op < 0x100 ∧ f.cls < 0x8 ∧ f.imm < 0x10000000000000000

/-! ## Decode causes (R289, R71) -/

/-- Why a word is refused at decode: ILLEGAL_OP, ILLEGAL_FIELD with the lowest bit of the offending field,
ILLEGAL_OPERAND with the specifier, or STREAM_FAULT for a class-0b111 parcel where a word begins (R52). -/
inductive DecErr where
  | illegalOp
  | illegalField (bit : Nat)
  | illegalOperand (spec : Nat)
  | header
  deriving DecidableEq, Repr

/-- The lowest field that fails its check; the fields stand in rising order. -/
def firstBad : List (Nat × Bool) → Option Nat
  | [] => none
  | (lo, ok) :: rest => if ok then firstBad rest else some lo

/-- Run the field checks, then the rest of the decoding. -/
def checked (bad : Option Nat) (k : Except DecErr Instr) : Except DecErr Instr :=
  match bad with
  | some lo => .error (.illegalField lo)
  | none => k

/-- An enumerated field: a reserved code is ILLEGAL_FIELD at the field's lowest bit (R297). -/
def enumField {α : Type} (lo : Nat) (x : Option α) (k : α → Except DecErr Instr) : Except DecErr Instr :=
  match x with
  | some a => k a
  | none => .error (.illegalField lo)

/-- A vector register field of 10 bits (R295). -/
def vregField (n : Nat) (k : VReg → Except DecErr Instr) : Except DecErr Instr :=
  if h : n < 768 then k ⟨n, h⟩ else .error (.illegalOperand n)

/-- An 11-bit operand specifier (R296). -/
def vspecField (n : Nat) (k : VSpec → Except DecErr Instr) : Except DecErr Instr :=
  if h : n < 768 then k (.v ⟨n, h⟩)
  else if 1024 ≤ n ∧ n < 1088 then k (.s (Fin.ofNat 64 (n % 64)))
  else .error (.illegalOperand n)

def b1 (n : Nat) : Bool := n == 1
def sr (n : Nat) : SReg := Fin.ofNat 64 n
def pr (n : Nat) : PReg := Fin.ofNat 16 n
def w32 (n : Nat) : W32 := BitVec.ofNat 32 n

/-! ## Class SA (R300) -/

/-- The field checks of an SA word: each condition says whether the field is legal for the instruction. -/
def SaF.bad (f : SaF) (i sb sa sd cond var sc imm : Bool) : Option Nat :=
  firstBad [(0, f.r0 == 0), (2, i), (3, sb), (9, sa), (15, sd), (32, cond), (36, var), (38, f.r38 == 0),
    (40, sc), (46, f.r46 == 0), (64, imm)]

/-- src2: sb, or imm32 under I = 1 (R300, R320). -/
def SaF.src (f : SaF) : Src2 := if f.i = 1 then .imm (w32 f.imm) else .reg (sr f.sb)

def SaF.sbOk (f : SaF) : Bool := f.i == 0 || f.sb == 0
def SaF.immOk (f : SaF) : Bool := f.i == 1 || f.imm == 0

/-- sd, sa, sb/I: the fields of ADD. -/
def SaF.alu (f : SaF) (k : SReg → SReg → Src2 → Instr) : Except DecErr Instr :=
  checked (f.bad true f.sbOk true true (f.cond == 0) (f.var == 0) (f.sc == 0) f.immOk)
    (.ok (k (sr f.sd) (sr f.sa) f.src))

/-- sd, sa, sb/I and the variant. -/
def SaF.aluV (f : SaF) (k : Sgn → SReg → SReg → Src2 → Instr) : Except DecErr Instr :=
  checked (f.bad true f.sbOk true true (f.cond == 0) (decide (f.var ≤ 1)) (f.sc == 0) f.immOk)
    (enumField 36 (Sgn.ofCode f.var) fun v => .ok (k v (sr f.sd) (sr f.sa) f.src))

/-- sd and sa only. -/
def SaF.unary (f : SaF) (k : SReg → SReg → Instr) : Except DecErr Instr :=
  checked (f.bad (f.i == 0) (f.sb == 0) true true (f.cond == 0) (f.var == 0) (f.sc == 0) (f.imm == 0))
    (.ok (k (sr f.sd) (sr f.sa)))

/-- imm32 of EXT and INS: lo in [5:0], width in [12:6], the rest 0, within the limits of R349. -/
def SaF.bitField (f : SaF) : Bool :=
  decide (f.imm < 0x2000) && fieldOk (Fin.ofNat 64 (f.imm % 64)) (Fin.ofNat 128 (f.imm / 64 % 128))

def SaF.lo (f : SaF) : Fin 64 := Fin.ofNat 64 (f.imm % 64)
def SaF.width (f : SaF) : Fin 128 := Fin.ofNat 128 (f.imm / 64 % 128)

/-- JMP and CALL: I = 1 takes imm32 and no sa, I = 0 takes sa and no imm32 (R333). -/
def SaF.target (f : SaF) (k : Target → Instr) : Except DecErr Instr :=
  checked (f.bad true (f.sb == 0) (f.i == 0 || f.sa == 0) (f.sd == 0) (f.cond == 0) (f.var == 0) (f.sc == 0) f.immOk)
    (.ok (k (if f.i = 1 then .off (w32 f.imm) else .reg (sr f.sa))))

def decodeSA (f : SaF) : Except DecErr Instr :=
  match f.op with
  | 0x00 => checked (f.bad (f.i == 0) (f.sb == 0) (f.sa == 0) (f.sd == 0) (f.cond == 0) (f.var == 0) (f.sc == 0) (f.imm == 0))
      (.ok .nop)
  | 0x01 => f.alu .add
  | 0x02 => f.alu .sub
  | 0x03 => f.alu .mul
  | 0x04 => f.aluV .mulh
  | 0x05 => f.aluV .div
  | 0x06 => f.aluV .rem
  | 0x07 => f.alu .and
  | 0x08 => f.alu .or
  | 0x09 => f.alu .xor
  | 0x0A => f.alu .andn
  | 0x0B => f.alu .shl
  | 0x0C => f.alu .shr
  | 0x0D => f.alu .sra
  | 0x0E => f.unary .clz
  | 0x0F => f.unary .popc
  | 0x10 => f.aluV .min
  | 0x11 => f.aluV .max
  | 0x12 => checked (f.bad true f.sbOk true true (f.cond == 0) (f.var == 0) true f.immOk)
      (.ok (.sel (sr f.sd) (sr f.sa) f.src (sr f.sc)))
  | 0x13 => checked (f.bad true f.sbOk true true (decide (f.cond ≤ 9)) (f.var == 0) (f.sc == 0) f.immOk)
      (enumField 32 (Cond.ofCode f.cond) fun c => .ok (.cmp c (sr f.sd) (sr f.sa) f.src))
  | 0x14 => checked (f.bad (f.i == 1) (f.sb == 0) true true (f.cond == 0) (decide (f.var ≤ 1)) (f.sc == 0) f.bitField)
      (enumField 36 (Sgn.ofCode f.var) fun v => .ok (.ext v (sr f.sd) (sr f.sa) f.lo f.width))
  | 0x15 => checked (f.bad (f.i == 1) (f.sb == 0) true true (f.cond == 0) (f.var == 0) true f.bitField)
      (.ok (.ins (sr f.sd) (sr f.sa) (sr f.sc) f.lo f.width))
  | 0x16 => checked (f.bad (f.i == 0) true true true (f.cond == 0) (f.var == 0) true (f.imm == 0))
      (.ok (.hash (sr f.sd) (sr f.sa) (sr f.sb) (sr f.sc)))
  | 0x17 => checked (firstBad [(0, f.r0 == 0), (2, f.i == 0), (3, f.sb == 0), (9, f.sa == 0)])
      (.ok (.li (sr f.sd) (BitVec.ofNat 64
        (f.cond + f.var * 0x10 + f.r38 * 0x40 + f.sc * 0x100 + f.r46 * 0x4000 + f.imm * 0x100000000))))
  | 0x20 => checked (f.bad true true true (f.sd == 0) (decide (f.cond ≤ 9)) (f.var == 0) (f.sc == 0) true)
      (enumField 32 (Cond.ofCode f.cond) fun c =>
        .ok (.br c (sr f.sa) (if f.i = 1 then .imm6 (BitVec.ofNat 6 f.sb) else .reg (sr f.sb)) (w32 f.imm)))
  | 0x21 => f.target .jmp
  | 0x22 => f.target .call
  | 0x23 => checked (f.bad (f.i == 0) (f.sb == 0) (f.sa != 0) (f.sd == 0) (f.cond == 0) (f.var == 0) (f.sc == 0) true)
      (.ok (.loop (sr f.sa) (w32 f.imm)))
  | _ => .error .illegalOp

/-! ## Class SM (R291) -/

/-- The field checks of an SM word. -/
def SmF.bad (f : SmF) (sb sd size sx oc scope amo strong hint off : Bool) : Option Nat :=
  firstBad [(0, f.r0 == 0), (3, sb), (15, sd), (32, size), (34, sx), (35, oc), (39, scope), (42, amo),
    (46, strong), (47, hint), (50, f.r50 == 0), (64, off)]

def SmF.attr (f : SmF) (h : Hint) : MemAttr :=
  { oc := Fin.ofNat 16 f.oc, scope := Fin.ofNat 8 f.scope, hint := h, strong := b1 f.strong }

/-- The five full/empty words: size W; no class, scope, hint, strong, AMO op or sb (R360, R350). -/
def SmF.fe (f : SmF) (sd sx : Bool) (k : Instr) : Except DecErr Instr :=
  checked (f.bad (f.sb == 0) sd (f.size == 2) sx (f.oc == 0) (f.scope == 0) (f.amo == 0) (f.strong == 0) (f.hint == 0) true)
    (.ok k)

/-- SPEVICT and SPPIN: sa, offset and the AMO op field, 0 or 1 (R387). -/
def SmF.page (f : SmF) (k0 k1 : SReg → W32 → Instr) : Except DecErr Instr :=
  checked (f.bad (f.sb == 0) (f.sd == 0) (f.size == 0) (f.sx == 0) (f.oc == 0) (f.scope == 0) (decide (f.amo ≤ 1))
      (f.strong == 0) (f.hint == 0) true)
    (.ok (if f.amo = 0 then k0 (sr f.sa) (w32 f.off) else k1 (sr f.sa) (w32 f.off)))

def decodeSM (f : SmF) : Except DecErr Instr :=
  match f.op with
  | 0x00 => checked (f.bad (f.sb == 0) true true (!(b1 f.sx && f.size == 3)) true true (f.amo == 0) true (decide (f.hint ≤ 4)) true)
      (enumField 47 (Hint.ofCode f.hint) fun h => enumField 32 (MSize.ofCode f.size) fun sz =>
        .ok (.ld sz (b1 f.sx) (f.attr h) (sr f.sd) (sr f.sa) (w32 f.off)))
  | 0x01 => checked (f.bad (f.sb == 0) true true (f.sx == 0) true true (f.amo == 0) true (decide (f.hint ≤ 4)) true)
      (enumField 47 (Hint.ofCode f.hint) fun h => enumField 32 (MSize.ofCode f.size) fun sz =>
        .ok (.st sz (f.attr h) (sr f.sa) (w32 f.off) (sr f.sd)))
  | 0x02 => checked (f.bad true true (decide (2 ≤ f.size)) true true true (decide (f.amo ≤ 8)) true (decide (f.hint ≤ 4)) true)
      (enumField 47 (Hint.ofCode f.hint) fun h => enumField 32 (MSize.ofCode f.size) fun sz =>
        enumField 42 (AmoOp.ofCode f.amo) fun op =>
          .ok (.amo op sz (b1 f.sx) (f.attr h) (sr f.sd) (sr f.sa) (w32 f.off) (sr f.sb)))
  | 0x03 => checked (f.bad true true (decide (2 ≤ f.size)) true true true (f.amo == 0) true (decide (f.hint ≤ 4)) true)
      (enumField 47 (Hint.ofCode f.hint) fun h => enumField 32 (MSize.ofCode f.size) fun sz =>
        .ok (.cas sz (b1 f.sx) (f.attr h) (sr f.sd) (sr f.sa) (w32 f.off) (sr f.sb)))
  | 0x04 => f.fe true true (.ldfe (b1 f.sx) (sr f.sd) (sr f.sa) (w32 f.off))
  | 0x05 => f.fe true true (.ldff (b1 f.sx) (sr f.sd) (sr f.sa) (w32 f.off))
  | 0x06 => f.fe true (f.sx == 0) (.stef (sr f.sa) (w32 f.off) (sr f.sd))
  | 0x07 => f.fe true (f.sx == 0) (.stff (sr f.sa) (w32 f.off) (sr f.sd))
  | 0x08 => f.fe (f.sd == 0) (f.sx == 0) (.feclr (sr f.sa) (w32 f.off))
  | 0x09 => checked (f.bad true (f.sd == 0) (f.size == 0) (f.sx == 0) (f.oc == 0) (f.scope == 0) (f.amo == 0)
        (f.strong == 0) (f.hint == 0) (decide (f.off < 0x800)))
      (.ok (.cpgo (Fin.ofNat 8 (f.off / 256)) (Fin.ofNat 256 (f.off % 256)) (sr f.sa) (sr f.sb)))
  | 0x0A => checked (f.bad (f.sb == 0) true (f.size == 0) (f.sx == 0) (f.oc == 0) (f.scope == 0) (f.amo == 0)
        (f.strong == 0) (f.hint == 0) true)
      (.ok (.splook (sr f.sd) (sr f.sa) (w32 f.off)))
  | 0x0B => checked (f.bad (f.sb == 0) true (f.size == 0) (f.sx == 0) true (f.scope == 0) (f.amo == 0)
        (f.strong == 0) (decide (f.hint ≤ 4)) true)
      (enumField 47 (Hint.ofCode f.hint) fun h =>
        .ok (.spfill h (Fin.ofNat 16 f.oc) (sr f.sa) (w32 f.off) (sr f.sd)))
  | 0x0C => f.page .spevictWb .spevictDrop
  | 0x0D => f.page .sppin .sppinUn
  | 0x0E => checked (f.bad true true (f.size == 0) (f.sx == 0) true (f.scope == 0) (f.amo == 0) (f.strong == 0)
        (decide (f.hint ≤ 4)) true)
      (enumField 47 (Hint.ofCode f.hint) fun h =>
        .ok (.wenq (Fin.ofNat 16 f.oc) h (sr f.sa) (w32 f.off) (sr f.sd) (sr f.sb)))
  | 0x0F => checked (f.bad (f.sb == 0) (f.sd == 0) (f.size == 0) (f.sx == 0) true (f.scope == 0) (f.amo == 0)
        (f.strong == 0) (decide (f.hint ≤ 4)) true)
      (enumField 47 (Hint.ofCode f.hint) fun h =>
        .ok (.pref h (Fin.ofNat 16 f.oc) (sr f.sa) (w32 f.off)))
  | _ => .error .illegalOp

/-! ## Classes VL and VS (R292, R405, R409) -/

/-- The field checks of a VL or VS word. -/
def VmF.bad (_f : VmF) (z vx sb esz pop push dir tile : Bool) : Option Nat :=
  firstBad [(0, z), (32, vx), (43, sb), (49, esz), (51, pop), (54, push), (57, dir), (59, tile)]

/-- Predicate, Z and tokens of a VL or VS word; a reserved or unusable channel is ILLEGAL_FIELD (R59). -/
def VmF.ctl (f : VmF) (k : VCtl → Except DecErr Instr) : Except DecErr Instr :=
  enumField 51 (Chan.ofCode f.pop) fun pop => enumField 54 (Chan.ofCode f.push) fun push =>
    k { qp := pr f.qp, z := b1 f.z, pop := pop, push := push }

def popVL (n : Nat) : Bool := n == 0 || n == 3 || n == 4
def pushVL (n : Nat) : Bool := n == 0 || n == 1
def popVS (n : Nat) : Bool := n == 0 || n == 2
def pushVS (n : Nat) : Bool := n == 0 || n == 3

/-- A scratchpad VL word (R405). -/
def VmF.load (f : VmF) (vx sb : Bool) (k : ESize → VCtl → VReg → Except DecErr Instr) : Except DecErr Instr :=
  checked (f.bad true vx sb (decide (f.esz ≤ 2)) (popVL f.pop) (pushVL f.push) (f.dir == 0) (f.tile == 0))
    (enumField 49 (ESize.ofCode f.esz) fun e => f.ctl fun c => vregField f.vd fun vd => k e c vd)

/-- A scratchpad VS word (R409). -/
def VmF.store (f : VmF) (vx sb : Bool) (k : ESize → VCtl → VReg → Except DecErr Instr) : Except DecErr Instr :=
  checked (f.bad (f.z == 0) vx sb (decide (f.esz ≤ 2)) (popVS f.pop) (pushVS f.push) (f.dir == 0) (f.tile == 0))
    (enumField 49 (ESize.ofCode f.esz) fun e => f.ctl fun c => vregField f.vd fun vd => k e c vd)

def decodeVL (f : VmF) : Except DecErr Instr :=
  match f.op with
  | 0x00 => f.load (f.vx == 0) (f.sb == 0) fun e c vd => .ok (.vld e c vd (sr f.sa) (w32 f.off))
  | 0x01 => f.load (f.vx == 0) true fun e c vd => .ok (.vlds e c vd (sr f.sa) (w32 f.off) (sr f.sb))
  | 0x02 => f.load true (f.sb == 0) fun e c vd =>
      vspecField f.vx fun vx => .ok (.vldx e c vd (sr f.sa) (w32 f.off) vx)
  | 0x03 => f.load (f.vx == 0) (f.sb == 0) fun e c vd => .ok (.vldb e c vd (sr f.sa) (w32 f.off))
  | 0x04 => checked (f.bad true (f.vx == 0) true (f.esz == 0) (popVL f.pop) (pushVL f.push) (decide (f.dir ≤ 1)) (decide (f.tile < 4)))
      (f.ctl fun c => vregField f.vd fun vd =>
        .ok (.vldt (b1 f.dir) (Fin.ofNat 4 f.tile) c vd (sr f.sa) (w32 f.off) (sr f.sb)))
  | 0x05 => checked (f.bad true (f.vx == 0) (f.sb == 0) (f.esz == 2) (popVL f.pop) (pushVL f.push) (decide (2 ≤ f.dir)) true)
      (f.ctl fun c => vregField f.vd fun vd =>
        .ok (.vaccr (f.dir == 3) (Fin.ofNat 32 f.tile) c vd (sr f.sa) (w32 f.off)))
  | _ => .error .illegalOp

def decodeVS (f : VmF) : Except DecErr Instr :=
  match f.op with
  | 0x00 => f.store (f.vx == 0) (f.sb == 0) fun e c vs => .ok (.vst e c vs (sr f.sa) (w32 f.off))
  | 0x01 => f.store (f.vx == 0) true fun e c vs => .ok (.vsts e c vs (sr f.sa) (w32 f.off) (sr f.sb))
  | 0x02 => f.store true (f.sb == 0) fun e c vs =>
      vspecField f.vx fun vx => .ok (.vstx e c vs (sr f.sa) (w32 f.off) vx)
  | 0x03 => checked (f.bad (f.z == 0) (f.vx == 0) (f.sb == 0) (f.esz == 2) (popVS f.pop) (pushVS f.push) (decide (2 ≤ f.dir)) true)
      (f.ctl fun c => vregField f.vd fun vs =>
        .ok (.vaccw (f.dir == 3) (Fin.ofNat 32 f.tile) c vs (sr f.sa) (w32 f.off)))
  | 0x04 => f.store (f.vx == 0) (f.sb == 0) fun e c vs => .ok (.vstc e c vs (sr f.sa) (w32 f.off))
  | _ => .error .illegalOp

/-! ## Class VA (R293) -/

/-- The field checks of a VA word; r0 and the token channels are checked for every word. vdHi: the reserved bits above a destination that is
narrower than vd; fmts: the fields into which VCVT divides imm11 (R293). -/
def VaF.bad (f : VaF) (lt z qp vd va vb vc rnd cond ct pd2 imm : Bool) (vdHi : Nat × Bool := (11, true)) (fmts : List (Nat × Bool) := []) : Option Nat :=
  firstBad ([(0, f.r0 == 0), (2, lt), (6, z), (7, qp), (11, vd), vdHi, (32, va), (43, vb), (54, vc), (65, rnd),
    (68, f.pop == 0 || f.pop == 1 || f.pop == 5 || f.pop == 6), (71, f.push == 0 || f.push == 2 || f.push == 4),
    (74, cond), (78, ct), (81, pd2), (85, imm)] ++ fmts)

def VaF.ctl (f : VaF) (k : VCtl → Except DecErr Instr) : Except DecErr Instr :=
  enumField 68 (Chan.ofCode f.pop) fun pop => enumField 71 (Chan.ofCode f.push) fun push =>
    k { qp := pr f.qp, z := b1 f.z, pop := pop, push := push }

/-- The rounding field where the lane-wise table allows 0 to 4 for F32 and 0 for integers (R403). -/
def VaF.rndOk (f : VaF) : Bool := f.rnd == 0 || (f.lt == 0 && decide (f.rnd ≤ 4))

/-- A lane-wise word over va and vb; lt says which lane types the word allows. -/
def VaF.lane2 (f : VaF) (lt : Bool) (k : Lane → VCtl → VReg → VSpec → VSpec → Instr) : Except DecErr Instr :=
  checked (f.bad (decide (f.lt ≤ 2) && lt) true true true true true (f.vc == 0) (f.rnd == 0) (f.cond == 0) (f.ct == 0) (f.pd2 == 0) (f.imm == 0))
    (enumField 2 (Lane.ofCode f.lt) fun ty => f.ctl fun c => vregField f.vd fun vd =>
      vspecField f.va fun va => vspecField f.vb fun vb => .ok (k ty c vd va vb))

/-- A lane-wise word over va and vb with a rounding field. -/
def VaF.lane2R (f : VaF) (k : Lane → RMode → VCtl → VReg → VSpec → VSpec → Instr) : Except DecErr Instr :=
  checked (f.bad (decide (f.lt ≤ 2)) true true true true true (f.vc == 0) f.rndOk (f.cond == 0) (f.ct == 0) (f.pd2 == 0) (f.imm == 0))
    (enumField 2 (Lane.ofCode f.lt) fun ty => enumField 65 (RMode.ofCode f.rnd) fun rm => f.ctl fun c =>
      vregField f.vd fun vd => vspecField f.va fun va => vspecField f.vb fun vb => .ok (k ty rm c vd va vb))

/-- A lane-wise word over va alone. -/
def VaF.lane1 (f : VaF) (lt : Bool) (k : Lane → VCtl → VReg → VSpec → Instr) : Except DecErr Instr :=
  checked (f.bad (decide (f.lt ≤ 2) && lt) true true true true (f.vb == 0) (f.vc == 0) (f.rnd == 0) (f.cond == 0) (f.ct == 0) (f.pd2 == 0) (f.imm == 0))
    (enumField 2 (Lane.ofCode f.lt) fun ty => f.ctl fun c => vregField f.vd fun vd =>
      vspecField f.va fun va => .ok (k ty c vd va))

/-- The predicate destination of VCMP, PLOG and PSET is W[14:11], with W[20:15] at 0. -/
def VaF.pdHi (f : VaF) : Nat × Bool := (15, decide (f.vd < 16))

/-- sd of VGET is W[16:11], with W[20:17] at 0 (R415). -/
def VaF.sdHi (f : VaF) : Nat × Bool := (17, decide (f.vd < 64))

def decodeVA (f : VaF) : Except DecErr Instr :=
  match f.op with
  | 0x00 => f.lane2R .vadd
  | 0x01 => f.lane2R .vsub
  | 0x02 => f.lane2R .vmul
  | 0x03 => checked (f.bad (decide (f.lt ≤ 2)) true true true true true true f.rndOk (f.cond == 0) (f.ct == 0) (f.pd2 == 0) (f.imm == 0))
      (enumField 2 (Lane.ofCode f.lt) fun ty => enumField 65 (RMode.ofCode f.rnd) fun rm => f.ctl fun c =>
        vregField f.vd fun vd => vspecField f.va fun va => vspecField f.vb fun vb => vspecField f.vc fun vc =>
          .ok (.vfma ty rm c vd va vb vc))
  | 0x04 => f.lane2 true .vmin
  | 0x05 => f.lane2 true .vmax
  | 0x06 => f.lane1 (f.lt != 2) .vabs
  | 0x07 => f.lane2 true .vand
  | 0x08 => f.lane2 true .vor
  | 0x09 => f.lane2 true .vxor
  | 0x0A => f.lane2 (f.lt != 0) .vshl
  | 0x0B => f.lane2 (f.lt != 0) .vshr
  | 0x0C => f.lane2 (f.lt != 0) .vsra
  | 0x0D => checked (f.bad (decide (f.lt ≤ 2)) (f.ct == 0 || f.z == 0) true (f.vd % 16 != f.pd2) true true (f.vc == 0) (f.rnd == 0)
        (decide (f.cond ≤ 9) && (f.lt != 0 || decide (f.cond ≤ 5))) true true (f.imm == 0) f.pdHi)
      (enumField 2 (Lane.ofCode f.lt) fun ty => enumField 74 (Cond.ofCode f.cond) fun cond =>
        enumField 78 (CType.ofCode f.ct) fun ct => f.ctl fun c =>
          vspecField f.va fun va => vspecField f.vb fun vb =>
            .ok (.vcmp ty cond ct c (pr f.vd) (pr f.pd2) va vb))
  | 0x0E => checked (f.bad (decide (f.lt ≤ 2)) true true true true true (f.vc == 0) (f.rnd == 0) (f.cond == 0) (f.ct == 0) true (f.imm == 0))
      (enumField 2 (Lane.ofCode f.lt) fun ty => f.ctl fun c => vregField f.vd fun vd =>
        vspecField f.va fun va => vspecField f.vb fun vb => .ok (.vsel ty c vd (pr f.pd2) va vb))
  | 0x0F => f.lane1 true .vmov
  | 0x10 => checked (f.bad (f.lt == 0) true true true true (f.rnd == 5 || f.vb == 0) (f.rnd == 5 || f.vc == 0) (decide (f.rnd ≤ 5))
        (f.cond == 0) (f.ct == 0) (f.pd2 == 0) true (fmts := [(85, decide (f.imm % 16 ≤ 12)), (89, decide (f.imm / 16 % 16 ≤ 12)), (93, decide (f.imm < 256))]))
      (enumField 65 (RMode.ofCode f.rnd) fun rm => enumField 85 (Fmt.ofCode (f.imm % 16)) fun src =>
        enumField 89 (Fmt.ofCode (f.imm / 16)) fun dst => f.ctl fun c => vregField f.vd fun vd =>
          vspecField f.va fun va => vspecField f.vb fun vb => vspecField f.vc fun vc =>
            .ok (.vcvt src dst rm c vd va vb vc))
  | 0x11 => checked (f.bad (decide (f.lt ≤ 2) &&
          (match RedOp.ofCode f.cond, Lane.ofCode f.lt with | some o, some t => redOk o t | _, _ => true))
        (f.z == 0) true true true (f.vb == 0) (f.vc == 0) (f.rnd == 0 || (f.lt == 0 && f.cond == 0 && decide (f.rnd ≤ 4)))
        (decide (f.cond ≤ 7)) (f.ct == 0) (f.pd2 == 0) (f.imm == 0))
      (enumField 2 (Lane.ofCode f.lt) fun ty => enumField 74 (RedOp.ofCode f.cond) fun op =>
        enumField 65 (RMode.ofCode f.rnd) fun rm => f.ctl fun c => vregField f.vd fun vd =>
          vspecField f.va fun va => .ok (.vred ty op rm c vd va))
  | 0x12 => f.lane2 true .vperm
  | 0x13 => checked (f.bad (decide (f.lt ≤ 2)) true true true true true (f.vc == 0) (f.rnd == 0) (decide (f.cond ≤ 1)) (f.ct == 0) (f.pd2 == 0) (decide (f.imm < 64)))
      (enumField 2 (Lane.ofCode f.lt) fun ty => f.ctl fun c => vregField f.vd fun vd =>
        vspecField f.va fun va => vspecField f.vb fun vb =>
          .ok (.vslide (b1 f.cond) ty c vd va vb (Fin.ofNat 64 f.imm)))
  | 0x14 => checked (f.bad (decide (f.lt ≤ 2) && f.lt != 0) true true true true (f.vb == 0) (f.vc == 0) (f.rnd == 0) (f.cond == 0) (f.ct == 0) (f.pd2 == 0) true)
      (enumField 2 (Lane.ofCode f.lt) fun ty => f.ctl fun c => vregField f.vd fun vd =>
        vspecField f.va fun va => .ok (.viota ty c vd va (BitVec.ofNat 11 f.imm)))
  | 0x15 => f.lane2 (f.lt == 0) (fun _ => .vdiv)
  | 0x16 => f.lane1 (f.lt == 0) (fun _ => .vsqrt)
  | 0x17 => f.lane1 (f.lt == 0) (fun _ => .vexp2)
  | 0x18 => f.lane1 (f.lt == 0) (fun _ => .vlog2)
  | 0x19 =>
    if f.cond = 0 then
      checked (f.bad (decide (f.lt ≤ 2)) (f.z == 0) (f.qp == 0) true true (f.vb == 0) (f.vc == 0) (f.rnd == 0) true (f.ct == 0) (f.pd2 == 0) (decide (f.imm < 64)) f.sdHi)
        (enumField 2 (Lane.ofCode f.lt) fun ty => f.ctl fun c => vspecField f.va fun va =>
          .ok (.vget (.lane va (Fin.ofNat 64 f.imm) ty) c (sr f.vd)))
    else
      checked (f.bad (f.lt == 0) (f.z == 0) true true (f.va == 0) (f.vb == 0) (f.vc == 0) (f.rnd == 0) (decide (f.cond ≤ 2)) (f.ct == 0) (f.pd2 == 0) (f.imm == 0) f.sdHi)
        (f.ctl fun c => .ok (.vget (if f.cond = 1 then .first else .count) c (sr f.vd)))
  | 0x1A => checked (f.bad (f.lt == 0) true true true (f.va == 0) (f.vb == 0) (f.vc == 0) (f.rnd == 0) (decide (f.cond ≤ 7)) (f.ct == 0) (f.pd2 == 0) (decide (f.imm < 256)) f.pdHi)
      (enumField 74 (PlogOp.ofCode f.cond) fun op => f.ctl fun c =>
        .ok (.plog op c (pr f.vd) (pr (f.imm % 16)) (pr (f.imm / 16))))
  | 0x1B => checked (f.bad (f.lt == 0) true true true true (f.vb == 0) (f.vc == 0) (f.rnd == 0) (decide (f.cond ≤ 2)) (f.ct == 0) (f.pd2 == 0)
        (if f.cond = 2 then decide (f.imm ≤ 64) else f.imm == 0) f.pdHi)
      (f.ctl fun c =>
        if f.cond = 2 then
          (if f.va = 0 then .ok (.pset (.firstImm (Fin.ofNat 128 f.imm)) c (pr f.vd)) else .error (.illegalOperand f.va))
        else if 1024 ≤ f.va ∧ f.va < 1088 then
          (if f.cond = 0 then .ok (.pset (.bits (sr (f.va % 64))) c (pr f.vd))
           else .ok (.pset (.firstReg (sr (f.va % 64))) c (pr f.vd)))
        else .error (.illegalOperand f.va))
  | 0x1C => checked (f.bad (decide (f.lt ≤ 2)) true true true true true true (f.rnd == 0) (f.cond == 0) (f.ct == 0) (f.pd2 == 0) (f.imm == 0))
      (enumField 2 (Lane.ofCode f.lt) fun ty => f.ctl fun c => vregField f.vd fun vd =>
        vspecField f.va fun va => vspecField f.vb fun vb => vspecField f.vc fun vc =>
          .ok (.vhash ty c vd va vb vc))
  | _ => .error .illegalOp

/-! ## Class EC (R294) -/

/-- The field checks of an EC word; only ECGO has an engine field. -/
def EcF.bad (_f : EcF) (sd sb sa eng imm : Bool) : Option Nat :=
  firstBad [(0, sd), (6, sb), (12, sa), (18, eng), (32, imm)]

def decodeEC (f : EcF) : Except DecErr Instr :=
  match f.op with
  | 0x00 => checked (f.bad true (f.sb == 0) true (f.eng == 1 || f.eng == 3 || f.eng == 4) (f.imm == 0))
      (enumField 18 (EcbEngine.ofCode f.eng) fun e => .ok (.ecgo e (sr f.sd) (sr f.sa)))
  | 0x01 => checked (f.bad (f.sd == 0) (f.sb == 0) true (f.eng == 0) (decide (f.imm < 15)))
      (.ok (.mxw (sr f.sa) (Fin.ofNat 16 f.imm)))
  | 0x02 => checked (f.bad true (f.sb == 0) (f.sa == 0) (f.eng == 0) (f.imm == 0)) (.ok (.mxgo (sr f.sd)))
  | 0x03 => checked (f.bad (f.sd == 0) (f.sb == 0) true (f.eng == 0) (decide (f.imm < 256)))
      (.ok (.cptpl (Fin.ofNat 256 f.imm) (sr f.sa)))
  | 0x04 => checked (f.bad true (f.sb == 0) (f.sa == 0) (f.eng == 0) (decide (f.imm < 0x10000) && f.imm / 0x1000 % 8 != 0))
      (.ok (.pubv (sr f.sd) (Fin.ofNat 4096 (f.imm % 0x1000)) (Fin.ofNat 8 (f.imm / 0x1000 % 8)) (b1 (f.imm / 0x8000 % 2))))
  | 0x05 => checked (f.bad true (f.sb == 0) (f.sa == 0) (f.eng == 0) (decide (f.imm < 0x1000)))
      (.ok (.refstop (sr f.sd) (Fin.ofNat 4096 f.imm)))
  | 0x06 => checked (f.bad true (f.sb == 0) (f.sa == 0) (f.eng == 0) (decide (f.imm < 0x1000)))
      (.ok (.verget (sr f.sd) (Fin.ofNat 4096 f.imm)))
  | _ => .error .illegalOp

/-! ## Class SY (R290) -/

/-- The field checks of an SY word that has neither a scope nor an sc field. -/
def SyF.bad (f : SyF) (i sb sa sd cond imm : Bool) : Option Nat :=
  firstBad [(0, f.r0 == 0), (2, i), (3, sb), (9, sa), (15, sd), (32, cond), (36, f.var == 0),
    (38, f.r38 == 0 && f.b39 == 0), (40, f.s40 == 0 && f.r42 == 0), (46, f.r46 == 0), (64, imm)]

/-- The field checks of FENCE and DEPDEC, whose [41:39] is a scope from 1 to 7. -/
def SyF.badScope (f : SyF) (i sa imm : Bool) (immLo : Nat) : Option Nat :=
  firstBad [(0, f.r0 == 0), (2, i), (3, f.sb == 0), (9, sa), (15, f.sd == 0), (32, f.cond == 0), (36, f.var == 0),
    (38, f.r38 == 0), (39, f.b39 + 2 * f.s40 != 0), (42, f.r42 == 0), (46, f.r46 == 0), (immLo, imm)]

def SyF.scope (f : SyF) : Fin 8 := Fin.ofNat 8 (f.b39 + 2 * f.s40)

def SyF.immOk (f : SyF) : Bool := f.i == 1 || f.imm == 0

/-- Every field except class and opcode is reserved. -/
def SyF.bare (f : SyF) (k : Instr) : Except DecErr Instr :=
  checked (f.bad (f.i == 0) (f.sb == 0) (f.sa == 0) (f.sd == 0) (f.cond == 0) (f.imm == 0)) (.ok k)

/-- EVSET, EVCLR, EVWAIT (R348). -/
def SyF.event (f : SyF) (k : EvMask → Instr) : Except DecErr Instr :=
  checked (f.bad true (f.sb == 0) (f.i == 0 || f.sa == 0) (f.sd == 0) (f.cond == 0) (if f.i = 1 then decide (f.imm < 64) else f.imm == 0))
    (.ok (k (if f.i = 1 then .bit (Fin.ofNat 64 f.imm) else .reg (sr f.sa))))

def SyF.regImm (f : SyF) : RegImm := if f.i = 1 then .imm (w32 f.imm) else .reg (sr f.sa)

def decodeSY (f : SyF) : Except DecErr Instr :=
  match f.op with
  | 0x00 => checked (f.bad (f.i == 0) (f.sb == 0) (f.sa == 0) (f.sd == 0) (f.cond == 0) true) (.ok (.trap (w32 f.imm)))
  | 0x01 => f.bare .eret
  | 0x02 => checked (f.bad (f.i == 0) (f.sb == 0) (f.sa == 0) true (f.cond == 0) (decide (f.imm < 4096) && sysRegNumbers.contains f.imm))
      (.ok (.mfs (sr f.sd) (Fin.ofNat 4096 f.imm)))
  | 0x03 => checked (f.bad (f.i == 0) (f.sb == 0) true (f.sd == 0) (f.cond == 0)
        (decide (f.imm < 4096) && sysRegNumbers.contains f.imm && !sysRegReadOnly.contains f.imm))
      (.ok (.mts (Fin.ofNat 4096 f.imm) (sr f.sa)))
  | 0x04 => checked (f.badScope (f.i == 0) (f.sa == 0) (decide (f.imm < 0x10000)) 80)
      (.ok (.fence f.scope (BitVec.ofNat 16 f.imm)))
  | 0x05 => checked (f.bad (f.i == 0) (f.sb == 0) (f.sa == 0) (f.sd == 0) (f.cond == 0) true)
      (.ok (.waitc (BitVec.ofNat 8 f.imm) (BitVec.ofNat 8 (f.imm / 0x100)) (BitVec.ofNat 8 (f.imm / 0x10000)) (BitVec.ofNat 8 (f.imm / 0x1000000))))
  | 0x06 => f.event .evset
  | 0x07 => f.event .evclr
  | 0x08 => f.event .evwait
  | 0x09 => checked (f.bad true (f.sb == 0) (f.i == 0 || f.sa == 0) true (f.cond == 0) f.immOk)
      (.ok (.spawn (sr f.sd) f.regImm))
  | 0x0A => checked (f.badScope true (f.i == 0 || f.sa == 0) f.immOk 64) (.ok (.depdec f.scope f.regImm))
  | 0x0B => f.bare .tend
  | 0x0C => checked (f.bad true (f.sb == 0) (f.i == 0 || f.sa == 0) true (decide (f.cond ≤ 4)) f.immOk)
      (.ok (.cancel (sr f.sd) (Fin.ofNat 16 f.cond) f.regImm))
  | 0x0D => checked (f.bad (f.i == 0) (f.sb == 0) (f.sa == 0) (f.sd == 0) (f.cond == 0) true) (.ok (.xsync (w32 f.imm)))
  | 0x0E => checked (firstBad [(0, f.r0 == 0), (2, f.i == 0), (15, f.sd == 0), (32, f.cond == 0), (36, f.var == 0),
        (38, f.r38 == 0 && f.b39 == 0), (46, f.r46 == 0)])
      (.ok (.xmc (sr f.sa) (w32 f.imm) (sr f.sb) (sr (f.s40 + 4 * f.r42))))
  | 0x0F => f.bare .idle
  | 0x10 => f.bare .trig
  | 0x11 => checked (f.bad (f.i == 0) (f.sb == 0) (f.sa == 0) (f.sd == 0) (decide (f.cond ≤ 2)) (f.imm != 0))
      (.ok (if f.cond = 0 then .stepBegin (w32 f.imm) else if f.cond = 1 then .stepCommit (w32 f.imm) else .stepAbort (w32 f.imm)))
  | 0x12 => f.bare .halt
  | 0x13 => checked (f.bad (f.i == 0) (f.sb == 0) (f.sa == 0) true (f.cond == 0) (decide (f.imm < 8)))
      (.ok (.unpin (sr f.sd) (Fin.ofNat 8 f.imm)))
  | _ => .error .illegalOp

/-! ## A word, a header, an instruction of the stream -/

/-- Decode a 96-bit word by its class (R288). -/
def decodeWord (w : Nat) : Except DecErr Instr :=
  match w / 0x20000000 % 8 with
  | 0 => decodeSA (SaF.ofNat w)
  | 1 => decodeSM (SmF.ofNat w)
  | 2 => decodeVL (VmF.ofNat w)
  | 3 => decodeVA (VaF.ofNat w)
  | 4 => decodeVS (VmF.ofNat w)
  | 5 => decodeEC (EcF.ofNat w)
  | 6 => decodeSY (SyF.ofNat w)
  | _ => .error .header

/-- The fields of a section header, whose class is 0b111 (R50). -/
def decodeHeader (w : Nat) : Header :=
  { dVA := BitVec.ofNat 8 w, dVL := BitVec.ofNat 8 (w / 0x100), num := BitVec.ofNat 4 (w / 0x10000),
    len := BitVec.ofNat 9 (w / 0x100000), dVS := BitVec.ofNat 8 (w / 0x100000000),
    dMX := BitVec.ofNat 8 (w / 0x10000000000), dCP := BitVec.ofNat 8 (w / 0x1000000000000),
    dNM := BitVec.ofNat 8 (w / 0x100000000000000) }

/-- Bytes at rising addresses as one number, least significant byte first (R2). -/
def leNat : List Byte → Nat
  | [] => 0
  | b :: bs => b.toNat + 256 * leNat bs

/-- The n bytes of a number at rising addresses (R2). -/
def leBytes : Nat → Nat → List Byte
  | 0, _ => []
  | n + 1, w => BitVec.ofNat 8 w :: leBytes n (w / 256)

/-- Decode the next item of a stream from its bytes: the instruction and the number of bytes it takes. A header
takes 8 bytes and a word 12 (R49). Fewer bytes than that decode as if zeros followed. -/
def decode (bytes : List Byte) : Except DecErr (Instr × Nat) :=
  let w := leNat bytes
  if w / 0x20000000 % 8 = 7 then .ok (.sectionHeader (decodeHeader w), 8)
  else match decodeWord (w % 2 ^ 96) with
    | .ok i => .ok (i, 12)
    | .error e => .error e

/-! ## ECB images (R106, R107) -/

/-- Bits [hi:lo] of a doubleword as a number. -/
def Word.field (x : Word) (lo n : Nat) : Nat := x.toNat / 2 ^ lo % 2 ^ n

/-- The slots of an ECB image, 0 to 15; a slot that is not listed reads 0. -/
def ecbSlot (slots : List Word) (n : Nat) : Word := slots.getD n 0

/-- The fields of slots 0, 1 and 2. -/
def decodeEcbHead (slots : List Word) : EcbHead :=
  let s0 := ecbSlot slots 0
  { tag := BitVec.ofNat 16 (s0.field 32 16), budget := BitVec.ofNat 8 (s0.field 24 8), pushMA := s0.getLsbD 23,
    scope := BitVec.ofNat 3 (s0.field 20 3), oc := BitVec.ofNat 4 (s0.field 16 4),
    role := BitVec.ofNat 2 (s0.field 14 2), strict := s0.getLsbD 13, katCmp := s0.getLsbD 12, tsm := s0.getLsbD 11,
    wait := ecbSlot slots 1, signal := ecbSlot slots 2 }

/-- One loop level. -/
def decodeLevel (x : Word) : LoopLevel :=
  { count := BitVec.ofNat 16 (x.field 0 16), aStride := BitVec.ofNat 12 (x.field 16 12),
    bStride := BitVec.ofNat 8 (x.field 28 8), cStride := BitVec.ofNat 5 (x.field 36 5),
    kLevel := x.getLsbD 41, ragged := x.getLsbD 42 }

/-- The bits of each slot that R107 (MX), R263, R265, R270 (NM) and R329 (CL) give an opcode, slots 0 to 15 in
order, as masks; slot 15 holds the CRC in [31:0] and 0 above it (R106). Of slot 0, strict ragged belongs to MMA alone and push MA and the budget
to every MX command but KAT, whose entry does not give them (R322, R356; DEDUCED, log entry 57). An opcode R299 does not assign has no masks. -/
def ecbMasks (op : Nat) : Option (List Nat) :=
  let mx0 := 0x0000_FFFF_FF80_CFFF
  let kat0 := 0x0000_FFFF_0000_DFFF
  let crc := 0xFFFF_FFFF
  let all := 0xFFFF_FFFF_FFFF_FFFF
  let lvl := 0x0000_07FF_FFFF_FFFF
  let va := 0x0000_FFFF_FFFF_FFFF
  let nm0 := 0x0000_FFFF_007F_07FF
  match op with
  | 0x01 => some [mx0 + 0x2000, all, all, 0x0000_07FF_FFFF_FFFF, 0x1F_FFFF, 0x3F, lvl, lvl, lvl, lvl, lvl, lvl, 0xFFFF_FFFF, 0, 0, crc]
  | 0x02 => some [mx0, all, all, 0, 0, all - 0x20, 0, 0, 0, 0, 0, 0, 0x0000_FFFF_0000_0000, 0xF_FFFF, 0, crc]
  | 0x03 => some [mx0, all, all, 0, 0, 0x1F, 0, 0, 0, 0, 0, 0, 0, 0, 0, crc]
  | 0x04 => some [mx0, all, all, 0x0000_07FF_FFF7_FFFF, 0x3FF, 0, 0xFFFF, 0, 0, 0, 0, 0, 0x3FF, all, 0, crc]
  | 0x05 => some [kat0, all, all, 0x00F0_0007, 0x7800, 0x3C0, 0, 0, 0, 0, 0, 0, 0, 0x7_FFFF, all, crc]
  | 0x21 => some [nm0, all, all, va, va, 0x8000_0000_0000_0000 + va, 0xFF_FFFF_01FF, 0xFFFF_FFFF, 0, 0, 0, 0, 0, 0, 0, crc]
  | 0x22 => some [nm0, all, all, 0x000F_FFFF_FFFF_FFFF, va, va, va, 0x000F_FFFF_FFFF_FFFF, va, 0xFFFF_FFFF_FFFF_FFFF, all, all, all, all, all, crc]
  | 0x23 => some [nm0, all, all, va, 0x1FF, 0, 0, 0, 0, 0, 0, 0, 0, 0, 0, crc]
  | 0x41 | 0x42 | 0x43 =>
    some [nm0, all, all, va, va, 0x1_FFFF_FFFF, 0x1F1F_FFFF_FFFF, 0xFFFF_FFFF, va, 0, 0, 0, 0, 0, 0, crc]
  | _ => none

/-- The engine that R299 pairs with an opcode. -/
def ecbEngineOf (op : Nat) : Option EcbEngine :=
  if 0x01 ≤ op ∧ op ≤ 0x05 then some .mx
  else if 0x21 ≤ op ∧ op ≤ 0x23 then some .nm
  else if 0x41 ≤ op ∧ op ≤ 0x43 then some .cl
  else none

/-- The first slot that holds a bit outside its mask. -/
def badSlot : Nat → List Word → List Nat → Option Nat
  | n, x :: xs, m :: ms => if x.toNat &&& m = x.toNat then badSlot (n + 1) xs ms else some n
  | _, _, _ => none

def low32 (x : Word) : W32 := BitVec.ofNat 32 (x.field 0 32)
def high32 (x : Word) : W32 := BitVec.ofNat 32 (x.field 32 32)
def low48 (x : Word) : BitVec 48 := BitVec.ofNat 48 (x.field 0 48)

/-- The fields of an MMA image (R107). -/
def decodeMma (s : List Word) : MmaCmd :=
  { aAddr := BitVec.ofNat 19 ((ecbSlot s 3).field 0 19), bypass := (ecbSlot s 3).getLsbD 19,
    aFmt := BitVec.ofNat 4 ((ecbSlot s 3).field 20 4), scaleBase := BitVec.ofNat 19 ((ecbSlot s 3).field 24 19),
    dirBase := BitVec.ofNat 10 ((ecbSlot s 4).field 0 10), transp := (ecbSlot s 4).getLsbD 10,
    bFmt := BitVec.ofNat 4 ((ecbSlot s 4).field 11 4), xv := BitVec.ofNat 6 ((ecbSlot s 4).field 15 6),
    tile := Fin.ofNat 32 ((ecbSlot s 5).field 0 5), overwrite := (ecbSlot s 5).getLsbD 5,
    l0 := decodeLevel (ecbSlot s 6), l1 := decodeLevel (ecbSlot s 7), l2 := decodeLevel (ecbSlot s 8),
    l3 := decodeLevel (ecbSlot s 9), l4 := decodeLevel (ecbSlot s 10), l5 := decodeLevel (ecbSlot s 11),
    raggedTable := BitVec.ofNat 19 ((ecbSlot s 12).field 0 19), groups := BitVec.ofNat 13 ((ecbSlot s 12).field 19 13) }

/-- The fields of a DRAIN image (R107). -/
def decodeDrain (s : List Word) : DrainCmd :=
  let s5 := ecbSlot s 5
  { tile := Fin.ofNat 32 (s5.field 0 5), fmt := BitVec.ofNat 4 (s5.field 6 4), rnd := BitVec.ofNat 3 (s5.field 10 3),
    addr := BitVec.ofNat 19 (s5.field 13 19), toBypass := s5.getLsbD 32, row0 := BitVec.ofNat 15 (s5.field 33 15),
    col0 := BitVec.ofNat 15 (s5.field 48 15), frozen := s5.getLsbD 63,
    frozenCols := BitVec.ofNat 16 ((ecbSlot s 12).field 32 16), statusCopy := (ecbSlot s 13).getLsbD 19,
    statusAddr := BitVec.ofNat 19 ((ecbSlot s 13).field 0 19) }

/-- The fields of a TWFILL image (R107). -/
def decodeTwfill (s : List Word) : TwfillCmd :=
  { src := BitVec.ofNat 19 ((ecbSlot s 3).field 0 19), fmt := BitVec.ofNat 4 ((ecbSlot s 3).field 20 4),
    scaleSrc := BitVec.ofNat 19 ((ecbSlot s 3).field 24 19), firstDir := BitVec.ofNat 10 ((ecbSlot s 4).field 0 10),
    blocks := BitVec.ofNat 16 ((ecbSlot s 6).field 0 16), firstSlot := BitVec.ofNat 10 ((ecbSlot s 12).field 0 10),
    zeroMask := ecbSlot s 13 }

/-- The fields of a KAT image (R107). -/
def decodeKat (s : List Word) : KatCmd :=
  { set := BitVec.ofNat 3 ((ecbSlot s 3).field 0 3), fmtA := BitVec.ofNat 4 ((ecbSlot s 3).field 20 4),
    fmtB := BitVec.ofNat 4 ((ecbSlot s 4).field 11 4), fmtD := BitVec.ofNat 4 ((ecbSlot s 5).field 6 4),
    sigAddr := BitVec.ofNat 19 ((ecbSlot s 13).field 0 19), expect := ecbSlot s 14 }

/-- The fields of an NMATT image (R263). -/
def decodeNmatt (s : List Word) : NmattCmd :=
  { query := low48 (ecbSlot s 3), table := low48 (ecbSlot s 4), toGlobal := (ecbSlot s 5).getLsbD 63,
    dest := low48 (ecbSlot s 5), dim := BitVec.ofNat 9 ((ecbSlot s 6).field 0 9),
    tokens := BitVec.ofNat 24 ((ecbSlot s 6).field 16 24), sigma := low32 (ecbSlot s 7) }

/-- The fields of an NMOPT image (R265). -/
def decodeNmopt (s : List Word) : NmoptCmd :=
  { alg := BitVec.ofNat 4 ((ecbSlot s 3).field 48 4), w := low48 (ecbSlot s 3), m1 := low48 (ecbSlot s 4),
    m2 := low48 (ecbSlot s 5), g := low48 (ecbSlot s 6), fmt := BitVec.ofNat 4 ((ecbSlot s 7).field 48 4),
    narrow := low48 (ecbSlot s 7), cols := BitVec.ofNat 16 ((ecbSlot s 8).field 32 16), n := low32 (ecbSlot s 8),
    target := BitVec.ofNat 16 ((ecbSlot s 9).field 48 16), arrive := low48 (ecbSlot s 9),
    lambda := high32 (ecbSlot s 10), eta := low32 (ecbSlot s 10), c1 := high32 (ecbSlot s 11),
    mu := low32 (ecbSlot s 11), c2 := high32 (ecbSlot s 12), beta2 := low32 (ecbSlot s 12),
    b2 := high32 (ecbSlot s 13), b1 := low32 (ecbSlot s 13), gs := high32 (ecbSlot s 14), eps := low32 (ecbSlot s 14) }

/-- The fields of an NMXG image (R270). -/
def decodeNmxg (s : List Word) : NmxgCmd :=
  { list := low48 (ecbSlot s 3), count := BitVec.ofNat 9 ((ecbSlot s 4).field 0 9) }

/-- The fields of a collective image (R329). -/
def decodeColl (s : List Word) : CollCmd :=
  { src := low48 (ecbSlot s 3), dst := low48 (ecbSlot s 4), arr := (ecbSlot s 5).getLsbD 32, e := low32 (ecbSlot s 5),
    bigW := BitVec.ofNat 5 ((ecbSlot s 6).field 40 5), w := BitVec.ofNat 5 ((ecbSlot s 6).field 32 5),
    b := low32 (ecbSlot s 6), rank := BitVec.ofNat 16 ((ecbSlot s 7).field 16 16),
    m := BitVec.ofNat 16 ((ecbSlot s 7).field 0 16), arrive := low48 (ecbSlot s 8) }

/-- Decode an ECB image at the head of the queue of engine e: the command, or the number of the slot whose field
gives ECB_ILLEGAL (R110, R262, R331, R255). -/
def decodeEcb (e : EcbEngine) (s : List Word) : Except Nat Instr :=
  let op := (ecbSlot s 0).field 0 8
  let h := decodeEcbHead s
  match ecbMasks op with
  | none => .error 0
  | some ms =>
    if ecbEngineOf op ≠ some e ∨ (ecbSlot s 0).field 8 3 ≠ e.code then .error 0
    else match badSlot 0 (s.take 16) ms with
      | some n => .error n
      | none =>
        match op with
        | 0x01 => .ok (.mma h (decodeMma s))
        | 0x02 => .ok (.drain h (decodeDrain s))
        | 0x03 => .ok (.zacc h (Fin.ofNat 32 ((ecbSlot s 5).field 0 5)))
        | 0x04 => .ok (.twfill h (decodeTwfill s))
        | 0x05 => .ok (.kat h (decodeKat s))
        | 0x21 => .ok (.nmatt h (decodeNmatt s))
        | 0x22 => .ok (.nmopt h (decodeNmopt s))
        | 0x23 => .ok (.nmxg h (decodeNmxg s))
        | 0x41 => .ok (.crs h (decodeColl s))
        | 0x42 => .ok (.cag h (decodeColl s))
        | _ => .ok (.car h (decodeColl s))

/-! ## CRC-32C (R108) -/

/-- One bit of the reflected CRC with polynomial 0x1EDC6F41, reversed 0x82F63B78. -/
def crcBit (c : W32) : W32 := if c.getLsbD 0 then (c >>> 1) ^^^ 0x82F63B78#32 else c >>> 1

def crcByte (c : W32) (b : Byte) : W32 :=
  let x := c ^^^ b.setWidth 32
  crcBit (crcBit (crcBit (crcBit (crcBit (crcBit (crcBit (crcBit x)))))))

/-- CRC-32C: initial value and final XOR 0xFFFFFFFF (R108). -/
def crc32c (bs : List Byte) : W32 := ~~~ (bs.foldl crcByte 0xFFFFFFFF#32)

/-- The CRC that slot 15 of an image must hold: over the 120 bytes of slots 0 to 14 (R108). -/
def ecbCrc (slots : List Word) : W32 :=
  crc32c ((List.range 15).flatMap fun n => leBytes 8 (ecbSlot slots n).toNat)

/-! ## The encoder, from the same tables -/

def Src2.i : Src2 → Nat
  | .reg _ => 0 | .imm _ => 1
def Src2.sb : Src2 → Nat
  | .reg r => r.val | .imm _ => 0
def Src2.imm32 : Src2 → Nat
  | .reg _ => 0 | .imm v => v.toNat

def Target.i : Target → Nat
  | .off _ => 1 | .reg _ => 0
def Target.sa : Target → Nat
  | .off _ => 0 | .reg r => r.val
def Target.imm32 : Target → Nat
  | .off v => v.toNat | .reg _ => 0

def EvMask.i : EvMask → Nat
  | .reg _ => 0 | .bit _ => 1
def EvMask.sa : EvMask → Nat
  | .reg r => r.val | .bit _ => 0
def EvMask.imm32 : EvMask → Nat
  | .reg _ => 0 | .bit n => n.val

def RegImm.i : RegImm → Nat
  | .reg _ => 0 | .imm _ => 1
def RegImm.sa : RegImm → Nat
  | .reg r => r.val | .imm _ => 0
def RegImm.imm32 : RegImm → Nat
  | .reg _ => 0 | .imm v => v.toNat

def VSpec.code : VSpec → Nat
  | .v r => r.val | .s r => 1024 + r.val

/-- An SA word of an opcode. -/
def encSA (op i sb sa sd cond var sc imm : Nat) : Nat :=
  SaF.toNat { r0 := 0, i, sb, sa, sd, op, cls := 0, cond, var, r38 := 0, sc, r46 := 0, imm }

def encAlu (op var : Nat) (sd sa : SReg) (src : Src2) : Nat :=
  encSA op src.i src.sb sa.val sd.val 0 var 0 src.imm32

/-- An SM word of an opcode. -/
def encSM (op sb sa sd size sx oc scope amo strong hint off : Nat) : Nat :=
  SmF.toNat { r0 := 0, sb, sa, sd, op, cls := 1, size, sx, oc, scope, amo, strong, hint, r50 := 0, off }

def encMem (op sb sd size sx amo : Nat) (m : MemAttr) (sa : SReg) (off : W32) : Nat :=
  encSM op sb sa.val sd size sx m.oc.val m.scope.val amo m.strong.toNat m.hint.code off.toNat

/-- A VL or VS word of an opcode. -/
def encVM (cls op : Nat) (c : VCtl) (vd : VReg) (sa : SReg) (off : W32) (vx sb esz dir tile : Nat) : Nat :=
  VmF.toNat {
    z := c.z.toNat, qp := c.qp.val, sa := sa.val, vd := vd.val, op := op, cls := cls, vx := vx, sb := sb, esz := esz, pop := c.pop.code,
    push := c.push.code, dir, tile, off := off.toNat }

/-- A VA word of an opcode. -/
def encVA (op lt : Nat) (c : VCtl) (vd va vb vc rnd cond ct pd2 imm : Nat) : Nat :=
  VaF.toNat {
    r0 := 0, lt, z := c.z.toNat, qp := c.qp.val, vd, op, cls := 3, va, vb, vc, rnd, pop := c.pop.code,
    push := c.push.code, cond, ct, pd2, imm }

/-- An EC word of an opcode. -/
def encEC (op sd sa eng imm : Nat) : Nat := EcF.toNat { sd, sb := 0, sa, eng, op, cls := 5, imm }

/-- An SY word of an opcode without a scope or sc field. -/
def encSY (op i sa sd cond imm : Nat) : Nat :=
  SyF.toNat { r0 := 0, i, sb := 0, sa, sd, op, cls := 6, cond, var := 0, r38 := 0, b39 := 0, s40 := 0, r42 := 0, r46 := 0, imm }

/-- FENCE or DEPDEC. -/
def encScope (op i sa scope imm : Nat) : Nat :=
  SyF.toNat {
    r0 := 0, i, sb := 0, sa, sd := 0, op, cls := 6, cond := 0, var := 0, r38 := 0, b39 := scope % 2,
    s40 := scope / 2, r42 := 0, r46 := 0, imm }

/-- The 96 bits of a word of the stream; none for a header, a command or an event. -/
def encodeWord : Instr → Option Nat
  | .nop => some (encSA 0x00 0 0 0 0 0 0 0 0)
  | .add sd sa s => some (encAlu 0x01 0 sd sa s)
  | .sub sd sa s => some (encAlu 0x02 0 sd sa s)
  | .mul sd sa s => some (encAlu 0x03 0 sd sa s)
  | .mulh v sd sa s => some (encAlu 0x04 v.code sd sa s)
  | .div v sd sa s => some (encAlu 0x05 v.code sd sa s)
  | .rem v sd sa s => some (encAlu 0x06 v.code sd sa s)
  | .and sd sa s => some (encAlu 0x07 0 sd sa s)
  | .or sd sa s => some (encAlu 0x08 0 sd sa s)
  | .xor sd sa s => some (encAlu 0x09 0 sd sa s)
  | .andn sd sa s => some (encAlu 0x0A 0 sd sa s)
  | .shl sd sa s => some (encAlu 0x0B 0 sd sa s)
  | .shr sd sa s => some (encAlu 0x0C 0 sd sa s)
  | .sra sd sa s => some (encAlu 0x0D 0 sd sa s)
  | .clz sd sa => some (encSA 0x0E 0 0 sa.val sd.val 0 0 0 0)
  | .popc sd sa => some (encSA 0x0F 0 0 sa.val sd.val 0 0 0 0)
  | .min v sd sa s => some (encAlu 0x10 v.code sd sa s)
  | .max v sd sa s => some (encAlu 0x11 v.code sd sa s)
  | .sel sd sa s sc => some (encSA 0x12 s.i s.sb sa.val sd.val 0 0 sc.val s.imm32)
  | .cmp c sd sa s => some (encSA 0x13 s.i s.sb sa.val sd.val c.code 0 0 s.imm32)
  | .ext v sd sa lo w => some (encSA 0x14 1 0 sa.val sd.val 0 v.code 0 (lo.val + 64 * w.val))
  | .ins sd sa sc lo w => some (encSA 0x15 1 0 sa.val sd.val 0 0 sc.val (lo.val + 64 * w.val))
  | .hash sd sa sb sc => some (encSA 0x16 0 sb.val sa.val sd.val 0 0 sc.val 0)
  | .li sd v => some (sd.val * 0x8000 + 0x17 * 0x200000 + v.toNat * 0x100000000)
  | .br c sa b off =>
      some (match b with
        | .reg r => encSA 0x20 0 r.val sa.val 0 c.code 0 0 off.toNat
        | .imm6 v => encSA 0x20 1 v.toNat sa.val 0 c.code 0 0 off.toNat)
  | .jmp t => some (encSA 0x21 t.i 0 t.sa 0 0 0 0 t.imm32)
  | .call t => some (encSA 0x22 t.i 0 t.sa 0 0 0 0 t.imm32)
  | .loop sa off => some (encSA 0x23 0 0 sa.val 0 0 0 0 off.toNat)
  | .ld sz sx m sd sa off => some (encMem 0x00 0 sd.val sz.code sx.toNat 0 m sa off)
  | .st sz m sa off sd => some (encMem 0x01 0 sd.val sz.code 0 0 m sa off)
  | .amo op sz sx m sd sa off sb => some (encMem 0x02 sb.val sd.val sz.code sx.toNat op.code m sa off)
  | .cas sz sx m sd sa off sb => some (encMem 0x03 sb.val sd.val sz.code sx.toNat 0 m sa off)
  | .ldfe sx sd sa off => some (encSM 0x04 0 sa.val sd.val 2 sx.toNat 0 0 0 0 0 off.toNat)
  | .ldff sx sd sa off => some (encSM 0x05 0 sa.val sd.val 2 sx.toNat 0 0 0 0 0 off.toNat)
  | .stef sa off sd => some (encSM 0x06 0 sa.val sd.val 2 0 0 0 0 0 0 off.toNat)
  | .stff sa off sd => some (encSM 0x07 0 sa.val sd.val 2 0 0 0 0 0 0 off.toNat)
  | .feclr sa off => some (encSM 0x08 0 sa.val 0 2 0 0 0 0 0 0 off.toNat)
  | .cpgo ch t sa sb => some (encSM 0x09 sb.val sa.val 0 0 0 0 0 0 0 0 (t.val + 256 * ch.val))
  | .splook sd sa off => some (encSM 0x0A 0 sa.val sd.val 0 0 0 0 0 0 0 off.toNat)
  | .spfill h oc sa off sd => some (encSM 0x0B 0 sa.val sd.val 0 0 oc.val 0 0 0 h.code off.toNat)
  | .spevictWb sa off => some (encSM 0x0C 0 sa.val 0 0 0 0 0 0 0 0 off.toNat)
  | .spevictDrop sa off => some (encSM 0x0C 0 sa.val 0 0 0 0 0 1 0 0 off.toNat)
  | .sppin sa off => some (encSM 0x0D 0 sa.val 0 0 0 0 0 0 0 0 off.toNat)
  | .sppinUn sa off => some (encSM 0x0D 0 sa.val 0 0 0 0 0 1 0 0 off.toNat)
  | .wenq oc h sa off sd sb => some (encSM 0x0E sb.val sa.val sd.val 0 0 oc.val 0 0 0 h.code off.toNat)
  | .pref h oc sa off => some (encSM 0x0F 0 sa.val 0 0 0 oc.val 0 0 0 h.code off.toNat)
  | .vld e c vd sa off => some (encVM 2 0x00 c vd sa off 0 0 e.code 0 0)
  | .vlds e c vd sa off sb => some (encVM 2 0x01 c vd sa off 0 sb.val e.code 0 0)
  | .vldx e c vd sa off vx => some (encVM 2 0x02 c vd sa off vx.code 0 e.code 0 0)
  | .vldb e c vd sa off => some (encVM 2 0x03 c vd sa off 0 0 e.code 0 0)
  | .vldt col q c vd sa off sb => some (encVM 2 0x04 c vd sa off 0 sb.val 0 col.toNat q.val)
  | .vaccr col z c vd sa off => some (encVM 2 0x05 c vd sa off 0 0 2 (2 + col.toNat) z.val)
  | .vadd t r c vd a b => some (encVA 0x00 t.code c vd.val a.code b.code 0 r.code 0 0 0 0)
  | .vsub t r c vd a b => some (encVA 0x01 t.code c vd.val a.code b.code 0 r.code 0 0 0 0)
  | .vmul t r c vd a b => some (encVA 0x02 t.code c vd.val a.code b.code 0 r.code 0 0 0 0)
  | .vfma t r c vd a b d => some (encVA 0x03 t.code c vd.val a.code b.code d.code r.code 0 0 0 0)
  | .vmin t c vd a b => some (encVA 0x04 t.code c vd.val a.code b.code 0 0 0 0 0 0)
  | .vmax t c vd a b => some (encVA 0x05 t.code c vd.val a.code b.code 0 0 0 0 0 0)
  | .vabs t c vd a => some (encVA 0x06 t.code c vd.val a.code 0 0 0 0 0 0 0)
  | .vand t c vd a b => some (encVA 0x07 t.code c vd.val a.code b.code 0 0 0 0 0 0)
  | .vor t c vd a b => some (encVA 0x08 t.code c vd.val a.code b.code 0 0 0 0 0 0)
  | .vxor t c vd a b => some (encVA 0x09 t.code c vd.val a.code b.code 0 0 0 0 0 0)
  | .vshl t c vd a b => some (encVA 0x0A t.code c vd.val a.code b.code 0 0 0 0 0 0)
  | .vshr t c vd a b => some (encVA 0x0B t.code c vd.val a.code b.code 0 0 0 0 0 0)
  | .vsra t c vd a b => some (encVA 0x0C t.code c vd.val a.code b.code 0 0 0 0 0 0)
  | .vcmp t cond ct c p1 p2 a b => some (encVA 0x0D t.code c p1.val a.code b.code 0 0 cond.code ct.code p2.val 0)
  | .vsel t c vd ps a b => some (encVA 0x0E t.code c vd.val a.code b.code 0 0 0 0 ps.val 0)
  | .vmov t c vd a => some (encVA 0x0F t.code c vd.val a.code 0 0 0 0 0 0 0)
  | .vcvt s d r c vd a b e => some (encVA 0x10 0 c vd.val a.code b.code e.code r.code 0 0 0 (s.code + 16 * d.code))
  | .vred t op r c vd a => some (encVA 0x11 t.code c vd.val a.code 0 0 r.code op.code 0 0 0)
  | .vperm t c vd a b => some (encVA 0x12 t.code c vd.val a.code b.code 0 0 0 0 0 0)
  | .vslide dn t c vd a b k => some (encVA 0x13 t.code c vd.val a.code b.code 0 0 dn.toNat 0 0 k.val)
  | .viota t c vd a step => some (encVA 0x14 t.code c vd.val a.code 0 0 0 0 0 0 step.toNat)
  | .vdiv c vd a b => some (encVA 0x15 0 c vd.val a.code b.code 0 0 0 0 0 0)
  | .vsqrt c vd a => some (encVA 0x16 0 c vd.val a.code 0 0 0 0 0 0 0)
  | .vexp2 c vd a => some (encVA 0x17 0 c vd.val a.code 0 0 0 0 0 0 0)
  | .vlog2 c vd a => some (encVA 0x18 0 c vd.val a.code 0 0 0 0 0 0 0)
  | .vget f c sd =>
      some (match f with
        | .lane a l t => encVA 0x19 t.code c sd.val a.code 0 0 0 0 0 0 l.val
        | .first => encVA 0x19 0 c sd.val 0 0 0 0 1 0 0 0
        | .count => encVA 0x19 0 c sd.val 0 0 0 0 2 0 0 0)
  | .plog op c pd pa pb => some (encVA 0x1A 0 c pd.val 0 0 0 0 op.code 0 0 (pa.val + 16 * pb.val))
  | .pset src c pd =>
      some (match src with
        | .bits s => encVA 0x1B 0 c pd.val (1024 + s.val) 0 0 0 0 0 0 0
        | .firstReg s => encVA 0x1B 0 c pd.val (1024 + s.val) 0 0 0 1 0 0 0
        | .firstImm n => encVA 0x1B 0 c pd.val 0 0 0 0 2 0 0 n.val)
  | .vhash t c vd a b d => some (encVA 0x1C t.code c vd.val a.code b.code d.code 0 0 0 0 0)
  | .vst e c vs sa off => some (encVM 4 0x00 c vs sa off 0 0 e.code 0 0)
  | .vsts e c vs sa off sb => some (encVM 4 0x01 c vs sa off 0 sb.val e.code 0 0)
  | .vstx e c vs sa off vx => some (encVM 4 0x02 c vs sa off vx.code 0 e.code 0 0)
  | .vaccw col z c vs sa off => some (encVM 4 0x03 c vs sa off 0 0 2 (2 + col.toNat) z.val)
  | .vstc e c vs sa off => some (encVM 4 0x04 c vs sa off 0 0 e.code 0 0)
  | .ecgo e sd sa => some (encEC 0x00 sd.val sa.val e.code 0)
  | .mxw sa slot => some (encEC 0x01 0 sa.val 0 slot.val)
  | .mxgo sd => some (encEC 0x02 sd.val 0 0 0)
  | .cptpl t sa => some (encEC 0x03 0 sa.val 0 t.val)
  | .pubv sd r n f => some (encEC 0x04 sd.val 0 0 (r.val + 0x1000 * n.val + 0x8000 * f.toNat))
  | .refstop sd r => some (encEC 0x05 sd.val 0 0 r.val)
  | .verget sd r => some (encEC 0x06 sd.val 0 0 r.val)
  | .trap v => some (encSY 0x00 0 0 0 0 v.toNat)
  | .eret => some (encSY 0x01 0 0 0 0 0)
  | .mfs sd r => some (encSY 0x02 0 0 sd.val 0 r.val)
  | .mts r sa => some (encSY 0x03 0 sa.val 0 0 r.val)
  | .fence s m => some (encScope 0x04 0 0 s.val m.toNat)
  | .waitc a b c d => some (encSY 0x05 0 0 0 0 (a.toNat + 0x100 * b.toNat + 0x10000 * c.toNat + 0x1000000 * d.toNat))
  | .evset m => some (encSY 0x06 m.i m.sa 0 0 m.imm32)
  | .evclr m => some (encSY 0x07 m.i m.sa 0 0 m.imm32)
  | .evwait m => some (encSY 0x08 m.i m.sa 0 0 m.imm32)
  | .spawn sd t => some (encSY 0x09 t.i t.sa sd.val 0 t.imm32)
  | .depdec s t => some (encScope 0x0A t.i t.sa s.val t.imm32)
  | .tend => some (encSY 0x0B 0 0 0 0 0)
  | .cancel sd l t => some (encSY 0x0C t.i t.sa sd.val l.val t.imm32)
  | .xsync v => some (encSY 0x0D 0 0 0 0 v.toNat)
  | .xmc sa off sb sc =>
      some (SyF.toNat {
        r0 := 0, i := 0, sb := sb.val, sa := sa.val, sd := 0, op := 0x0E, cls := 6, cond := 0, var := 0,
        r38 := 0, b39 := 0, s40 := sc.val % 4, r42 := sc.val / 4, r46 := 0, imm := off.toNat })
  | .idle => some (encSY 0x0F 0 0 0 0 0)
  | .trig => some (encSY 0x10 0 0 0 0 0)
  | .stepBegin k => some (encSY 0x11 0 0 0 0 k.toNat)
  | .stepCommit k => some (encSY 0x11 0 0 0 1 k.toNat)
  | .stepAbort k => some (encSY 0x11 0 0 0 2 k.toNat)
  | .halt => some (encSY 0x12 0 0 0 0 0)
  | .unpin sd n => some (encSY 0x13 0 0 sd.val 0 n.val)
  | _ => none

/-- The 64 bits of a section header (R50). -/
def encodeHeader (h : Header) : Nat :=
  h.dVA.toNat + h.dVL.toNat * 0x100 + h.num.toNat * 0x10000 + h.len.toNat * 0x100000 + 7 * 0x20000000 +
    h.dVS.toNat * 0x100000000 + h.dMX.toNat * 0x10000000000 + h.dCP.toNat * 0x1000000000000 +
    h.dNM.toNat * 0x100000000000000

/-- Slot 0 of an image with an opcode and its engine (R106). -/
def encodeSlot0 (h : EcbHead) (op eng : Nat) : Word :=
  BitVec.ofNat 64 (op + eng * 0x100 + h.tsm.toNat * 0x800 + h.katCmp.toNat * 0x1000 + h.strict.toNat * 0x2000 +
    h.role.toNat * 0x4000 + h.oc.toNat * 0x10000 + h.scope.toNat * 0x100000 + h.pushMA.toNat * 0x800000 +
    h.budget.toNat * 0x1000000 + h.tag.toNat * 0x100000000)

def encodeLevel (l : LoopLevel) : Word :=
  BitVec.ofNat 64 (l.count.toNat + l.aStride.toNat * 0x10000 + l.bStride.toNat * 0x10000000 +
    l.cStride.toNat * 0x1000000000 + l.kLevel.toNat * 0x20000000000 + l.ragged.toNat * 0x40000000000)

/-- Slots 3 to 14 of a command. -/
def encodeEcbSlots : Instr → Option (EcbHead × Nat × List Nat)
  | .mma h m => some (h, 0x01, [m.aAddr.toNat + m.bypass.toNat * 0x80000 + m.aFmt.toNat * 0x100000 + m.scaleBase.toNat * 0x1000000,
      m.dirBase.toNat + m.transp.toNat * 0x400 + m.bFmt.toNat * 0x800 + m.xv.toNat * 0x8000,
      m.tile.val + m.overwrite.toNat * 0x20,
      (encodeLevel m.l0).toNat, (encodeLevel m.l1).toNat, (encodeLevel m.l2).toNat, (encodeLevel m.l3).toNat,
      (encodeLevel m.l4).toNat, (encodeLevel m.l5).toNat, m.raggedTable.toNat + m.groups.toNat * 0x80000, 0, 0])
  | .drain h d => some (h, 0x02, [0, 0,
      d.tile.val + d.fmt.toNat * 0x40 + d.rnd.toNat * 0x400 + d.addr.toNat * 0x2000 + d.toBypass.toNat * 0x100000000 +
        d.row0.toNat * 0x200000000 + d.col0.toNat * 0x1000000000000 + d.frozen.toNat * 0x8000000000000000,
      0, 0, 0, 0, 0, 0, d.frozenCols.toNat * 0x100000000, d.statusAddr.toNat + d.statusCopy.toNat * 0x80000, 0])
  | .zacc h z => some (h, 0x03, [0, 0, z.val, 0, 0, 0, 0, 0, 0, 0, 0, 0])
  | .twfill h t => some (h, 0x04, [t.src.toNat + t.fmt.toNat * 0x100000 + t.scaleSrc.toNat * 0x1000000,
      t.firstDir.toNat, 0, t.blocks.toNat, 0, 0, 0, 0, 0, t.firstSlot.toNat, t.zeroMask.toNat, 0])
  | .kat h k => some (h, 0x05, [k.set.toNat + k.fmtA.toNat * 0x100000, k.fmtB.toNat * 0x800, k.fmtD.toNat * 0x40,
      0, 0, 0, 0, 0, 0, 0, k.sigAddr.toNat, k.expect.toNat])
  | .nmatt h a => some (h, 0x21, [a.query.toNat, a.table.toNat, a.dest.toNat + a.toGlobal.toNat * 0x8000000000000000,
      a.dim.toNat + a.tokens.toNat * 0x10000, a.sigma.toNat, 0, 0, 0, 0, 0, 0, 0])
  | .nmopt h o => some (h, 0x22, [o.w.toNat + o.alg.toNat * 0x1000000000000, o.m1.toNat, o.m2.toNat, o.g.toNat,
      o.narrow.toNat + o.fmt.toNat * 0x1000000000000, o.n.toNat + o.cols.toNat * 0x100000000,
      o.arrive.toNat + o.target.toNat * 0x1000000000000, o.eta.toNat + o.lambda.toNat * 0x100000000,
      o.mu.toNat + o.c1.toNat * 0x100000000, o.beta2.toNat + o.c2.toNat * 0x100000000,
      o.b1.toNat + o.b2.toNat * 0x100000000, o.eps.toNat + o.gs.toNat * 0x100000000])
  | .nmxg h x => some (h, 0x23, [x.list.toNat, x.count.toNat, 0, 0, 0, 0, 0, 0, 0, 0, 0, 0])
  | .crs h c => some (h, 0x41, collSlots c)
  | .cag h c => some (h, 0x42, collSlots c)
  | .car h c => some (h, 0x43, collSlots c)
  | _ => none
where
  collSlots (c : CollCmd) : List Nat :=
    [c.src.toNat, c.dst.toNat, c.e.toNat + c.arr.toNat * 0x100000000,
      c.b.toNat + c.w.toNat * 0x100000000 + c.bigW.toNat * 0x10000000000, c.m.toNat + c.rank.toNat * 0x10000,
      c.arrive.toNat, 0, 0, 0, 0, 0, 0]

/-- The sixteen slots of a command's image, the CRC in slot 15 (R106, R108). -/
def encodeEcb (i : Instr) : Option (List Word) :=
  match encodeEcbSlots i with
  | none => none
  | some (h, op, rest) =>
    let eng := (ecbEngineOf op).map EcbEngine.code |>.getD 0
    let body := encodeSlot0 h op eng :: h.wait :: h.signal :: rest.map (BitVec.ofNat 64)
    some (body ++ [(ecbCrc body).setWidth 64])

/-- The bytes of an instruction as they stand in memory: 12 for a word, 8 for a header, 128 for a command's image
(R49, R106); an event has none. -/
def encode : Instr → List Byte
  | .sectionHeader h => leBytes 8 (encodeHeader h)
  | i =>
    match encodeWord i with
    | some w => leBytes 12 w
    | none =>
      match encodeEcb i with
      | some slots => slots.flatMap fun x => leBytes 8 x.toNat
      | none => []

/-! ## The table's numbering of bits -/

/-- The doublewords of a number, least significant first. -/
def leSlots : Nat → Nat → List Word
  | 0, _ => []
  | n + 1, w => BitVec.ofNat 64 w :: leSlots n (w / 2 ^ 64)

/-- The instruction that the decoder reads from the bits w. The rows of spec/opcode_table.json carry no bits, so the
length says which of the part's three shapes w is: at most 96 bits, a word or a section header of the stream by the
class in [31:29]; more, an ECB image whose engine is the one its slot 0 names. -/
def decodeTableWord (nbits w : Nat) : Option Instr :=
  if nbits ≤ 96 then
    match decode (leBytes 12 w) with
    | .ok (i, _) => some i
    | .error _ => none
  else
    let slots := leSlots 16 w
    match ecbEngineOf ((ecbSlot slots 0).field 0 8) with
    | none => none
    | some e =>
      match decodeEcb e slots with
      | .ok i => some i
      | .error _ => none

end Sys2Proof
end

