-- ==== Sys2Proof/Machine/Float.lean ====
section
/-!
DEFINITION. Number formats and exact arithmetic (spec/04): values as exact dyadics, the rounding helpers, Mix32, and the
FP32 operations of the vector unit, the NMUs and the reduce engines.
-/

namespace Sys2Proof

/-! ## Exact values -/

/-- NaN, an infinity, or (-1)^neg * m * 2^e exactly; m = 0 is a zero of that sign. -/
inductive Val where
  | nan
  | inf (neg : Bool)
  | num (neg : Bool) (m : Nat) (e : Int)
  deriving DecidableEq, Repr

/-- Exponent, mantissa bits and bias of the floating-point formats (R75). -/
def fmtBits : Fmt → Nat × Nat × Nat
  | .fp32 => (8, 23, 127) | .bf16 => (8, 7, 127) | .fp16 => (5, 10, 15) | .e4m3 => (4, 3, 7) | .e5m2 => (5, 2, 15)
  | .e2m3 => (2, 3, 1) | .e3m2 => (3, 2, 3) | .e2m1 => (2, 1, 1) | _ => (0, 0, 0)

/-- Element width in bits (R74). -/
def Fmt.width : Fmt → Nat
  | .fp32 | .i32 | .u32 => 32 | .bf16 | .fp16 => 16 | .e4m3 | .e5m2 | .int8 => 8
  | .e2m3 | .e3m2 | .int6 => 6 | .e2m1 | .int4 => 4

/-- MXINT4, MXINT6, MXINT8. -/
def Fmt.isInt : Fmt → Bool
  | .int4 | .int6 | .int8 => true | _ => false

/-- The MX formats, which take a block scale (R78). -/
def Fmt.isMX : Fmt → Bool
  | .e4m3 | .e5m2 | .e2m3 | .e3m2 | .e2m1 | .int4 | .int6 | .int8 => true | _ => false

/-- Matrix operands (R74). -/
def Fmt.isMatrix (f : Fmt) : Bool := f == .bf16 || f.isMX

/-- Drain targets (R74). -/
def Fmt.isDrain (f : Fmt) : Bool := f == .fp32 || f.isMatrix

/-- Formats with an infinity. -/
def Fmt.hasInf : Fmt → Bool
  | .fp32 | .bf16 | .fp16 | .e5m2 => true | _ => false

/-- Formats with a NaN. -/
def Fmt.hasNan (f : Fmt) : Bool := f.hasInf || f == .e4m3

/-- Canonical NaNs (R75); 0 where the format has none. -/
def Fmt.nanCode : Fmt → Nat
  | .fp32 => 0x7FC00000 | .bf16 => 0x7FC0 | .fp16 => 0x7E00 | .e4m3 | .e5m2 => 0x7F | _ => 0

/-- 1 - bias: the exponent of the smallest normal. -/
def Fmt.emin (f : Fmt) : Int := 1 - (fmtBits f).2.2

/-- Two's complement of w bits: sign and magnitude. -/
def signMag (w c : Nat) : Bool × Nat := if c < 2 ^ (w - 1) then (false, c) else (true, 2 ^ w - c)

/-- The exact value of a code with S = 127; E2M1 0b1000 reads +0.0 (R75-R77). -/
def valueOf (f : Fmt) (code : Nat) : Val :=
  match f with
  | .i32 => let (s, m) := signMag 32 code; .num s m 0
  | .u32 => .num false code 0
  | .int4 | .int6 | .int8 =>
    let n := f.width
    if code = 2 ^ (n - 1) then .num false 0 0 else
      let (s, m) := signMag n code; .num s m (2 - n)
  | _ =>
    let (eb, mb, bias) := fmtBits f
    let s := code / 2 ^ (eb + mb) % 2 == 1
    let e := code / 2 ^ mb % 2 ^ eb
    let m := code % 2 ^ mb
    if f.hasInf && e == 2 ^ eb - 1 then (if m = 0 then .inf s else .nan)
    else if f == .e4m3 && code % 128 == 127 then .nan
    else if f == .e2m1 && code == 8 then .num false 0 0
    else if e = 0 then .num s m (1 - (bias : Int) - mb)
    else .num s (2 ^ mb + m) ((e : Int) - bias - mb)

/-- A signalling NaN (R93). -/
def isSignalling (f : Fmt) (code : Nat) : Bool :=
  (match f with
   | .fp32 => code / 2 ^ 22 % 2 == 0 | .bf16 => code / 2 ^ 6 % 2 == 0 | .fp16 => code / 2 ^ 9 % 2 == 0
   | .e5m2 => code / 2 % 2 == 0 | _ => false) && valueOf f code == .nan

/-- XvValue (R87). -/
def xvValue (xv : Nat) : Val :=
  let e := xv / 2 % 16
  if e = 0 then .num false 0 0 else .num (xv / 32 % 2 == 1) (2 + xv % 2) ((e : Int) - 8)

/-- Decode (R81). -/
def decodeElem (f : Fmt) (code scale xv : Nat) : Val :=
  if f.isMX && scale == 255 then .nan
  else
    let v := if f == .e2m1 && code == 8 then xvValue xv else valueOf f code
    match v with
    | .num s m e => if f.isMX then .num s m (e + scale - 127) else v
    | _ => v

/-- Whether a code is a reserved integer code (R77). -/
def isReserved (f : Fmt) (code : Nat) : Bool := f.isInt && code == 2 ^ (f.width - 1)

/-! ## Rounding (R84, R85) -/

/-- floor (log2 of m * 2^e), m not 0. -/
def floorLog (m : Nat) (e : Int) : Int := (Nat.log2 m : Int) + e

/-- The quantum exponent of m * 2^e in f (R84). -/
def quantum (f : Fmt) (m : Nat) (e : Int) : Int :=
  match f with
  | .i32 | .u32 => 0
  | .int4 | .int6 | .int8 => 2 - (f.width : Int)
  | _ => max (floorLog m e) f.emin - (fmtBits f).2.1

/-- m * 2^e as k * 2^q + rem: k, and the remainder rem over 2^sh (sh bits). -/
def splitAt (m : Nat) (e q : Int) : Nat × Nat × Nat :=
  if q ≤ e then (m * 2 ^ (e - q).toNat, 0, 0)
  else let sh := (q - e).toNat; (m / 2 ^ sh, m % 2 ^ sh, sh)

/-- Whether the magnitude goes up (R84, modes 0 to 4). -/
def roundsUp (rm : RMode) (neg : Bool) (k rem sh : Nat) : Bool :=
  let half := 2 ^ (sh - 1)
  match rm with
  | .rne => decide (rem > half) || (rem == half && k % 2 == 1)
  | .rtz | .sr => false
  | .rdn => neg
  | .rup => !neg
  | .rna => decide (rem ≥ half)

/-- RoundSR's decision (R85): lead is the exponent of the leading bit, low the lowest position of the window. -/
def roundsUpSR (rem sh : Nat) (q lead low : Int) (r : W32) : Bool :=
  let d := min (min q (lead + 1) - low).toNat 24
  d != 0 && decide (rem * 2 ^ d / 2 ^ sh + r.toNat / 2 ^ (32 - d) ≥ 2 ^ d)

/-- Round the magnitude m * 2^e, m not 0, to a multiple of the quantum of f: (k, q) and whether it was inexact.
wide: the source is an integer of more than 24 significant bits (R85). -/
def roundMag (f : Fmt) (rm : RMode) (neg : Bool) (m : Nat) (e : Int) (r : W32) (wide : Bool) :
    Nat × Int × Bool :=
  let q := quantum f m e
  let (k, rem, sh) := splitAt m e q
  if rem = 0 then (k, q, false)
  else
    let lead := floorLog m e
    let up := if rm = .sr then roundsUpSR rem sh q lead (if wide then 0 else lead - 23) r
      else roundsUp rm neg k rem sh
    (if up then k + 1 else k, q, true)

/-- Max (f) as (k, q): the largest finite magnitude (R75, R77). -/
def maxMag : Fmt → Nat × Int
  | .i32 => (2 ^ 31 - 1, 0) | .u32 => (2 ^ 32 - 1, 0)
  | .int4 => (7, -2) | .int6 => (31, -4) | .int8 => (127, -6)
  | .e4m3 => (14, 5)
  | f => let (eb, mb, bias) := fmtBits f
         if f.hasInf then (2 ^ (mb + 1) - 1, (2 ^ eb - 2 : Nat) - (bias : Int) - mb)
         else (2 ^ (mb + 1) - 1, (2 ^ eb - 1 : Nat) - (bias : Int) - mb)

/-- Compare k1 * 2^q1 with k2 * 2^q2. -/
def magLt (k1 : Nat) (q1 : Int) (k2 : Nat) (q2 : Int) : Bool :=
  let q := min q1 q2
  decide (k1 * 2 ^ (q1 - q).toNat < k2 * 2 ^ (q2 - q).toNat)

/-- Encode a magnitude that f holds (R87). -/
def encodeMag (f : Fmt) (neg : Bool) (k : Nat) (q : Int) : Nat :=
  match f with
  | .i32 => if neg && k != 0 then 2 ^ 32 - k % 2 ^ 32 else k
  | .u32 => k
  | .int4 | .int6 | .int8 =>
    let i := (splitAt k q (2 - (f.width : Int))).1
    if neg && i != 0 then 2 ^ f.width - i else i
  | _ =>
    let (eb, mb, bias) := fmtBits f
    let sgn := if neg then 2 ^ (eb + mb) else 0
    if k = 0 then (if f == .e2m1 then 0 else sgn)
    else
      let e := floorLog k q
      if e < f.emin then sgn + (splitAt k q (f.emin - mb)).1
      else sgn + (e + bias).toNat * 2 ^ mb + ((splitAt k q (e - mb)).1 - 2 ^ mb)

/-- The infinity of f. -/
def infCode (f : Fmt) (neg : Bool) : Nat :=
  let (eb, mb, _) := fmtBits f
  (if neg then 2 ^ (eb + mb) else 0) + (2 ^ eb - 1) * 2 ^ mb

/-- Encode (R87) of a value that f holds. -/
def encodeVal (f : Fmt) : Val → Nat
  | .nan => f.nanCode
  | .inf s => infCode f s
  | .num s k q => encodeMag f s k q

/-! ## Mix32 (R86) -/

def mix32 (k0 k1 k2 : W32) : W32 :=
  let h := k0 ^^^ 0x85EBCA6B#32
  let h := (h ^^^ k1) * 0xCC9E2D51#32
  let h := h ^^^ (h >>> 15)
  let h := (h ^^^ k2) * 0x1B873593#32
  let h := h ^^^ (h >>> 13)
  let h := h * 0xC2B2AE35#32
  h ^^^ (h >>> 16)

/-! ## FP32 with flags (R93-R96) -/

/-- FPFLAGS bits (R95). -/
abbrev FFlags := BitVec 5
def fNV : FFlags := 16#5
def fDZ : FFlags := 8#5
def fOF : FFlags := 4#5
def fUF : FFlags := 2#5
def fNX : FFlags := 1#5

def nan32 : W32 := 0x7FC00000#32
def f32 (n : Nat) : W32 := BitVec.ofNat 32 n
def val32 (w : W32) : Val := valueOf .fp32 w.toNat
def snan32 (w : W32) : FFlags := if isSignalling .fp32 w.toNat then fNV else 0

/-- Round an exact value to FP32 by the IEEE rule, with OF, UF and NX (R94, R95). Tiny is read of the delivered value (DESIGN CHOICE, log
entry 44). -/
def toF32 (rm : RMode) : Val → W32 × FFlags
  | .nan => (nan32, 0)
  | .inf s => (f32 (infCode .fp32 s), 0)
  | .num s m e =>
    if m = 0 then (f32 (encodeMag .fp32 s 0 0), 0)
    else
      let (k, q, inexact) := roundMag .fp32 rm s m e 0 false
      if magLt (maxMag .fp32).1 (maxMag .fp32).2 k q then
        let toInf := match rm with
          | .rne | .rna => true | .rdn => s | .rup => !s | .rtz | .sr => false
        (f32 (if toInf then infCode .fp32 s else encodeMag .fp32 s (maxMag .fp32).1 (maxMag .fp32).2), fOF ||| fNX)
      else
        let tiny := magLt k q 1 (-126)
        (f32 (encodeMag .fp32 s k q), (if inexact then fNX else 0) ||| (if inexact && tiny then fUF else 0))

/-- The exact sum of two finite values; the sign of a zero sum follows the mode (R93). -/
def addNum (rm : RMode) (s1 : Bool) (m1 : Nat) (e1 : Int) (s2 : Bool) (m2 : Nat) (e2 : Int) : Val :=
  if m1 = 0 && m2 = 0 then .num (if s1 = s2 then s1 else rm == .rdn) 0 0
  else if m1 = 0 then .num s2 m2 e2
  else if m2 = 0 then .num s1 m1 e1
  else
    let e := min e1 e2
    let a := m1 * 2 ^ (e1 - e).toNat
    let b := m2 * 2 ^ (e2 - e).toNat
    if s1 = s2 then .num s1 (a + b) e
    else if a = b then .num (rm == .rdn) 0 0
    else if a > b then .num s1 (a - b) e else .num s2 (b - a) e

/-- The exact sum, and NV where it is invalid. -/
def addVal (rm : RMode) : Val → Val → Val × FFlags
  | .nan, _ => (.nan, 0)
  | _, .nan => (.nan, 0)
  | .inf a, .inf b => if a = b then (.inf a, 0) else (.nan, fNV)
  | .inf a, _ => (.inf a, 0)
  | _, .inf b => (.inf b, 0)
  | .num s1 m1 e1, .num s2 m2 e2 => (addNum rm s1 m1 e1 s2 m2 e2, 0)

/-- The exact product, and NV where it is invalid. -/
def mulVal : Val → Val → Val × FFlags
  | .nan, _ => (.nan, 0)
  | _, .nan => (.nan, 0)
  | .inf a, .inf b => (.inf (a != b), 0)
  | .inf a, .num b m _ => if m = 0 then (.nan, fNV) else (.inf (a != b), 0)
  | .num a m _, .inf b => if m = 0 then (.nan, fNV) else (.inf (a != b), 0)
  | .num a m1 e1, .num b m2 e2 => (.num (a != b) (m1 * m2) (e1 + e2), 0)

def negVal : Val → Val
  | .nan => .nan
  | .inf s => .inf (!s)
  | .num s m e => .num (!s) m e

def fadd (rm : RMode) (a b : W32) : W32 × FFlags :=
  let (v, f) := addVal rm (val32 a) (val32 b)
  let (r, g) := toF32 rm v
  (r, f ||| g ||| snan32 a ||| snan32 b)

/-- a - b is a + (-b); a NaN stays a NaN. -/
def fsub (rm : RMode) (a b : W32) : W32 × FFlags :=
  let (v, f) := addVal rm (val32 a) (negVal (val32 b))
  let (r, g) := toF32 rm v
  (r, f ||| g ||| snan32 a ||| snan32 b)

def fmul (rm : RMode) (a b : W32) : W32 × FFlags :=
  let (v, f) := mulVal (val32 a) (val32 b)
  let (r, g) := toF32 rm v
  (r, f ||| g ||| snan32 a ||| snan32 b)

/-- VFMA: one rounding; 0 × ∞ sets NV whatever c holds (R93). -/
def ffma (rm : RMode) (a b c : W32) : W32 × FFlags :=
  let (p, f) := mulVal (val32 a) (val32 b)
  let (v, g) := addVal rm p (val32 c)
  let (r, h) := toF32 rm v
  (r, f ||| g ||| h ||| snan32 a ||| snan32 b ||| snan32 c)

/-- VDIV (R96): RNE, with a sticky bit below 64 quotient bits. -/
def fdiv (a b : W32) : W32 × FFlags :=
  let sn := snan32 a ||| snan32 b
  match val32 a, val32 b with
  | .nan, _ => (nan32, sn)
  | _, .nan => (nan32, sn)
  | .inf _, .inf _ => (nan32, fNV)
  | .inf s, .num t _ _ => (f32 (infCode .fp32 (s != t)), 0)
  | .num s _ _, .inf t => (f32 (encodeMag .fp32 (s != t) 0 0), 0)
  | .num s m e, .num t n g =>
    if n = 0 then (if m = 0 then (nan32, fNV) else (f32 (infCode .fp32 (s != t)), fDZ))
    else if m = 0 then (f32 (encodeMag .fp32 (s != t) 0 0), 0)
    else
      let w := m * 2 ^ 64
      toF32 .rne (.num (s != t) (2 * (w / n) + (if w % n = 0 then 0 else 1)) (e - g - 65))

/-- floor (sqrt x) for x below 2^(2 bits + 2), bit by bit from the top. -/
def isqrt (bits x : Nat) : Nat :=
  (List.range (bits + 1)).reverse.foldl (fun r i => let t := r + 2 ^ i; if t * t ≤ x then t else r) 0

/-- VSQRT (R96). -/
def fsqrt (a : W32) : W32 × FFlags :=
  match val32 a with
  | .nan => (nan32, snan32 a)
  | .inf s => if s then (nan32, fNV) else (a, 0)
  | .num s m e =>
    if m = 0 then (a, 0)
    else if s then (nan32, fNV)
    else
      let (m, e) := if e % 2 = 0 then (m, e) else (2 * m, e - 1)
      let x := m * 2 ^ 64
      let r := isqrt 45 x
      toF32 .rne (.num false (2 * r + (if r * r = x then 0 else 1)) (e / 2 - 33))

/-- ln 2 in units of 2^-256. -/
def ln2 : Nat := 80260960185991308862233904206310070533990667611589946606122867505419956976171

/-- exp (y) in units of 2^-256 for 0 ≤ y < 1, by its power series. -/
def expSeries (y : Nat) : Nat :=
  ((List.range 80).foldl (fun (acc : Nat × Nat) k =>
    let t := acc.2 * y / 2 ^ 256 / (k + 1); (acc.1 + t, t)) (2 ^ 256, 2 ^ 256)).1

/-- VEXP2 (R96). A finite result that is not exact is irrational, so a bit below the computed 256 decides nothing but the
direction: DESIGN CHOICE, log entry 8. -/
def fexp2 (a : W32) : W32 × FFlags :=
  match val32 a with
  | .nan => (nan32, snan32 a)
  | .inf s => (if s then 0#32 else f32 (infCode .fp32 false), 0)
  | .num s m e =>
    if m = 0 then (0x3F800000#32, 0)
    else if !s && !(magLt m e 128 0) then (f32 (infCode .fp32 false), fOF ||| fNX)
    else if s && !(magLt m e 150 0) then (0#32, fUF ||| fNX)
    else
      let (k, rem, sh) := splitAt m e 0
      if rem = 0 then toF32 .rne (.num false 1 (if s then -(k : Int) else k))
      else
        -- x = n + f with 0 < f < 1, f = fr / 2^sh
        let n : Int := if s then -(k : Int) - 1 else k
        let fr := if s then 2 ^ sh - rem else rem
        let y := if s && decide (sh > 250) then ln2 - 1 else fr * ln2 / 2 ^ sh
        toF32 .rne (.num false (2 * expSeries y + 1) (n - 257))

/-- ln (m / 2^b) in units of 2^-256 for 2^b ≤ m < 2^(b+1), as twice the atanh series. -/
def lnSeries (m b : Nat) : Nat :=
  let z := (m - 2 ^ b) * 2 ^ 256 / (m + 2 ^ b)
  let z2 := z * z / 2 ^ 256
  2 * ((List.range 90).foldl (fun (acc : Nat × Nat) k =>
    (acc.1 + acc.2 / (2 * k + 1), acc.2 * z2 / 2 ^ 256)) (0, z)).1

/-- VLOG2 (R96); as for VEXP2. -/
def flog2 (a : W32) : W32 × FFlags :=
  match val32 a with
  | .nan => (nan32, snan32 a)
  | .inf s => if s then (nan32, fNV) else (a, 0)
  | .num s m e =>
    if m = 0 then (f32 (infCode .fp32 true), fDZ)
    else if s then (nan32, fNV)
    else
      let b := Nat.log2 m
      let n : Int := e + b
      if m = 2 ^ b then toF32 .rne (.num (n < 0) n.natAbs 0)
      else
        let fr : Nat := lnSeries m b * 2 ^ 256 / ln2
        let x : Int := n * 2 ^ 257 + (2 * fr + 1 : Nat)
        toF32 .rne (.num (x < 0) x.natAbs (-257))

/-- Compare two values that are not NaN: lt, eq. -/
def valCmp : Val → Val → Bool × Bool
  | .inf a, .inf b => (a && !b, a == b)
  | .inf a, _ => (a, false)
  | _, .inf b => (!b, false)
  | .num s1 m1 e1, .num s2 m2 e2 =>
    let z1 := m1 == 0
    let z2 := m2 == 0
    let eq := (z1 && z2) || (s1 == s2 && !magLt m1 e1 m2 e2 && !magLt m2 e2 m1 e1)
    let lt := !eq &&
      (if z1 then !s2 else if z2 then s1
       else if s1 != s2 then s1 else if s1 then magLt m2 e2 m1 e1 else magLt m1 e1 m2 e2)
    (lt, eq)
  | _, _ => (false, false)

/-- minimumNumber and maximumNumber (R93): -0 orders below +0. -/
def fminmax (isMax : Bool) (a b : W32) : W32 × FFlags :=
  let f := snan32 a ||| snan32 b
  match val32 a, val32 b with
  | .nan, .nan => (nan32, f)
  | .nan, _ => (b, f)
  | _, .nan => (a, f)
  | x, y =>
    let (lt, eq) := valCmp x y
    let aLow := if eq then a.getLsbD 31 else lt
    (if aLow != isMax then a else b, f)

/-- VCMP.F32 (R412): the result and NV. -/
def fcompare (c : Cond) (a b : W32) : Bool × FFlags :=
  let x := val32 a
  let y := val32 b
  let isN := x == .nan || y == .nan
  let sn := snan32 a ||| snan32 b
  let (lt, eq) := valCmp x y
  match c with
  | .eq => (!isN && eq, sn)
  | .ne => (isN || !eq, sn)
  | .lt => (!isN && lt, if isN then fNV else 0)
  | .le => (!isN && (lt || eq), if isN then fNV else 0)
  | .gt => (!isN && !(lt || eq), if isN then fNV else 0)
  | _ => (!isN && !lt, if isN then fNV else 0)

/-- VCVT of one lane (R97, R413). A source infinity that saturates sets no NX (DESIGN CHOICE, log entry 58). -/
def convert (src dst : Fmt) (rm : RMode) (r : W32) (lane : W32) : W32 × FFlags :=
  let code := lane.toNat % 2 ^ src.width
  match valueOf src code with
  | .nan =>
    if dst.hasNan then (f32 dst.nanCode, if isSignalling src code then fNV else 0) else (0, fNV)
  | .inf s =>
    if dst.hasInf then (f32 (infCode dst s), 0)
    else if dst == .i32 then (if s then 0x80000000#32 else 0x7FFFFFFF#32, fNV ||| fOF)
    else if dst == .u32 then (if s then 0 else 0xFFFFFFFF#32, fNV ||| fOF)
    else (f32 (encodeMag dst s (maxMag dst).1 (maxMag dst).2), fOF)
  | .num s m e =>
    if m = 0 then (f32 (encodeMag dst s 0 0), 0)
    else
      -- an integer that FP32 does not hold exactly (R85)
      let odd := m / 2 ^ ((List.range 32).takeWhile (fun i => m % 2 ^ (i + 1) == 0)).length
      let wide := (src == .i32 || src == .u32) && decide (odd ≥ 2 ^ 24)
      let (k, q, inexact) := roundMag dst rm s m e r wide
      let nx : FFlags := if inexact then fNX else 0
      -- R97: a conversion to an integer that saturates sets NV; R95: OF (a saturating VCVT) and NX
      let sat : FFlags := fNV ||| fOF ||| fNX
      match dst with
      | .i32 =>
        if s then (if k > 2 ^ 31 then (0x80000000#32, sat) else (f32 (encodeMag .i32 true k 0), nx))
        else (if k ≥ 2 ^ 31 then (0x7FFFFFFF#32, sat) else (f32 k, nx))
      | .u32 =>
        if s && k != 0 then (0, sat) else if k ≥ 2 ^ 32 then (0xFFFFFFFF#32, sat) else (f32 k, nx)
      | _ =>
        if magLt (maxMag dst).1 (maxMag dst).2 k q then
          (f32 (encodeMag dst s (maxMag dst).1 (maxMag dst).2), fOF ||| fNX)
        else
          let tiny := !dst.isInt && magLt k q 1 dst.emin
          (f32 (encodeMag dst s k q), nx ||| (if inexact && tiny then fUF else 0))

/-! ## Drains (R88, R89) -/

/-- emax_elem (R89). -/
def Fmt.emaxElem : Fmt → Int
  | .e4m3 => 8 | .e5m2 => 15 | .e2m3 => 2 | .e3m2 => 4 | .e2m1 => 2 | _ => 0

/-- The block scale of an MX target (R89). -/
def blockScale (f : Fmt) (xs : List W32) : Nat :=
  let amax := xs.foldl (fun (a : Option (Nat × Int)) x => match val32 x with
    | .num _ m e => if m = 0 then a else match a with
      | some (k, q) => if magLt k q m e then some (m, e) else a
      | none => some (m, e)
    | _ => a) none
  match amax with
  | none => 127
  | some (m, e) => (min (floorLog m e - f.emaxElem + 127) 254).toNat

/-- DrainElem (R88): the code, and whether it counts as a NaN and as an overflow. -/
def drainElem (x : W32) (f : Fmt) (rm : RMode) (s : Nat) (r : W32) : Nat × Bool × Bool :=
  match val32 x with
  | .nan => (f.nanCode, true, false)
  | .inf neg => (encodeMag f neg (maxMag f).1 (maxMag f).2, false, true)
  | .num neg m e =>
    if m = 0 then (encodeMag f neg 0 0, false, false)
    else
      let (k, q, _) := roundMag f rm neg m (e + 127 - s) r false
      if magLt (maxMag f).1 (maxMag f).2 k q then
        (encodeMag f neg (maxMag f).1 (maxMag f).2, false, !f.isMX || s == 254)
      else (encodeMag f neg k q, false, false)

/-! ## The chunk sum of the matrix engine (R82, R83) -/

/-- Truncate (R87) a product to a multiple of 2^q. -/
def truncVal (q : Int) : Val → Val
  | .num s m e => if q ≤ e then .num s m e else .num s (m / 2 ^ (q - e).toNat) q
  | v => v

/-- The exact sum of finite products, as sign, magnitude, exponent. -/
def sumNums (ps : List Val) : Val :=
  let lo := ps.foldl (fun (a : Int) p => match p with
    | .num _ m e => if m = 0 then a else min a e | _ => a) 0
  let tot : Int := ps.foldl (fun (a : Int) p => match p with
    | .num s m e => if m = 0 then a else
      let x : Int := m * 2 ^ (e - lo).toNat; if s then a - x else a + x
    | _ => a) 0
  if tot = 0 then .num (ps.all fun p => match p with | .num s m _ => s && m == 0 | _ => false) 0 0
  else .num (tot < 0) tot.natAbs lo

/-- ChunkSum (R82, R83) of the products. bf: one operand is BF16. -/
def chunkSum (bf : Bool) (ps : List Val) : Val :=
  let pos := ps.contains (.inf false)
  let neg := ps.contains (.inf true)
  if ps.contains .nan || (pos && neg) then .nan
  else if pos then .inf false
  else if neg then .inf true
  else if bf then
    let emax := ps.foldl (fun (a : Option Int) p => match p with
      | .num _ m e => if m = 0 then a else some (match a with | some b => max b (floorLog m e) | none => floorLog m e)
      | _ => a) none
    match emax with
    | none => sumNums ps
    | some x => sumNums (ps.map (truncVal (x - 60)))
  else sumNums ps

/-- One accumulation: acc + RoundNE (c, FP32), rounded to nearest (R82). -/
def accumulate (acc : W32) (c : Val) : W32 := (fadd .rne acc (toF32 .rne c).1).1

/-! ## Operations without flags, for the NMUs and the reduce engines (R264, R266, R276) -/

def nadd (a b : W32) : W32 := (fadd .rne a b).1
def nsub (a b : W32) : W32 := (fsub .rne a b).1
def nmul (a b : W32) : W32 := (fmul .rne a b).1
def ndiv (a b : W32) : W32 := (fdiv a b).1
def nsqrt (a : W32) : W32 := (fsqrt a).1
def nexp2 (a : W32) : W32 := (fexp2 a).1
def nmax (a b : W32) : W32 := (fminmax true a b).1
/-- A BF16 value as FP32. -/
def bf16to32 (c : Nat) : W32 := f32 (c % 2 ^ 16 * 2 ^ 16)

end Sys2Proof
end

