-- ==== Sys2Proof/Config.lean ====
section
/-!
DEFINITION. Config: the values that spec/ leaves open, as constants without a body, and the sizes of the part
(spec/01 R14). Nothing can be proved of a value of an opaque constant; a statement holds whatever it is.
-/

namespace Sys2Proof.Config

/-! ## Sizes (spec/01 R12, R14) -/

/-- Cores of the package. -/
def cores : Nat := 1024
/-- The strike window in cycles (spec/01 R14, spec/10 R216). -/
def window : Nat := 2048
/-- Cycles of one microsecond at 1.1 GHz (spec/00 R5). -/
def cyclesPerUs : Nat := 1100
/-- Bytes of HBM4E: 768 GiB (spec/06 R143, spec/13 R273). -/
def hbmSize : Nat := 0xC000000000
/-- Base and limit of control-node memory (spec/13 R273). -/
def nodeBase : Nat := 0x100000000000
def nodeEnd : Nat := 0x200000000000
/-- Base and size of the management region (spec/13 R273). -/
def mgmtBase : Nat := 0xF00000000000
def mgmtSize : Nat := 0x4000000

/-! ## Free values: state that R68 leaves undefined at dispatch

The first argument is the epoch (a counter that every dispatch from the first word advances), the second names the
item. Log entry 3. -/

opaque freeScalar : Nat → Nat → Word
opaque freePred : Nat → Nat → Word
opaque freeLane : Nat → Nat → Nat → W32
opaque freeTileWord : Nat → Nat → Nat → W32
opaque freeTileCount : Nat → Nat → BitVec 15
opaque freeTileClip : Nat → Nat → Bool
opaque freeScratch : Nat → Nat → Byte
opaque freeSlotByte : Nat → Nat → Byte
opaque freeScale : Nat → Nat → Byte
opaque freeDir : Nat → Nat → BitVec 16
opaque freeBank : Nat → Nat → Word
opaque freeBypass : Nat → Nat → Nat
opaque freeBypassScale : Nat → Nat → Byte

/-! ## Free choices and implementation values -/

/-- A byte of a save record whose place R195 gives no layout: cycle, position (DESIGN CHOICE, log entry 15). -/
opaque freeSave : Nat → Nat → Byte
/-- An entry of a spill list in memory: R174 gives its 8 bytes no layout; by cycle and place (DESIGN CHOICE, log entry 37). -/
opaque freeSpill : Nat → Nat → Word
/-- TASK_PTR in an exchange stream, by launch record VA: R72 gives a TCB address, and a stream has no TCB (DESIGN CHOICE, log entry 16). -/
opaque freeTaskPtr : Nat → Word
/-- The decompressor's toggle rate of a core as sampled in a cycle: R121 bounds it and gives no value (DESIGN CHOICE, log entry 34). -/
opaque freeToggle : Nat → Nat → Nat

/-- The value that an ARR reduction forms for an element: R278 allows that of any tree (DESIGN CHOICE, log entry 9). The arguments
are the tag, the element index and the number of the attempt; the answer picks the tree. -/
opaque arrTree : Nat → Nat → Nat → Nat
/-- Neighbour exchanges of a collective of M members beyond the first, by tag: R279 states no number (DESIGN CHOICE, log entry 20). -/
opaque collSteps : Nat → Nat → Nat
/-- The router port that works on a step of a collective, modulo 6, by tag and step: R279 names none (DESIGN CHOICE, log entry 20). -/
opaque stepPort : Nat → Nat → Nat
/-- The step of a collective in which an attempt reads a sector of its source, by tag, attempt and sector: R279 names none (DESIGN CHOICE,
log entry 20). -/
opaque readStep : Nat → Nat → Nat → Nat
/-- The collective whose step a flit carried that never arrived whole, by port and sequence number, among those whose step the port works on,
or none of them: R275 gives a flit no layout (DESIGN CHOICE, log entry 20). -/
opaque brokenFlit : Nat → Nat → Nat
/-- Whether a sector of a source that changed between push and retirement is read as it stood when the command started, by tag,
attempt and sector: R279 allows either (DESIGN CHOICE, log entry 20). -/
opaque oldSector : Nat → Nat → Nat → Bool
/-- What the flits that a port has accepted announce of other members: tag, opcode, rank, mode, E, W, w, b, M, device, then the elements.
R275 gives the payload of a flit no layout (DESIGN CHOICE, log entry 20). -/
opaque announced : List (List Byte) → List (List Nat)
/-- The payloads of the flits that carry this device's part of a step of a collective, by tag, step and source words: R275 gives them no
layout (DESIGN CHOICE, log entry 20). -/
opaque stepFlits : Nat → Nat → List W32 → List (List Byte)
/-- The payload of a loss notice about a device (R281), by its coordinates (DESIGN CHOICE, log entry 20). -/
opaque lossFlit : Nat → List Byte
/-- The first 60 bytes of a flit, from its link sequence number and its payload (R275) (DESIGN CHOICE, log entry 20). -/
opaque flitBytes : Nat → List Byte → List Byte
/-- The link sequence number of a flit: R275 gives it no place in the 60 bytes (DESIGN CHOICE, log entry 20). -/
opaque flitSeq : List Byte → Nat
/-- The sensor, within its zone, that reported a strike of a core, by cycle: R214 gives the report no such field (DESIGN CHOICE, log entry 21). -/
opaque sensor : Nat → Nat → Nat
/-- Constant set k of the KAT area of a booted image: element i of operand A (or B) (spec/05 R118). The image's layout is not given (DESIGN
CHOICE, log entry 4). -/
opaque katConst : Option (List Byte) → Nat → Bool → Nat → Nat
/-- The scales of constant set k of a booted image (spec/05 R118) (DESIGN CHOICE, log entry 4). -/
opaque katScale : Option (List Byte) → Nat → Bool → Nat → Byte
/-- Whether a byte of a racing access is the older value, by cycle and address: R165 allows either (DESIGN CHOICE, log entry 49). -/
opaque mixByte : Nat → Nat → Bool
/-- The channel of an NMXG group that commits next, by cycle: R171 fixes no order (DESIGN CHOICE, log entry 49). -/
opaque nextChannel : Nat → Nat
/-- SHA-384 of a byte string (spec/13 R285). -/
opaque sha384 : List Byte → BitVec 384
/-- Whether an RSASSA-PSS signature verifies: key, digest, signature (spec/13 R285). -/
opaque rsaVerifies : List Byte → BitVec 384 → List Byte → Bool
/-- Whether an SLH-DSA signature verifies (spec/13 R285). -/
opaque slhVerifies : List Byte → BitVec 384 → List Byte → Bool
/-- The hashes of the two root public keys in the ROM (spec/13 R285). -/
opaque romRsaHash : BitVec 384
opaque romSlhHash : BitVec 384
/-- Signatures of the attestation report under the device's two keys (spec/13 R286). -/
opaque attestRsa : List Byte → List Byte
opaque attestSlh : List Byte → List Byte

end Sys2Proof.Config
end

