-- ==== Sys2Proof/Machine/Maps.lean ====
section
/-!
DEFINITION. Sorted association lists: the one shape in which the state holds everything that is sparse. Keys rise
strictly, so equal maps are equal lists.
-/

namespace Sys2Proof.Machine

/-- A finite map with natural keys. -/
abbrev KMap (α : Type) := List (Nat × α)

def kfind {α : Type} : KMap α → Nat → Option α
  | [], _ => none
  | (a, b) :: t, k => if k = a then some b else if k < a then none else kfind t k

def kget {α : Type} (m : KMap α) (k : Nat) (d : α) : α := (kfind m k).getD d

def kset {α : Type} : KMap α → Nat → α → KMap α
  | [], k, v => [(k, v)]
  | (a, b) :: t, k, v =>
    if k < a then (k, v) :: (a, b) :: t else if k = a then (k, v) :: t else (a, b) :: kset t k v

def kdel {α : Type} : KMap α → Nat → KMap α
  | [], _ => []
  | (a, b) :: t, k => if k < a then (a, b) :: t else if k = a then t else (a, b) :: kdel t k

/-- A map in which a key that is not listed holds d, and no key is listed with d. -/
def kput {α : Type} [DecidableEq α] (d : α) (m : KMap α) (k : Nat) (v : α) : KMap α :=
  if v = d then kdel m k else kset m k v

/-- Whether the keys rise strictly. -/
def kwf {α : Type} : KMap α → Bool
  | [] => true
  | [_] => true
  | (a, _) :: (b, y) :: t => decide (a < b) && kwf ((b, y) :: t)

/-- Sets of naturals, sorted. -/
abbrev NSet := List Nat

def nins : NSet → Nat → NSet
  | [], k => [k]
  | a :: t, k => if k < a then k :: a :: t else if k = a then a :: t else a :: nins t k

def ndel (m : NSet) (k : Nat) : NSet := m.filter (· != k)

/-- Replace the first element that satisfies p. -/
def replaceFirst {α : Type} (p : α → Bool) (f : α → α) : List α → List α
  | [] => []
  | x :: t => if p x then f x :: t else x :: replaceFirst p f t

/-- Insert before the first element that is not below (a stable insertion). -/
def insertBy {α : Type} (below : α → α → Bool) (x : α) : List α → List α
  | [] => [x]
  | y :: t => if below x y then x :: y :: t else y :: insertBy below x t

/-- The 64 lanes that a function gives. -/
def laneTab (f : Nat → W32) : Vec := ⟨⟨(List.range 64).map f⟩, by simp⟩

def laneAt (v : Vec) (i : Nat) : W32 := v.toArray.toList.getD i 0

/-- Bit i of a word. -/
def bitAt (w : Word) (i : Nat) : Bool := w.toNat / 2 ^ i % 2 == 1

/-- The word whose bits 0 to 63 a function gives. -/
def bitTab (f : Nat → Bool) : Word :=
  BitVec.ofNat 64 ((List.range 64).foldl (fun a i => a + (f i).toNat * 2 ^ i) 0)

/-- ceil (a / b). -/
def ceilDiv (a b : Nat) : Nat := (a + b - 1) / b

end Sys2Proof.Machine
end

