-- ==== Sys2Proof/Machine/State.lean ====
section
/-!
DEFINITION. State: everything the spec gives the IG-4410, as plain data. A map (KMap) lists only what differs from
its default, which the field's docstring names. Beside the machine's own state it holds the schedule, the model's
data that says which agent moves next and how many cycles pass before it (DESIGN CHOICE, log entry 1).
-/

namespace Sys2Proof.Machine

/-! ## Tasks at a core -/

/-- A vector word that SQ has pushed, with the scalars it read at the push (spec/03 R54). -/
structure VEntry where
  instr : Instr
  addr : Word
  sec : Nat
  num : Nat
  seq : Nat
  scal : KMap Word
  seed : W32
  deriving DecidableEq, Repr

/-- A command in the MX, NM or CL queue: the 16 slots as pushed, the SEED it took (spec/05 R92, spec/16 R365). net: still
in the Safety Net (NM and CL). started: the NMU or the routers hold it. paid: the steps of an MX command that the governor has
charged (spec/05 R121). owing: it has retired and its slot waits for the push that is full (spec/03 R60). -/
structure Ecb where
  slots : List Word
  addr : Word
  sec : Nat
  seq : Nat
  seed : W32
  net : Bool
  started : Bool
  paid : Nat := 0
  owing : Bool := false
  /-- A KAT whose signature has not matched once, for which its window has been replayed (spec/05 R119). -/
  missed : Bool := false
  deriving DecidableEq, Repr

/-- Tile data is row-major, 4,096 words (spec/03 R69); count and clip are those of spec/04 R91. -/
structure Tile where
  data : List W32
  count : BitVec 15
  clip : Bool
  deriving DecidableEq, Repr

/-- The bypass (spec/05 R104): 4,096 element codes row-major and 16 block scales. -/
structure Bypass where
  fmt : Fmt
  codes : List Nat
  scales : List Byte
  deriving DecidableEq, Repr

/-- A page tag (spec/06 R122); a page that is not listed is scratch. dirty: the sector mask. lock: LOCK as a save record holds it; on a
core it follows from the retained windows (spec/06 R129). -/
structure Page where
  range : Nat
  res : Bool
  pin : Bool
  dirty : NSet
  hint : Hint
  lock : Bool := false
  deriving DecidableEq, Repr

/-- The architectural state of a task (spec/03 R68): what a checkpoint saves (spec/08 R195). -/
structure Arch where
  /-- s1 to s63; one that is not listed is undefined (Config.freeScalar of the epoch, 0 in epoch 0). -/
  sregs : KMap Word
  pregs : KMap Word
  vregs : KMap Vec
  tiles : KMap Tile
  /-- Scratchpad bytes; one that is not listed is undefined (spEpoch). -/
  sp : KMap Byte
  /-- Words whose full/empty bit is full (spec/06 R130). -/
  full : NSet
  /-- Words that the last confirmation barrier delivered (spec/10 R225). -/
  delivered : NSet
  slots : KMap Byte
  scales : KMap Byte
  dirs : KMap (BitVec 16)
  bypass : Option Bypass
  /-- No MMA that reads the bypass has retired since a DRAIN wrote it, or one is still queued (spec/05 R105). -/
  bypassLive : Bool
  tpls : KMap (List Word)
  pages : KMap Page
  bank : KMap Word
  events : Word
  /-- Tokens of each channel by code (spec/03 R59), 0 when not listed. -/
  tokens : KMap Nat
  /-- The channel onto which engine 1 (VL), 2 (VA) or 3 (VS) must push before it takes its next entry (spec/03 R60). -/
  owed : KMap Nat
  sv : Bool
  nest : Bool
  sliceflr : Bool
  fpflags : BitVec 5
  trapvec : Word
  trappc : Word
  trapcause : Word
  trapinfo : Word
  trapsave : Word
  seed : W32
  slip : Nat
  lattol : Word
  retired : Nat
  /-- The stream's next word or header. -/
  pc : Word
  /-- The handler's next word while sv is set. -/
  hpc : Word
  /-- The first word of the handler that is running (spec/11 R254). -/
  hentry : Word
  bodyStart : Word
  bodyLen : Nat
  /-- The next parcel must be a header. -/
  atHeader : Bool
  /-- The header is entered by a transfer (spec/03 R51). -/
  jumped : Bool
  sect : Nat
  /-- The deltas of the header that the first word still waits for (spec/03 R53), in the order of spec/03 R50. -/
  waits : List Nat
  vnum : Nat
  /-- Place in program order of the next entry or access (spec/03 R57, spec/07 R157). -/
  seq : Nat
  vl : List VEntry
  va : List VEntry
  vs : List VEntry
  mx : List Ecb
  nm : List Ecb
  cl : List Ecb
  /-- SQ has reached TEND (spec/16 R393). -/
  ended : Bool
  epoch : Nat
  spEpoch : Nat
  deriving DecidableEq, Repr

/-- What occupies a core: a task or an exchange stream (spec/02 R22, R38), with what its launch declares (R33). -/
structure Run where
  exch : Bool
  job : Nat
  launch : Nat
  index : Nat
  tcb : Nat
  code : Nat
  entry : Nat
  nvec : Nat
  ntile : Nat
  npage : Nat
  slip : Nat
  since : Nat
  /-- The bytes of memory as a fetch sees them until the next dispatch (spec/03 R70). -/
  icache : List Host.Cell
  /-- The 128-byte lines of code, by VA / 128, that it has requested since (spec/06 R147; DESIGN CHOICE, log entry 59). -/
  fetched : NSet := []
  deriving DecidableEq, Repr

/-- A word whose result reaches sd later (spec/03 R57, R63). -/
inductive PendKind where
  | load (strong : Bool)
  | amo (op : AmoOp) (v : Word)
  | cas (cmp new : Word)
  | verb
  deriving DecidableEq, Repr

structure Pend where
  kind : PendKind
  seq : Nat
  sd : SReg
  va : Nat
  pa : Nat
  /-- The physical address of the next page, where the access spans two. -/
  pa2 : Nat
  n : Nat
  sx : Bool
  oc : Nat
  scope : Nat
  hint : Hint
  addr : Word
  /-- The pages are uncacheable (spec/11 R241). -/
  unc : Bool := false
  unc2 : Bool := false
  deriving DecidableEq, Repr

/-- What occupies a copy channel (spec/03 R56, spec/06 R127). -/
inductive CopyKind where
  | copy (tpl : List Word) (gbase : Nat) (sbase : Nat)
  | fill (page : Nat)
  | evict (page : Nat)
  deriving DecidableEq, Repr

/-- A copy channel. next: the next sector in visiting order; counted and net: sectors counted and held in the Safety
Net; expected: spec/06 R137. -/
structure Copy where
  kind : CopyKind
  addr : Word
  sec : Nat
  seq : Nat
  next : Nat
  counted : Nat
  net : Nat
  expected : Nat
  /-- The tag whose dirty sectors an SPFILL or SPEVICT.WB writes back (spec/06 R126, R127). -/
  writeBack : Option Page
  /-- It has retired and its channel waits for the push that is full (spec/03 R60). -/
  owing : Bool := false
  /-- Sectors released whose counter add waits for the page of the counter word (spec/06 R123, R138). -/
  late : Nat := 0
  /-- Cycle since which the channel has waited for global data (spec/06 R149). -/
  since : Nat := 0
  deriving DecidableEq, Repr

/-- Provisional writes of an exchange stream, in program order (spec/02 R39). -/
inductive Prov where
  | bytes (off : Nat) (bs : List Byte)
  | bit (word : Nat) (full : Bool)
  deriving DecidableEq, Repr

/-- A provisional write with its launch and its place in the program order of its stream. -/
structure Draft where
  job : Nat
  launch : Nat
  seq : Nat
  write : Prov
  deriving DecidableEq, Repr

/-- A delivery that waits for confirmation (spec/02 R38-R40). -/
structure Deliv where
  word : Nat
  value : W32
  job : Nat
  launch : Nat
  deriving DecidableEq, Repr

/-- A command of a matrix window, or an unprotected one (spec/10 R221, R222): its image, when it retired, what it read (byte ranges), and
the tiles it wrote and started. redone: the cycle of its last replay, which has settled the reports until then (R219). seen: VACCR or SQ has
read a tile that it wrote. -/
structure WinCmd where
  ecb : Ecb
  retired : Nat
  reads : List (Nat × Nat)
  writes : NSet
  starts : NSet
  drains : Bool
  dirs : NSet
  slots : NSet
  redone : Nat := 0
  seen : Bool := false
  /-- What it has written to the scratchpad, which a replay writes again (spec/10 R223). -/
  wrote : List (Nat × List Byte) := []
  deriving DecidableEq, Repr

/-- A retained matrix window, oldest command first. -/
structure Window where
  cmds : List WinCmd
  bypass : Option Bypass
  replays : Nat
  deriving DecidableEq, Repr

/-- A replay under way (spec/10 R223): the place in program order of the first command of its window, and of each retired command that MX
executes again slot 0 and the steps that the governor has still to charge. -/
structure Replay where
  win : Nat
  todo : List (Word × Nat)
  deriving DecidableEq, Repr

/-- A leaf that a TLB holds (spec/11 R245). flaw: a latent error of the entry, and whether it can be corrected (spec/10 R232). -/
structure TlbEntry where
  job : Nat
  level : Nat
  va : Nat
  pte : Word
  pteAt : Nat
  flaw : Option Bool := none
  deriving DecidableEq, Repr

/-- A latent error in a storage structure of a core: ring, granule, whether it can be corrected (spec/10 R232). -/
structure Flaw where
  ring : Ring5
  granule : Nat
  fatal : Bool
  deriving DecidableEq, Repr

/-- A scrubber (spec/10 R234): interval, PASS, next granule. -/
structure Scrub where
  interval : Nat
  pass : Bool
  pos : Nat
  deriving DecidableEq, Repr

/-- Why an agent waits: the stall reasons of spec/11 R258, those that hold something in flight, and the interlocks of registers, tiles and the
slip limit, which spec/03 R66 does not name. -/
inductive Stall where
  | token | event | counter | secWait | queue | fullEmpty | inFlight | done | interlock
  deriving DecidableEq, Repr

/-- A checkpoint under way (spec/08 R193): the class whose overflow holds the task afterwards (R188). -/
structure Ckpt where
  held : Option (Nat × Nat)
  since : Nat
  deriving DecidableEq, Repr

/-- One core: the occupant, its state, and the state of the core itself, which dispatch leaves unchanged (spec/03 R73,
spec/10 R234, spec/11 R257). -/
structure Core where
  arch : Arch
  run : Option Run
  pend : List Pend
  copies : KMap Copy
  /-- First-touch fills under way (spec/06 R123). -/
  fills : NSet
  /-- Provisional writes, in program order; the streams of a core in the order in which they ran. -/
  prov : List Draft
  deliv : List Deliv
  /-- Jobs whose step has met a conflict here: what is still to be delivered of it is discarded (spec/02 R40). -/
  clash : NSet
  windows : List Window
  /-- Commands since the last window aged out or became unprotected belong to no window (spec/10 R221). -/
  unprotected : Bool
  /-- Unprotected commands of the last 2,048 cycles (spec/10 R222). -/
  unprot : List WinCmd
  stallSq : Option Stall
  stalls : KMap Stall
  /-- Cycle since which the conditions of spec/03 R66 hold. -/
  deadSince : Option Nat
  /-- Cycle since which the governor has refused the head of MX (spec/05 R121). -/
  refused : Option Nat
  promoted : Bool
  /-- The decompressor's sampled toggle rate, 16 to 128 (spec/05 R121; DESIGN CHOICE, log entry 34). -/
  toggle : Nat
  /-- The task for which a pre-emption reserves this core: job, TCB (spec/08 R191). -/
  reserved : Option (Nat × Nat)
  ckpt : Option Ckpt
  /-- The cycle in which a pre-emption has chosen to kill the occupant; the request arrives in a later one (spec/08 R191). -/
  killAt : Option Nat := none
  /-- A restored task that has not executed its first word: the die, and step 1 of its checkpoint (spec/08 R198). -/
  resumed : Option (Nat × Nat) := none
  /-- Cycle until which zone D is scrubbed after an abort (spec/10 R223). -/
  scrubUntil : Nat
  ageLimit : Nat
  mixchk : Bool
  tracectl : Word
  tracetrig : Word
  traceIdx : Nat
  traceWrapped : Bool
  traceBuf : KMap (Word × Word)
  traceLeft : Option Nat
  tfrozen : Bool
  degraded : Bool
  scrubs : KMap Scrub
  errlogs : KMap (List Word)
  katcount : Word
  tlb : List TlbEntry
  flaws : List Flaw
  /-- Age counters of the requesters of each bank: key 8 × bank + requester (spec/03 R65). -/
  ages : KMap Nat
  /-- Words that an engine's present entry has written ahead of the rest, by engine (spec/03 R58). -/
  early : KMap NSet := []
  /-- Scratchpad bytes that an agent's present entry has read ahead of the rest, by the same key (spec/03 R58). -/
  latched : KMap (KMap Byte) := []
  replay : Option Replay := none
  /-- The last cycle in which the occupant read something that can order its accesses after another agent's (spec/07 R165, R167). -/
  acquired : Nat := 0
  deriving DecidableEq, Repr

/-! ## Tasks known to the device -/

/-- Bytes that a task has placed in its quarantine, in order (spec/06 R125), within one page; pa as translated at issue.
seq: its place in program order. wenq: provisional bytes of a WENQ, which are not applied as stores (spec/17 R425). -/
structure QEntry where
  va : Nat
  pa : Nat
  bytes : List Byte
  hint : Hint
  strong : Bool
  wenq : Bool
  seq : Nat := 0
  /-- Its ordering class; 16: none (spec/07 R152). -/
  oc : Nat := 16
  deriving DecidableEq, Repr

/-- Words that perform at TEND (spec/07 R168, spec/16 R390, spec/17 R425). -/
inductive Held where
  | depdec (tcb : Nat)
  | step (form : Nat) (k : Nat)
  | wenq (desc : Nat) (bytes : List Byte) (hint : Hint)
  deriving DecidableEq, Repr

/-- A 64-byte granule as it stood before a near-memory command changed it (spec/12 R268). -/
structure Undo where
  nmu : Nat
  pa : Nat
  old : List Byte
  /-- The undo log of an open step holds it too (spec/12 R269). -/
  stepped : Bool := false
  deriving DecidableEq, Repr

/-- A channel of an NMXG group that has not committed: its NMU, the bytes by PA, the class and the place in program order of its command
(spec/07 R157, R171). -/
structure Shadow where
  chan : Nat
  bytes : List (Nat × Byte)
  oc : Nat
  seq : Nat
  deriving DecidableEq, Repr

/-- What the device holds of a task from its release to its end (spec/02 R25, spec/08 R182, R195). -/
structure Task where
  job : Nat
  launch : Nat
  index : Nat
  tcb : Nat
  /-- The release key, compared in lexicographic order (spec/08 R182). -/
  key : List Nat
  cls : Nat
  home : Nat
  quar : List QEntry
  held : List Held
  /-- A valid or partial save record (spec/08 R194). -/
  save : Option Arch
  saveValid : Bool
  savePa : Nat
  saveLen : Nat
  /-- Step 1 of its last checkpoint (spec/08 R193, R198). -/
  ckptAt : Nat
  /-- Cycles run in this attempt before the present run (spec/08 R190). -/
  ran : Nat
  /-- L2 slices it loaded from, and slices whose quarantine ways it wrote, with the last cycle (spec/10 R226). -/
  reads : KMap Nat
  writes : KMap Nat
  undo : List Undo
  /-- The channels of its NMXG groups that have not committed (spec/07 R171). -/
  groups : List Shadow
  pubs : NSet
  /-- A re-fire waits for its commit (spec/09 R208). -/
  refire : Option (List Nat)
  /-- It has committed before: a re-fired run (spec/09 R208). -/
  refired : Bool
  /-- Its snapshot is kept from the run it replaces (spec/09 R209). -/
  keepSnap : Bool
  /-- It has passed TEND step 4 (spec/02 R26). -/
  past4 : Bool
  /-- It has passed TEND step 5: its words and its successors have performed (spec/16 R393). -/
  past5 : Bool := false
  /-- The cause with which its launch faults when its TEND completes, and what the fault report says of it (spec/07 R166, spec/12 R268). -/
  fault : Option (Nat × Nat)
  /-- The die and class whose overflow holds it as a spawner (spec/08 R188). -/
  heldFor : Option (Nat × Nat)
  deriving DecidableEq, Repr

/-- A ready entry (spec/08 R182). qcls: the queue it stands in after ageing (R184). -/
structure Ready where
  job : Nat
  launch : Nat
  index : Nat
  tcb : Nat
  cls : Nat
  qcls : Nat
  key : List Nat
  since : Nat
  restore : Bool
  deriving DecidableEq, Repr

/-- One Ringmaster (spec/08 R174-R198). spill: the entries that its class queues had no room for. -/
structure Ringm where
  ready : List Ready
  spill : List Ready
  overflow : NSet
  floor : Nat
  deriving DecidableEq, Repr

/-! ## Launches, graphs, jobs -/

/-- What a held launch passes again after RESUME (spec/02 R460): the check at acceptance, or the TCB writes. -/
inductive HoldAt where
  | accept | tcbs
  deriving DecidableEq, Repr

/-- An entry of a binding table: first task, number of tasks, NMUs or cores, first target, number of targets (R31). -/
structure Bind where
  first : Nat
  count : Nat
  nmus : Bool
  target : Nat
  targets : Nat
  deriving DecidableEq, Repr

/-- A launch (spec/02 R29-R35). words: the 32 doublewords of its record; status and cause: as in R34. -/
structure Lnch where
  job : Nat
  id : Nat
  record : Nat
  words : List Word
  /-- The binding table as it stood at acceptance (spec/02 R31). -/
  binds : List Bind
  status : Nat
  cause : Nat
  committed : Nat
  deps : Nat
  graph : Option Nat
  hold : Option HoldAt
  /-- task index, input slot, region (spec/09 R201). -/
  inputs : List (Nat × Nat × Nat)
  /-- bytes and stall cycles by buffer number; lookups and misses by range (spec/06 R149). -/
  bufs : KMap (Nat × Nat)
  ranges : KMap (Nat × Nat)
  /-- Regions that each task published in its last committed run (spec/09 R211). -/
  pubs : KMap NSet
  deriving DecidableEq, Repr

structure Graph where
  job : Nat
  id : Nat
  cw : Nat
  launches : List Nat
  succs : KMap (List Nat)
  status : Nat
  cause : Nat
  deriving DecidableEq, Repr

/-- A graph record that waits for the pager (spec/02 R44): its VA, the VA that RESUME must name, and the launches of it that a CANCEL has
named meanwhile (R45). -/
structure HeldGraph where
  job : Nat
  va : Nat
  resume : Nat
  cancelled : NSet := []
  deriving DecidableEq, Repr

inductive PhasePart where
  | compute
  | exchange
  | holding (since : Nat)
  | confirm
  deriving DecidableEq, Repr

/-- An exchange stream of the phase in progress (spec/02 R38, spec/17 R428). dead: its launch has faulted or been cancelled, so a
restart of the step does not run it again. -/
structure Stream where
  core : Nat
  launch : Nat
  started : Bool
  /-- It waits for the pager (spec/02 R44). -/
  parked : Bool
  ended : Bool
  sync : Option Nat
  dead : Bool := false
  /-- The cycle in which it started. -/
  since : Nat := 0
  deriving DecidableEq, Repr

structure Phase where
  num : Nat
  pass : Nat
  part : PhasePart
  streams : List Stream
  /-- A CANCEL has ended it: nothing of it is confirmed (spec/02 R46). -/
  cancelled : Bool := false
  deriving DecidableEq, Repr

structure Job where
  id : Nat
  /-- The eight doublewords of its descriptor (spec/02 R44), and an accepted rewrite (R458). -/
  desc : List Word
  next : Option (List Word)
  tokens : Nat
  confirmed : Option Nat
  phase : Option Phase
  /-- The open step (spec/16 R390). -/
  step : Option Nat
  done : Nat
  status : Nat
  cause : Nat
  /-- Devices of its partition that were lost while it was there (spec/13 R281). -/
  lost : NSet := []
  deriving DecidableEq, Repr

/-- A device store that waits for RESUME (spec/02 R461): bytes, with the bits of each that it writes where it writes a field only;
or, with dec, the decrement of the TCB's count at va, with the release key it carries (spec/08 R180). -/
structure HeldStore where
  job : Nat
  record : Nat
  va : Nat
  bytes : List Byte
  mask : List Byte := []
  dec : Option (List Nat) := none
  deriving DecidableEq, Repr

/-! ## The Safety Net -/

/-- What leaves a core (spec/10 R215). -/
inductive SnBody where
  | store
  | mgmt (off : Nat) (v : Word)
  | atomic
  | sector (chan : Nat) (va : Nat) (bytes : List (Nat × Byte)) (hint : Hint)
  | depdec (tcb : Nat)
  | step (form k : Nat)
  | pubv (sd : SReg) (region n : Nat) (final : Bool)
  | refstop (sd : SReg) (region : Nat)
  | cancel (sd : SReg) (level id : Nat)
  | spawn (sd : SReg) (tcb : Nat)
  | unpin (sd : SReg) (n : Nat)
  | ecb (eng : EcbEngine)
  | xmc (off : Nat) (value : W32) (first stride count : Nat)
  /-- A save record: the cycle since which the task had the core, and the class whose overflow holds it. -/
  | save (since : Nat) (held : Option (Nat × Nat))
  deriving DecidableEq, Repr

structure SnItem where
  core : Nat
  job : Nat
  launch : Nat
  tcb : Nat
  exch : Bool
  entered : Nat
  size : Nat
  oc : Nat
  seq : Nat
  /-- Its CRC-32C still matches (spec/10 R217). -/
  intact : Bool
  /-- A latent error that can be corrected (spec/10 R232). -/
  flawed : Bool := false
  body : SnBody
  deriving DecidableEq, Repr

/-- A forwarded byte (spec/07 R162). -/
structure Fwd where
  cluster : Nat
  job : Nat
  core : Nat
  tcb : Nat
  pa : Nat
  byte : Byte
  deriving DecidableEq, Repr

/-- An XMC that has been released and is delivered die by die (spec/17 R427). -/
structure XmcOut where
  die : Nat
  launch : Nat
  job : Nat
  off : Nat
  value : W32
  targets : List Nat
  released : Nat
  deriving DecidableEq, Repr

/-! ## The L2 and the near-memory units -/

/-- A 32-byte sector of a line: valid, dirty, and the last cycle it was filled or written (spec/06 R142, spec/10 R226). -/
structure Sector where
  valid : Bool
  dirty : Bool
  stamp : Nat
  deriving DecidableEq, Repr

/-- Eviction ages (spec/06 R144). -/
inductive Age where
  | first | ordinary | last
  deriving DecidableEq, Repr

structure Line where
  sectors : List Sector
  age : Age
  used : Nat
  retained : Option Nat
  deriving DecidableEq, Repr

/-- An entry of the table of recent strong accesses (spec/07 R166). -/
structure Recent where
  word : Nat
  core : Nat
  lo : Nat
  n : Nat
  cycle : Nat
  deriving DecidableEq, Repr

/-- A strong store that has performed, with the bytes that it replaced: an access that no synchronisation orders after it races with it
(spec/07 R165). core: its core, 1,024 for the host. -/
structure Strong where
  core : Nat
  lo : Nat
  n : Nat
  cycle : Nat
  old : List Byte
  deriving DecidableEq, Repr

/-- A command at an NMU (spec/12 R261, R262). core: its issuer, none for an NMU-bound task; seq: its place in the issuer's
program order. -/
structure NmReq where
  core : Option Nat
  seq : Nat
  job : Nat
  launch : Nat
  tcb : Nat
  slots : List Word
  /-- The cycle of its arrival. -/
  arrived : Nat := 0
  deriving DecidableEq, Repr

/-- The command that an NMU runs. waiting: it has been checked and has written nothing yet. -/
structure NmRun where
  req : NmReq
  waiting : Bool
  lastWrite : Nat
  undo : List Undo
  /-- The pages it named, as checked: VA page, physical page, uncacheable (spec/12 R262). -/
  pages : KMap (Nat × Bool) := []
  /-- The sectors that it has worked on ahead of the rest, by PA / 32, and their bytes as it read them (spec/07 R172, spec/12 R272). -/
  did : NSet := []
  latched : KMap Byte := []
  /-- The channels of an NMXG group that have not committed (spec/07 R171); none: the group has not been formed. -/
  shadow : Option (List (Nat × List (Nat × Byte))) := none
  /-- The NMUs that take part in it: its own, and the channels of its group (spec/10 R227). -/
  parts : NSet := []
  /-- NMATT's result, once a word of it stands in the scratchpad ahead of the rest (spec/07 R158); did names those words by scratchMark. -/
  result : Option (List W32) := none
  deriving DecidableEq, Repr

/-- From here on the part of an NMU's turn names words of the scratchpad, below it sectors of memory. -/
abbrev scratchMark : Nat := 2 ^ 48

/-- An ordinary access that has arrived for a bank whose NMU holds a row open, and waits for the end of the column step (spec/12 R272). -/
structure RowWait where
  nmu : Fin 512
  write : Bool
  pa : Nat
  value : Byte
  arrived : Nat
  deriving DecidableEq, Repr

/-- A record of the undo log, by its place in the undo area (spec/12 R268). task: the task that has not yet passed TEND step 4
(spec/16 R373). -/
structure LogRec where
  job : Nat
  task : Option Nat
  step : Nat
  pos : Nat
  deriving DecidableEq, Repr

structure Nmu where
  queue : List NmReq
  run : Option NmRun
  log : List LogRec
  /-- Commands in which it took part and that have completed: job, TCB, cycle (spec/10 R227). -/
  past : List (Nat × Nat × Nat) := []
  deriving DecidableEq, Repr

/-! ## The fabric, the host and the platform -/

/-- What another member of a collective has pushed, as its routers announce it (spec/13 R276-R279); input. -/
structure Member where
  dev : Nat := 0
  tag : Nat
  op : Nat
  rank : Nat
  cmd : CollCmd
  data : List W32
  deriving DecidableEq, Repr

/-- A collective of this device. attached: a CL entry of its task still holds the command (spec/15 R332). old: the source words as
they stood when the command started. -/
structure Coll where
  attached : Bool
  old : List W32
  /-- The source words that the present attempt has read (spec/13 R279). -/
  src : List W32 := []
  core : Nat
  job : Nat
  launch : Nat
  tcb : Nat
  tag : Nat
  op : Nat
  cmd : CollCmd
  steps : Nat
  retries : Nat
  since : Nat
  stamp : Nat
  /-- Failures of each step (spec/10 R229), and the cycles in which the steps before the present one were acknowledged (R228). -/
  fails : KMap Nat := []
  acked : List Nat := []
  /-- The pages it named, as translated when it started (spec/11 R251). -/
  pages : KMap (Nat × Bool) := []
  /-- Sectors of the destination that stand there before completion, by PA / 32 (spec/07 R169). -/
  did : NSet := []
  /-- The result, once it has been formed (spec/21 R447). -/
  result : Option (List W32) := none
  deriving DecidableEq, Repr

/-- The result a router holds until the member's task passes TEND step 4 (spec/21 R447). -/
structure Kept where
  job : Nat
  tcb : Nat
  tag : Nat
  data : List W32
  deriving DecidableEq, Repr

/-- A Denpen port (spec/13 R275): the number it expects, the flits it has sent, the last 256 with their numbers, the next number, and how
often each number has been asked for again, by this receiver (replays) and by the partner's (asked). -/
structure Port where
  state : Nat
  downSince : Nat
  expect : Nat
  waiting : Bool
  sent : List (Nat × List Byte)
  nextSeq : Nat
  replays : KMap Nat
  lost : Bool
  got : List (List Byte)
  asked : KMap Nat := []
  /-- The tag and the step that a kept flit carries, by its sequence number (spec/13 R275). -/
  carries : KMap (Nat × Nat) := []
  deriving DecidableEq, Repr

/-- A Uzolink message that the device sends (spec/13 R282). -/
structure Msg where
  type : Nat
  status : Nat
  seq : Nat
  ack : Nat
  payload : List Byte
  deriving DecidableEq, Repr

/-- sent: the retained messages, the last 64. again: what the last resynchronise response put on the link again (spec/13 R284). acquired: the
last cycle in which the host was told or read something that can order its accesses (spec/07 R165, R173). -/
structure HostLink where
  h : Nat
  d : Nat
  sent : List Msg
  again : List Msg
  acquired : Nat := 0
  deriving DecidableEq, Repr

structure Platform where
  /-- Power state of the package (spec/13 R287) and the cores in P1. -/
  power : Nat
  dozing : NSet
  image : Option (List Byte)
  boots : Nat
  deriving DecidableEq, Repr

/-- An entry of a page-fault ring that waits for room (spec/11 R248). -/
structure PfEntry where
  die : Nat
  words : List Word
  deriving DecidableEq, Repr

/-- Who takes a turn. -/
inductive Who where
  | sq (core : Nat)
  | vl (core : Nat)
  | va (core : Nat)
  | vs (core : Nat)
  | mx (core : Nat)
  | nm (core : Nat)
  | cl (core : Nat)
  | nmu (n : Nat)
  | event (i : Instr)
  deriving DecidableEq, Repr

/-- A turn of the schedule: the cycles that pass before it, and who moves. part: it performs these words of the scratchpad, or these
sectors of memory, ahead of the rest of the entry or command (spec/03 R58, spec/07 R169, R172). -/
structure Turn where
  dt : Nat
  who : Who
  part : Option NSet := none
  deriving DecidableEq, Repr

/-- The machine. -/
structure State where
  /-- The schedule (DESIGN CHOICE, log entry 1): when it is empty, SQ of focus moves after one cycle. -/
  agenda : List Turn
  /-- The core whose word or entry executes. -/
  focus : Nat
  /-- An engine executes the head of its queue, not SQ a word of the stream. -/
  atEngine : Bool
  /-- What a partial turn performs (Turn.part). -/
  part : Option NSet
  /-- The rank of the last turn among those of one cycle (spec/08 R199, spec/09 R202). -/
  rank : Nat
  cycle : Nat
  epoch : Nat
  /-- Physical memory; an address that is not listed reads 0 (DESIGN CHOICE, log entry 2). -/
  mem : List Host.Cell
  /-- Registers of the management region that software programs, by byte offset; unlisted: the reset value. -/
  regs : KMap Word
  /-- Words of the management region that the device writes, by byte offset; unlisted: 0. -/
  stat : KMap Word
  cores : KMap Core
  tasks : List Task
  rings : KMap Ringm
  launches : List Lnch
  graphs : List Graph
  jobs : KMap Job
  heldStores : List HeldStore
  heldGraphs : List HeldGraph
  /-- Launches that a device store without permission faults at the end of the step (spec/02 R461): job, id, cause. -/
  devFaults : List (Nat × Nat × Nat)
  net : List SnItem
  /-- Items that left the Safety Net within the last window: core, job, TCB, cycle (spec/10 R217). -/
  gone : List (Nat × Nat × Nat × Nat)
  fwds : List Fwd
  /-- Job, writer, consumer of a forwarded value (spec/07 R163). -/
  bonds : List (Nat × Nat × Nat)
  xmcs : List XmcOut
  l2 : KMap Line
  /-- Requests served: it orders the lines by recency (spec/06 R144). -/
  l2Tick : Nat
  /-- The last cycle in which a task's committed bytes reached a sector, by PA / 32 (spec/10 R226). -/
  commits : KMap Nat
  poison : NSet
  recent : KMap (List Recent)
  /-- Strong stores by the 8-byte word, PA / 8, oldest first. -/
  strong : KMap (List Strong)
  nmus : KMap Nmu
  rowWaits : List RowWait
  dieTlbs : KMap (List TlbEntry)
  tlbinv : Option (Nat × Nat × Nat)
  pfWait : List PfEntry
  members : List Member
  colls : List Coll
  kept : List Kept
  ports : KMap Port
  /-- Devices of the partition that are lost, as 256 z + 16 y + x (spec/13 R281). -/
  lostDevs : NSet
  host : HostLink
  plat : Platform
  /-- The budget left in each die's governor, and the cycle of its last renewal (spec/05 R121). -/
  budget : KMap Nat
  renewed : KMap Nat
  /-- HBM4E sectors and L2 sectors with a latent error: PA / 32, whether it can be corrected. -/
  memFlaws : KMap Bool
  l2Pos : KMap Nat
  hbmPos : KMap Nat
  deriving DecidableEq, Repr

/-- Why the machine stops. -/
inductive Fault where
  /-- Raised by step when the schedule names a core that R12 does not number; safe, since no such core exists. -/
  | noSuchCore
  deriving DecidableEq, Repr

/-- Why a step has no meaning. -/
inductive Refusal where
  /-- The instruction has no meaning in this model yet; raised by exec; safe. -/
  | notModelled (mnemonic : String)
  deriving DecidableEq, Repr

/-! ## Reset -/

/-- The state of an empty core (spec/03 R68, R72, R73); the registers that R68 calls undefined are 0 (DESIGN CHOICE, log entry 3). -/
def Arch.reset : Arch :=
  { sregs := [], pregs := [], vregs := [], tiles := [], sp := [], full := [], delivered := [], slots := [],
    scales := [], dirs := [], bypass := none, bypassLive := false, tpls := [], pages := [], bank := [], events := 0, tokens := [], owed := [],
    sv := false, nest := false, sliceflr := false, fpflags := 0, trapvec := 0, hentry := 0, trappc := 0, trapcause := 0,
    trapinfo := 0, trapsave := 0, seed := 0, slip := 1, lattol := 0, retired := 0, pc := 0, hpc := 0,
    bodyStart := 0, bodyLen := 0, atHeader := false, jumped := false, sect := 0, waits := [], vnum := 0,
    seq := 0, vl := [], va := [], vs := [], mx := [], nm := [], cl := [], ended := false, epoch := 0, spEpoch := 0 }

def Core.reset : Core :=
  { arch := Arch.reset, run := none, pend := [], copies := [], fills := [], prov := [], deliv := [], clash := [], windows := [],
    unprotected := true, unprot := [], stallSq := none, stalls := [], deadSince := none, refused := none, promoted := false,
    toggle := 64, reserved := none, ckpt := none, scrubUntil := 0, ageLimit := 64, mixchk := false, tracectl := 0, tracetrig := 0,
    traceIdx := 0, traceWrapped := false, traceBuf := [], traceLeft := none, tfrozen := false, degraded := false,
    scrubs := [], errlogs := [], katcount := 0, tlb := [], flaws := [], ages := [] }

/-- Each scrubber's interval at reset (spec/10 R234), by ring code. -/
def Scrub.reset (ring : Nat) : Scrub :=
  { interval := [2048, 2048, 1024, 2048, 256].getD ring 0, pass := false, pos := 0 }

def Ringm.reset : Ringm := { ready := [], spill := [], overflow := [], floor := 8 }

def Nmu.reset : Nmu := { queue := [], run := none, log := [] }

def Port.reset : Port :=
  { state := 0, downSince := 0, expect := 0, waiting := false, sent := [], nextSeq := 0, replays := [],
    lost := false, got := [] }

/-- The governor's reset budget, in nJ per microsecond (spec/05 R121). -/
def budgetReset : Nat := 112000

/-- The machine right after device reset: nothing open, nothing dispatched, memory with nothing listed. -/
def State.reset : State :=
  { agenda := [], focus := 0, atEngine := false, part := none, rank := 0, cycle := 0, epoch := 0, mem := [], regs := [], stat := [],
    cores := [], tasks := [], rings := [], launches := [], graphs := [], jobs := [], heldStores := [], heldGraphs := [], devFaults := [], net := [], gone := [],
    fwds := [], bonds := [], xmcs := [], l2 := [], l2Tick := 0, commits := [], poison := [], recent := [], strong := [], nmus := [], rowWaits := [], dieTlbs := [],
    tlbinv := none, pfWait := [], members := [], colls := [], kept := [], ports := [], lostDevs := [],
    host := { h := 0, d := 0, sent := [], again := [] },
    plat := { power := 0, dozing := [], image := none, boots := 0 },
    budget := [], renewed := [], memFlaws := [], l2Pos := [], hbmPos := [] }

end Sys2Proof.Machine
end

