-- ==== Sys2Proof/Machine/Ops.lean ====
section
/-!
DEFINITION. The named operations over the registers, the scratchpad and memory, the position of SQ in its stream, and
what a word of SQ can do: complete, stall, or raise a cause.
-/

namespace Sys2Proof.Machine

/-! ## Cores -/

def State.core (s : State) (c : Nat) : Core := kget s.cores c Core.reset
def State.setCore (s : State) (c : Nat) (k : Core) : State := { s with cores := kset s.cores c k }
def State.modCore (s : State) (c : Nat) (f : Core → Core) : State := s.setCore c (f (s.core c))
/-- The core in focus. -/
def State.cur (s : State) : Core := s.core s.focus
def State.setCur (s : State) (k : Core) : State := s.setCore s.focus k
def State.modCur (s : State) (f : Core → Core) : State := s.setCur (f s.cur)
def State.arch (s : State) : Arch := s.cur.arch
def State.setArch (s : State) (a : Arch) : State := s.setCur { s.cur with arch := a }
def State.modArch (s : State) (f : Arch → Arch) : State := s.setArch (f s.arch)
def State.modArchOf (s : State) (c : Nat) (f : Arch → Arch) : State :=
  s.modCore c fun k => { k with arch := f k.arch }

/-- Die, cluster of a core (R12). -/
def dieOf (core : Nat) : Nat := core / 128
def clusterOf (core : Nat) : Nat := core / 4

/-! ## Scalar, predicate and vector registers -/

/-- A scalar register: s0 reads 0 (R68, R295). -/
def Arch.rd (a : Arch) (r : SReg) : Word :=
  if r = 0 then 0
  else match kfind a.sregs r.val with
    | some w => w
    | none => if a.epoch = 0 then 0 else Config.freeScalar a.epoch r.val

/-- Write a scalar register; a write to s0 is discarded. -/
def Arch.wr (a : Arch) (r : SReg) (v : Word) : Arch :=
  if r = 0 then a else { a with sregs := kset a.sregs r.val v }

/-- A predicate register: p0 reads all ones. -/
def Arch.prd (a : Arch) (p : PReg) : Word :=
  if p = 0 then BitVec.allOnes 64
  else match kfind a.pregs p.val with
    | some w => w
    | none => if a.epoch = 0 then 0 else Config.freePred a.epoch p.val

def Arch.pwr (a : Arch) (p : PReg) (v : Word) : Arch :=
  if p = 0 then a else { a with pregs := kset a.pregs p.val v }

def Arch.vrd (a : Arch) (r : VReg) : Vec :=
  match kfind a.vregs r.val with
  | some v => v
  | none => if a.epoch = 0 then laneTab fun _ => 0 else laneTab (Config.freeLane a.epoch r.val)

def Arch.vwr (a : Arch) (r : VReg) (v : Vec) : Arch := { a with vregs := kset a.vregs r.val v }

/-! ## Tiles, the TWA, the build bank -/

def Arch.tile (a : Arch) (z : Nat) : Tile :=
  match kfind a.tiles z with
  | some t => t
  | none =>
    if a.epoch = 0 then { data := List.replicate 4096 0, count := 0, clip := false }
    else { data := (List.range 4096).map (Config.freeTileWord a.epoch z), count := Config.freeTileCount a.epoch z,
           clip := Config.freeTileClip a.epoch z }

def Arch.setTile (a : Arch) (z : Nat) (t : Tile) : Arch := { a with tiles := kset a.tiles z t }

/-- Element (i, j) of a tile. -/
def Tile.at_ (t : Tile) (i j : Nat) : W32 := t.data.getD (64 * i + j) 0

/-- Byte k of TWA slot n. -/
def Arch.slotByte (a : Arch) (k : Nat) : Byte :=
  match kfind a.slots k with
  | some b => b
  | none => if a.epoch = 0 then 0 else Config.freeSlotByte a.epoch k

def Arch.scaleByte (a : Arch) (n : Nat) : Byte :=
  match kfind a.scales n with
  | some b => b
  | none => if a.epoch = 0 then 0 else Config.freeScale a.epoch n

def Arch.dir (a : Arch) (n : Nat) : BitVec 16 :=
  match kfind a.dirs n with
  | some d => d
  | none => if a.epoch = 0 then 0 else Config.freeDir a.epoch n

def Arch.bankSlot (a : Arch) (n : Nat) : Word :=
  match kfind a.bank n with
  | some w => w
  | none => if a.epoch = 0 then 0 else Config.freeBank a.epoch n

/-! ## Little-endian words -/

/-- A word of n bytes, little-endian (R2). -/
def bytesOf (n : Nat) (v : Nat) : List Byte := leBytes n v

/-- SignExtend or ZeroExtend of n bytes to 64 bits. -/
def extend (sx : Bool) (n : Nat) (v : Nat) : Word :=
  if sx && decide (v ≥ 2 ^ (8 * n - 1)) then BitVec.ofNat 64 (v + 2 ^ 64 - 2 ^ (8 * n)) else BitVec.ofNat 64 v

/-! ## The scratchpad -/

def Arch.spByte (a : Arch) (off : Nat) : Byte :=
  match kfind a.sp off with
  | some b => b
  | none => if a.spEpoch = 0 then 0 else Config.freeScratch a.spEpoch off

def Arch.spBytes (a : Arch) (off n : Nat) : List Byte := (List.range n).map fun i => a.spByte (off + i)

def putBytes (m : KMap Byte) (off : Nat) : List Byte → KMap Byte
  | [] => m
  | b :: bs => putBytes (kset m off b) (off + 1) bs

/-- Write bytes as a fill does: no dirty bit changes (R122). -/
def Arch.spRaw (a : Arch) (off : Nat) (bs : List Byte) : Arch := { a with sp := putBytes a.sp off bs }

/-- The tag of page p after a local write of bytes [off, off + n): the sectors it touches are dirty (R122). -/
def Page.mark (off n : Nat) (p : Nat) (t : Page) : Page :=
  let lo := max off (4096 * p)
  let hi := min (off + n) (4096 * p + 4096)
  if lo < hi then
    { t with dirty := (List.range ((hi - 1) / 32 + 1 - lo / 32)).foldl (fun d i => nins d ((lo / 32 + i) % 128)) t.dirty }
  else t

/-- The sector dirty bits that a local write of n bytes at off sets. -/
def Arch.markDirty (a : Arch) (off n : Nat) : Arch :=
  { a with pages := a.pages.map fun pt => (pt.1, pt.2.mark off n pt.1) }

/-- A local write. -/
def Arch.spPut (a : Arch) (off : Nat) (bs : List Byte) : Arch := (a.spRaw off bs).markDirty off bs.length

/-- The first non-resident backed page that bytes [off, off + n) touch (R123). -/
def Arch.absentPage (a : Arch) (off n : Nat) : Option Nat :=
  (a.pages.find? fun pt =>
    !pt.2.res && decide (4096 * pt.1 < off + n) && decide (off < 4096 * pt.1 + 4096)).map (·.1)

/-- Bytes of the accumulator view (R69). -/
def Arch.accByte (a : Arch) (off : Nat) : Byte :=
  BitVec.ofNat 8 (((a.tile (off / 16384)).data.getD (off % 16384 / 4) 0).toNat / 2 ^ (8 * (off % 4)))

/-! ## Physical memory (R273) -/

namespace Memory

/-- A byte; an address that is not listed reads 0. -/
def read (m : List Host.Cell) (pa : Nat) : Byte := kget m pa 0
def reads (m : List Host.Cell) (pa n : Nat) : List Byte := (List.range n).map fun i => read m (pa + i)
/-- Write one byte and keep the canonical form. -/
def write (m : List Host.Cell) (pa : Nat) (b : Byte) : List Host.Cell := kput 0 m pa b
def writes (m : List Host.Cell) (pa : Nat) : List Byte → List Host.Cell
  | [] => m
  | b :: bs => writes (write m pa b) (pa + 1) bs
/-- The canonical form: addresses rise strictly, and no entry is 0. -/
def wf (m : List Host.Cell) : Bool := kwf m && m.all fun c => c.2 != 0

end Memory

def inHbm (pa : Nat) : Bool := decide (pa < Config.hbmSize)
def inNode (pa : Nat) : Bool := decide (Config.nodeBase ≤ pa) && decide (pa < Config.nodeEnd)
def inMgmt (pa : Nat) : Bool := decide (Config.mgmtBase ≤ pa) && decide (pa < Config.mgmtBase + Config.mgmtSize)
/-- HBM4E or control-node memory: where tables may lie (R240). -/
def inMem (pa : Nat) : Bool := inHbm pa || inNode pa

def State.rdNat (s : State) (pa n : Nat) : Nat := leNat (Memory.reads s.mem pa n)
def State.rdWord (s : State) (pa : Nat) : Word := BitVec.ofNat 64 (s.rdNat pa 8)
def State.wrBytes (s : State) (pa : Nat) (bs : List Byte) : State := { s with mem := Memory.writes s.mem pa bs }
def State.wrWord (s : State) (pa : Nat) (w : Word) : State := s.wrBytes pa (bytesOf 8 w.toNat)

/-! ## Device status words -/

def State.statAt (s : State) (off : Nat) : Word := kget s.stat off 0
def State.setStat (s : State) (off : Nat) (w : Word) : State := { s with stat := kput 0 s.stat off w }
def State.bump (s : State) (off : Nat) (n : Nat) : State := s.setStat off (s.statAt off + BitVec.ofNat 64 n)

/-! ## Trap causes (R255, R256) -/

abbrev cIllegalOp : Nat := 0x01
abbrev cIllegalField : Nat := 0x02
abbrev cIllegalOperand : Nat := 0x03
abbrev cStreamFault : Nat := 0x04
abbrev cWindowFault : Nat := 0x05
abbrev cMisaligned : Nat := 0x06
abbrev cPageFault : Nat := 0x07
abbrev cProtection : Nat := 0x08
abbrev cTrapInsn : Nat := 0x09
abbrev cBreakpoint : Nat := 0x0A
abbrev cMixsize : Nat := 0x0B
abbrev cQuarOverflow : Nat := 0x0C
abbrev cEcbCheck : Nat := 0x0D
abbrev cEcbIllegal : Nat := 0x0E
abbrev cRaggedBounds : Nat := 0x0F
abbrev cQueueDeadlock : Nat := 0x10
abbrev cSdcKat : Nat := 0x11
abbrev cUncorrectable : Nat := 0x12
abbrev cPrivilege : Nat := 0x13
abbrev cTemplateFault : Nat := 0x14
abbrev cCollFail : Nat := 0x15
abbrev cLoadRange : Nat := 0x16
abbrev cExchConflict : Nat := 0x17
abbrev cStrike : Nat := 0x80
abbrev cKill : Nat := 0x81
abbrev cRefire : Nat := 0x82
abbrev cCancel : Nat := 0x83
abbrev cJoint : Nat := 0x84

/-- What one word of SQ comes to. -/
inductive Sq where
  | ok (s : State)
  | stall (why : Stall)
  | raise (cause : Nat) (info : Word)

/-- Check, else raise. -/
def guard (c : Bool) (cause : Nat) (info : Word) (k : Sq) : Sq := if c then k else .raise cause info
/-- Wait until a condition holds. -/
def waitFor (c : Bool) (why : Stall) (k : Sq) : Sq := if c then k else .stall why

/-! ## The stream (R49-R53) -/

/-- The address of the word that SQ executes. -/
def Arch.word (a : Arch) : Word := if a.sv then a.hpc else a.pc

/-- Go on after the word: at the end of the body the next parcel must be a header (R52). -/
def Arch.advance (a : Arch) : Arch :=
  if a.sv then { a with hpc := a.hpc + 12 }
  else
    let pc := a.pc + 12
    { a with pc := pc, atHeader := pc == a.bodyStart + BitVec.ofNat 64 (4 * a.bodyLen), jumped := false }

/-- One more word or entry retired (R72). -/
def Arch.retire (a : Arch) : Arch := { a with retired := a.retired + 1 }

/-- A word that SQ executes itself is complete. -/
def State.done (s : State) : State :=
  s.modCur fun k => { k with arch := k.arch.advance.retire, stallSq := none }

/-- A word that SQ has pushed to a queue; it retires there. -/
def State.pushed (s : State) : State :=
  s.modCur fun k => { k with arch := k.arch.advance, stallSq := none }

/-- Write sd and complete. -/
def State.doneWith (s : State) (sd : SReg) (v : Word) : State := (s.modArch (·.wr sd v)).done

/-- Take a stall. -/
def State.stallWith (s : State) (why : Stall) : State := s.modCur fun k => { k with stallSq := some why }

/-- A register still awaits a value (R57). -/
def Core.busy (k : Core) (r : SReg) : Bool := r != 0 && k.pend.any fun p => p.sd == r

/-- No register of the list awaits a value. -/
def Core.free (k : Core) (rs : List SReg) : Bool := rs.all fun r => !k.busy r

def State.isExch (s : State) : Bool := match s.cur.run with | some r => r.exch | none => false
def State.inHandler (s : State) : Bool := s.arch.sv
/-- The name of the task in focus: job and TCB. -/
def State.curRun (s : State) : Option Run := s.cur.run

end Sys2Proof.Machine
end

