-- ==== Sys2Proof/Machine/Memsys.lean ====
section
/-!
DEFINITION. Global memory as the device serves it: the management region's words (spec/06 R145, spec/08 R174, spec/10 R238,
spec/11 R246-R249, spec/12 R267, spec/13 R274), the L2 (spec/06 R142-R148), translation (spec/11 R240-R245), the
quarantine view (spec/06 R125, spec/07 R162), logs (spec/10 R236-R238) and the trace (spec/11 R257-R260).
-/

namespace Sys2Proof.Machine

/-! ## Registers of the management region that software programs -/

/-- Offsets. DEADLOCK_LIMIT and the governor's budget have no stated address (DESIGN CHOICE, log entry 5). -/
def mRetain (n : Nat) : Nat := 0x1000 + 64 * n
def mRing (die : Nat) : Nat := 0x2000 + 0x100 * die
def mDeadlock : Nat := 0x3030
def mBudget : Nat := 0x3038
def mSupvec : Nat := 0x5000

/-- The value of a programmed word that nothing has written: its reset value. -/
def regReset (off : Nat) : Nat :=
  if 0x2000 ≤ off ∧ off < 0x2800 then
    let o := off % 0x100
    if o < 0x20 then 3072 * 65536 + 2048 else if o = 0x30 then 50 else if o = 0x40 then 20 else 0
  else if off = 0x3000 then 4096 else if off = 0x3008 then 16384 else if off = 0x3010 then 3
  else if off = mDeadlock then 65536 else if off = mBudget then budgetReset
  else if off = 0x5208 then 1000 else if off = 0x5240 then 10000
  else 0

def regAt (regs : KMap Word) (off : Nat) : Word := kget regs off (BitVec.ofNat 64 (regReset off))
def State.reg (s : State) (off : Nat) : Word := regAt s.regs off

/-- Retention register fields (R145). -/
def retBase (regs : KMap Word) (n : Nat) : Nat := (regAt regs (mRetain n)).field 0 52
def retEnable (regs : KMap Word) (n : Nat) : Bool := (regAt regs (mRetain n + 8)).field 0 1 == 1
def retQuota (regs : KMap Word) (n : Nat) : Nat := (regAt regs (mRetain n + 8)).field 16 16
def retSize (regs : KMap Word) (n : Nat) : Nat := (regAt regs (mRetain n + 16)).toNat

/-- The sum of the quotas of the enabled registers, in 64 KiB units (R145). -/
def retTotal (regs : KMap Word) : Nat :=
  ((List.range 8).map fun n => if retEnable regs n then retQuota regs n else 0).sum

/-- The offsets of words that a store programs; every other word of the region is read-only or has an effect instead. -/
def regKnown (off : Nat) : Bool :=
  (decide (0x1000 ≤ off) && decide (off < 0x1200) && [0, 8, 16].contains (off % 64)) ||
  (decide (0x2000 ≤ off) && decide (off < 0x2800) &&
    [0, 8, 0x10, 0x18, 0x30, 0x38, 0x40, 0x70, 0x78, 0x80].contains (off % 0x100)) ||
  [0x3000, 0x3008, 0x3010, mDeadlock, mBudget, mSupvec, 0x5100, 0x5108, 0x5200, 0x5208, 0x5240, 0x5248].contains off ||
  (decide (0x6000 ≤ off) && decide (off < 0x8000))

/-- Whether v lies within the limits of the fields of a programmed word. -/
def regLegal (off : Nat) (v : Word) : Bool :=
  let n := v.toNat
  if 0x1000 ≤ off ∧ off < 0x1200 then
    (if off % 64 = 0 then n % 128 == 0 else if off % 64 = 16 then n % 128 == 0 else true)
  else if 0x2000 ≤ off ∧ off < 0x2800 then
    let o := off % 0x100
    if o < 0x20 then
      let hi := v.field 16 16
      let lo := v.field 0 16
      decide (lo < hi) && decide (hi ≤ 4032)
    else if o = 0x30 then decide (1 ≤ n) && decide (n ≤ 65535)
    else if o = 0x40 then decide (n ≤ 1000000)
    else if o = 0x70 ∨ o = 0x78 then n % 4096 == 0
    else if o = 0x80 then n % 65536 == 0 else true
  else if off = 0x3010 then decide (n ≤ 15)
  else if off = mDeadlock then decide (4096 ≤ n) && decide (n ≤ 16777216)
  else if off = 0x5200 then
    decide (v.field 0 4 ≤ v.field 12 4) && decide (v.field 4 4 ≤ v.field 16 4) && decide (v.field 8 4 ≤ v.field 20 4)
  else if off = 0x5208 then decide (1 ≤ n) && decide (n ≤ 1000000)
  else if off = 0x5240 then decide (100 ≤ n) && decide (n ≤ 1000000)
  else if 0x6000 ≤ off ∧ off < 0x8000 then
    -- the base lies in the NMU's own channel, and no unit at or above 768 GiB (R267)
    if off % 16 = 0 then n % 4096 == 0 && n / 4096 % 512 == (off - 0x6000) / 16 && inHbm n else true
  else true

/-- The bits of a programmed word that a store keeps; the others are reserved and read 0. -/
def regMask (off : Nat) : Nat :=
  if 0x1000 ≤ off ∧ off < 0x1200 then
    (if off % 64 = 0 then 2 ^ 52 - 1 else if off % 64 = 8 then 0xFFFF0001 else 2 ^ 64 - 1)
  else if 0x2000 ≤ off ∧ off < 0x2800 then
    let o := off % 0x100
    if o < 0x20 then 2 ^ 32 - 1 else if o = 0x30 then 2 ^ 16 - 1 else if o < 0x50 then 2 ^ 32 - 1 else 2 ^ 64 - 1
  else if off = 0x3010 then 15
  else if off = 0x3000 ∨ off = 0x3008 ∨ off = 0x5208 ∨ off = 0x5240 then 2 ^ 32 - 1
  else if off = 0x5100 then 2 ^ 48 - 4096
  else if off = 0x5200 then 2 ^ 24 - 1
  else if 0x6000 ≤ off ∧ off < 0x8000 then (if off % 16 = 0 then 2 ^ 52 - 1 else 2 ^ 32 - 1)
  else 2 ^ 64 - 1

/-- The last unit of an undo area lies below 768 GiB (R267). -/
def undoFits (regs : KMap Word) (off : Nat) (v : Word) : Bool :=
  if 0x6000 ≤ off ∧ off < 0x8000 then
    let base := if off % 16 = 0 then v.toNat else (regAt regs (off - 8)).toNat
    let size := if off % 16 = 0 then (regAt regs (off + 8)).field 0 32 else v.field 0 32
    size == 0 || decide (base + 0x200000 * (size - 1) < Config.hbmSize)
  else true

/-- A store to a word of the region, as far as it programs a register: a value outside the limits is ignored, and so is
one that takes the quotas past 64 MiB (R145). -/
def regStore (regs : KMap Word) (off : Nat) (v : Word) : KMap Word :=
  let w : Word := v &&& BitVec.ofNat 64 (regMask off)
  if regKnown off && regLegal off w && undoFits regs off w then
    let regs' := kset regs off w
    if decide (0x1000 ≤ off) && decide (off < 0x1200) && decide (1024 < retTotal regs') then regs else regs'
  else regs

/-- Whether the store of R145 is refused for the device total. -/
def retRefused (regs : KMap Word) (off : Nat) (v : Word) : Bool :=
  decide (0x1000 ≤ off) && decide (off < 0x1200) && decide (off % 64 ≤ 16) &&
    decide (1024 < retTotal (kset regs off (v &&& BitVec.ofNat 64 (regMask off))))

/-- UNPIN: the quota of register n becomes 0 (R148). -/
def regUnpin (regs : KMap Word) (n : Nat) : KMap Word :=
  if n < 8 then kset regs (mRetain n + 8) (regAt regs (mRetain n + 8) &&& 1) else regs

/-! ## The trace (R257-R260) -/

/-- A countdown that has ended, or a buffer that is full without WRAP, freezes the trace (R259). -/
def Core.freezeTrace (k : Core) : Core :=
  if k.traceLeft = some 0 ∨ (k.traceWrapped ∧ bitAt k.tracectl 1 = false) then { k with traceLeft := none, tfrozen := true } else k

/-- A record just written at place i takes its place among those of its cycle, in ascending engine code (R258). -/
def sortRecord (buf : KMap (Word × Word)) : Nat → Nat → KMap (Word × Word)
  | 0, _ => buf
  | fuel + 1, i =>
    let j := (i + 2047) % 2048
    match kfind buf i, kfind buf j with
    | some x, some y =>
      if x.1.field 32 32 = y.1.field 32 32 ∧ x.1.field 24 3 < y.1.field 24 3 then sortRecord (kset (kset buf i y) j x) fuel j else buf
    | _, _ => buf

/-- Append a record and run the countdown; nothing once the trace is frozen. -/
def Core.record (k : Core) (cycle kind eng pay : Nat) (dw1 : Word) : Core :=
  if k.tfrozen then k
  else
    let dw0 : Word := BitVec.ofNat 64 (cycle % 2 ^ 32 * 2 ^ 32 + kind * 2 ^ 27 + eng * 2 ^ 24 + pay % 2 ^ 24)
    let i := k.traceIdx + 1
    let full := i == 2048
    Core.freezeTrace { k with
      traceBuf := sortRecord (kset k.traceBuf k.traceIdx (dw0, dw1)) 64 k.traceIdx, traceIdx := if full then 0 else i,
      traceWrapped := k.traceWrapped || full, traceLeft := k.traceLeft.map (· - 1) }

/-- A record of kind 1 to 7, when its kind is enabled (R257). -/
def Core.trace (k : Core) (cycle kind eng pay : Nat) (dw1 : Word) : Core :=
  if bitAt k.tracectl 0 && bitAt k.tracectl (2 + kind) then k.record cycle kind eng pay dw1 else k

/-- A trigger from an enabled source: 0 TRIG, 1 match, 2 fault, 3 strike (R259). -/
def Core.trigger (k : Core) (cycle src : Nat) (addr : Word) : Core :=
  let en := match src with | 0 => 12 | 1 => 15 | 2 => 14 | _ => 13
  if bitAt k.tracectl 0 && bitAt k.tracectl en && k.traceLeft.isNone && !k.tfrozen then
    let k := k.record cycle 8 0 src addr
    let post := k.tracectl.toNat / 2 ^ 48
    if post = 0 then { k with tfrozen := true } else { k with traceLeft := some post }
  else k

/-- A fault report (R260): the kind-9 record, the heads where they are given, and the fault trigger. -/
def Core.fault (k : Core) (cycle cause : Nat) (info addr : Word) (heads : List (Nat × Nat × Word)) : Core :=
  if bitAt k.tracectl 0 then
    let k := k.record cycle 9 0 cause info
    let k := heads.foldl (fun k h => k.record cycle 10 h.1 h.2.1 h.2.2) k
    k.trigger cycle 2 addr
  else k

/-! ## Error logs (R236-R238) -/

def Ring5.code : Ring5 → Nat
  | .vrf => 0 | .acc => 1 | .sp => 2 | .twa => 3 | .queue => 4

/-- An entry of a log ring (R236). -/
def logEntry (kind rung zone loc low : Nat) : Word :=
  BitVec.ofNat 64 (2 ^ 63 + kind * 2 ^ 60 + rung * 2 ^ 57 + zone * 2 ^ 53 + loc * 2 ^ 32 + low % 2 ^ 32)

/-- Append to an error ring of a core; a full ring loses its oldest entry and says so (R236). -/
def Core.log (k : Core) (ring : Nat) (e : Word) : Core :=
  let r := kget k.errlogs ring []
  let r := if r.length < 32 then r ++ [e] else match r.tail with
    | [] => [e]
    | h :: t => (h ||| BitVec.ofNat 64 (2 ^ 62)) :: t ++ [e]
  { k with errlogs := kset k.errlogs ring r }

/-- Append to device log ring n (R238). -/
def State.devLog (s : State) (n : Nat) (e second : Word) : State :=
  let heads := s.statAt 0x3028
  let h := heads.field (16 * n) 16
  let at_ := 0x18000 + 0x1000 * n + 16 * (h % 256)
  let heads' := heads.toNat - h * 2 ^ (16 * n) + (h + 1) % 65536 * 2 ^ (16 * n)
  ((s.setStat at_ e).setStat (at_ + 8) second).setStat 0x3028 (BitVec.ofNat 64 heads')

/-! ## The L2 (R142-R148) -/

/-- The home slice of a physical address (R142). -/
def homeSlice (pa : Nat) : Nat :=
  (pa / 2 ^ 7 % 128) ^^^ (pa / 2 ^ 14 % 128) ^^^ (pa / 2 ^ 21 % 128) ^^^ (pa / 2 ^ 28 % 128) ^^^
    (pa / 2 ^ 35 % 128) ^^^ (pa / 2 ^ 42 % 64)

def l2Set (pa : Nat) : Nat := pa / 2 ^ 14 % 1024
/-- The NMU that owns a physical address (R143). -/
def nmuOf (pa : Nat) : Nat := pa / 4096 % 512

/-- The lowest-numbered enabled register whose range holds a line (R146). -/
def retOwner (regs : KMap Word) (pa : Nat) : Option Nat :=
  (List.range 8).find? fun n =>
    retEnable regs n && decide (retBase regs n ≤ pa) && decide (pa < retBase regs n + retSize regs n)

def State.retCount (s : State) (n : Nat) : Nat := (s.l2.filter fun l => l.2.retained == some n).length

/-- The lines of the set of a line. -/
def State.setLines (s : State) (pa : Nat) : KMap Line :=
  s.l2.filter fun l => l2Set (128 * l.1) == l2Set pa && homeSlice (128 * l.1) == homeSlice pa

/-- The victim of a full set (R144): evict-first lines, then the least recently used, hint-4 lines last. R144 names no order among several
evict-first lines: the least recently used of them goes (DESIGN CHOICE, log entry 58). -/
def victim (ls : KMap Line) : Option Nat :=
  let lru (p : Line → Bool) := (ls.filter fun l => l.2.retained.isNone && p l.2).foldl
    (fun (a : Option (Nat × Nat)) l => match a with
      | some (u, _) => if l.2.used < u then some (l.2.used, l.1) else a
      | none => some (l.2.used, l.1)) none
  match lru (·.age == .first) with
  | some x => some x.2
  | none => match lru (·.age == .ordinary) with
    | some x => some x.2
    | none => (lru (·.age == .last)).map (·.2)

/-- The line after an access to some of its sectors; tick numbers the request (R144's recency). -/
def Line.access (l : Line) (tick cycle : Nat) (hit : Nat → Bool) (store : Bool) (h : Hint) : Line :=
  let secs := (List.range 4).map fun i =>
    let x := l.sectors.getD i { valid := false, dirty := false, stamp := 0 }
    if hit i then
      (if store then { valid := true, dirty := true, stamp := cycle }
       else if x.valid then x else { valid := true, dirty := false, stamp := cycle } : Sector)
    else x
  let secs := if store && h == .bypass then secs.map fun x => { x with dirty := false } else secs
  { l with sectors := secs, used := tick, age := if store && h == .bypass then .first else l.age }

/-- What the L2 holds of a 32-byte sector: valid, dirty. -/
def State.l2Sector (s : State) (k : Nat) : Bool × Bool :=
  match kfind s.l2 (k / 4) with
  | some l => (match l.sectors[k % 4]? with | some x => (x.valid, x.dirty) | none => (false, false))
  | none => (false, false)

/-- A latent error of the L2 or of HBM4E is met, on use (kind 0) or by a scrub or patrol read (kind 1): corrected; a clean sector is
fetched again; any other is poisoned (R225, R232). Logged in ring 0 for the L2, 1 for HBM4E (R238). -/
def State.meetFlaw (s : State) (kind k : Nat) (ok : Bool) : State :=
  let (valid, dirty) := s.l2Sector k
  let ring := if valid then 0 else 1
  let s := { s with memFlaws := kdel s.memFlaws k }
  let s := s.devLog ring (logEntry (if ok then kind else 2) 1 0 0 s.cycle) (BitVec.ofNat 64 (32 * k))
  if ok then s.bump 0x3020 1 else if valid && !dirty then s else { s with poison := nins s.poison k }

/-- Lines leave the L2: a dirty sector is written to HBM4E, which meets its latent error; a clean one's error goes with it (R144, R225). -/
def State.dropLines (s : State) (out : Nat → Bool) : State :=
  let s := (s.memFlaws.filter fun f => out (f.1 / 4) && (s.l2Sector f.1).1).foldl (fun (s : State) f =>
    if (s.l2Sector f.1).2 then s.meetFlaw 0 f.1 f.2 else { s with memFlaws := kdel s.memFlaws f.1 }) s
  { s with l2 := s.l2.filter fun l => !out l.1 }

/-- A line is served (R144, R146): a hit, an allocation or neither. -/
def State.lineServe (s : State) (line : Nat) (secs : Nat → Bool) (store : Bool) (h : Hint) : State :=
  let pa := 128 * line
  let owner := retOwner s.regs pa
  match kfind s.l2 line with
  | some l => { s with l2 := kset s.l2 line (l.access s.l2Tick s.cycle secs store h), l2Tick := s.l2Tick + 1 }
  | none =>
    if h == .noAllocate || h == .bypass || !inHbm pa then s
    else
      let ls := s.setLines pa
      let s := if ls.length < 14 then s else match victim ls with
        | some v => s.dropLines fun l => l == v
        | none => s
      let keep : Bool := match owner with
        | some n => decide (s.retCount n < 512 * retQuota s.regs n) &&
            decide ((ls.filter fun l => l.2.retained.isSome).length < 12)
        | none => false
      let s := match owner with
        | some n => if keep then s else s.bump (mRetain n + 40) 1
        | none => s
      let age := match h with | .evictFirst => Age.first | .retain => .last | _ => .ordinary
      let l : Line := { sectors := [], age := age, used := s.l2Tick, retained := if keep then owner else none }
      { s with l2 := kset s.l2 line (l.access s.l2Tick s.cycle secs store h), l2Tick := s.l2Tick + 1 }

/-- One request for one line (R147): the hit or miss counter of its register. -/
def State.lineCount (s : State) (line : Nat) : State :=
  match retOwner s.regs (128 * line) with
  | some n => s.bump (mRetain n + (if (kfind s.l2 line).isSome then 24 else 32)) 1
  | none => s

/-- A request that is counted and served. -/
def State.lineReq (s : State) (line : Nat) (secs : Nat → Bool) (store : Bool) (h : Hint) : State :=
  (s.lineCount line).lineServe line secs store h

/-- Every latent error of the sectors that [pa, pa + n) touches is met. -/
def State.meetFlaws (s : State) (kind pa n : Nat) : State :=
  (s.memFlaws.filter fun f => decide (32 * f.1 < pa + n) && decide (pa < 32 * f.1 + 32)).foldl
    (fun (s : State) f => s.meetFlaw kind f.1 f.2) s

/-- The requests of an access to bytes [pa, pa + n), one per line (R147). -/
def State.l2Access (s : State) (pa n : Nat) (store : Bool) (h : Hint) : State :=
  if n = 0 ∨ inMgmt pa then s
  else (List.range ((pa + n - 1) / 128 + 1 - pa / 128)).foldl (fun s i =>
    let line := pa / 128 + i
    s.lineReq line (fun k => decide (pa < 128 * line + 32 * k + 32) && decide (128 * line + 32 * k < pa + n)) store h)
      (s.meetFlaws 0 pa n)

/-- Some byte of [pa, pa + n) lies in a poisoned sector (R225), or in one that the read finds uncorrectable. -/
def State.poisoned (s : State) (pa n : Nat) : Bool :=
  (s.poison.any fun k => decide (32 * k < pa + n) && decide (pa < 32 * k + 32)) ||
    s.memFlaws.any fun f => !f.2 && decide (32 * f.1 < pa + n) && decide (pa < 32 * f.1 + 32) &&
      !((s.l2Sector f.1).1 && !(s.l2Sector f.1).2)

/-- A store that writes all 32 bytes of a sector clears its poison (R225), with a latent error. -/
def State.unpoison (s : State) (pa n : Nat) : State :=
  { s with
    poison := s.poison.filter (fun (k : Nat) => !(decide (pa ≤ 32 * k) && decide (32 * k + 32 ≤ pa + n))),
    memFlaws := s.memFlaws.filter fun (f : Nat × Bool) => !(decide (pa ≤ 32 * f.1) && decide (32 * f.1 + 32 ≤ pa + n)) }

/-- A store that performs at its home slice. -/
def State.store (s : State) (pa : Nat) (bs : List Byte) (h : Hint) : State :=
  ((s.l2Access pa bs.length true h).unpoison pa bs.length).wrBytes pa bs

/-- The sectors that committed bytes [pa, pa + n) touch, with the cycle, for as long as a strike can name it (R226). -/
def State.noteCommit (s : State) (pa n : Nat) : State :=
  if n = 0 then s
  else
    let old := s.commits.filter fun c => decide (s.cycle ≤ c.2 + Config.window)
    { s with commits := (List.range ((pa + n - 1) / 32 + 1 - pa / 32)).foldl (fun m i => kset m (pa / 32 + i) s.cycle) old }

/-! ## Translation (R240-R245) -/

/-- A translated address: the first byte's, the start of the next page for an access that spans two, and whether each
page is uncacheable. -/
structure Xl where
  pa : Nat
  pa2 : Nat
  uncached : Bool
  uncached2 : Bool := false
  deriving DecidableEq, Repr

/-- The physical address of byte i of a range. -/
def spanPa (pa pa2 i : Nat) : Nat := if pa % 4096 + i < 4096 then pa + i else pa2 + (pa % 4096 + i - 4096)

/-- The ways a translation fails: PAGE_FAULT, PROTECTION, and a PTE in a poisoned sector (R225). -/
inductive XlFail where
  | page
  | prot
  | bad
  deriving DecidableEq, Repr

def pteBit (e : Word) (i : Nat) : Bool := bitAt e i
def ptePa (e : Word) : Nat := e.field 12 40 * 4096
def leafSize (level : Nat) : Nat := 2 ^ (12 + 9 * (4 - level))

/-- Malformed (R241) for an entry with V = 1. -/
def malformed (e : Word) (level : Nat) : Bool :=
  let leaf := pteBit e 4
  pteBit e 11 || decide (e.field 8 2 ≥ 2) ||
  (if leaf then level == 1 || !pteBit e 1 || ptePa e % leafSize level != 0
   else level == 4 || e.field 5 6 != 0 || e.field 1 3 != 0 || !inMem (ptePa e))

/-- The walk (R240) from a table at level `5 - fuel`: the leaf, its level and its address. -/
def walk (mem : List Host.Cell) (va : Nat) : Nat → Nat → Except XlFail (Word × Nat × Nat)
  | 0, _ => .error .prot
  | fuel + 1, t =>
    let level := 4 - fuel
    if !inMem t then .error .prot
    else
      let at_ := t + 8 * (va / leafSize level % 512)
      let e : Word := BitVec.ofNat 64 (leNat (Memory.reads mem at_ 8))
      if !pteBit e 0 then .error .page
      else if malformed e level then .error .prot
      else if pteBit e 4 then .ok (e, level, at_)
      else walk mem va fuel (ptePa e)

/-- The addresses of the PTEs that a walk loads, in order (R240). -/
def walkReads (mem : List Host.Cell) (va : Nat) : Nat → Nat → List Nat
  | 0, _ => []
  | fuel + 1, t =>
    let level := 4 - fuel
    if !inMem t then []
    else
      let at_ := t + 8 * (va / leafSize level % 512)
      let e : Word := BitVec.ofNat 64 (leNat (Memory.reads mem at_ 8))
      if !pteBit e 0 || malformed e level || pteBit e 4 then [at_] else at_ :: walkReads mem va fuel (ptePa e)

/-- The loads of a walk at the home slices (R147), and whether one met a poisoned sector, where the walk ends (R225). -/
def State.walkLoads : List Nat → State → State × Bool
  | [], s => (s, false)
  | a :: t, s =>
    let s := s.l2Access a 8 false .normal
    if s.poisoned a 8 then (s, true) else State.walkLoads t s

/-- The permission of an access (R242). -/
def permits (e : Word) (acc : Access) : Bool :=
  match acc with
  | .read => pteBit e 1
  | .write => pteBit e 1 && pteBit e 2
  | .fetch => pteBit e 3
  | .nmRead => pteBit e 1 && pteBit e 10
  | .nmWrite => pteBit e 1 && pteBit e 2 && pteBit e 10

def accWrites : Access → Bool
  | .write | .nmWrite => true | _ => false

/-- The root table of a job (R44). -/
def State.rootOf (s : State) (job : Nat) : Nat :=
  match kfind s.jobs job with | some j => (j.desc.getD 1 0).toNat | none => 0

def TlbEntry.hits (t : TlbEntry) (job va : Nat) : Bool :=
  t.job == job && t.va == va / leafSize t.level

/-- Insert at the end; the oldest entry leaves a full TLB (DESIGN CHOICE, log entry 7). -/
def tlbPut (cap : Nat) (l : List TlbEntry) (e : TlbEntry) : List TlbEntry :=
  let l := l.filter fun t => !(t.job == e.job && t.level == e.level && t.va == e.va)
  (if l.length < cap then l else l.drop 1) ++ [e]

/-- The entry of the core's TLB, else of the die's, for a VA. -/
def State.tlbHit (s : State) (core : Option Nat) (die job va : Nat) : Option TlbEntry :=
  let c := match core with | some c => (s.core c).tlb.find? (·.hits job va) | none => none
  match c with
  | some t => some t
  | none => (kget s.dieTlbs die []).find? (·.hits job va)

/-- The entries of a TLB for a VA as a lookup leaves them: a latent error is corrected, or the entry is invalidated and walked again
(spec/10 R232). -/
def tlbUse (job va : Nat) (l : List TlbEntry) : List TlbEntry :=
  (l.filter fun t => !(t.hits job va && t.flaw == some false)).map fun t => if t.hits job va then { t with flaw := none } else t

/-- Errors that a lookup corrects. -/
def tlbFixed (job va : Nat) (l : List TlbEntry) : Nat := (l.filter fun t => t.hits job va && t.flaw == some true).length

/-- A lookup meets the latent errors of the entries that it finds (spec/10 R232). -/
def State.tlbMeet (s : State) (core : Option Nat) (die job va : Nat) : State :=
  let bad (l : List TlbEntry) : Bool := l.any fun t => t.flaw.isSome && t.hits job va
  let s := match core with
    | some c => if bad (s.core c).tlb then
        (s.bump 0x3020 (tlbFixed job va (s.core c).tlb)).modCore c fun k => { k with tlb := tlbUse job va k.tlb } else s
    | none => s
  let d := kget s.dieTlbs die []
  if bad d then { s.bump 0x3020 (tlbFixed job va d) with dieTlbs := kset s.dieTlbs die (tlbUse job va d) } else s

/-- A leaf serves an access: permissions, then A and D, set in the PTE by an atomic OR (R243). -/
def State.useLeaf (s : State) (va : Nat) (acc : Access) (e : Word) (level at_ : Nat) : State × Except XlFail Xl :=
  if !permits e acc then (s, .error .prot)
  else
    let need : Word := BitVec.ofNat 64 (32 + (if accWrites acc then 64 else 0))
    let s := if e ||| need = e then s
      else ((s.l2Access at_ 8 true .normal).wrWord at_ (s.rdWord at_ ||| need))
    let pa := ptePa e + va % leafSize level
    if inMem pa || inMgmt pa then (s, .ok { pa := pa, pa2 := 0, uncached := e.field 8 2 == 1 })
    else (s, .error .prot)

/-- The walk of a VA with its loads (R240, R225). -/
def State.walked (s : State) (job va : Nat) : State × Except XlFail (Word × Nat × Nat) :=
  let (u, bad) := s.walkLoads (walkReads s.mem va 4 (s.rootOf job))
  (u, if bad then .error .bad else walk s.mem va 4 (s.rootOf job))

/-- The TLBs keep a leaf that has served an access. -/
def State.tlbKeep (s : State) (core : Option Nat) (die : Nat) (t : TlbEntry) : State :=
  let s := match core with
    | some c => s.modCore c fun k => { k with tlb := tlbPut 64 k.tlb t }
    | none => s
  { s with dieTlbs := kset s.dieTlbs die (tlbPut 4096 (kget s.dieTlbs die []) t) }

/-- Translate for an access: through the TLBs, else by a walk. -/
def State.translate (s : State) (core : Option Nat) (die job va : Nat) (acc : Access) : State × Except XlFail Xl :=
  let va := va % 2 ^ 48
  let s := s.tlbMeet core die job va
  let (s, found) : State × Except XlFail (Word × Nat × Nat) := match s.tlbHit core die job va with
    | some t => (s, .ok (t.pte, t.level, t.pteAt))
    | none => s.walked job va
  match found with
  | .error f => (s, .error f)
  | .ok (e, level, at_) =>
    let (s, r) := s.useLeaf va acc e level at_
    let set : Word := BitVec.ofNat 64 (32 + (if accWrites acc then 64 else 0))
    (if permits e acc then
        s.tlbKeep core die { job := job, level := level, va := va / leafSize level, pte := e ||| set, pteAt := at_ }
      else s, r)

/-- Translate when the access is made, not by any earlier translation: the accesses of the device (spec/02 R460, R461). -/
def State.translateNow (s : State) (job va : Nat) (acc : Access) : State × Except XlFail Xl :=
  let va := va % 2 ^ 48
  let (s, found) := s.walked job va
  match found with
  | .error f => (s, .error f)
  | .ok (e, level, at_) => s.useLeaf va acc e level at_

/-- Of two failures, the one that R71 ranks first: PROTECTION, PAGE_FAULT, then UNCORRECTABLE; the earlier page of equals. -/
def XlFail.worse (a b : XlFail × Nat) : XlFail × Nat :=
  match a.1, b.1 with
  | .prot, _ => a
  | .page, .prot => b
  | .bad, .prot => b
  | .bad, .page => b
  | _, _ => a

/-- Translate every page of [va, va + n) by xl, whatever the others do (R357). The answer is that of the first page, with the second's
start; of the failures, the one that R71 ranks first comes with the address that fails. -/
def State.eachPage (s : State) (xl : State → Nat → State × Except XlFail Xl) (va n : Nat) : State × Except (XlFail × Nat) Xl :=
  let (s, r) := xl s va
  let r : Except (XlFail × Nat) Xl := match r with
    | .error f => .error (f, va)
    | .ok x => .ok x
  (List.range ((va + n - 1) / 4096 - va / 4096)).foldl (fun (sr : State × Except (XlFail × Nat) Xl) i =>
    let at_ := (va / 4096 + 1 + i) * 4096
    let (s, r) := xl sr.1 at_
    match sr.2, r with
    | .error f, .error g => (s, .error (XlFail.worse f (g, at_)))
    | .error f, .ok _ => (s, .error f)
    | .ok _, .error g => (s, .error (g, at_))
    | .ok x, .ok y => (s, .ok (if i = 0 then { x with pa2 := y.pa, uncached2 := y.uncached } else x))) (s, r)

/-- Translate a range for an access. -/
def State.translateRange (s : State) (core : Option Nat) (die job va n : Nat) (acc : Access) :
    State × Except (XlFail × Nat) Xl :=
  s.eachPage (fun s a => s.translate core die job a acc) va n

/-- The physical address of a VA as memory stands, without effect; for bytes of a range that has translated. -/
def State.paOf (s : State) (job va : Nat) : Option Nat :=
  match walk s.mem (va % 2 ^ 48) 4 (s.rootOf job) with
  | .ok (e, level, _) =>
    let pa := ptePa e + va % 2 ^ 48 % leafSize level
    if inMem pa || inMgmt pa then some pa else none
  | .error _ => none

/-- The hint that serves an access, in its first page and in its second (R143, R273). -/
def Xl.hint (x : Xl) (h : Hint) : Hint := if x.uncached || !inHbm x.pa then .bypass else h
def Xl.hint2 (x : Xl) (h : Hint) : Hint := if x.uncached2 || !inHbm x.pa2 then .bypass else h

/-- Some page of a span lies in the management region (R457). -/
def Xl.inRegion (x : Xl) (n : Nat) : Bool := inMgmt x.pa || (decide (4096 < x.pa % 4096 + n) && inMgmt x.pa2)

/-- A span of two pages at va as memory stands, without effect; where a page does not translate, an address that no access reaches, so that
provisional bytes of it still occupy their lines (R250). -/
def State.provXl (s : State) (job va : Nat) : Xl :=
  let at_ (v : Nat) : Nat := match s.paOf job v with | some pa => pa | none => 2 ^ 60 + v
  let off (v : Nat) : Bool := match walk s.mem (v % 2 ^ 48) 4 (s.rootOf job) with | .ok (e, _) => e.field 8 2 == 1 | .error _ => false
  { pa := at_ va, pa2 := at_ ((va / 4096 + 1) * 4096), uncached := off va, uncached2 := off ((va / 4096 + 1) * 4096) }

/-- Some byte of a span is poisoned (R225). -/
def State.spanPoisoned (s : State) (x : Xl) (n : Nat) : Bool :=
  let n1 := min n (4096 - x.pa % 4096)
  s.poisoned x.pa n1 || (n1 < n && s.poisoned x.pa2 (n - n1))

/-- Bytes of global memory by VA: 0 where the VA does not translate. -/
def State.vaByte (s : State) (job va : Nat) : Byte :=
  match s.paOf job va with | some pa => Memory.read s.mem pa | none => 0

def State.vaNat (s : State) (job va n : Nat) : Nat :=
  leNat ((List.range n).map fun i => s.vaByte job (va + i))

/-! ## The quarantine view (R125) and forwarding (R162, R163) -/

def State.task (s : State) (job tcb : Nat) : Option Task := s.tasks.find? fun t => t.job == job && t.tcb == tcb

def State.modTask (s : State) (job tcb : Nat) (f : Task → Task) : State :=
  { s with tasks := replaceFirst (fun t => t.job == job && t.tcb == tcb) f s.tasks }

/-- The newest byte a quarantine holds at pa. -/
def viewByte (q : List QEntry) (pa : Nat) : Option Byte :=
  q.foldl (fun a e => if e.pa ≤ pa ∧ pa < e.pa + e.bytes.length then e.bytes[pa - e.pa]? else a) none

/-- Distinct 128-byte lines that a quarantine holds a byte of (R25). -/
def quarLines (q : List QEntry) : NSet :=
  q.foldl (fun a e => if e.bytes.isEmpty then a
    else (List.range ((e.pa + e.bytes.length - 1) / 128 + 1 - e.pa / 128)).foldl
      (fun a i => nins a (e.pa / 128 + i)) a) []

/-- The lines the task's held items occupy (R25). -/
def Task.lines (t : Task) : Nat := (quarLines t.quar).length + t.held.length

/-- The newest forwarded byte that a core of the cluster may see, and its writer (R162). -/
def State.fwdByte (s : State) (core job pa : Nat) : Option (Byte × Nat) :=
  ((s.fwds.filter fun f => f.cluster == clusterOf core && f.job == job && f.core != core && f.pa == pa).getLast?).map
    fun f => (f.byte, f.tcb)

/-- The bytes at pa 0, pa 1, … as a task reads them: its quarantine, forwarded values when the scope is 3, then memory; and
the tasks whose forwarded values it took. -/
def State.viewBytes (s : State) (core job tcb : Nat) (pa : Nat → Nat) (n : Nat) (scope3 : Bool) : List Byte × NSet :=
  let q := match s.task job tcb with | some t => t.quar | none => []
  (List.range n).foldl (fun (acc : List Byte × NSet) i =>
    match viewByte q (pa i) with
    | some b => (acc.1 ++ [b], acc.2)
    | none => match (if scope3 then s.fwdByte core job (pa i) else none) with
      | some (b, w) => (acc.1 ++ [b], nins acc.2 w)
      | none => (acc.1 ++ [Memory.read s.mem (pa i)], acc.2)) ([], [])

/-- MIXSIZE (R166): an entry of another core, another size, overlapping, within 4,096 cycles. -/
def State.mixHit (s : State) (core pa n : Nat) : Bool :=
  (s.core core).mixchk && (kget s.recent (homeSlice pa) []).any fun r =>
    r.word == pa / 8 && r.core != core && r.n != n && decide (r.lo < pa + n) && decide (pa < r.lo + r.n) &&
      decide (s.cycle ≤ r.cycle + 4096)

/-- Record a strong access in its slice's table of 256 entries (R166). -/
def State.noteStrong (s : State) (core pa n : Nat) : State :=
  let l := kget s.recent (homeSlice pa) []
  let l := if l.length < 256 then l else l.drop 1
  let l := l ++ [{ word := pa / 8, core := core, lo := pa, n := n, cycle := s.cycle }]
  { s with recent := kset s.recent (homeSlice pa) l }

/-- A strong store has replaced the bytes old at pa (R165). -/
def State.noteStore (s : State) (core pa : Nat) (old : List Byte) : State :=
  let l := kget s.strong (pa / 8) [] ++ [{ core := core, lo := pa, n := old.length, cycle := s.cycle, old := old }]
  { s with strong := kset s.strong (pa / 8) l }

/-- The number that stands for the host among the issuers of strong accesses (R165). -/
abbrev theHost : Nat := 1024

/-- The last cycle in which a core, or the host, can have acquired anything (R167, R173). -/
def State.synced (s : State) (core : Nat) : Nat :=
  if core = theHost then s.host.acquired
  else max (s.core core).acquired (match (s.core core).run with | some r => r.since | none => 0)

/-- A strong store that a strong access of [pa, pa + n) by a core races with at address a (R165): another core's, of another size, which
performed after the last point at which the core can have acquired anything. -/
def State.racesAt (s : State) (core pa n a : Nat) : Option Strong :=
  (kget s.strong (pa / 8) []).find? fun r =>
    r.core != core && r.n != n && decide (r.lo ≤ a) && decide (a < r.lo + r.old.length) && decide (s.synced core < r.cycle)

/-- Memory as a strong load of [pa, pa + n) finds it: each byte of a store that it races with is the stored value or the one before it. -/
def State.racingLoad (s : State) (core pa n : Nat) : State :=
  { s with mem := (List.range n).foldl (fun m i => match s.racesAt core pa n (pa + i) with
      | some r => if Config.mixByte s.cycle (pa + i) then Memory.write m (pa + i) (r.old.getD (pa + i - r.lo) 0) else m
      | none => m) s.mem }

/-- The bytes that a strong store leaves: where it races with another, each is one store's or the other's. -/
def State.racingStore (s : State) (core pa : Nat) (bs : List Byte) : List Byte :=
  bs.zipIdx.map fun b =>
    if (s.racesAt core pa bs.length (pa + b.2)).isSome && Config.mixByte s.cycle (pa + b.2) then Memory.read s.mem (pa + b.2) else b.1

/-- The occupant of a core has read something that may have been released to it (R167). -/
def State.acquire (s : State) (core : Nat) : State := s.modCore core fun k => { k with acquired := s.cycle }

/-- Lookups and misses of a launch's ranges, per 32-byte sector (R149). -/
def State.hot (s : State) (job launch va n : Nat) (missed : Bool) : State :=
  let count (l : Lnch) (i : Nat) : Lnch :=
    let w := l.words.getD (16 + i) 0
    let lo := w.field 0 36 * 4096
    if lo ≤ va ∧ va < lo + w.field 36 26 * 4096 then
      let c := kget l.ranges i (0, 0)
      let m := (va + n - 1) / 32 + 1 - va / 32
      { l with ranges := kset l.ranges i (c.1 + m, c.2 + (if missed then m else 0)) }
    else l
  let upd := replaceFirst (fun l => l.job == job && l.id == launch) (fun l => (List.range 16).foldl count l) s.launches
  { s with launches := upd }

def Sector.none : Sector := { valid := false, dirty := false, stamp := 0 }

/-- The 32-byte sector at pa is not in the L2. -/
def State.secMiss (s : State) (pa : Nat) : Bool :=
  match kfind s.l2 (pa / 128) with
  | some l => !(l.sectors.getD (pa % 128 / 32) Sector.none).valid
  | none => true

/-- Count an access for the launch's ranges, one lookup per sector (R149). -/
def State.hotSpan (s : State) (job launch va pa pa2 n : Nat) : State :=
  if n = 0 then s
  else (List.range ((va + n - 1) / 32 + 1 - va / 32)).foldl (fun s i =>
    let off := if i = 0 then 0 else (va / 32 + i) * 32 - va
    s.hot job launch (va + off) 1 (s.secMiss (spanPa pa pa2 off))) s

/-- The requests of an access that may span two pages, and their counters. -/
def State.request (s : State) (job launch va : Nat) (x : Xl) (n : Nat) (store : Bool) (h : Hint) : State :=
  let s := s.hotSpan job launch va x.pa x.pa2 n
  let n1 := min n (4096 - x.pa % 4096)
  (s.l2Access x.pa n1 store (x.hint h)).l2Access x.pa2 (n - n1) store (x.hint2 h)

/-! ## Quarantined bytes that a TEND or a PUBV applies (R26, R147, R149, R203) -/

/-- The sectors that the bytes of entries touch, by PA / 32, each with its VA. -/
def sectorMap (es : List QEntry) : KMap Nat :=
  es.foldl (fun m e => if e.bytes.isEmpty then m
    else (List.range ((e.pa + e.bytes.length - 1) / 32 + 1 - e.pa / 32)).foldl (fun m i =>
      let k := e.pa / 32 + i
      kset m k (e.va + (max e.pa (32 * k) - e.pa))) m) []

/-- The lines that an entry touches. -/
def QEntry.lines (e : QEntry) : List Nat :=
  if e.bytes.isEmpty then [] else (List.range ((e.pa + e.bytes.length - 1) / 128 + 1 - e.pa / 128)).map (e.pa / 128 + ·)

/-- The requests of applied bytes: a lookup for each sector (R149); one request for each line (R147), which takes the entries of the line in
their order (R125, spec/18 R434). -/
def State.applyRequests (s : State) (job launch : Nat) (es : List QEntry) : State :=
  let s := (sectorMap es).foldl (fun s x => s.hot job launch x.2 1 (s.secMiss (32 * x.1))) s
  (es.foldl (fun (a : State × NSet) e => e.lines.foldl (fun (a : State × NSet) line =>
    let secs (k : Nat) : Bool := decide (e.pa < 128 * line + 32 * k + 32) && decide (128 * line + 32 * k < e.pa + e.bytes.length)
    let s := if a.2.contains line then a.1 else a.1.lineCount line
    (s.lineServe line secs true e.hint, nins a.2 line)) a) (s, [])).1

/-- Apply one entry. core: where its task runs; a strong store of it races as R165 says, and is entered in its slice's table. The answer:
its address where MIXSIZE traps it (R166). -/
def State.applyEntry (s : State) (core : Option Nat) (e : QEntry) : State × Option Nat :=
  let s := s.meetFlaws 0 e.pa e.bytes.length
  let put (s : State) (bs : List Byte) : State := ((s.unpoison e.pa bs.length).wrBytes e.pa bs).noteCommit e.pa bs.length
  match core, e.strong with
  | some c, true =>
    let mix := s.mixHit c e.pa e.bytes.length
    (((put s (s.racingStore c e.pa e.bytes)).noteStrong c e.pa e.bytes.length).noteStore c e.pa (Memory.reads s.mem e.pa e.bytes.length),
      if mix then some e.va else none)
  | _, _ => (put s e.bytes, none)

/-- Apply entries of a task of a launch, in order. The answer: the address of the first that MIXSIZE traps. -/
def State.applyEntries (s : State) (core : Option Nat) (job launch : Nat) (es : List QEntry) : State × Option Nat :=
  es.foldl (fun (a : State × Option Nat) e => let (s, mix) := a.1.applyEntry core e; (s, a.2.or mix))
    (s.applyRequests job launch es, none)

/-- A store of a task's bytes that performs at its home slices, not through the quarantine. -/
def State.storeX (s : State) (job launch va : Nat) (x : Xl) (bs : List Byte) (h : Hint) : State :=
  let s := s.request job launch va x bs.length true h
  let n1 := min bs.length (4096 - x.pa % 4096)
  let put (s : State) (pa : Nat) (bs : List Byte) : State := ((s.unpoison pa bs.length).wrBytes pa bs).noteCommit pa bs.length
  put (put s x.pa (bs.take n1)) x.pa2 (bs.drop n1)

/-! ## Reading the management region (R145, R174, R238, R246, R248, R274) -/

def State.ring (s : State) (die : Nat) : Ringm := kget s.rings die Ringm.reset
def State.modRing (s : State) (die : Nat) (f : Ringm → Ringm) : State :=
  { s with rings := kset s.rings die (f (s.ring die)) }

/-- The depth of class c: its queue and the spill list (R186). -/
def Ringm.depth (r : Ringm) (c : Nat) : Nat :=
  (r.ready.filter (·.qcls == c)).length + (r.spill.filter (·.qcls == c)).length

/-- The 64-bit word at an aligned offset of the region. A class depth above 65,535 stands modulo 2^16 in its field (DESIGN CHOICE, log entry
58). -/
def State.mgmtWord (s : State) (off : Nat) : Word :=
  if 0x1000 ≤ off ∧ off < 0x1200 then
    let n := (off - 0x1000) / 64
    if off % 64 = 48 then BitVec.ofNat 64 (s.retCount n)
    else if off % 64 = 8 then s.reg off ||| s.statAt off
    else if off % 64 ≤ 16 then s.reg off else s.statAt off
  else if 0x2000 ≤ off ∧ off < 0x2800 then
    let r := s.ring ((off - 0x2000) / 0x100)
    let o := off % 0x100
    if o = 0x20 then BitVec.ofNat 64
      ((List.range 4).foldl (fun a c => a + r.depth c % 65536 * 2 ^ (16 * c)) 0)
    else if o = 0x28 then BitVec.ofNat 64
      (r.overflow.foldl (fun a c => a + 2 ^ c) 0 + (if r.spill.isEmpty then 0 else 16))
    else if o = 0x48 then BitVec.ofNat 64 r.floor
    else if 0x50 ≤ o ∧ o ≤ 0x68 then s.statAt off
    else s.reg off
  else if off = 0x3018 then BitVec.ofNat 64 s.poison.length
  else if 0x3080 ≤ off ∧ off < 0x3100 then
    bitTab fun i => (s.core (8 * (off - 0x3080) + i)).degraded
  else if off = 0x5110 then BitVec.ofNat 64 (if s.tlbinv.isSome then 0 else 2)
  else if 0x5210 ≤ off ∧ off < 0x5240 then
    s.statAt off ||| BitVec.ofNat 64 (kget s.ports ((off - 0x5210) / 8) Port.reset).state
  else if off = 0x5250 then BitVec.ofNat 64 s.plat.power
  else if 0x6000 ≤ off ∧ off < 0x8000 ∧ off % 16 = 8 then
    s.reg off + BitVec.ofNat 64 ((kget s.nmus ((off - 0x6000) / 16) Nmu.reset).log.length * 2 ^ 32)
  else if 0x100000 ≤ off ∧ off < 0x100000 + 0x8000 * 1024 then
    let k := s.core ((off - 0x100000) / 0x8000)
    let r := kget k.traceBuf (off % 0x8000 / 16) (0, 0)
    if off % 16 = 0 then r.1 else r.2
  else if regKnown off then s.reg off else s.statAt off

/-- A byte of the region. -/
def State.mgmtByte (s : State) (off : Nat) : Byte :=
  BitVec.ofNat 8 ((s.mgmtWord (off / 8 * 8)).toNat / 2 ^ (8 * (off % 8)))

/-- A byte at a physical address. -/
def State.physByte (s : State) (pa : Nat) : Byte :=
  if inMgmt pa then s.mgmtByte (pa - Config.mgmtBase) else Memory.read s.mem pa

/-! ## Uzolink: what the device sends (R282-R284) -/

/-- Send a message: it takes the next number, and the last 64 are retained (R283, R284). -/
def State.send (s : State) (type status : Nat) (payload : List Byte) : State :=
  let m : Msg := { type := type, status := status, seq := (s.host.d + 1) % 2 ^ 32, ack := s.host.h, payload := payload }
  let sent := s.host.sent ++ [m]
  { s with host := { s.host with d := m.seq, acquired := s.cycle, sent := if sent.length ≤ 64 then sent else sent.drop 1 } }

/-- A payload of one doubleword, padded to 16 bytes. -/
def payloadOf (v : Nat) : List Byte := bytesOf 16 v

/-- A notice: a completion word or a fault ring has changed (R282). -/
def State.notice (s : State) (va : Nat) : State := s.send 0x20 0 (payloadOf va)

end Sys2Proof.Machine
end

