-- ==== Sys2Proof/Machine/Undo.lean ====
section
/-!
DEFINITION. The undo log of the NMUs (spec/12 R267-R269): where a record stands, how one is appended, discarded and applied.
-/

namespace Sys2Proof.Machine

def undoBaseOff (nmu : Nat) : Nat := 0x6000 + 16 * nmu
/-- Base and size in 4 KiB units of an NMU's undo area. -/
def undoBase (regs : KMap Word) (nmu : Nat) : Nat := (regAt regs (undoBaseOff nmu)).toNat
def undoUnits (regs : KMap Word) (nmu : Nat) : Nat := (regAt regs (undoBaseOff nmu + 8)).field 0 32

/-- The address of record pos: 32 to a unit, units 2 MiB apart (R267). -/
def recordPa (base pos : Nat) : Nat := base + 0x200000 * (pos / 32) + 128 * (pos % 32)

/-- The first place of an area that holds no record. -/
def freePos (log : List LogRec) (cap : Nat) : Option Nat :=
  (List.range (log.length + 1)).find? fun p => decide (p < cap) && !log.any fun r => r.pos == p

/-- The 128 bytes of a record (R268). -/
def recordBytes (pa step : Nat) (old : List Byte) : List Byte :=
  let body := bytesOf 8 pa ++ bytesOf 8 step ++ old
  body ++ bytesOf 8 (crc32c body).toNat ++ List.replicate 40 0

/-- Log a granule before it changes: none when the area is full (R268). -/
def State.logGranule (s : State) (nmu job step : Nat) (task : Option Nat) (pa : Nat) : Option State :=
  let n := kget s.nmus nmu Nmu.reset
  match freePos n.log (32 * undoUnits s.regs nmu) with
  | none => none
  | some pos =>
    let r : LogRec := { job := job, task := task, step := step, pos := pos }
    let s := s.wrBytes (recordPa (undoBase s.regs nmu) pos) (recordBytes pa step (Memory.reads s.mem pa 64))
    some { s with nmus := kset s.nmus nmu { n with log := n.log ++ [r] } }

/-- Drop every record of a step (STEP.COMMIT). -/
def State.stepDiscard (s : State) (job step : Nat) : State :=
  { s with nmus := s.nmus.map fun n =>
      (n.1, { n.2 with log := n.2.log.filter fun r => !(r.job == job && r.step == step) }) }

/-- Apply one record when its CRC checks; else enter its address in log ring 1 (R269). The Bool: it was skipped. -/
def State.applyRecord (s : State) (at_ : Nat) : State × Bool :=
  -- a record in a sector that cannot be read is skipped as one whose CRC fails (R230)
  let lost := s.poisoned at_ 128
  let s := s.meetFlaws 0 at_ 128
  let body := Memory.reads s.mem at_ 80
  if !lost && (crc32c body).toNat = s.rdNat (at_ + 80) 4 then
    let pa := leNat (body.take 8) % 2 ^ 52
    (s.wrBytes pa (body.drop 16), false)
  else (s.devLog 1 (logEntry 2 5 0 0 s.cycle) (BitVec.ofNat 64 at_), true)

/-- Apply every record of a step, newest first in each NMU, and drop them. The Bool: some record was skipped. -/
def State.stepRestore (s : State) (job step : Nat) : State × Bool :=
  let mine (r : LogRec) : Bool := r.job == job && r.step == step
  let (s, bad) := s.nmus.foldl (fun (a : State × Bool) n =>
    (n.2.log.filter mine).reverse.foldl (fun (a : State × Bool) r =>
      let (s, b) := a.1.applyRecord (recordPa (undoBase a.1.regs n.1) r.pos)
      (s, a.2 || b)) a) (s, false)
  -- what the step restored is no longer undone with a command of the same job
  let keep (t : Task) : Task := if t.job == job then { t with undo := t.undo.filter (!·.stepped) } else t
  let keepN (n : Nmu) : Nmu := match n.run with
    | some r => if r.req.job == job then { n with run := some { r with undo := r.undo.filter (!·.stepped) } } else n
    | none => n
  ({ (s.stepDiscard job step) with
      tasks := s.tasks.map keep,
      nmus := (s.stepDiscard job step).nmus.map fun n => (n.1, keepN n.2) }, bad)

/-- Abandon what an NMU runs: its own records, newest first (R227). -/
def State.nmuAbandon (s : State) (nmu : Nat) : State :=
  let n := kget s.nmus nmu Nmu.reset
  match n.run with
  | none => s
  | some r =>
    let s := r.undo.foldl (fun s u => s.wrBytes u.pa u.old) s
    { s with nmus := kset s.nmus nmu { n with run := none } }

end Sys2Proof.Machine
end

