-- ==== Sys2Proof/Machine/Tasks.lean ====
section
/-!
DEFINITION. Tasks and launches as the device handles them: device stores (spec/02 R461), TCBs (spec/08 R175-R180), ready
queues (spec/08 R181-R187), aborts (spec/02 R22, R27), launch ends and reports (spec/02 R34, R35, spec/06 R150).
-/

namespace Sys2Proof.Machine

/-! ## Launch records (R29) -/

def Lnch.w (l : Lnch) (i : Nat) : Word := l.words.getD i 0
def Lnch.exch (l : Lnch) : Bool := bitAt (l.w 0) 18
def Lnch.pass (l : Lnch) : Nat := (l.w 0).field 17 1
def Lnch.step (l : Lnch) : Bool := bitAt (l.w 0) 16
def Lnch.count (l : Lnch) : Nat := (l.w 1).field 32 32
def Lnch.code (l : Lnch) : Nat := (l.w 2).toNat
def Lnch.tcbs (l : Lnch) : Nat := (l.w 3).toNat
def Lnch.quota (l : Lnch) : Nat := (l.w 5).field 48 16
def Lnch.slip (l : Lnch) : Nat := (l.w 5).field 40 7
def Lnch.pages (l : Lnch) : Nat := (l.w 5).field 32 8
def Lnch.tiles (l : Lnch) : Nat := (l.w 5).field 26 6
def Lnch.vregs (l : Lnch) : Nat := (l.w 5).field 16 10
def Lnch.nbind (l : Lnch) : Nat := (l.w 5).field 0 16
def Lnch.cw (l : Lnch) : Nat := (l.w 6).toNat
def Lnch.report (l : Lnch) : Nat := (l.w 7).toNat
def Lnch.limit (l : Lnch) : Nat := let n := (l.w 8).field 48 8; if n = 0 then 8 else n
def Lnch.threshold (l : Lnch) : Nat := (l.w 8).field 32 16
def Lnch.repSize (l : Lnch) : Nat := (l.w 8).field 0 32
def Lnch.phase (l : Lnch) : Nat := (l.w 9).field 32 32
def Lnch.exchEntry (l : Lnch) : Nat := (l.w 9).field 0 32
def Lnch.succ (l : Lnch) : Nat := (l.w 11).toNat

/-- Status codes of a completion word (R34). -/
abbrev stPending : Nat := 0
abbrev stRunning : Nat := 1
abbrev stDone : Nat := 2
abbrev stFaulted : Nat := 3
abbrev stCancelled : Nat := 4
abbrev stRefused : Nat := 5

def Lnch.live (l : Lnch) : Bool := l.status == stPending || l.status == stRunning

/-- Its record has been accepted: it takes part in its phase, and its pointers are the device's (R32, R460). -/
def Lnch.accepted (l : Lnch) : Bool := !l.words.isEmpty && l.hold != some .accept

def State.launch (s : State) (job id : Nat) : Option Lnch := s.launches.find? fun l => l.job == job && l.id == id
def State.modLaunch (s : State) (job id : Nat) (f : Lnch → Lnch) : State :=
  { s with launches := replaceFirst (fun l => l.job == job && l.id == id) f s.launches }

/-- The completion word of R34. -/
def cwWord (status cause count : Nat) : Word := BitVec.ofNat 64 (cause * 2 ^ 40 + status * 2 ^ 32 + count % 2 ^ 32)

/-- The binding of a task (R31). -/
def Lnch.bindOf (l : Lnch) (index : Nat) : Option Bind :=
  l.binds.find? fun b => decide (b.first ≤ index) && decide (index < b.first + b.count)

/-! ## The page-fault rings (R248) -/

def pfIndex (die : Nat) : Nat := 0x5400 + 16 * die

/-- Write an entry where the producer index points, and advance it. -/
def State.pfWrite (s : State) (e : PfEntry) : State :=
  let p := (s.statAt (pfIndex e.die)).field 0 32
  let at_ := 0x8000 + 0x2000 * e.die + 32 * (p % 256)
  let s := (List.range 4).foldl (fun s i => s.setStat (at_ + 8 * i) (e.words.getD i 0)) s
  (s.setStat (pfIndex e.die) (BitVec.ofNat 64 ((p + 1) % 2 ^ 32))).notice at_

/-- Record a fault; an entry waits while the ring is full or older ones wait. -/
def State.pfPut (s : State) (e : PfEntry) : State :=
  let p := (s.statAt (pfIndex e.die)).field 0 32
  let c := (s.statAt (pfIndex e.die + 8)).field 0 32
  if (p + 2 ^ 32 - c) % 2 ^ 32 = 256 || s.pfWait.any (·.die == e.die) then { s with pfWait := s.pfWait ++ [e] }
  else s.pfWrite e

def State.pfRecord (s : State) (die access va who : Nat) (launch : Bool) (job : Nat) : State :=
  s.pfPut { die := die, words := [BitVec.ofNat 64 (access * 2 ^ 62 + va % 2 ^ 48), BitVec.ofNat 64 who,
    BitVec.ofNat 64 (launch.toNat * 2 ^ 40 + cPageFault * 2 ^ 32 + job % 2 ^ 32), 0] }

/-! ## Device stores (R461) -/

/-- The bytes that a held store leaves: only the bits of its mask change. -/
def HeldStore.over (h : HeldStore) (old : List Byte) : List Byte :=
  if h.mask.isEmpty then h.bytes
  else ((old.zip h.bytes).zip h.mask).map fun x => (x.1.1 &&& ~~~x.2) ||| (x.1.2 &&& x.2)

/-- Perform a device store that has translated: hint 0. -/
def State.devPut (s : State) (x : Xl) (h : HeldStore) : State :=
  s.store x.pa (h.over (Memory.reads s.mem x.pa h.bytes.length)) (x.hint .normal)

/-- A device store that a page fault holds, with every later one of the same launch or job. -/
def State.devHold (s : State) (h : HeldStore) : State :=
  ({ s with heldStores := s.heldStores ++ [h] } : State).pfRecord 5 1 h.va h.record true h.job

/-- A device store that may not be made: the launch faults, and the host is told. -/
def State.devFail (s : State) (h : HeldStore) (cause : Nat) : State :=
  let hit := (s.launches.filter fun l => l.job == h.job && l.record == h.record && l.live).map fun l => (h.job, l.id, cause)
  ({ s with devFaults := s.devFaults ++ hit } : State).notice h.va

/-- Stores of this launch or job are held. -/
def State.devHeld (s : State) (job record : Nat) : Bool := s.heldStores.any fun h => h.job == job && h.record == record

/-- What a translation that fails makes of a device store (R461). -/
def State.devMiss (s : State) (h : HeldStore) : XlFail → State
  | .page => s.devHold h
  | .prot => s.devFail h cProtection
  | .bad => s.devFail h cUncorrectable

/-- A store of the device through a job's translation, made now. -/
def State.devMake (s : State) (h : HeldStore) : State :=
  let (s, r) := s.eachPage (fun s a => s.translateNow h.job a .write) h.va h.bytes.length
  match r with
  | .ok x => s.devPut x h
  | .error (f, _) => s.devMiss h f

/-- A store of the device through a job's translation, after the held ones of its launch or job. record: the launch record VA, or 0
for a word of the job; a graph's completion word is a word of the job (DESIGN CHOICE, log entry 40). -/
def State.devStoreOf (s : State) (h : HeldStore) : State :=
  if s.devHeld h.job h.record then { s with heldStores := s.heldStores ++ [h] } else s.devMake h

def State.devStore (s : State) (job record va : Nat) (bs : List Byte) : State :=
  s.devStoreOf { job := job, record := record, va := va, bytes := bs }

def State.devWord (s : State) (job record va : Nat) (w : Word) : State := s.devStore job record va (bytesOf 8 w.toNat)

/-! ## TCBs (R175, R177) -/

/-- A word of memory as the device knows it: the stores it still holds lie over the bytes in memory. -/
def State.heldNat (s : State) (job va n : Nat) : Nat :=
  let put (bs : List Byte) (h : HeldStore) : List Byte :=
    if h.job == job && h.va == va && h.bytes.length == n && h.dec.isNone then h.over bs else bs
  leNat (s.heldStores.foldl put ((List.range n).map fun i => s.vaByte job (va + i)))

/-- The lines of a range that has translated: one request for each (R147), and whether one of its sectors is poisoned (R225). -/
def State.jobLines (s : State) (job va n : Nat) : State × Bool :=
  (List.range (if n = 0 then 0 else (va + n - 1) / 128 + 1 - va / 128)).foldl (fun (a : State × Bool) i =>
    let at_ := max va ((va / 128 + i) * 128)
    let m := min (va + n) ((va / 128 + i + 1) * 128) - at_
    let x := a.1.provXl job at_
    (a.1.l2Access x.pa m false (x.hint .normal), a.2 || a.1.poisoned x.pa m)) (s, false)

/-- Read n bytes through a job's translation, as the device does. -/
def State.jobRead (s : State) (job va n : Nat) : State × Option (XlFail × Nat) :=
  match s.eachPage (fun s a => s.translateNow job a .read) va n with
  | (s, .error f) => (s, some f)
  | (s, .ok _) => match s.jobLines job va n with
    | (s, false) => (s, none)
    | (s, true) => (s, some (.bad, va))

/-- n bytes that the device will write, translated now (R460). -/
def State.jobWrites (s : State) (job va n : Nat) : State × Option (XlFail × Nat) :=
  match s.eachPage (fun s a => s.translateNow job a .write) va n with
  | (s, .ok _) => (s, none)
  | (s, .error f) => (s, some f)

def State.jobWord (s : State) (job va : Nat) : Word := BitVec.ofNat 64 (s.vaNat job va 8)

/-- The Ringmaster reads a TCB: a load of its own, translated now, with a request for its line (R147, R178, R243). A sector that cannot be
read faults the launch at the end of the step (R225). -/
def State.tcbRead (s : State) (job launch tcb : Nat) : State :=
  match s.jobRead job tcb 64 with
  | (s, some (.bad, _)) => { s with devFaults := s.devFaults ++ [(job, launch, cUncorrectable)] }
  | (s, _) => s

/-- A doubleword of a TCB; where its page is absent, what the device has still to write of it, else 0 (DESIGN CHOICE, log entry 36). -/
def State.tcbWord (s : State) (job tcb off : Nat) : Word := BitVec.ofNat 64 (s.heldNat job (tcb + off) 8)
def State.tcbState (s : State) (job tcb : Nat) : Nat := (s.tcbWord job tcb 40).field 0 8
def State.tcbCount (s : State) (job tcb : Nat) : Nat := (s.tcbWord job tcb 16).field 0 32
def State.tcbPolicy (s : State) (job tcb : Nat) : Nat := (s.tcbWord job tcb 0).field 56 8
def State.tcbVersioned (s : State) (job tcb : Nat) : Bool := bitAt (s.tcbWord job tcb 0) 44

/-- The device writes the field [lo + n - 1 : lo] of a doubleword, and no other bit of it. -/
def State.devField (s : State) (job record va lo n v : Nat) : State :=
  s.devStoreOf { job := job, record := record, va := va, bytes := bytesOf 8 (v % 2 ^ n * 2 ^ lo),
                 mask := bytesOf 8 ((2 ^ n - 1) * 2 ^ lo) }

/-- The device writes a field of a TCB (R175). -/
def State.tcbSet (s : State) (job record tcb off lo n v : Nat) : State := s.devField job record (tcb + off) lo n v

def State.recordOf (s : State) (job launch : Nat) : Nat :=
  match s.launch job launch with | some l => l.record | none => 0

def State.setTcbState (s : State) (job launch tcb st : Nat) : State :=
  s.tcbSet job (s.recordOf job launch) tcb 40 0 8 st

abbrev tWaiting : Nat := 0
abbrev tReady : Nat := 1
abbrev tRunning : Nat := 2
abbrev tCheckpointed : Nat := 3
abbrev tHeld : Nat := 4
abbrev tCommitting : Nat := 5
abbrev tDone : Nat := 6
abbrev tCancelled : Nat := 7
abbrev tFaulted : Nat := 8
abbrev tDormant : Nat := 9
abbrev tParked : Nat := 10

/-- A list of 32-bit words that the device reads up to its terminator 0xFFFF_FFFF, of fewer than fuel entries, by loads of its own: each
word is translated, and each line it reaches is requested once (R147, R179, R243). The answer: the entries before the end, and why
the list ends there where it has no terminator (none: it is too long). -/
def State.readList (s : State) (job va : Nat) (first : Bool) : Nat → State × List Nat × Option (Option (XlFail × Nat))
  | 0 => (s, [], some none)
  | fuel + 1 =>
    match s.eachPage (fun s a => s.translateNow job a .read) va 4 with
    | (s, .error f) => (s, [], some (some f))
    | (s, .ok x) =>
      let s := if first || x.pa % 128 < 4 then s.l2Access x.pa 4 false (x.hint .normal) else s
      if s.poisoned x.pa 4 then (s, [], some (some (.bad, va)))
      else
        let v := leNat ((List.range 4).map fun i => Memory.read s.mem (spanPa x.pa x.pa2 i))
        if v = 0xFFFFFFFF then (s, [], none)
        else
          let (s, t, e) := s.readList job (va + 4) false fuel
          (s, v :: t, e)

/-- The successor list of a TCB (R179), and the cause that faults the launch at TEND step 5: ILLEGAL_FIELD where it does not end or a word does
not translate, UNCORRECTABLE where one cannot be read (R225). -/
def State.succList (s : State) (job tcb : Nat) : State × List Nat × Option Nat :=
  let va := (s.tcbWord job tcb 24).toNat
  if va = 0 then (s, [], none)
  else match s.readList job va true 4097 with
    | (s, l, none) => (s, l, none)
    | (s, _, some (some (.bad, _))) => (s, [], some cUncorrectable)
    | (s, _, some _) => (s, [], some cIllegalField)

/-! ## Classes and release keys (R44, R182, R185) -/

/-- Keys compare in lexicographic order. -/
def keyLt : List Nat → List Nat → Bool
  | [], [] => false
  | [], _ => true
  | _, [] => false
  | a :: s, b :: t => if a < b then true else if b < a then false else keyLt s t

/-- A release by a core (R182). -/
def coreKey (cycle core pos : Nat) : List Nat := [cycle, 0, dieOf core, core, pos]
/-- A release by a launch becoming RUNNING, or by the host. -/
def launchKey (cycle launch index : Nat) : List Nat := [cycle, 1, launch, index]

/-- The run class of a task (R185): the highest of its own class, raised as R44 states, and those that wait on it. The Ringmaster reads the
TCB and its list for it, at each enqueue, dispatch and restore (R179). -/
def State.runClass (s : State) (job launch tcb : Nat) : State × Nat :=
  let own := (s.tcbWord job tcb 0).field 48 8
  let top := match kfind s.jobs job with | some j => (j.desc.getD 2 0).field 8 8 | none => 0
  let (base, count) := match s.launch job launch with | some l => (l.tcbs, l.count) | none => (0, 0)
  let (s, l, bad) := (s.tcbRead job launch tcb).succList job tcb
  let s := if bad = some cUncorrectable then { s with devFaults := s.devFaults ++ [(job, launch, cUncorrectable)] } else s
  (s, (l.filter (· < count)).foldl (fun c i =>
    let t := base + 64 * i
    let w := s.tcbWord job t 0
    if bitAt w 45 && s.tcbState job t == tWaiting then min c (w.field 46 2) else c) (max own top))

/-- A run class passes on through WCLASS, where the task has INHERIT (R185). -/
def State.inherit (s : State) (job launch tcb c : Nat) : State :=
  if bitAt (s.tcbWord job tcb 0) 45 then s.tcbSet job (s.recordOf job launch) tcb 0 46 2 c else s

/-- The die of a core-bound or NMU-bound task's home (R181). -/
def State.homeDie (s : State) (l : Lnch) (index tcb : Nat) : Nat :=
  match l.bindOf index with
  | none => 0
  | some b =>
    let hint := (s.tcbWord l.job tcb 40).field 8 16
    let t := if b.target ≤ hint ∧ hint < b.target + b.targets then hint else b.target
    if b.nmus then t / 32 / 2 else dieOf t

/-! ## Ready queues (R181-R187) -/

/-- Queue order: class, then key. -/
def readyLt (a b : Ready) : Bool := decide (a.qcls < b.qcls) || (a.qcls == b.qcls && keyLt a.key b.key)

/-- The device wakes (R287); not where a refused boot has left it in P3 (R285). -/
def State.wake (s : State) : State :=
  if s.plat.power = 3 ∧ s.plat.image.isNone then s else { s with plat := { s.plat with power := 0, dozing := [] } }

/-- The entries of a die's spill list from place i on, as they stand in memory: 8 bytes each, whose layout R174 does not give
(DESIGN CHOICE, log entry 37). -/
def State.writeSpill (s : State) (die i : Nat) : State :=
  let base := (s.reg (mRing die + 0x80)).toNat
  (List.range (min 65536 (s.ring die).spill.length - i)).foldl (fun (s : State) k =>
    s.store (base + 8 * (i + k)) (bytesOf 8 (Config.freeSpill s.cycle (i + k)).toNat) .normal) s

/-- A ready entry takes its place in its class queue, or in the spill list when 4,096 entries stand in the queue (R181). -/
def State.queueReady (s : State) (die : Nat) (e : Ready) : State :=
  let r := s.ring die
  if (r.ready.filter (·.qcls == e.qcls)).length < 4096 then s.modRing die fun r => { r with ready := insertBy readyLt e r.ready }
  else
    let below (a b : Ready) : Bool := keyLt a.key b.key
    (s.modRing die fun r => { r with spill := insertBy below e r.spill }).writeSpill die (r.spill.filter fun x => !below e x).length

/-- A class whose depth passes its high watermark enters overflow (R186). -/
def State.noteDepth (s : State) (die : Nat) : State :=
  (List.range 4).foldl (fun s c =>
    if (s.ring die).depth c > (s.reg (mRing die + 8 * c)).field 16 16 then
      s.modRing die fun r => { r with overflow := nins r.overflow c }
    else s) s

/-- A task enters a queue with its run class, which is fixed then (R185). -/
def State.requeueAs (s : State) (job tcb st : Nat) (restore : Bool) : State :=
  match s.task job tcb with
  | none => s
  | some t =>
    let (s, c) := s.runClass job t.launch tcb
    let s := (s.modTask job tcb fun t => { t with cls := c }).inherit job t.launch tcb c
    let s := s.setTcbState job t.launch tcb st
    s.queueReady t.home
      { job := job, launch := t.launch, index := t.index, tcb := tcb, cls := c, qcls := c, key := t.key, since := s.cycle,
        restore := restore }

/-- A class that leaves overflow wakes the tasks that it holds as spawners: READY with their last keys (R188). -/
def State.wakeHeld (s : State) (die c : Nat) : State :=
  (s.tasks.filter fun t => t.heldFor == some (die, c)).foldl (fun s t =>
    let s := s.modTask t.job t.tcb fun t => { t with heldFor := none }
    (s.requeueAs t.job t.tcb tReady true).noteDepth t.home) s

/-- Overflow states after a change of depth (R186). -/
def State.settleDepth (s : State) (die : Nat) : State :=
  (List.range 4).foldl (fun s c =>
    let r := s.ring die
    if r.overflow.contains c && decide (r.depth c < (s.reg (mRing die + 8 * c)).field 0 16) then
      (s.modRing die fun r => { r with overflow := ndel r.overflow c }).wakeHeld die c
    else s) (s.noteDepth die)

/-- Put a task the device knows back into its queue with its last key (R182); a release wakes the device. -/
def State.requeue (s : State) (job tcb : Nat) (restore : Bool) : State :=
  match s.task job tcb with
  | none => s
  | some t => (s.wake.requeueAs job tcb (if restore then tCheckpointed else tReady) restore).settleDepth t.home

/-- Release a task with a key (R180): state READY, its run class, its queue. -/
def State.release (s : State) (l : Lnch) (index : Nat) (key : List Nat) (refired : Bool) : State :=
  let tcb := l.tcbs + 64 * index
  let t : Task :=
    { job := l.job, launch := l.id, index := index, tcb := tcb, key := key, cls := 0, home := s.homeDie l index tcb,
      quar := [], held := [], save := none, saveValid := false, savePa := 0, saveLen := 0, ckptAt := 0, ran := 0, reads := [], writes := [],
      undo := [], groups := [], pubs := [], refire := none, refired := refired, keepSnap := false, past4 := false, fault := none, heldFor := none }
  let s := { s with tasks := (s.tasks.filter fun (x : Task) => !(x.job == l.job && x.tcb == tcb)) ++ [t] }
  s.requeue l.job tcb false

/-! ## Regions (R200, R207) -/

def State.regionVa (s : State) (job r : Nat) : Nat :=
  match kfind s.jobs job with | some j => (j.desc.getD 5 0).toNat + 16 * r | none => 0
def State.regionLo (s : State) (job r : Nat) : Word := BitVec.ofNat 64 (s.heldNat job (s.regionVa job r) 8)
def State.regionHi (s : State) (job r : Nat) : Word := BitVec.ofNat 64 (s.heldNat job (s.regionVa job r + 8) 8)
/-- The device reads an entry of the region table: a load of its own, translated now (R147, R225, R243, R273). -/
def State.regionRead (s : State) (job r : Nat) : State × Option (XlFail × Nat) := s.jobRead job (s.regionVa job r) 16
/-- Nibble of a region: FINAL and version. -/
def State.regionNibble (s : State) (job r : Nat) : Nat :=
  (s.regionLo job r).field 63 1 * 8 + (s.regionLo job r).field 60 3

/-- Every input of a VERSIONED task stands at its minimum version or is final (R207). -/
def State.versionsMet (s : State) (l : Lnch) (index : Nat) : Bool :=
  let tcb := l.tcbs + 64 * index
  !s.tcbVersioned l.job tcb ||
    (l.inputs.filter (·.1 == index)).all fun i =>
      let n := s.regionNibble l.job i.2.2
      decide (n ≥ 8) || decide (n % 8 ≥ (s.tcbWord l.job tcb 16).field 32 16)

/-- The launch whose TCB array holds a TCB, and the task's index in it. -/
def State.launchAt (s : State) (job tcb : Nat) : Option (Lnch × Nat) :=
  (s.launches.find? fun l => l.job == job && l.accepted && decide (l.tcbs ≤ tcb) && decide (tcb < l.tcbs + 64 * l.count)).map
    fun l => (l, (tcb - l.tcbs) / 64)

/-- An atomic decrement of a dependence counter at its home slice (R180), by the hint of its page (R241). -/
def State.decrementAt (s : State) (job tcb : Nat) (x : Xl) (key : List Nat) : State :=
  let pa := x.pa
  let w := s.rdWord pa
  let st := s.tcbState job tcb
  let under := s.bump (mRing (homeSlice pa / 16) + 0x68) 1
  if w.field 0 32 = 0 ∨ (st ≠ tWaiting ∧ st ≠ tDormant) then under
  else
    let s := (s.l2Access pa 4 true (x.hint .normal)).wrBytes pa (bytesOf 4 (w.field 0 32 - 1))
    if w.field 0 32 = 1 ∧ st = tWaiting then
      match s.launches.find? fun l => l.job == job && l.status == stRunning &&
          decide (l.tcbs ≤ tcb) && decide (tcb < l.tcbs + 64 * l.count) with
      | some l => let i := (tcb - l.tcbs) / 64
                  if s.versionsMet l i then s.release l i key false else s
      | none => s
    else s

/-- A decrement made now, or held with the launch's other device stores (R461). -/
def State.decrementMake (s : State) (h : HeldStore) (key : List Nat) : State :=
  let (s, r) := s.eachPage (fun s a => s.translateNow h.job a .write) h.va 4
  match r with
  | .ok x => if s.poisoned x.pa 4 then s.devFail h cUncorrectable else s.decrementAt h.job (h.va - 16) x key
  | .error (f, _) => s.devMiss h f

def State.decrement (s : State) (job tcb : Nat) (key : List Nat) : State :=
  let record := match s.launchAt job tcb with | some l => l.1.record | none => 0
  let h : HeldStore := { job := job, record := record, va := tcb + 16, bytes := [], dec := some key }
  if s.devHeld job record then { s with heldStores := s.heldStores ++ [h] } else s.decrementMake h key

/-- Perform a held store or decrement; a decrement releases in the cycle in which it performs. -/
def State.devRetry (s : State) (h : HeldStore) : State :=
  if s.devHeld h.job h.record then { s with heldStores := s.heldStores ++ [h] }
  else match h.dec with
    | some key => s.decrementMake h (s.cycle :: key.tail)
    | none => s.devMake h

/-! ## Taking a task off its core -/

/-- The core that runs a task. -/
def State.coreOf (s : State) (job tcb : Nat) : Option Nat :=
  (s.cores.find? fun c => match c.2.run with
    | some r => !r.exch && r.job == job && r.tcb == tcb | none => false).map (·.1)

/-- A core without an occupant: the core's own state stays (R73, R234, R257), with it AGE_LIMIT and MIXCHK, which R68 does not list
(DESIGN CHOICE, log entry 42), and FPFLAGS until the next dispatch (R68, spec/21 R448). -/
def Core.vacate (k : Core) : Core :=
  { Core.reset with
    arch := { Arch.reset with epoch := k.arch.epoch, spEpoch := k.arch.spEpoch, sp := k.arch.sp, full := k.arch.full,
                              delivered := k.arch.delivered, fpflags := k.arch.fpflags },
    reserved := k.reserved, scrubUntil := k.scrubUntil, toggle := k.toggle, ageLimit := k.ageLimit, mixchk := k.mixchk,
    tracectl := k.tracectl, tracetrig := k.tracetrig, traceIdx := k.traceIdx, traceWrapped := k.traceWrapped,
    traceBuf := k.traceBuf, traceLeft := k.traceLeft, tfrozen := k.tfrozen, degraded := k.degraded, scrubs := k.scrubs,
    errlogs := k.errlogs, katcount := k.katcount, tlb := k.tlb, flaws := k.flaws, ages := k.ages, prov := k.prov, deliv := k.deliv, clash := k.clash }

/-- Undo granule writes, newest first (R227, R269). -/
def State.undoAll (s : State) (us : List Undo) : State := us.foldl (fun s u => s.wrBytes u.pa u.old) s

/-- The abort of a member's task fails the collective's present step; the retry waits for the member's re-run (R332). -/
def Coll.detach (c : Coll) : Coll :=
  { c with
    retries := c.retries + 1, fails := kset c.fails c.steps (kget c.fails c.steps 0 + 1), steps := 0, acked := [], attached := false }

/-- Discard what a task holds outside its core: quarantine, Safety Net items, forwarded values, near-memory and collective
commands, save record (R22, R163, R332, R373). -/
def State.discard (s : State) (job tcb : Nat) : State :=
  -- the command that still runs is undone first, then the completed ones, newest first
  let s := s.nmus.foldl (fun s n => match n.2.run with
    | some r => if r.req.job == job && r.req.tcb == tcb then
        { s.undoAll r.undo with nmus := kset s.nmus n.1 { n.2 with run := none } } else s
    | none => s) s
  let s := s.undoAll (match s.task job tcb with | some t => t.undo | none => [])
  let dropReq (n : Nmu) : Nmu :=
    { n with queue := n.queue.filter (fun q => !(q.job == job && q.tcb == tcb)),
             log := n.log.filter (fun r => !(r.job == job && r.task == some tcb)),
             past := n.past.filter fun p => !(p.1 == job && p.2.1 == tcb) }
  let clear (t : Task) : Task :=
    { t with quar := [], held := [], save := none, saveValid := false, reads := [], writes := [], undo := [],
             groups := [], pubs := [], ran := 0, heldFor := none }
  { s with
    nmus := s.nmus.map (fun n => (n.1, dropReq n.2)),
    tasks := replaceFirst (fun t => t.job == job && t.tcb == tcb) clear s.tasks,
    net := s.net.filter (fun i => !(i.job == job && i.tcb == tcb && !i.exch)),
    gone := s.gone.filter fun g => !(g.2.1 == job && g.2.2.1 == tcb),
    fwds := s.fwds.filter fun f => !(f.job == job && f.tcb == tcb),
    bonds := s.bonds.filter fun b => !(b.1 == job && (b.2.1 == tcb || b.2.2 == tcb)),
    colls := s.colls.map fun c => if c.job == job && c.tcb == tcb && c.attached then c.detach else c }

/-- The cycles that the copies of core c have waited for global data, where the occupant leaves before they go on (spec/06 R149). -/
def State.countWaits (s : State) (c : Nat) : State :=
  match (s.core c).run with
  | none => s
  | some r => (s.core c).copies.foldl (fun (s : State) x => match x.2.kind with
    | .copy t _ _ =>
      if (t.getD 5 0).field 0 2 = 1 ∨ x.2.expected ≤ x.2.next then s
      else s.modLaunch r.job r.launch fun l =>
        let b := kget l.bufs ((t.getD 5 0).field 8 8) (0, 0)
        { l with bufs := kset l.bufs ((t.getD 5 0).field 8 8) (b.1, b.2 + (s.cycle - x.2.since)) }
    | _ => s) s

/-- Free the core a task runs on, with the trace record of its end (R258: kind 7). -/
def State.evict (s : State) (job tcb event : Nat) : State :=
  match s.coreOf job tcb with
  | none => s
  | some c => (s.countWaits c).modCore c fun k => (k.trace s.cycle 7 0 event (BitVec.ofNat 64 tcb)).vacate

/-- Off its core, everything discarded, out of the queues. -/
def State.takeDown (s : State) (job tcb : Nat) : State :=
  let s := (s.evict job tcb 1).discard job tcb
  let mine (e : Ready) : Bool := e.job == job && e.tcb == tcb
  let hit := (s.rings.filter fun r => r.2.ready.any mine || r.2.spill.any mine).map (·.1)
  let out (l : List Ready) := l.filter fun e => !mine e
  hit.foldl (fun (s : State) die => s.settleDepth die)
    { s with rings := s.rings.map fun r => (r.1, { r.2 with ready := out r.2.ready, spill := out r.2.spill }) }

/-- The bonds between tasks of a job. -/
def State.bondsOf (s : State) (job : Nat) : List (Nat × Nat) := (s.bonds.filter (·.1 == job)).map (·.2)

/-- The record VA of a task's launch. -/
def State.recordOfTask (s : State) (job tcb : Nat) : Nat :=
  match s.task job tcb with | some t => s.recordOf job t.launch | none => 0

/-- The tasks bound to a task, as consumers of what it forwarded, transitively (R163). -/
def consumersOf (bonds : List (Nat × Nat)) : Nat → NSet → NSet
  | 0, seen => seen
  | fuel + 1, seen =>
    let more := (bonds.filter fun b => seen.contains b.1 && !seen.contains b.2).map (·.2)
    if more.isEmpty then seen else consumersOf bonds fuel (more.foldl nins seen)

/-- A consumer of a forwarded value is aborted with its writer and re-queued; the abort does not count (R163). -/
def State.jointAbort (s : State) (job tcb : Nat) : State :=
  match s.task job tcb with
  | none => s
  | some t =>
    if t.past4 then s
    else
      let s := (s.takeDown job tcb).modTask job tcb fun t => { t with keepSnap := true }
      (s.tcbSet job (s.recordOfTask job tcb) tcb 40 40 16 cJoint).requeue job tcb false

/-! ## Launch ends (R34, R35, R150) -/

/-- The buffer and range records of a report (R150, R151). -/
def Lnch.records (l : Lnch) : List (List Word) × List (List Word) :=
  let bufs := (l.bufs.filter fun b => b.2.1 != 0).map fun b =>
    [BitVec.ofNat 64 (b.1 * 2 ^ 56 + b.2.1 % 2 ^ 56), BitVec.ofNat 64 b.2.2]
  let rngs := (l.ranges.filter fun r =>
      let hint := (l.w (16 + r.1)).field 62 2
      let meas := 1024 * r.2.2 / r.2.1
      let want := if hint = 1 then 1024 else 0
      r.2.1 != 0 && hint != 0 && decide ((if meas ≤ want then want - meas else meas - want) > l.threshold)).map fun r =>
    [BitVec.ofNat 64 (r.1 * 2 ^ 60 + (l.w (16 + r.1)).field 62 2 * 2 ^ 58 + 1024 * r.2.2 / r.2.1 * 2 ^ 32),
     BitVec.ofNat 64 r.2.1]
  (bufs, rngs)

/-- The report area (R150): ranges are kept before buffers, the lower numbers first. 256 buffer records stand as 0 in their 8-bit count
(DESIGN CHOICE, log entry 58). -/
def Lnch.reportWords (l : Lnch) (final : Word) (refused : Bool) : List Word :=
  let (bufs, rngs) := if refused then ([], []) else l.records
  let room := (l.repSize - 64) / 16
  let rngs' := rngs.take room
  let bufs' := bufs.take (room - rngs'.length)
  let trunc := decide (rngs'.length + bufs'.length < rngs.length + bufs.length)
  [BitVec.ofNat 64 (l.id % 2 ^ 32 * 2 ^ 32 + trunc.toNat * 2 ^ 16 + bufs'.length % 256 * 2 ^ 8 + rngs'.length % 256), final,
   0, 0, 0, 0, 0, 0] ++ (bufs' ++ rngs').flatten

def State.devWords (s : State) (job record va : Nat) (ws : List Word) : State :=
  (ws.foldl (fun (a : State × Nat) w => (a.1.devWord job record a.2 w, a.2 + 8)) (s, va)).1

/-- Write the completion word of a launch, and tell the host (R34, R282). -/
def State.writeCw (s : State) (job id : Nat) : State :=
  match s.launch job id with
  | none => s
  | some l => (s.devWord job l.record l.cw (cwWord l.status l.cause l.committed)).notice l.cw

/-- A launch ends: the report, then the final word (R150). -/
def State.endLaunch (s : State) (job id status cause : Nat) : State :=
  match s.launch job id with
  | none => s
  | some l =>
    let s := s.modLaunch job id fun l => { l with status := status, cause := cause }
    -- a record that has not been read names no words, and one that has not been accepted only its own word (R44, R460)
    if l.words.isEmpty then s
    else if !l.accepted then s.writeCw job id
    else (s.devWords job l.record l.report (l.reportWords (cwWord status cause l.committed) false)).writeCw job id

/-- The device forgets a task: its collectives end with it. -/
def State.forget (s : State) (job tcb : Nat) : State :=
  { s with
    tasks := s.tasks.filter fun (x : Task) => !(x.job == job && x.tcb == tcb),
    colls := s.colls.filter fun (x : Coll) => !(x.job == job && x.tcb == tcb),
    kept := s.kept.filter fun (x : Kept) => !(x.job == job && x.tcb == tcb) }

/-- What a task published in an earlier run is no longer its launch's to make final (R212). -/
def State.dropPubs (s : State) (job launch index : Nat) : State :=
  s.modLaunch job launch fun l => { l with pubs := kdel l.pubs index }

/-- Remove every task of the launches that have faulted or been cancelled (R35, R45): off the cores and queues, TCB state
8 or 7 where it is not DONE, with the cause of the abort where it held a core or a record. A task past TEND step 4 completes. -/
def State.reap (s : State) : State :=
  let dead (job id : Nat) : Option (Nat × Nat) := match s.launch job id with
    | some l => if l.status = stFaulted then some (tFaulted, l.cause)
                else if l.status = stCancelled then some (tCancelled, cCancel) else none
    | none => none
  s.tasks.foldl (fun s t => if t.past4 then s else match dead t.job t.launch with
    | some (st, cause) =>
      let ran := (s.coreOf t.job t.tcb).isSome || t.save.isSome
      let joint := (consumersOf (s.bondsOf t.job) s.bonds.length [t.tcb]).filter (· != t.tcb)
      let s := s.takeDown t.job t.tcb
      let s := joint.foldl (fun s c => s.jointAbort t.job c) s
      let s := if ran then s.tcbSet t.job (s.recordOf t.job t.launch) t.tcb 40 40 16 cause else s
      let s := if s.tcbState t.job t.tcb = tDone then s else s.setTcbState t.job t.launch t.tcb st
      (s.forget t.job t.tcb).dropPubs t.job t.launch t.index
    | none => s) s

def State.modJob (s : State) (job : Nat) (f : Job → Job) : State :=
  match kfind s.jobs job with
  | some j => { s with jobs := kset s.jobs job (f j) }
  | none => s

/-- The streams of a job's phase in progress. -/
def State.modStreams (s : State) (job : Nat) (f : Stream → Stream) : State :=
  s.modJob job fun j => match j.phase with
    | some p => { j with phase := some { p with streams := p.streams.map f } }
    | none => j

/-- The exchange streams of a launch that faults or is cancelled in the exchange step end, with what they wrote provisionally. -/
def State.endStreams (s : State) (job launch : Nat) : State :=
  let mine (k : Core) : Bool := match k.run with | some r => r.exch && r.job == job && r.launch == launch | none => false
  let s : State := { s with
    cores := s.cores.map fun (c : Nat × Core) =>
      let k := if mine c.2 then c.2.vacate else c.2
      (c.1, { k with prov := k.prov.filter fun d => !(d.job == job && d.launch == launch) }),
    net := s.net.filter fun i => !(i.exch && i.job == job && i.launch == launch) }
  s.modStreams job fun x => if x.launch == launch then { x with ended := true, dead := true } else x

/-- The TCBs of a launch that is over and that never entered a queue: state 8 or 7 (R177); a launch whose record has not been
accepted names none. -/
def State.closeTcbs (s : State) (l : Lnch) (st : Nat) : State :=
  (List.range (if l.accepted then l.count else 0)).foldl (fun s i =>
    let tcb := l.tcbs + 64 * i
    let x := s.tcbState l.job tcb
    if x = tDone ∨ x = tCommitting ∨ x = st then s else s.setTcbState l.job l.id tcb st) s

/-- Cancel one launch: its word reads CANCELLED with the committed count and the cause of R256 (R45). One that holds its graph at acceptance is
not run when that graph goes on. -/
def State.cancelLaunch (s : State) (job id : Nat) : State :=
  match s.launch job id with
  | none => s
  | some l =>
    if !l.live then s
    else
      let held (g : HeldGraph) : HeldGraph :=
        if g.job = job ∧ g.resume = l.record ∧ l.graph.isSome ∧ l.hold = some .accept then { g with cancelled := nins g.cancelled id } else g
      let s := { s with heldGraphs := s.heldGraphs.map held }
      ((s.endLaunch job id stCancelled cCancel).endStreams job id).reap.closeTcbs l tCancelled

/-- The graph word (R36). A store of it that is held counts as one of the job (R461; DESIGN CHOICE, log entry 40). -/
def State.writeGraph (s : State) (job id : Nat) : State :=
  match s.graphs.find? fun g => g.job == job && g.id == id with
  | none => s
  | some g =>
    let n := (g.launches.filter fun i => match s.launch job i with | some l => l.status == stDone | none => false).length
    (s.devWord job 0 g.cw (cwWord g.status g.cause n)).notice g.cw

def State.modGraph (s : State) (job id : Nat) (f : Graph → Graph) : State :=
  { s with graphs := replaceFirst (fun g => g.job == job && g.id == id) f s.graphs }

/-- A launch faults (R35): FAULTED with the committed count and the cause, its tasks removed; a graph it belongs to faults,
and that graph's other launches are cancelled (R36): those that R36 removes read CANCELLED too (DESIGN CHOICE, log entry 39). -/
def State.launchFault (s : State) (job id cause : Nat) : State :=
  match s.launch job id with
  | none => s
  | some l =>
    if l.status = stFaulted ∨ l.status = stCancelled ∨ l.status = stRefused then s
    else
      let s := ((s.endLaunch job id stFaulted cause).endStreams job id).reap.closeTcbs l tFaulted
      match l.graph with
      | none => s
      | some g =>
        match s.graphs.find? fun x => x.job == job && x.id == g with
        | none => s
        | some gr =>
          if gr.status = stFaulted ∨ gr.status = stCancelled then s
          else
            let s := s.modGraph job g fun x => { x with status := stFaulted, cause := cause }
            let s := gr.launches.foldl (fun s i => s.cancelLaunch job i) s
            s.writeGraph job g

/-! ## Rung 5 (R230) -/

/-- The launch of an exchange stream faults: the stream ends even where the launch had already faulted in the compute step. -/
def State.streamFault (s : State) (job launch cause : Nat) : State := (s.endStreams job launch).launchFault job launch cause

/-- Write the job completion word (R44). -/
def State.writeJob (s : State) (job : Nat) : State :=
  match kfind s.jobs job with
  | none => s
  | some j =>
    let va := (j.desc.getD 7 0).toNat
    (s.devWord job 0 va (cwWord j.status j.cause j.done)).notice va

/-- The phase in progress is cancelled: no exchange stream of it runs, and nothing that its exchange step wrote is confirmed (R45, R46). It then
ends at its barrier, where R43 gives its status (DESIGN CHOICE, log entry 52). -/
def State.cancelPhase (s : State) (job : Nat) : State :=
  match kfind s.jobs job with
  | none => s
  | some j => match j.phase with
    | none => s
    | some p =>
      let s := p.streams.foldl (fun s x => s.endStreams job x.launch) s
      let s : State := { s with
        cores := s.cores.map fun (c : Nat × Core) => (c.1, { c.2 with deliv := c.2.deliv.filter (·.job != job) }),
        net := s.net.filter (fun i => !(i.exch && i.job == job)), xmcs := s.xmcs.filter (·.job != job) }
      s.modJob job fun j => { j with phase := j.phase.map fun p =>
        { p with cancelled := true, part := if p.part = .compute then .compute else .confirm } }

/-- The word of a graph that never started, where its record can be read and the word translates; else a notice. -/
def State.writeUnstarted (s : State) (job va status cause : Nat) : State :=
  match s.jobRead job va 32 with
  | (s, some _) => s.send 0x20 4 (payloadOf va)
  | (s, none) =>
    let cw := (s.jobWord job (va + 16)).toNat
    match s.jobWrites job cw 8 with
    | (s, none) => (s.devWord job 0 cw (cwWord status cause 0)).notice cw
    | (s, some _) => s.send 0x20 4 (payloadOf va)

/-- The graphs of a job that wait for the pager end. -/
def State.endHeldGraphs (s : State) (job status cause : Nat) : State :=
  let held := s.heldGraphs.filter fun g => g.job == job
  held.foldl (fun s g => s.writeUnstarted job g.va status cause) { s with heldGraphs := s.heldGraphs.filter fun g => g.job != job }

/-- Every launch of a job that is still live ends FAULTED with a cause, and its graphs with it, else as CANCEL at job level (R230). -/
def State.faultJob (s : State) (job cause : Nat) : State :=
  let s := (s.cancelPhase job).endHeldGraphs job stFaulted cause
  let s := s.launches.foldl (fun s l =>
    if l.job == job && l.live then
      ((s.endLaunch job l.id stFaulted cause).endStreams job l.id).reap.closeTcbs l tFaulted
    else s) s
  s.graphs.foldl (fun s g =>
    if g.job == job && (g.status == stPending || g.status == stRunning) then
      (s.modGraph job g.id fun x => { x with status := stFaulted, cause := cause }).writeGraph job g.id
    else s) s

/-- Rung 5: the open step is restored, the job's launches read FAULTED, and the job word too. Nothing without an open
step. The tasks are removed first, so that a command still running is undone before the step's older records. -/
def State.rung5 (s : State) (job cause : Nat) : State :=
  match kfind s.jobs job with
  | none => s
  | some j =>
    match j.step with
    | none => s
    | some k =>
      let s := s.faultJob job cause
      let (s, bad) := s.stepRestore job k
      let cause := if bad then cUncorrectable else cause
      let s := s.modJob job fun j => { j with step := none, status := stFaulted, cause := cause }
      (s.devLog 3 (logEntry 2 5 0 0 s.cycle) 0).writeJob job

/-- Every queue of the core is empty. -/
def Arch.drained (a : Arch) : Bool :=
  a.vl.isEmpty && a.va.isEmpty && a.vs.isEmpty && a.mx.isEmpty && a.nm.isEmpty && a.cl.isEmpty

/-- A launch faults, and rung 5 follows where the job has an open step (R218). -/
def State.faultStep (s : State) (job launch cause : Nat) : State := (s.launchFault job launch cause).rung5 job cause

/-- The launches that an access of the device could not serve fault (R225, R461). -/
def State.settleDev (s : State) : State :=
  let s' := s.devFaults.foldl (fun s f =>
    if f.2.2 = cUncorrectable then s.faultStep f.1 f.2.1 f.2.2 else s.launchFault f.1 f.2.1 f.2.2) s
  { s' with devFaults := [] }

def State.streamFaultStep (s : State) (job launch cause : Nat) : State := (s.streamFault job launch cause).rung5 job cause

/-! ## Aborts (R22, R27) -/

/-- What follows an abort: C, the count of R27; re-queued without it; parked; the launch faults. -/
inductive After where
  | counted
  | again
  | parked
  | faulted
  deriving DecidableEq, Repr

/-- An entry of the recovery log (R238): a rung-4 abort, and any other abort that reports a trap cause, with no rung (R260; DESIGN CHOICE,
log entry 38). -/
def State.logAbort (s : State) (tcb cause : Nat) : State :=
  let rung4 := cause == cStrike || cause == cUncorrectable || cause == cSdcKat
  if cause ≤ cStrike then
    s.devLog 3 (logEntry (if cause = cStrike then 3 else 2) (if rung4 then 4 else 0) 0 0 s.cycle) (BitVec.ofNat 64 tcb)
  else s

/-- A task aborted alone: its cause in the TCB, then what follows (DEDUCED, log entry 33). -/
def State.abortOne (s : State) (job tcb cause : Nat) (after : After) : State :=
  match s.task job tcb with
  | none => s
  | some t => if t.past4 then s else
    let record := s.recordOf job t.launch
    let s := (s.takeDown job tcb).modTask job tcb fun t => { t with keepSnap := cause != cRefire }
    let s := s.tcbSet job record tcb 40 40 16 cause
    let s := s.logAbort tcb cause
    match after with
    | .parked => s.setTcbState job t.launch tcb tParked
    | .again => s.requeue job tcb false
    | .faulted => s.launchFault job t.launch cause
    | .counted =>
      let fails := (s.tcbWord job tcb 0).field 32 8 + 1
      let s := s.tcbSet job record tcb 0 32 8 fails
      let limit := match s.launch job t.launch with | some l => l.limit | none => 8
      if fails < limit then s.requeue job tcb false else s.faultStep job t.launch cause

/-- The collective that a task's abort fails once too often (R229, R332). -/
def State.collOver (s : State) (job : Nat) (tcbs : List Nat) : Option Coll :=
  s.colls.find? fun c =>
    c.job == job && tcbs.contains c.tcb && c.attached &&
      !(s.kept.any fun x => x.job == c.job && x.tcb == c.tcb && x.tag == c.tag) && decide ((s.reg 0x3010).toNat ≤ kget c.fails c.steps 0)

/-- Abort a task, and with it every consumer of what it forwarded (R163); those are re-queued. An unretired collective's step
fails with it (R332). -/
def State.abort (s : State) (job tcb cause : Nat) (after : After) : State :=
  let joint := (consumersOf (s.bondsOf job) s.bonds.length [tcb]).filter (· != tcb)
  let failed := s.collOver job (tcb :: joint)
  -- the fault report of R260, with the tag (R255)
  let s := match failed with
    | some c => s.modCore c.core fun k => k.fault s.cycle cCollFail (BitVec.ofNat 64 c.tag) k.arch.word []
    | none => s
  let s := s.abortOne job tcb cause after
  let s := joint.foldl (fun s c => s.jointAbort job c) s
  match failed with
  | some c => s.faultStep job c.launch cCollFail
  | none => s

/-- Discard every provisional write of a job's exchange step and run its streams again from their start (R41). Streams of launches
that have faulted or been cancelled in the step stay ended. -/
def State.restartStreams (s : State) (job : Nat) : State :=
  let mine (k : Core) : Bool := match k.run with | some r => r.exch && r.job == job | none => false
  let clear (k : Core) : Core :=
    { k with prov := k.prov.filter (·.job != job), deliv := k.deliv.filter (·.job != job), clash := ndel k.clash job }
  let again (x : Stream) : Stream := if x.dead then x else { x with started := false, ended := false, sync := none }
  let fix (j : Job) : Job := match j.phase with
    | some p => { j with phase := some { p with part := .exchange, streams := p.streams.map again } }
    | none => j
  { s with
    cores := s.cores.map fun c => (c.1, clear (if mine c.2 then c.2.vacate else c.2)),
    net := s.net.filter fun i => !(i.exch && i.job == job),
    xmcs := s.xmcs.filter (·.job != job),
    jobs := s.jobs.map fun j => if j.1 == job then (j.1, fix j.2) else j }

/-- A stream waits for the pager. -/
def State.parkStream (s : State) (job launch core : Nat) : State :=
  s.modJob job fun j => match j.phase with
    | some p => { j with phase := some { p with
        streams := p.streams.map fun x => if x.core == core ∧ x.launch = launch then { x with parked := true } else x } }
    | none => j

/-- Abort the occupant of a core. An exchange stream's launch faults with the causes that fault a launch; otherwise the streams
run again, after a page fault once the pager has answered (R38, R41, R44). -/
def State.abortCore (s : State) (core cause : Nat) (info : Word) (after : After) : State :=
  match (s.core core).run with
  | none => s
  | some r =>
    -- a fault report belongs to a trap cause (R255, R260)
    let s := if cause < cStrike then s.modCore core fun k => k.fault s.cycle cause info k.arch.word [] else s
    if r.exch then
      match after with
      | .faulted => s.streamFault r.job r.launch cause
      | .parked => (s.restartStreams r.job).parkStream r.job r.launch core
      | _ => s.restartStreams r.job
    else s.abort r.job r.tcb cause after

/-- A page fault of the occupant of a core (R247, R248): its ring entry, and the task parked. -/
def State.pageFault (s : State) (core access va : Nat) : State :=
  match (s.core core).run with
  | none => s
  | some r =>
    let home := match s.task r.job r.tcb with | some t => t.home | none => 5
    let who := if r.exch then s.recordOf r.job r.launch else r.tcb
    let s := s.abortCore core cPageFault (BitVec.ofNat 64 va) .parked
    s.pfRecord (if r.exch then 5 else home) access va who r.exch r.job

/-! ## Trap entry and disposition (R253-R255) -/

/-- The causes that a handler may take (R255). -/
def dispH (cause : Nat) : Bool :=
  [cIllegalOp, cIllegalField, cIllegalOperand, cStreamFault, cWindowFault, cMisaligned, cTrapInsn, cBreakpoint,
   cEcbCheck, cEcbIllegal, cPrivilege, cTemplateFault].contains cause

/-- Trap entry (R253). -/
def Arch.trapEntry (a : Arch) (cause : Nat) (info entry : Word) : Arch :=
  { a with trappc := a.word, trapcause := BitVec.ofNat 64 cause, trapinfo := info, sv := true, nest := true, hpc := entry, hentry := entry }

/-- A cause raised by a word at SQ (R253, R255): the handler where one exists, else the launch faults; while NEST is set,
the task is aborted with the new cause (R73). PAGE_FAULT parks; the counted causes re-run. -/
def State.raiseCause (s : State) (cause : Nat) (info : Word) : State :=
  let a := s.arch
  let entry := if a.trapvec != 0 then a.trapvec else s.reg mSupvec
  if dispH cause && !a.nest && entry != 0 then
    s.modCur fun k => { k with arch := k.arch.trapEntry cause info entry, stallSq := none }
  else if cause = cPageFault then s.pageFault s.focus 0 info.toNat
  else if cause = cQueueDeadlock ∨ cause = cSdcKat then s.abortCore s.focus cause info .counted
  else s.abortCore s.focus cause info .faulted

/-- What SQ does with a word. -/
def State.finish (s : State) : Sq → State
  | .ok t => t
  | .stall why => s.stallWith why
  | .raise cause info => s.raiseCause cause info

/-- The outcome of a word of SQ. The registers that software programs are those of before: no word of a stream writes
them (spec/13 R457: a supervisor's store performs at its release). -/
def State.run (s : State) (r : Sq) : Host.Outcome State Fault Refusal := .next { s.finish r with regs := s.regs }

/-- The outcome of an engine entry or an event that programs no register. -/
def State.sealed (s t : State) : Host.Outcome State Fault Refusal := .next { t with regs := s.regs }

end Sys2Proof.Machine
end

