-- ==== Sys2Proof/Machine/Operands.lean ====
section
/-!
DEFINITION. Operand forms: second sources, conditions, targets, effective addresses, windows (spec/03 R69-R71), vector
operands, and the legality of a word in the stream it stands in (spec/02 R39, spec/11 R254).
-/

namespace Sys2Proof.Machine

/-! ## Scalar operands -/

/-- SignExtend of a 32-bit immediate (R320). -/
def sext32 (v : W32) : Word := v.signExtend 64

/-- src2 (R320). -/
def Arch.src2 (a : Arch) : Src2 → Word
  | .reg sb => a.rd sb
  | .imm v => sext32 v

/-- The registers a second source reads. -/
def src2Regs : Src2 → List SReg
  | .reg sb => [sb]
  | .imm _ => []

/-- What BR compares sa with (R328). -/
def Arch.brSrc (a : Arch) : BrSrc → Word
  | .reg sb => a.rd sb
  | .imm6 v => v.signExtend 64

def brRegs : BrSrc → List SReg
  | .reg sb => [sb]
  | .imm6 _ => []

/-- Cond (R328). -/
def condHolds (c : Cond) (x y : Word) : Bool :=
  match c with
  | .eq => x == y | .ne => x != y
  | .lt => x.slt y | .le => x.sle y | .gt => y.slt x | .ge => y.sle x
  | .ltu => x.ult y | .leu => x.ule y | .gtu => y.ult x | .geu => y.ule x

/-- A parcel offset from the word's own address (R290). -/
def Arch.offset (a : Arch) (v : W32) : Word := a.word + sext32 v * 4

/-- A JMP or CALL target (R333, R355). -/
def Arch.target (a : Arch) : Target → Word
  | .off v => a.offset v
  | .reg sa => a.rd sa

def targetRegs : Target → List SReg
  | .off _ => []
  | .reg sa => [sa]

/-- The effective address of SM and vector words (R291, R357). -/
def Arch.ea (a : Arch) (sa : SReg) (off : W32) : Word := a.rd sa + sext32 off

/-- An event mask (R348). -/
def Arch.evMask (a : Arch) : EvMask → Word
  | .reg sa => a.rd sa
  | .bit n => 1#64 <<< n.val

def evRegs : EvMask → List SReg
  | .reg sa => [sa]
  | .bit _ => []

def regImmRegs : RegImm → List SReg
  | .reg sa => [sa]
  | .imm _ => []

def MSize.bytes : MSize → Nat
  | .b => 1 | .h => 2 | .w => 4 | .d => 8

def ESize.bytes : ESize → Nat
  | .b => 1 | .h => 2 | .w => 4

/-! ## Windows (R69, R70) -/

inductive Window64 where
  | glob | sp | acc | twa | aperture | none
  deriving DecidableEq, Repr

def windowOf (a : Word) : Window64 :=
  let h := a.field 48 16
  if h = 0 then .glob else if h = 0xFF00 then .sp else if h = 0xFF01 then .acc
  else if h = 0xFF02 then .twa else if h = 0xFF03 then .aperture else .none

/-- The offset within a window, and the VA in the global one. -/
def offsetOf (a : Word) : Nat := a.field 0 48

/-- What occupies the core in focus; an empty core declares nothing. -/
def State.runD (s : State) : Run :=
  s.cur.run.getD { exch := false, job := 0, launch := 0, index := 0, tcb := 0, code := 0, entry := 0, nvec := 0,
                   ntile := 0, npage := 0, slip := 1, since := 0, icache := [] }

/-- Bytes [off, off + n) lie in the declared pages (R33). -/
def State.inPages (s : State) (off n : Nat) : Bool := decide (off + n ≤ 4096 * s.runD.npage)
def State.inTiles (s : State) (off n : Nat) : Bool := decide (off + n ≤ 16384 * s.runD.ntile)

/-- A scratchpad offset as CPTPL and ECGO read it: a plain offset or a scratchpad-window address (R339). -/
def spOffset (sa : Word) : Option Nat :=
  if sa.toNat < 2 ^ 19 then some sa.toNat
  else if sa.field 48 16 = 0xFF00 ∧ sa.field 19 29 = 0 then some (sa.field 0 19) else none

/-! ## Legality of a word in its stream -/

/-- The checks every word of SQ passes once it has decoded: ILLEGAL_OP in a handler (R254), and the registers it names
await no value (R57). -/
def State.sq (s : State) (handler : Bool) (regs : List SReg) (k : Sq) : Sq :=
  guard (handler || !s.inHandler) cIllegalOp s.arch.word (waitFor (s.cur.free regs) .inFlight k)

/-- PROTECTION in an exchange stream (R39). -/
def State.notExch (s : State) (info : Word) (k : Sq) : Sq := guard (!s.isExch) cProtection info k

/-! ## Vector operands (R296, R398) -/

/-- A lane of a vector operand: a register's, or the broadcast of a scalar's low half as read at the push. -/
def vopLane (a : Arch) (e : VEntry) (v : VSpec) : Nat → W32 :=
  match v with
  | .v r => let x := a.vrd r; fun i => laneAt x i
  | .s r => let w : W32 := (kget e.scal r.val 0).setWidth 32; fun _ => w

/-- A scalar as it was read at the push. -/
def VEntry.scalar (e : VEntry) (r : SReg) : Word := if r = 0 then 0 else kget e.scal r.val 0

/-- The address of a VL or VS word. -/
def VEntry.base (e : VEntry) (sa : SReg) (off : W32) : Word := e.scalar sa + sext32 off

def specRegs : VSpec → List SReg
  | .v _ => []
  | .s r => [r]

def specVecs : VSpec → List VReg
  | .v r => [r]
  | .s _ => []

/-- The first vector register at or above the declared count, by its specifier (R33, R295). -/
def State.undeclared (s : State) (rs : List VReg) : Option VReg := rs.find? fun r => decide (s.runD.nvec ≤ r.val)

/-! ## Registers of a vector word -/

/-- What a vector word reads and writes: scalars at the push; vector and predicate registers in its engine. -/
structure VUse where
  scal : List SReg
  vreads : List VReg
  vwrites : List VReg
  preads : List PReg
  pwrites : List PReg
  deriving DecidableEq, Repr

def vuse (c : VCtl) (scal : List SReg) (specs : List VSpec) (vd : List VReg) : VUse :=
  { scal := scal ++ specs.flatMap specRegs, vreads := specs.flatMap specVecs, vwrites := vd, preads := [c.qp], pwrites := [] }

/-- The registers of every vector word; nothing for other words. -/
def Instr.vuse : Instr → VUse
  | .vld _ c vd sa _ | .vldb _ c vd sa _ | .vaccr _ _ c vd sa _ => Machine.vuse c [sa] [] [vd]
  | .vlds _ c vd sa _ sb | .vldt _ _ c vd sa _ sb => Machine.vuse c [sa, sb] [] [vd]
  | .vldx _ c vd sa _ vx => Machine.vuse c [sa] [vx] [vd]
  | .vadd _ _ c vd a b | .vsub _ _ c vd a b | .vmul _ _ c vd a b | .vmin _ c vd a b | .vmax _ c vd a b
  | .vand _ c vd a b | .vor _ c vd a b | .vxor _ c vd a b | .vshl _ c vd a b | .vshr _ c vd a b
  | .vsra _ c vd a b | .vperm _ c vd a b | .vslide _ _ c vd a b _ | .vdiv c vd a b => Machine.vuse c [] [a, b] [vd]
  | .vfma _ _ c vd a b d | .vhash _ c vd a b d => Machine.vuse c [] [a, b, d] [vd]
  | .vcvt _ _ rm c vd a b d => Machine.vuse c [] (if rm = .sr then [a, b, d] else [a]) [vd]
  | .vabs _ c vd a | .vmov _ c vd a | .vred _ _ _ c vd a | .viota _ c vd a _ | .vsqrt c vd a | .vexp2 c vd a
  | .vlog2 c vd a => Machine.vuse c [] [a] [vd]
  | .vcmp _ _ _ c p1 p2 a b => { Machine.vuse c [] [a, b] [] with preads := [c.qp, p1, p2], pwrites := [p1, p2] }
  | .vsel _ c vd ps a b => { Machine.vuse c [] [a, b] [vd] with preads := [c.qp, ps] }
  | .vget f c _ => Machine.vuse c [] (match f with | .lane va _ _ => [va] | _ => []) []
  | .plog _ c pd pa pb => { Machine.vuse c [] [] [] with preads := [c.qp, pa, pb, pd], pwrites := [pd] }
  | .pset src c pd =>
    { Machine.vuse c (match src with | .bits r => [r] | .firstReg r => [r] | .firstImm _ => []) [] [] with
      preads := [c.qp, pd], pwrites := [pd] }
  | .vst _ c vs sa _ | .vstc _ c vs sa _ | .vaccw _ _ c vs sa _ => { Machine.vuse c [sa] [.v vs] [] with pwrites := [] }
  | .vsts _ c vs sa _ sb => Machine.vuse c [sa, sb] [.v vs] []
  | .vstx _ c vs sa _ vx => Machine.vuse c [sa] [.v vs, vx] []
  | _ => { scal := [], vreads := [], vwrites := [], preads := [], pwrites := [] }

/-- The control field of a vector word. -/
def Instr.vctl : Instr → VCtl
  | .vld _ c .. | .vldb _ c .. | .vlds _ c .. | .vldx _ c .. | .vldt _ _ c .. | .vaccr _ _ c ..
  | .vadd _ _ c .. | .vsub _ _ c .. | .vmul _ _ c .. | .vfma _ _ c .. | .vmin _ c .. | .vmax _ c .. | .vabs _ c ..
  | .vand _ c .. | .vor _ c .. | .vxor _ c .. | .vshl _ c .. | .vshr _ c .. | .vsra _ c .. | .vcmp _ _ _ c ..
  | .vsel _ c .. | .vmov _ c .. | .vcvt _ _ _ c .. | .vred _ _ _ c .. | .vperm _ c .. | .vslide _ _ c ..
  | .viota _ c .. | .vdiv c .. | .vsqrt c .. | .vexp2 c .. | .vlog2 c .. | .vget _ c .. | .plog _ c .. | .pset _ c ..
  | .vhash _ c .. | .vst _ c .. | .vsts _ c .. | .vstx _ c .. | .vaccw _ _ c .. | .vstc _ c .. => c
  | _ => { qp := 0, z := false, pop := .none, push := .none }

/-- The tile of VACCR and VACCW (R57). -/
def Instr.vtile : Instr → Option Nat
  | .vaccr _ z .. => some z.val
  | .vaccw _ z .. => some z.val
  | _ => none

/-- Two vector words depend on one another through a register (R57). -/
def conflicts (a b : VUse) : Bool :=
  (a.vwrites.any fun r => b.vreads.contains r || b.vwrites.contains r) || (b.vwrites.any fun r => a.vreads.contains r) ||
  (a.pwrites.any fun p => p != 0 && (b.preads.contains p || b.pwrites.contains p)) ||
  (b.pwrites.any fun p => p != 0 && a.preads.contains p)

end Sys2Proof.Machine
end

