-- ==== Sys2Proof/Machine/Local.lean ====
section
/-!
DEFINITION. Accesses to a core's local storage by any of its agents: what such an access meets first (a page that is
absent or being filled, a locked range, a latent error), and how it then reads and writes, provisionally in an exchange
stream (spec/02 R39, R40, spec/06 R122, R123, R129-R131, spec/10 R224, R225, R232).
-/

namespace Sys2Proof.Machine

/-! ## Latent errors met on use (R225, R232, R236, R237) -/

/-- Granules of the bypass and of the operand staging, beside those of the accumulator store (R218). -/
abbrev gBypass : Nat := 65536
abbrev gStaging : Nat := 65537
/-- The granule of the full/empty bit of scratchpad word w (R131). -/
def gBit (w : Nat) : Nat := 65536 + w
/-- The granule of entry e of a structure of the QUEUE ring (R237). -/
def gQueue (structure_ e : Nat) : Nat := 128 * structure_ + e

/-- The location field of a log entry, from a ring and a granule: VRF 64 × register + lane; ACC 2,048 × tile + word, 0 for the bypass
and operand staging, which R237 does not code; SP 64-bit word, with [4] for a full/empty bit; TWA 32 × slot + word, from 32,768 the
words of the scale store, from 32,896 those of the directory; QUEUE structure and entry as R237 codes them. -/
def flawLoc (ring : Ring5) (g : Nat) : Nat :=
  match ring with
  | .vrf => g / 64 * 2 ^ 11 + g % 64 * 2 ^ 5
  | .acc => if g < 65536 then g / 2048 * 2 ^ 16 + g % 2048 * 2 ^ 5 else 0
  | .sp => if g < 65536 then g * 2 ^ 5 else (g - 65536) / 2 * 2 ^ 5 + 2 ^ 4
  | .twa =>
    let (w, part) := if g < 32768 then (g, 0) else if g < 32896 then (g - 32768, 1) else (g - 32896, 2)
    w / 32 * 2 ^ 11 + w % 32 * 2 ^ 6 + part * 2 ^ 4
  | .queue => g * 2 ^ 10

/-- Correct the single-bit errors of the granules that a read touches: log and count each (rung 1). -/
def State.correct (s : State) (c : Nat) (ring : Ring5) (hit : Nat → Bool) (kind : Nat) : State :=
  let k := s.core c
  let mine (f : Flaw) : Bool := f.ring == ring && !f.fatal && hit f.granule
  let n := (k.flaws.filter mine).length
  if n = 0 then s
  else
    let k := (k.flaws.filter mine).foldl
      (fun k f => k.log (Ring5.code ring) (logEntry kind 1 0 (flawLoc ring f.granule) s.cycle)) k
    ({ s with cores := kset s.cores c { k with flaws := k.flaws.filter fun f => !mine f } } : State).bump 0x3020 n

/-- The first uncorrectable granule that a read touches. -/
def State.fatalAt (s : State) (c : Nat) (ring : Ring5) (hit : Nat → Bool) : Option Nat :=
  ((s.core c).flaws.find? fun f => f.ring == ring && f.fatal && hit f.granule).map (·.granule)

/-- Log an uncorrectable granule at the rung that settles it, and forget it: what holds it is re-made. -/
def State.logFatal (s : State) (c : Nat) (ring : Ring5) (g rung : Nat) : State :=
  s.modCore c fun k =>
    { k.log (Ring5.code ring) (logEntry 2 rung 0 (flawLoc ring g) s.cycle) with
      flaws := k.flaws.filter fun f => !(f.ring == ring && f.granule == g) }

/-- Code words of the queues, token FIFOs, event register, section state, instruction buffer or build bank as they are read: corrected, or
rung 4; a line of the instruction buffer is fetched again whatever its error (R232, R233; DEDUCED, log entry 53). The Bool: the task goes on. -/
def State.meetQueue (s : State) (core : Nat) (hit : Nat → Bool) : State × Bool :=
  if (s.core core).flaws.isEmpty then (s, true)
  else
    let line (f : Flaw) : Flaw := if f.ring == .queue && f.granule / 128 == 10 then { f with fatal := false } else f
    let s := (s.modCore core fun k => { k with flaws := k.flaws.map line }).correct core .queue hit 0
    match s.fatalAt core .queue hit with
    | none => (s, true)
    | some g =>
      ((s.logFatal core .queue g 4).abortCore core cUncorrectable (BitVec.ofNat 64 (flawLoc .queue g)) .counted, false)

/-- The head of a queue leaves it: the errors of its entry go with it, and those of the others move up (R233, R237). -/
def popFlaws (structure_ : Nat) (fs : List Flaw) : List Flaw :=
  fs.filterMap fun f =>
    if f.ring == .queue && f.granule / 128 == structure_ then
      (if f.granule % 128 = 0 then none else some { f with granule := f.granule - 1 })
    else some f

/-- Storage that no task owns is written with zeros: the 64-byte granule, or register, in which code granule g lies (R235). -/
def Arch.zeroed (a : Arch) (ring : Ring5) (g : Nat) : Arch :=
  match ring with
  | .vrf => { a with vregs := kset a.vregs (g / 64) (laneTab fun _ => 0) }
  | .acc =>
    if g < 65536 then
      let t := a.tile (g / 2048)
      a.setTile (g / 2048) { t with data := t.data.zipIdx.map fun x => if x.2 / 16 = g % 2048 / 8 then 0 else x.1 }
    else a
  | .sp => if g < 65536 then a.spRaw (g / 8 * 64) (List.replicate 64 0) else { a with full := ndel a.full (g - 65536) }
  | .twa =>
    if g < 32768 then { a with slots := putBytes a.slots (g / 8 * 64) (List.replicate 64 0) }
    else if g < 32896 then { a with scales := putBytes a.scales ((g - 32768) / 8 * 64) (List.replicate 64 0) }
    else { a with dirs := (List.range 32).foldl (fun m i => kset m ((g - 32896) / 8 * 32 + i) 0) a.dirs }
  | .queue => a

/-- An uncorrectable granule of storage that no task owns (R235). -/
def State.scrubZero (s : State) (core : Nat) (ring : Ring5) (g : Nat) : State :=
  (s.logFatal core ring g 0).modArchOf core (·.zeroed ring g)

/-- The granules of the scratchpad, the accumulator store and the TWA. -/
def inZoneD (f : Flaw) : Bool :=
  match f.ring with | .acc => decide (f.granule < 65536) | .sp | .twa => true | .vrf | .queue => false

/-- The scrub of zone D before the next dispatch: 8,192 cycles, in which every error that it finds is corrected, or zeroed, and logged
(R223, R235) (DESIGN CHOICE, log entry 51). -/
def State.scrubZoneD (s : State) (core : Nat) : State :=
  let s := [Ring5.acc, .sp, .twa].foldl (fun (s : State) r => s.correct core r (fun g => inZoneD { ring := r, granule := g, fatal := false }) 1) s
  let bad := (s.core core).flaws.filter fun f => f.fatal && inZoneD f
  let s := bad.foldl (fun (s : State) f => s.scrubZero core f.ring f.granule) s
  s.modCore core fun k => { k with scrubUntil := s.cycle + 8192 }

/-- 64-bit words of the scratchpad that byte ranges touch. -/
def inRanges (rs : List (Nat × Nat)) (word : Nat) : Bool :=
  decide (word < 65536) && rs.any fun r => decide (8 * word < r.1 + r.2) && decide (r.1 < 8 * word + 8)

/-! ## Windows of the matrix engine (R221, R224) -/

/-- The byte ranges that a core's retained windows lock, aligned to 64 bytes. -/
def Core.lockRanges (k : Core) : List (Nat × Nat) :=
  (k.windows.flatMap fun w => w.cmds.flatMap (·.reads)).map fun r =>
    (r.1 / 64 * 64, ceilDiv (r.1 + r.2) 64 * 64 - r.1 / 64 * 64)

/-- Insert a range [lo, hi) in order, merging what overlaps or adjoins. -/
def mergeRange : List (Nat × Nat) → Nat → Nat → List (Nat × Nat)
  | [], lo, hi => [(lo, hi)]
  | (a, b) :: t, lo, hi =>
    if hi < a then (lo, hi) :: (a, b) :: t
    else if b < lo then (a, b) :: mergeRange t lo hi
    else mergeRange t (min a lo) (max b hi)

/-- Close the smallest gap, the first of equals. -/
def closeGap (l : List (Nat × Nat)) : List (Nat × Nat) :=
  let gaps := (l.zip l.tail).map fun p => p.2.1 - p.1.2
  match gaps.foldl (fun (m : Option Nat) g => match m with | some x => some (min x g) | none => some g) none with
  | none => l
  | some g =>
    let rec go : List (Nat × Nat) → List (Nat × Nat)
      | x :: y :: t => if y.1 - x.2 = g then (x.1, y.2) :: t else x :: go (y :: t)
      | l => l
    go l

/-- At most 16 ranges, as [lo, hi) (R224). -/
def capRanges : Nat → List (Nat × Nat) → List (Nat × Nat)
  | 0, l => l
  | fuel + 1, l => if l.length ≤ 16 then l else capRanges fuel (closeGap l)

def Core.locks (k : Core) : List (Nat × Nat) :=
  (k.lockRanges.filter (·.2 != 0)).foldl (fun l r => capRanges 2 (mergeRange l r.1 (r.1 + r.2))) []

/-- The images that stay in the retention buffer move up, and their errors with them; those of the others go. -/
def Core.keepImages (k : Core) (keep : Window → Bool) : List Flaw :=
  let slots := (k.windows.flatMap fun w => w.cmds.map fun _ => keep w)
  k.flaws.filterMap fun f =>
    if f.ring == .queue && f.granule / 128 == 12 then
      (if slots.getD (f.granule % 128) false then
        some { f with granule := gQueue 12 ((slots.take (f.granule % 128)).filter id).length } else none)
    else some f

/-- A window leaves the retention buffer as unprotected: its commands are (R221). -/
def Core.dropWindows (k : Core) (hit : Window → Bool) : Core :=
  let gone := (k.windows.filter hit).flatMap fun w => w.cmds
  let last : Bool := match k.windows.getLast? with | some w => hit w | none => false
  { k with windows := k.windows.filter (fun w => !hit w), unprotected := k.unprotected || last, unprot := k.unprot ++ gone,
           flaws := k.keepImages fun w => !hit w }

/-- Some byte of [off, off + n) is write-locked. -/
def Core.locked (k : Core) (off n : Nat) : Bool :=
  k.locks.any fun r => decide (off < r.2) && decide (r.1 < off + n)

/-! ## Words that an entry takes one by one (R58) -/

/-- An agent reads words of the scratchpad ahead of the rest of its present entry. key: its engine code, 0 for SQ; 16 + the channel of a copy. -/
def Core.latchWords (k : Core) (key : Nat) (ws : NSet) : Core :=
  { k with latched := kset k.latched key (ws.foldl (fun (m : KMap Byte) w => (List.range 4).foldl (fun (m : KMap Byte) i =>
      if (kfind m (4 * w + i)).isSome then m else kset m (4 * w + i) (k.arch.spByte (4 * w + i))) m) (kget k.latched key [])) }

/-- The bytes that an agent's present entry reads: those that it has latched, and the others as they stand. -/
def Core.spVia (k : Core) (key off n : Nat) : List Byte :=
  (List.range n).map fun i => (kfind (kget k.latched key []) (off + i)).getD (k.arch.spByte (off + i))

def Arch.spWord (a : Arch) (w : Nat) : List Byte := a.spBytes (4 * w) 4

/-! ## What an access meets first -/

/-- The bytes [off, off + n) touch page p. -/
def touchesPage (off n p : Nat) : Bool := decide (off < 4096 * p + 4096) && decide (4096 * p < off + n)

/-- An SPFILL or SPEVICT on a page that the bytes touch, older than the access, has not retired (R127). -/
def Core.pageBusy (k : Core) (seq off n : Nat) : Bool :=
  k.copies.any fun c => match c.2.kind with
    | .fill p => decide (c.2.seq < seq) && touchesPage off n p
    | .evict p => decide (c.2.seq < seq) && touchesPage off n p
    | .copy .. => false

/-- What a local access meets. -/
inductive Touch where
  /-- It may proceed; corrections have been logged. -/
  | ready (s : State)
  /-- It waits; the state says so (a first-touch fill has been asked for). -/
  | wait (s : State)
  /-- An uncorrectable word: delivered by the last confirmation barrier or not (R225). -/
  | lost (s : State) (delivered : Bool) (loc : Nat)

/-- The page word under way on page p that moves data and whose place in program order is the first from lo on (R126, R127). One that only
sets PIN moves nothing. -/
def Core.opFrom (k : Core) (lo p : Nat) : Option (Nat × Copy) :=
  (k.copies.filter fun c => decide (lo ≤ c.2.seq) && c.2.expected != 0 && (match c.2.kind with
    | .fill q | .evict q => q == p
    | .copy .. => false)).foldl (fun (m : Option (Nat × Copy)) c => match m with
      | some x => if c.2.seq < x.2.seq then some c else some x
      | none => some c) none

/-- The tag that page p keeps, for what precedes in program order the page words under way from lo on: the tag that the first of them found at
issue, which the accesses before it still act on (R127, R388). -/
def Core.tagFrom (k : Core) (lo p : Nat) : Option Page :=
  match k.opFrom lo p with
  | some c => c.2.writeBack
  | none => kfind k.arch.pages p

def Core.setTagFrom (k : Core) (lo p : Nat) (t : Page) : Core :=
  match k.opFrom lo p with
  | some c => { k with copies := kset k.copies c.1 { c.2 with writeBack := some t } }
  | none => { k with arch := { k.arch with pages := kset k.arch.pages p t } }

/-- A page of the range that is backed and not resident; for a copy, by the tag that it acts on. -/
def Core.absentFor (k : Core) (copy : Bool) (off n : Nat) : Option Nat :=
  if !copy then k.arch.absentPage off n
  else [off / 4096, (off + n - 1) / 4096].find? fun p => touchesPage off n p && (match k.tagFrom 0 p with
    | some pg => !pg.res
    | none => false)

/-- A first-touch fill is asked for (R123); not where the page word under way brings the page. -/
def State.askFill (s : State) (copy : Bool) (c p : Nat) : State :=
  if copy || ((s.core c).opFrom 0 p).isNone then s.modCore c fun k => { k with fills := nins k.fills p } else s

/-- An agent of core c touches scratchpad bytes; a copy (copy = true) or another agent. seq: its place in program order. A flawed word of
a clean sector of a backed page is refilled from its range (R225). -/
def State.touchAs (s : State) (copy : Bool) (c seq : Nat) (rs : List (Nat × Nat)) (reads writes : Bool) : Touch :=
  let k := s.core c
  if rs.any fun r => k.pageBusy seq r.1 r.2 then .wait s
  else match rs.findSome? fun r => k.absentFor copy r.1 r.2 with
    | some p => .wait (s.askFill copy c p)
    | none =>
      if writes && rs.any fun r => k.locked r.1 r.2 then .wait s
      else if !reads then .ready s
      else
        let s := s.correct c .sp (inRanges rs) 0
        match s.fatalAt c .sp (inRanges rs) with
        | none => .ready s
        | some w =>
          let off := 8 * w
          match (if copy then k.tagFrom 0 (off / 4096) else kfind k.arch.pages (off / 4096)) with
          | some pg =>
            if pg.dirty.contains (off % 4096 / 32) then .lost (s.logFatal c .sp w 4) false off
            else .wait (s.askFill copy c (off / 4096))
          | none =>
            if k.arch.delivered.contains (off / 4) || k.arch.delivered.contains (off / 4 + 1)
              then .lost (s.logFatal c .sp w 5) true off
            else .lost (s.logFatal c .sp w 4) false off

/-- The occupant of core c touches scratchpad bytes. -/
def State.touch (s : State) (c seq : Nat) (rs : List (Nat × Nat)) (reads writes : Bool) : Touch :=
  s.touchAs false c seq rs reads writes

/-- The parity of a full/empty bit fails on use: as an uncorrectable error of the word (R131, R225). -/
def State.touchBit (s : State) (c word : Nat) : Touch :=
  if (s.fatalAt c .sp (· == gBit word)).isNone then .ready s
  else
    let d := (s.core c).arch.delivered.contains word
    .lost (s.logFatal c .sp (gBit word) (if d then 5 else 4)) d (4 * word)

/-- The end of an access that met an uncorrectable word: rung 4, with zone D scrubbed after it (R223), or the reading
launch faults and rung 5 follows (R225). -/
def State.lostWord (s : State) (c : Nat) (delivered : Bool) (loc : Nat) : State :=
  match (s.core c).run with
  | none => s
  | some r =>
    if delivered then
      let s := s.modCore c fun k => k.fault s.cycle cUncorrectable (BitVec.ofNat 64 loc) k.arch.word []
      if r.exch then s.streamFaultStep r.job r.launch cUncorrectable else s.faultStep r.job r.launch cUncorrectable
    else
      (s.abortCore c cUncorrectable (BitVec.ofNat 64 loc) .counted).scrubZoneD c

/-- A read of a poisoned sector faults the reading launch, and rung 5 follows (R225). -/
def State.readPoison (s : State) (core pa n : Nat) : State :=
  let s := s.meetFlaws 0 pa n
  match (s.core core).run with
  | none => s
  | some r =>
    (s.modCore core fun k => k.fault s.cycle cUncorrectable (BitVec.ofNat 64 pa) k.arch.word []).faultStep
      r.job r.launch cUncorrectable

/-- A word of SQ whose access has been found to meet something. -/
def Touch.sq : Touch → (State → Sq) → Sq
  | .ready s, k => k s
  | .wait s, _ => .ok (s.stallWith .inFlight)
  | .lost s d loc, _ => .ok (s.lostWord s.focus d loc)

/-! ## Writes of the occupant in focus -/

/-- Deliveries that wait on words of [off, off + n) at core c. -/
def Core.pendingDeliv (k : Core) (off n : Nat) : List Deliv :=
  k.deliv.filter fun d => decide (4 * d.word < off + n) && decide (off < 4 * d.word + 4)

/-- EXCH_CONFLICT at core c (R40): every delivery of the step to that core is discarded, those still to come too, and the launch that
sent the later delivery faults. -/
def State.conflict (s : State) (c job launch word : Nat) : State :=
  let s := s.modCore c fun k =>
    { k.fault s.cycle cExchConflict (BitVec.ofNat 64 (4 * word)) k.arch.word [] with
      deliv := k.deliv.filter (·.job != job), clash := nins k.clash job }
  s.streamFault job launch cExchConflict

/-- A local write at once: the bytes with their codes, the dirty sectors of the tag, and those of a tag that an SPFILL or SPEVICT.WB has
still to write back (R122, R127). -/
def Core.put (k : Core) (off : Nat) (bs : List Byte) : Core :=
  let note (c : Copy) : Copy := match c.kind with
    | .fill p | .evict p => { c with writeBack := c.writeBack.map (Page.mark off bs.length p) }
    | .copy .. => c
  let fresh (f : Flaw) : Bool := f.ring == .sp && decide (off ≤ 8 * f.granule) && decide (8 * f.granule + 8 ≤ off + bs.length)
  { k with arch := k.arch.spPut off bs, copies := k.copies.map (fun c => (c.1, note c.2)),
           flaws := k.flaws.filter fun f => !fresh f }

/-- Of what the whole of an entry would make of the core, which is new, the words p of the scratchpad come now and the rest later. -/
def Core.takeEarly (k new : Core) (key : Nat) (p : NSet) : Core :=
  p.foldl (fun (k : Core) w =>
    if (kget k.early key []).contains w || new.arch.spWord w == k.arch.spWord w then k
    else { k.put (4 * w) (new.arch.spWord w) with early := kset k.early key (nins (kget k.early key []) w) }) k

/-- The present entry of an agent has been performed in part. -/
def Core.begun (k : Core) (key : Nat) : Bool := (kfind k.early key).isSome || (kfind k.latched key).isSome

/-- A provisional write takes its place in the program order of its stream, after what the streams before it on the core have written (R39). -/
def Core.provPut (k : Core) (job launch seq : Nat) (p : Prov) : Core :=
  let mine (d : Draft) : Bool := d.job == job && d.launch == launch
  { k with prov := k.prov.filter (fun d => !mine d) ++
      insertBy (fun a b => decide (a.seq < b.seq)) { job := job, launch := launch, seq := seq, write := p } (k.prov.filter mine) }

/-- A provisional write of the occupant. -/
def Core.draft (k : Core) (seq : Nat) (p : Prov) : Core :=
  match k.run with
  | some r => k.provPut r.job r.launch seq p
  | none => k

/-- A write of the occupant of core c to its scratchpad, whose place in program order is seq: at once; provisional in an exchange
stream, where it conflicts with a delivery that waits on one of its words. -/
def State.spWrite (s : State) (c seq off : Nat) (bs : List Byte) : State :=
  let k := s.core c
  let exch : Bool := match k.run with | some r => r.exch | none => false
  if !exch then s.modCore c (·.put off bs)
  else
    let s := match (k.pendingDeliv off bs.length).getLast? with
      | some d => s.conflict c d.job d.launch d.word
      | none => s
    if (s.core c).run.isSome then s.modCore c (·.draft seq (.bytes off bs)) else s

/-- Complete a word of SQ whose occupant is still there. -/
def State.doneLive (s : State) : State := if s.cur.run.isSome then s.done else s

/-- Set or clear the full/empty bit of a word (R130); provisional in an exchange stream (R39). -/
def State.setFull (s : State) (c seq word : Nat) (full : Bool) : State :=
  let k := s.core c
  let exch : Bool := match k.run with | some r => r.exch | none => false
  if exch then s.modCore c (·.draft seq (.bit word full))
  else s.modArchOf c fun a => { a with full := if full then nins a.full word else ndel a.full word }

end Sys2Proof.Machine
end

