-- ==== Sys2Proof/Machine/Issue.lean ====
section
/-!
DEFINITION. Issue and retirement: tokens and events (spec/03 R59-R62), section waits (R53), what enters the Safety Net (spec/10
R215), vector entries (R54, R55, R57), class order (spec/07 R157), and ECB queues (spec/03 R56).
-/

namespace Sys2Proof.Machine

/-! ## Tokens and events -/

def Arch.tok (a : Arch) (ch : Nat) : Nat := kget a.tokens ch 0
def Arch.setTok (a : Arch) (ch n : Nat) : Arch := { a with tokens := kput 0 a.tokens ch n }
/-- Room for one more token (R59); a push of none needs none. -/
def Arch.tokRoom (a : Arch) (ch : Nat) : Bool := ch == 0 || decide (a.tok ch < 16)
/-- A token to pop; a pop of none needs none. -/
def Arch.tokReady (a : Arch) (ch : Nat) : Bool := ch == 0 || decide (0 < a.tok ch)
def Arch.popTok (a : Arch) (ch : Nat) : Arch := if ch = 0 then a else a.setTok ch (a.tok ch - 1)
def Arch.pushTok (a : Arch) (ch : Nat) : Arch := if ch = 0 then a else a.setTok ch (a.tok ch + 1)
def Arch.setEvents (a : Arch) (m : Word) : Arch := { a with events := a.events ||| m }
def Arch.clearEvents (a : Arch) (m : Word) : Arch := { a with events := a.events &&& ~~~ m }

/-- The rank, among the turns of one cycle, after which a set of the event register stands: clears come before it (R62). -/
abbrev rSets : Nat := 15 * 1024
/-- The rank of pre-emption and slicing (spec/08 R199). -/
abbrev rPreempt : Nat := 16 * 1024
/-- The rank of overflow descheduling (spec/08 R199). -/
abbrev rOverflow : Nat := 17 * 1024

/-- What has happened in this cycle stands at a rank: turns of a lower one belong to the next cycle (log entry 1). -/
def State.ranked (s : State) (r : Nat) : State := { s with rank := max s.rank r }

/-- Bits m of the event register have been set. -/
def State.signalled (s : State) (m : Word) : State := if m = 0 then s else s.ranked rSets

/-- The next place in program order. -/
def Arch.tick (a : Arch) : Arch := { a with seq := a.seq + 1 }

/-! ## Sections (R53) -/

/-- Sections of the entries that an engine has not retired, in the header's order VA, VL, VS, MX, CP, NM. -/
def Core.outSecs (k : Core) : Nat → List Nat
  | 0 => k.arch.va.map (·.sec)
  | 1 => k.arch.vl.map (·.sec)
  | 2 => k.arch.vs.map (·.sec)
  | 3 => (k.arch.mx.filter (!·.owing)).map (·.sec)
  | 4 => (k.copies.filter (!·.2.owing)).map (·.2.sec)
  | _ => (k.arch.nm ++ k.arch.cl).map (·.sec)

def minOf : List Nat → Option Nat
  | [] => none
  | x :: t => match minOf t with | some y => some (min x y) | none => some x

/-- The last section that an engine has retired; with nothing outstanding, SQ's own count. -/
def Core.retiredSec (k : Core) (e : Nat) : Nat :=
  match minOf (k.outSecs e) with
  | some m => m - 1
  | none => k.arch.sect

/-- Every delta of the header is met. -/
def Core.waitsMet (k : Core) : Bool :=
  (List.range 6).all fun e =>
    let d := k.arch.waits.getD e 0
    d == 0 || decide (k.arch.sect ≤ d) || decide (k.arch.sect - d ≤ k.retiredSec e)

/-! ## Class counters (R63) -/

def PendKind.counted : PendKind → Bool
  | .verb => false
  | _ => true

def Core.ldCount (k : Core) : Nat := (k.pend.filter fun p => p.kind.counted).length
/-- Stores, AMO, CAS, WENQ and XMC that have been issued and not yet accepted: the Safety Net accepts an item at the end of the cycle in
which it enters (DESIGN CHOICE, log entry 45). -/
def State.stCount (s : State) (core : Nat) : Nat :=
  (s.net.filter fun i => i.core == core && i.entered == s.cycle && (match i.body with
    | .store => i.oc != 16
    | .mgmt .. | .atomic | .xmc .. => true
    | _ => false)).length
def Core.cpCount (k : Core) : Nat := (k.copies.filter (!·.2.owing)).length
def Core.mxCount (k : Core) : Nat := (k.arch.mx.filter (!·.owing)).length

/-! ## The Safety Net (R215) -/

/-- The bytes an item occupies. -/
def netSize (payload : Nat) : Nat := 16 + 16 * ceilDiv payload 16

def State.netOf (s : State) (core : Nat) : Nat := ((s.net.filter (·.core == core)).map (·.size)).sum
def State.netOfCluster (s : State) (cl : Nat) : Nat := ((s.net.filter fun i => clusterOf i.core == cl).map (·.size)).sum

/-- An item of a payload fits: 48 KiB for one core, 64 KiB for the cluster. -/
def State.netFits (s : State) (core payload : Nat) : Bool :=
  decide (s.netOf core + netSize payload ≤ 49152) && decide (s.netOfCluster (clusterOf core) + netSize payload ≤ 65536)

/-- The ordering class of an item that has none (R152). -/
abbrev noClass : Nat := 16

/-- An item enters. -/
def State.netPut (s : State) (core seq oc payload : Nat) (body : SnBody) : State :=
  match (s.core core).run with
  | none => s
  | some r =>
    let i : SnItem := { core := core, job := r.job, launch := r.launch, tcb := r.tcb, exch := r.exch, entered := s.cycle, size := netSize payload, oc := oc,
                        seq := seq, intact := true, body := body }
    { s with net := s.net ++ [i] }

/-- The occupant of core c puts bytes into its quarantine: none when its quota does not hold them (R25). -/
def State.quarPut (s : State) (job launch tcb : Nat) (e : List QEntry) (h : List Held) : Option State :=
  match s.task job tcb with
  | none => some s
  | some t =>
    let quota := match s.launch job launch with | some l => l.quota | none => 0
    let t' : Task := { t with quar := t.quar ++ e, held := t.held ++ h }
    if t'.lines ≤ 32 * quota then some (s.modTask job tcb fun _ => t') else none

/-- The quota of a launch, as the fault report gives it. -/
def State.quotaOf (s : State) (r : Run) : Word :=
  BitVec.ofNat 64 (match s.launch r.job r.launch with | some l => l.quota | none => 0)

/-! ## Class order (R157) -/

def ecbOc (e : Ecb) : Nat := (ecbSlot e.slots 0).field 16 4

/-- An earlier copy of the class has sectors that have not been counted. -/
def Core.copyBusy (k : Core) (oc seq : Nat) : Bool :=
  k.copies.any fun c => decide (c.2.seq < seq) && c.2.counted != c.2.expected && (match c.2.kind with
    | .copy t _ _ => (t.getD 5 0).field 16 4 == oc
    | _ => false)

/-- An earlier access of the class has not performed: a load, AMO or CAS, a copy, an NM or CL command. -/
def Core.classBusy (k : Core) (oc seq : Nat) : Bool :=
  (k.pend.any fun p => p.kind.counted && p.oc == oc && decide (p.seq < seq)) || k.copyBusy oc seq ||
  ((k.arch.nm ++ k.arch.cl).any fun e => ecbOc e == oc && decide (e.seq < seq))

def PendKind.isLoad : PendKind → Bool
  | .load _ => true
  | _ => false

/-- The bytes of an outstanding access overlap [va, va + n), by address in the job or in memory. -/
def Pend.hits (p : Pend) (va pa n : Nat) : Bool :=
  (decide (p.va < va + n) && decide (va < p.va + p.n)) || (decide (p.pa < pa + n) && decide (pa < p.pa + p.n))

/-- What a store, AMO or CAS of SQ follows before it leaves (R156, R157, R160): loads of the same bytes; sectors of copies of its
class; where other agents can order it against them (AMO, CAS, forwarded stores), every earlier load, NM and CL command of its class;
and, for a forwarded store, which its cluster sees at once, every earlier AMO and CAS of its class. Otherwise earlier AMO and CAS stay
ahead of it in the Safety Net. -/
def Core.storeWaits (k : Core) (oc va pa n : Nat) (all fwd : Bool) : Bool :=
  (k.pend.any fun p => p.kind.isLoad && (p.hits va pa n || (all && p.oc == oc))) ||
    (fwd && k.pend.any fun p => p.kind.counted && p.oc == oc) || k.copyBusy oc k.arch.seq ||
    (all && (k.arch.nm ++ k.arch.cl).any fun e => ecbOc e == oc)

/-! ## Vector entries (R54, R55, R57, R60) -/

inductive Vq where
  | vl | va | vs
  deriving DecidableEq, Repr

def Vq.code : Vq → Nat
  | .vl => 1 | .va => 2 | .vs => 3

def Arch.vq (a : Arch) : Vq → List VEntry
  | .vl => a.vl | .va => a.va | .vs => a.vs

def Arch.setVq (a : Arch) (q : Vq) (l : List VEntry) : Arch :=
  match q with
  | .vl => { a with vl := l } | .va => { a with va := l } | .vs => { a with vs := l }

/-- The specifiers of a word in the order of their fields: the destination, then the sources. -/
def VUse.vregs (u : VUse) : List VReg := u.vwrites ++ u.vreads

/-- The slip limit (R55): every entry below vnum − SLIP has retired. -/
def Arch.slipOk (a : Arch) : Bool := (a.vl ++ a.va ++ a.vs).all fun e => decide (a.vnum ≤ e.num + a.slip)

/-- The entry that SQ pushes for a word: its scalars as they stand. -/
def Arch.entryOf (a : Arch) (i : Instr) : VEntry :=
  { instr := i, addr := a.word, sec := a.sect, num := a.vnum, seq := a.seq,
    scal := ((Machine.Instr.vuse i).scal.foldl (fun m r => kset m r.val (a.rd r)) []), seed := a.seed }

/-- SQ pushes a vector word (R54): its checks, then room, the slip limit, and the entry. -/
def State.vecPush (s : State) (q : Vq) (i : Instr) (check : Arch → Sq → Sq) : Sq :=
  let u := Machine.Instr.vuse i
  let a := s.arch
  guard (!s.inHandler) cIllegalOp a.word
    (match s.undeclared u.vregs with
     | some r => .raise cIllegalOperand (BitVec.ofNat 64 r.val)
     | none =>
       waitFor (s.cur.free u.scal) .inFlight
         (check a
           (waitFor (decide ((a.vq q).length < 64)) .queue (waitFor a.slipOk .interlock
             (let s := s.modCur fun k =>
                { k.trace s.cycle 4 (Vq.code q) ((a.vq q).length + 1) a.word with
                  arch := { (k.arch.setVq q (k.arch.vq q ++ [k.arch.entryOf i])).tick with vnum := k.arch.vnum + 1 } }
              .ok s.pushed)))))

/-- What an engine makes of the entry at the head of its queue. -/
inductive Eng where
  /-- It has executed. -/
  | ok (s : State)
  /-- It waits. -/
  | wait (why : Stall) (s : State)
  /-- The task has ended with it. -/
  | over (s : State)

def State.setStallOf (s : State) (eng : Nat) (w : Option Stall) : State :=
  s.modCur fun k => { k with stalls := match w with | some x => kset k.stalls eng x | none => kdel k.stalls eng }

/-- Older entries of the other queues on which an entry depends through registers, and MX commands through tiles (R57). -/
def Core.blocked (k : Core) (q : Vq) (e : VEntry) : Bool :=
  let u := Machine.Instr.vuse e.instr
  ([Vq.vl, .va, .vs].any fun q' => q' != q && (k.arch.vq q').any fun x =>
    decide (x.num < e.num) && conflicts u (Machine.Instr.vuse x.instr)) ||
  (match Machine.Instr.vtile e.instr with
   | some _ => k.arch.mx.any fun m => !m.owing && decide (m.seq < e.seq)
   | none => false)

/-- An older entry of another vector queue will still write a register that the entry reads (R57): before it has, the entry cannot read what those
registers address or select. -/
def Core.needs (k : Core) (q : Vq) (e : VEntry) : Bool :=
  let u := Machine.Instr.vuse e.instr
  [Vq.vl, .va, .vs].any fun q' => q' != q && (k.arch.vq q').any fun x =>
    let w := Machine.Instr.vuse x.instr
    decide (x.num < e.num) && ((w.vwrites.any fun r => u.vreads.contains r) || w.pwrites.any fun p => p != 0 && u.preads.contains p)

/-- Pay a push that an engine owes. -/
def Arch.payOwed (a : Arch) (eng : Nat) : Arch :=
  match kfind a.owed eng with
  | none => a
  | some ch => if a.tokRoom ch then { a.pushTok ch with owed := kdel a.owed eng } else a

/-- Retire the head of a queue: its token, or a push that the engine owes (R60). -/
def Arch.retireHead (a : Arch) (q : Vq) (push : Nat) : Arch :=
  let a := (a.setVq q (a.vq q).tail).retire
  if a.tokRoom push then a.pushTok push else { a with owed := kset a.owed (Vq.code q) push }

/-- An uncorrectable word of the VRF, or both operand copies of a queue entry: rung 4 (R232, R233). -/
def State.lostReg (s : State) (ring : Ring5) (g : Nat) : State :=
  (s.logFatal s.focus ring g 4).abortCore s.focus cUncorrectable (BitVec.ofNat 64 (flawLoc ring g)) .counted

/-- The engine of queue q takes the entry at its head, where that entry is i. -/
def State.vecRun (s : State) (q : Vq) (i : Instr) (act : VEntry → State → Eng) : State :=
  let eng := Vq.code q
  let s := s.modArch (·.payOwed eng)
  let a := s.arch
  match a.vq q with
  | [] => s
  | e :: _ =>
    if e.instr ≠ i then s
    else if (kfind a.owed eng).isSome then s.setStallOf eng (some .token)
    else if s.cur.blocked q e then s.setStallOf eng (some .interlock)
    else
      let c := Machine.Instr.vctl i
      let hitQ (g : Nat) : Bool := g == 128 * (eng - 1)
      let hitV (g : Nat) : Bool := (Machine.Instr.vuse i).vreads.any fun r => r.val == g / 64
      -- lanes that the word writes are written with their codes
      let qp := s.arch.prd c.qp
      let fresh (f : Flaw) : Bool := f.ring == .vrf && ((Machine.Instr.vuse i).vwrites.any fun r => r.val == f.granule / 64) &&
        (c.z || bitAt qp (f.granule % 64))
      let s := (s.correct s.focus .queue hitQ 0).correct s.focus .vrf hitV 0
      if !a.tokReady (Chan.code c.pop) then s.setStallOf eng (some .token)
      else if (s.fatalAt s.focus .queue hitQ).isSome then s.lostReg .queue (128 * (eng - 1))
      else match s.fatalAt s.focus .vrf hitV with
      | some g => s.lostReg .vrf g
      | none => match act e (s.modArch (·.popTok (Chan.code c.pop))) with
        | .ok t => (t.modCur fun k =>
            { k.trace t.cycle 5 eng (e.sec % 2 ^ 24) e.addr with
              arch := k.arch.retireHead q (Chan.code c.push), flaws := (popFlaws (eng - 1) k.flaws).filter fun f => !fresh f }).setStallOf
                eng none
        | .wait why t => (t.modArch fun x => { x with tokens := a.tokens }).setStallOf eng (some why)
        | .over t => t

/-- A vector word: pushed by SQ, or executed by its engine. -/
def State.vecWord (s : State) (q : Vq) (i : Instr) (check : Arch → Sq → Sq) (act : VEntry → State → Eng) :
    Host.Outcome State Fault Refusal :=
  if s.atEngine then s.sealed (s.vecRun q i act) else s.run (s.vecPush q i check)

/-- The result of an engine's access to the scratchpad. -/
def Touch.eng (c : Nat) : Touch → (State → Eng) → Eng
  | .ready s, k => k s
  | .wait s, _ => .wait .inFlight s
  | .lost s d loc, _ => .over (s.lostWord c d loc)

/-- The engine ends the task with a cause of disposition L. -/
def State.engFault (s : State) (cause : Nat) (info : Word) : Eng :=
  .over (s.abortCore s.focus cause info .faulted)

/-! ## ECB queues -/

def ecbQ (a : Arch) : EcbEngine → List Ecb
  | .mx => a.mx | .nm => a.nm | .cl => a.cl

def setEcbQ (a : Arch) (e : EcbEngine) (l : List Ecb) : Arch :=
  match e with
  | .mx => { a with mx := l } | .nm => { a with nm := l } | .cl => { a with cl := l }

def ecbDepth : EcbEngine → Nat
  | .mx => 16 | .nm => 8 | .cl => 4

/-- The trace codes of R258; CL 7. -/
def ecbTrace : EcbEngine → Nat
  | .mx => 4 | .nm => 6 | .cl => 7

/-- Push an image that SQ has checked (R345, R370): room in the queue, and in the Safety Net for NM and CL; sd. -/
def State.ecbPush (s : State) (e : EcbEngine) (sd : SReg) (slots : List Word) : Sq :=
  let a := s.arch
  let out := e != .mx
  waitFor (decide ((ecbQ a e).length < ecbDepth e)) .queue
    (waitFor (!out || s.netFits s.focus 128) .inFlight
      (let x : Ecb := { slots := slots, addr := a.word, sec := a.sect, seq := a.seq, seed := a.seed, net := out,
                        started := false }
       let s := s.modCur fun k =>
         { k.trace s.cycle 4 (ecbTrace e) ((ecbQ a e).length + 1) a.word with
           arch := ((setEcbQ k.arch e (ecbQ k.arch e ++ [x])).tick).wr sd
             (BitVec.ofNat 64 ((ecbSlot slots 0).field 32 16)) }
       let s := if out then s.netPut s.focus a.seq (ecbOc x) 128 (.ecb e) else s
       .ok s.pushed))

/-- The place of an ECB queue in the QUEUE ring (R237). -/
def ecbStructure : EcbEngine → Nat
  | .mx => 3 | .nm => 4 | .cl => 5

/-- Retire the head of an ECB queue: its signal bits (R61). -/
def Core.retireEcb (k : Core) (cycle : Nat) (e : EcbEngine) : Core :=
  match ecbQ k.arch e with
  | [] => k
  | x :: t =>
    { k.trace cycle 5 (ecbTrace e) (x.sec % 2 ^ 24) x.addr with
      arch := ((setEcbQ k.arch e t).retire).setEvents (ecbSlot x.slots 2), flaws := popFlaws (ecbStructure e) k.flaws }

/-- The wait mask of an ECB is met (R61). -/
def maskMet (a : Arch) (m : Word) : Bool := a.events &&& m == m

end Sys2Proof.Machine
end

