-- ==== Sys2Proof/Machine/Scalar.lean ====
section
/-!
DEFINITION. The scalar ALU and control words, class SA (spec/14 R300, spec/15, spec/16): each is legal in every stream
(spec/15 R320).
-/

namespace Sys2Proof.Machine

/-- An ALU word: sd := f of the state's registers (R320). -/
def alu (s : State) (regs : List SReg) (sd : SReg) (f : Arch → Word) : Host.Outcome State Fault Refusal :=
  s.run (s.sq true (sd :: regs) (.ok (s.doneWith sd (f s.arch))))

/-- R374. -/
def execNop (s : State) : Host.Outcome State Fault Refusal := s.run (s.sq true [] (.ok s.done))

/-- R323. -/
def execAdd (sd sa : SReg) (src : Src2) (s : State) := alu s (sa :: src2Regs src) sd fun a => a.rd sa + a.src2 src
/-- R392. -/
def execSub (sd sa : SReg) (src : Src2) (s : State) := alu s (sa :: src2Regs src) sd fun a => a.rd sa - a.src2 src
/-- R369. -/
def execMul (sd sa : SReg) (src : Src2) (s : State) := alu s (sa :: src2Regs src) sd fun a => a.rd sa * a.src2 src

/-- Bits [127:64] of the exact product (R369). -/
def mulHigh (v : Sgn) (x y : Word) : Word :=
  match v with
  | .s => ((x.signExtend 128 * y.signExtend 128) >>> 64).setWidth 64
  | .u => ((x.setWidth 128 * y.setWidth 128) >>> 64).setWidth 64

def execMulh (v : Sgn) (sd sa : SReg) (src : Src2) (s : State) :=
  alu s (sa :: src2Regs src) sd fun a => mulHigh v (a.rd sa) (a.src2 src)

/-- R342. -/
def divide (v : Sgn) (x d : Word) : Word :=
  if d = 0 then BitVec.allOnes 64
  else match v with
    | .s => if x = BitVec.intMin 64 ∧ d = BitVec.allOnes 64 then BitVec.intMin 64 else x.sdiv d
    | .u => x.udiv d

/-- R382. -/
def remainder (v : Sgn) (x d : Word) : Word :=
  if d = 0 then x
  else match v with
    | .s => if x = BitVec.intMin 64 ∧ d = BitVec.allOnes 64 then 0 else x.srem d
    | .u => x.umod d

def execDiv (v : Sgn) (sd sa : SReg) (src : Src2) (s : State) :=
  alu s (sa :: src2Regs src) sd fun a => divide v (a.rd sa) (a.src2 src)
def execRem (v : Sgn) (sd sa : SReg) (src : Src2) (s : State) :=
  alu s (sa :: src2Regs src) sd fun a => remainder v (a.rd sa) (a.src2 src)

/-- R327, R375. -/
def execAnd (sd sa : SReg) (src : Src2) (s : State) := alu s (sa :: src2Regs src) sd fun a => a.rd sa &&& a.src2 src
def execOr (sd sa : SReg) (src : Src2) (s : State) := alu s (sa :: src2Regs src) sd fun a => a.rd sa ||| a.src2 src
def execXor (sd sa : SReg) (src : Src2) (s : State) := alu s (sa :: src2Regs src) sd fun a => a.rd sa ^^^ a.src2 src
def execAndn (sd sa : SReg) (src : Src2) (s : State) :=
  alu s (sa :: src2Regs src) sd fun a => a.rd sa &&& ~~~ (a.src2 src)

/-- The shift count src2[5:0] (R384). -/
def shiftCount (w : Word) : Nat := w.toNat % 64

def execShl (sd sa : SReg) (src : Src2) (s : State) :=
  alu s (sa :: src2Regs src) sd fun a => a.rd sa <<< shiftCount (a.src2 src)
def execShr (sd sa : SReg) (src : Src2) (s : State) :=
  alu s (sa :: src2Regs src) sd fun a => a.rd sa >>> shiftCount (a.src2 src)
def execSra (sd sa : SReg) (src : Src2) (s : State) :=
  alu s (sa :: src2Regs src) sd fun a => (a.rd sa).sshiftRight (shiftCount (a.src2 src))

/-- R336. -/
def leadingZeros (w : Word) : Nat := if w = 0 then 64 else 63 - Nat.log2 w.toNat
def execClz (sd sa : SReg) (s : State) := alu s [sa] sd fun a => BitVec.ofNat 64 (leadingZeros (a.rd sa))

/-- R377. -/
def popCount (w : Word) : Nat := ((List.range 64).filter fun i => bitAt w i).length
def execPopc (sd sa : SReg) (s : State) := alu s [sa] sd fun a => BitVec.ofNat 64 (popCount (a.rd sa))

/-- The order of MIN and MAX (R364). -/
def wordLt (v : Sgn) (x y : Word) : Bool := match v with | .s => x.slt y | .u => x.ult y
def execMin (v : Sgn) (sd sa : SReg) (src : Src2) (s : State) :=
  alu s (sa :: src2Regs src) sd fun a => if wordLt v (a.src2 src) (a.rd sa) then a.src2 src else a.rd sa
def execMax (v : Sgn) (sd sa : SReg) (src : Src2) (s : State) :=
  alu s (sa :: src2Regs src) sd fun a => if wordLt v (a.rd sa) (a.src2 src) then a.src2 src else a.rd sa

/-- R383. -/
def execSel (sd sa : SReg) (src : Src2) (sc : SReg) (s : State) :=
  alu s (sa :: sc :: src2Regs src) sd fun a => if a.rd sc ≠ 0 then a.rd sa else a.src2 src

/-- R337. -/
def execCmp (c : Cond) (sd sa : SReg) (src : Src2) (s : State) :=
  alu s (sa :: src2Regs src) sd fun a => if condHolds c (a.rd sa) (a.src2 src) then 1 else 0

/-- R349. -/
def extField (v : Sgn) (x : Word) (lo width : Nat) : Word :=
  let f := x.field lo width
  match v with
  | .u => BitVec.ofNat 64 f
  | .s => if f ≥ 2 ^ (width - 1) then BitVec.ofNat 64 (f + 2 ^ 64 - 2 ^ width) else BitVec.ofNat 64 f

def execExt (v : Sgn) (sd sa : SReg) (lo : Fin 64) (width : Fin 128) (s : State) :=
  alu s [sa] sd fun a => extField v (a.rd sa) lo.val width.val

/-- R354. -/
def insField (x y : Word) (lo width : Nat) : Word :=
  let mask : Word := BitVec.ofNat 64 (2 ^ width - 1) <<< lo
  (x &&& ~~~ mask) ||| ((y <<< lo) &&& mask)

def execIns (sd sa sc : SReg) (lo : Fin 64) (width : Fin 128) (s : State) :=
  alu s [sa, sc] sd fun a => insField (a.rd sa) (a.rd sc) lo.val width.val

/-- R352. -/
def execHash (sd sa sb sc : SReg) (s : State) :=
  alu s [sa, sb, sc] sd fun a =>
    (mix32 ((a.rd sa).setWidth 32) ((a.rd sb).setWidth 32) ((a.rd sc).setWidth 32)).setWidth 64

/-- R362. -/
def execLi (sd : SReg) (v : Word) (s : State) := alu s [] sd fun _ => v

/-! ## Control transfer (R321, R51, R52) -/

/-- T is a word of the current body. -/
def Arch.inBody (a : Arch) (t : Word) : Bool :=
  let d := (t - a.bodyStart).toNat
  decide (d < 4 * a.bodyLen) && d % 12 == 0

/-- A byte of code at va, which translates to pa: as memory stood at the dispatch, at the place that va had then; where va had none, as memory
stands (R70, R251; DESIGN CHOICE, log entry 59). -/
def State.codeByte (s : State) (r : Run) (va pa : Nat) : Byte :=
  match walk r.icache (va % 2 ^ 48) 4 (s.rootOf r.job) with
  | .ok (e, level, _) => Memory.read r.icache (ptePa e + va % 2 ^ 48 % leafSize level)
  | .error _ => Memory.read s.mem pa

/-- A line of code is requested with its first fetch since the dispatch (R147; DESIGN CHOICE, log entry 59). -/
def State.fetchLine (s : State) (r : Run) (va : Nat) (x : Xl) : State :=
  if (match s.cur.run with | some q => q.fetched.contains (va / 128) | none => true) then s
  else (s.request r.job r.launch (128 * (va / 128)) { x with pa := 128 * (x.pa / 128) } 128 false .normal).modCur fun k =>
    { k with run := k.run.map fun q => { q with fetched := nins q.fetched (va / 128) } }

/-- n bytes of code at va as the fetch sees them, or why it faults. -/
def State.fetchBytes (s : State) (va n : Nat) : State × Except (XlFail × Nat) (List Byte) :=
  let r := s.runD
  let (s, x) := s.translateRange (some s.focus) (dieOf s.focus) r.job va n .fetch
  match x with
  | .error f => (s, .error f)
  | .ok x =>
    if x.inRegion n then (s, .error (.prot, va))
    else if s.spanPoisoned x n then ((s.meetFlaws 0 x.pa n).meetFlaws 0 x.pa2 (n - min n (4096 - x.pa % 4096)), .error (.bad, va))
    else
      let last := spanPa x.pa x.pa2 (n - 1)
      let s := (s.fetchLine r va x).fetchLine r (va + n - 1) { x with pa := last, uncached := if last = x.pa + (n - 1) then x.uncached else x.uncached2 }
      (s, .ok ((List.range n).map fun i => s.codeByte r (va + i) (spanPa x.pa x.pa2 i)))

/-- The end of an access of SQ that does not translate (R247, R242): a page fault of an access kind, or PROTECTION; or of one that a
poisoned sector stops (R225). -/
def State.xlFail (s : State) (access : Nat) (f : XlFail × Nat) : Sq :=
  .ok (match f.1 with
    | .page => s.pageFault s.focus access f.2
    | .prot => s.abortCore s.focus cProtection (BitVec.ofNat 64 f.2) .faulted
    | .bad => s.readPoison s.focus f.2 0)

/-- A transfer to T (R321). In a stream T is a word of the body, or a header, which opens a section by the skip rule; in a
handler T must be a word of the handler: any word address from its entry on (R254, DEDUCED, log entry 12). f writes the
registers of the transferring word; nothing changes where T gives a cause. -/
def State.transfer (s : State) (t : Word) (f : Arch → Arch) : Sq :=
  let a := s.arch
  let go (s : State) (g : Arch → Arch) : Sq :=
    .ok (s.modCur fun k =>
      { k.trace s.cycle 1 0 (a.sect % 2 ^ 24) t with arch := (g (f k.arch)).retire, stallSq := none })
  if t.toNat % 4 != 0 then .raise cStreamFault t
  else if a.sv then
    if decide (a.hentry.toNat ≤ t.toNat) && (t.toNat - a.hentry.toNat) % 12 == 0 then go s fun a => { a with hpc := t } else .raise cStreamFault t
  else if a.inBody t then go s fun a => { a with pc := t, atHeader := false }
  else
    if windowOf t != .glob then .raise cStreamFault t
    else match s.fetchBytes t.toNat 4 with
      | (s', .error f) => s'.xlFail 2 f
      | (s', .ok bs) =>
        if leNat bs / 2 ^ 29 = 7 then go s' fun a => { a with pc := t, atHeader := true, jumped := true }
        else .raise cStreamFault t

/-- R328. -/
def execBr (c : Cond) (sa : SReg) (b : BrSrc) (off : W32) (s : State) : Host.Outcome State Fault Refusal :=
  s.run (s.sq true (sa :: brRegs b)
    (if condHolds c (s.arch.rd sa) (s.arch.brSrc b) then s.transfer (s.arch.offset off) id else .ok s.done))

/-- R355. -/
def execJmp (t : Target) (s : State) : Host.Outcome State Fault Refusal :=
  s.run (s.sq true (targetRegs t) (s.transfer (s.arch.target t) id))

/-- R333: T is read before lk is written. -/
def execCall (t : Target) (s : State) : Host.Outcome State Fault Refusal :=
  s.run (s.sq true (SReg.lk :: targetRegs t)
    (s.transfer (s.arch.target t) fun a => a.wr SReg.lk (s.arch.word + 12)))

/-- R363. -/
def execLoop (sa : SReg) (off : W32) (s : State) : Host.Outcome State Fault Refusal :=
  s.run (s.sq true [sa]
    (if (s.arch.rd sa).toNat ≤ 1 then .ok (s.doneWith sa 0)
     else s.transfer (s.arch.offset off) fun a => a.wr sa (s.arch.rd sa - 1)))

/-! ## Section headers (R51-R53) -/

/-- The section number that a header opens: count + 1 by fall-through, else the next number with its low 4 bits. -/
def nextSection (count num : Nat) (jumped : Bool) : Nat :=
  if jumped then count + 1 + (num + 16 - (count + 1) % 16) % 16 else count + 1

/-- The address at which a header stands. -/
def execSectionHeader (h : Header) (s : State) : Host.Outcome State Fault Refusal :=
  let a := s.arch
  let n := nextSection a.sect h.num.toNat a.jumped
  s.run (guard (!s.inHandler) cIllegalOp a.word
    (guard (h.len.toNat != 0 && h.len.toNat % 3 == 0) cStreamFault a.pc
    (guard (a.jumped || n % 16 == h.num.toNat) cStreamFault a.pc
    (guard (decide (n < 2 ^ 32)) cStreamFault a.pc
      (.ok (s.modCur fun k => { k with stallSq := none, arch := { k.arch with
        pc := a.pc + 8, bodyStart := a.pc + 8, bodyLen := h.len.toNat, atHeader := false, jumped := false, sect := n,
        waits := [h.dVA.toNat, h.dVL.toNat, h.dVS.toNat, h.dMX.toNat, h.dCP.toNat, h.dNM.toNat] } }))))))

end Sys2Proof.Machine
end

