-- ==== Sys2Proof/Machine/Copies.lean ====
section
/-!
DEFINITION. What reaches global memory from a core: the requests of an access (spec/06 R147, R149), stores into the quarantine
(R125, spec/07 R160-R162), copies (spec/06 R132-R141) and the movement of backed pages (R122-R127).
-/

namespace Sys2Proof.Machine

/-! ## Slices that an access names -/

/-- The slices that hold the bytes of a span: a task that took a value from one is aborted by its strike (R226). -/
def State.noteReads (s : State) (job tcb : Nat) (x : Xl) (n : Nat) : State :=
  let last := homeSlice (spanPa x.pa x.pa2 (n - 1))
  let lines := (List.range ((x.pa + min n (4096 - x.pa % 4096) - 1) / 128 + 1 - x.pa / 128)).map fun i => homeSlice (x.pa + 128 * i)
  s.modTask job tcb fun t => { t with reads := kset (lines.foldl (fun m k => kset m k s.cycle) t.reads) last s.cycle }

/-- The slice whose quarantine ways hold a line of a die's pool: that of the line's own set bits within the die (DEDUCED, log entry
13). -/
def quarSlice (home pa : Nat) : Nat := 16 * home + homeSlice pa % 16

def State.noteWrites (s : State) (job tcb pa : Nat) : State :=
  s.modTask job tcb fun t => { t with writes := kset t.writes (quarSlice t.home pa) s.cycle }

/-! ## Stores into the quarantine -/

/-- The entries of a store of bytes at va, one for each page; seq: its place in program order; oc: its ordering class, 16 for none. -/
def quarEntries (seq oc va : Nat) (x : Xl) (bs : List Byte) (h : Hint) (strong wenq : Bool) : List QEntry :=
  let n1 := min bs.length (4096 - x.pa % 4096)
  let e1 : QEntry := { va := va, pa := x.pa, bytes := bs.take n1, hint := x.hint h, strong := strong, wenq := wenq, seq := seq, oc := oc }
  if n1 < bs.length then
    [e1, { e1 with va := va + n1, pa := x.pa2, bytes := bs.drop n1, hint := x.hint2 h }]
  else [e1]

/-- Place bytes that have translated in the quarantine of a task; none on QUARANTINE_OVERFLOW. seq: the store's place in program order. -/
def State.quarStore (s : State) (r : Run) (seq oc va : Nat) (x : Xl) (bs : List Byte) (h : Hint) (strong wenq : Bool)
    (held : List Held) : Option State :=
  match s.quarPut r.job r.launch r.tcb (quarEntries seq oc va x bs h strong wenq) held with
  | none => none
  | some s => some ((s.noteWrites r.job r.tcb x.pa).noteWrites r.job r.tcb (spanPa x.pa x.pa2 (bs.length - 1)))

/-- QUARANTINE_OVERFLOW (R25): the launch faults at once. -/
def State.overflow (s : State) (c : Nat) : State :=
  match (s.core c).run with
  | none => s
  | some r => s.abortCore c cQuarOverflow (s.quotaOf r) .faulted

/-- Forward the bytes of a scope-3 store to the cluster (R162). -/
def State.forward (s : State) (c : Nat) (r : Run) (x : Xl) (bs : List Byte) : State :=
  let new := (List.range bs.length).map fun i =>
    ({ cluster := clusterOf c, job := r.job, core := c, tcb := r.tcb, pa := spanPa x.pa x.pa2 i,
       byte := bs.getD i 0 } : Fwd)
  { s with fwds := s.fwds ++ new }

/-! ## Templates (R133, R134) -/

def tplWord (t : List Word) (i : Nat) : Word := t.getD i 0
def tplBase (t : List Word) : Nat := (tplWord t 0).field 0 48
def tplCount (t : List Word) (d : Nat) : Nat := let n := (tplWord t 1).field (16 * d) 16; if n = 0 then 1 else n
/-- Signed 32-bit stride of dimension 1, 2 or 3. -/
def tplStride (t : List Word) (d : Nat) : Int :=
  let w := if d = 1 then (tplWord t 2).field 0 32 else if d = 2 then (tplWord t 2).field 32 32
    else (tplWord t 3).field 0 32
  (BitVec.ofNat 32 w).toInt
def tplPitch (t : List Word) : Nat := (tplWord t 3).field 32 19
/-- Clip bounds of dimension 0 or 1, hi resolved. -/
def tplLo (t : List Word) (d : Nat) : Nat := (tplWord t 4).field (32 * d) 16
def tplHi (t : List Word) (d : Nat) : Nat :=
  let n := (tplWord t 4).field (32 * d + 16) 16; if n = 0 then tplCount t d else n
def tplDir (t : List Word) : Nat := (tplWord t 5).field 0 2
def tplElem (t : List Word) : Nat := 2 ^ (tplWord t 5).field 2 2
def tplHintCode (t : List Word) : Nat := (tplWord t 5).field 4 3
def tplHint (t : List Word) : Hint := (Hint.ofCode (tplHintCode t)).getD .normal
def tplCA (t : List Word) : Bool := bitAt (tplWord t 5) 7
def tplBuffer (t : List Word) : Nat := (tplWord t 5).field 8 8
def tplOc (t : List Word) : Nat := (tplWord t 5).field 16 4
def tplScope (t : List Word) : Nat := (tplWord t 5).field 20 3
def tplEventOn (t : List Word) : Bool := bitAt (tplWord t 5) 23
def tplEvent (t : List Word) : Nat := (tplWord t 5).field 24 6
def tplCounterOn (t : List Word) : Bool := bitAt (tplWord t 6) 19
def tplCounter (t : List Word) : Nat := (tplWord t 6).field 0 19

/-- The checks of R134. -/
def tplOk (t : List Word) : Bool :=
  let e : Int := tplElem t
  (tplWord t 0).field 48 16 == 0 && (tplWord t 3).field 51 13 == 0 && (tplWord t 5).field 30 34 == 0 &&
    (tplWord t 6).field 20 44 == 0 && tplWord t 7 == 0 && tplDir t != 3 && decide (tplHintCode t ≤ 4) &&
    decide (tplLo t 0 < tplHi t 0) && decide (tplLo t 1 < tplHi t 1) &&
    [1, 2, 3].all (fun d => tplStride t d % e == 0) && (!tplCounterOn t || tplCounter t % 4 == 0)

/-! ## The shape of a copy (R136, R137) -/

/-- In-box bounds of d0 and d1 within the counts. -/
def boxHi (t : List Word) (d : Nat) : Nat := min (tplHi t d) (tplCount t d)
def boxRows (t : List Word) : Nat := boxHi t 1 - tplLo t 1
/-- Rows that contribute sectors. -/
def copyRows (t : List Word) : Nat :=
  if tplLo t 0 < boxHi t 0 then boxRows t * tplCount t 2 * tplCount t 3 else 0

/-- (l1, l2, l3) of in-box row r. -/
def rowIdx (t : List Word) (r : Nat) : Nat × Nat × Nat :=
  (tplLo t 1 + r % boxRows t, r / boxRows t % tplCount t 2, r / boxRows t / tplCount t 2)

/-- The first in-box global byte of row r, modulo 2^48. -/
def rowG (t : List Word) (gbase r : Nat) : Nat :=
  let (l1, l2, l3) := rowIdx t r
  (((gbase : Int) + tplStride t 1 * l1 + tplStride t 2 * l2 + tplStride t 3 * l3 + tplElem t * tplLo t 0)
    % (2 ^ 48 : Int)).toNat

/-- Its scratchpad offset. -/
def rowL (t : List Word) (sbase r : Nat) : Nat :=
  let (l1, l2, l3) := rowIdx t r
  sbase + tplPitch t * (l1 + tplCount t 1 * (l2 + tplCount t 2 * l3)) + tplElem t * tplLo t 0

/-- In-box bytes of a row, and the sectors they touch. -/
def rowBytes (t : List Word) : Nat := tplElem t * (boxHi t 0 - tplLo t 0)
def rowSectors (t : List Word) (gbase r : Nat) : Nat :=
  let a := rowG t gbase r
  (a + rowBytes t - 1) / 32 + 1 - a / 32

/-- The expected count (R137). -/
def expectedCount (t : List Word) (gbase : Nat) : Nat :=
  (List.range (copyRows t)).foldl (fun n r => n + rowSectors t gbase r) 0

/-- The row and the place in it of the k-th sector in visiting order. -/
def findSector (t : List Word) (gbase : Nat) : Nat → Nat → Nat → Nat × Nat
  | 0, r, k => (r, k)
  | fuel + 1, r, k =>
    let n := rowSectors t gbase r
    if k < n then (r, k) else findSector t gbase fuel (r + 1) (k - n)

/-- Global address, scratchpad offset and length of the in-box bytes of sector k, and the bytes of the request that it makes: at the first
sector of a row in a line, all that the row's sectors take from the line (R430), else none. -/
def sectorSpan (t : List Word) (gbase sbase k : Nat) : Nat × Nat × Nat × Nat :=
  let (r, j) := findSector t gbase (copyRows t) 0 k
  let a := rowG t gbase r
  let lo := max a (32 * (a / 32 + j))
  let hi := min (a + rowBytes t) (32 * (a / 32 + j) + 32)
  (lo % 2 ^ 48, rowL t sbase r + (lo - a), hi - lo,
    if j == 0 || lo % 128 == 0 then min (a + rowBytes t) (128 * (lo / 128) + 128) - lo else 0)

/-- The last scratchpad byte that the copy's box reaches, plus one (R135). -/
def copyReach (t : List Word) (sbase : Nat) : Nat :=
  if copyRows t = 0 then 0
  else sbase + tplPitch t * (boxHi t 1 - 1 + tplCount t 1 * (tplCount t 2 * tplCount t 3 - 1)) + tplElem t * boxHi t 0

/-- The in-box bytes of a copy meet global bytes [g, g + n). -/
def copyMeets (t : List Word) (gbase g n : Nat) : Bool :=
  (List.range (copyRows t)).any fun r => decide (rowG t gbase r < g + n) && decide (g < rowG t gbase r + rowBytes t)

/-- The in-box bytes of a copy meet scratchpad bytes [l, l + n). -/
def copyMeetsLocal (t : List Word) (sbase l n : Nat) : Bool :=
  (List.range (copyRows t)).any fun r => decide (rowL t sbase r < l + n) && decide (l < rowL t sbase r + rowBytes t)

/-- The checks at the aperture store (R135). -/
def copyOk (t : List Word) (gbase sbase npage : Nat) : Bool :=
  gbase % tplElem t == 0 && decide (copyReach t sbase ≤ 4096 * npage) &&
    (!tplCounterOn t || decide (tplCounter t + 4 ≤ 4096 * npage)) &&
    (tplDir t != 2 || (sbase % 64 == 0 && tplPitch t % 64 == 0 && !tplCA t))

/-! ## Retirement of a copy (R139) -/

/-- Retire channel c: its event, its CA token, its channel. While CA is full the push alone waits, with the channel held (R60). -/
def Core.retireCopy (k : Core) (cycle chan : Nat) : Core :=
  match kfind k.copies chan with
  | none => k
  | some c => if c.owing then
      (if k.arch.tokRoom 5 then { k with arch := k.arch.pushTok 5, copies := kdel k.copies chan } else k)
    else
    let (ca, ev) := match c.kind with
      | .copy t _ _ => (tplCA t, if tplEventOn t then some (tplEvent t) else none)
      | _ => (false, none)
    let a := k.arch.retire
    let a := match ev with | some b => a.setEvents (1#64 <<< b) | none => a
    let k := k.trace cycle 5 5 (c.sec % 2 ^ 24) c.addr
    if ca && !a.tokRoom 5 then { k with arch := a, copies := kset k.copies chan { c with owing := true } }
    else { k with arch := if ca then a.pushTok 5 else a, copies := kdel k.copies chan }

/-- Count a sector of a channel, add to the counter word, and retire the copy with its last (R138). -/
def State.countSector (s : State) (core chan : Nat) : State :=
  let ends : Bool := match kfind (s.core core).copies chan with
    | some c => c.counted + 1 == c.expected && (match c.kind with | .copy t _ _ => tplEventOn t | _ => false)
    | none => false
  (if ends then s.ranked rSets else s).modCore core fun k => match kfind k.copies chan with
    | none => k
    | some c =>
      let c' := { c with counted := c.counted + 1 }
      let k := { k with copies := kset k.copies chan c' }
      let k := match c.kind with
        | .copy t _ _ =>
          if tplCounterOn t then
            let v := leNat (k.arch.spBytes (tplCounter t) 4)
            k.put (tplCounter t) (bytesOf 4 ((v + 1) % 2 ^ 32))
          else k
        | _ => k
      if c'.counted = c'.expected then k.retireCopy s.cycle chan else k

/-! ## Starting a copy -/

/-- The first free channel. -/
def Core.freeChan (k : Core) : Option Nat := (List.range 8).find? fun c => (kfind k.copies c).isNone

/-- Put a copy on a channel: it enters CP (R56), with the trace record of the push (R258). -/
def State.startOn (s : State) (chan : Nat) (kind : CopyKind) (expected : Nat) (wb : Option Page) : State :=
  s.modCur fun k =>
    let a := k.arch
    let c : Copy := { kind := kind, addr := a.word, sec := a.sect, seq := a.seq, next := 0, counted := 0, net := 0,
                      expected := expected, writeBack := wb, since := s.cycle }
    { k.trace s.cycle 4 5 (k.copies.length + 1) a.word with copies := kset k.copies chan c, arch := a.tick }

/-- A store of D to channel `chan` of the aperture (R132, R135): the copy starts, and at once retires when it expects
nothing. D: template index, scratchpad offset, signed global offset. -/
def State.aperture (s : State) (chan idx sbase : Nat) (goff : Int) : Sq :=
  let info : Word := BitVec.ofNat 64 idx
  match kfind s.arch.tpls idx with
  | none => .raise cTemplateFault info
  | some t =>
    let gbase := (((tplBase t : Int) + 32 * goff) % (2 ^ 48 : Int)).toNat
    guard (copyOk t gbase sbase s.runD.npage) cTemplateFault info
      (waitFor (kfind s.cur.copies chan).isNone .queue
        (let s := s.modCur fun k => k.trace s.cycle 3 0 (16 * tplOc t + tplScope t) (BitVec.ofNat 64 gbase)
         let s := s.startOn chan (.copy t gbase sbase) (expectedCount t gbase) none
         let s := if expectedCount t gbase = 0 then
             (if tplEventOn t then s.ranked rSets else s).modCur (·.retireCopy s.cycle chan) else s
         .ok s.done))

/-! ## Sectors in motion (R136-R140) -/

/-- An earlier copy whose scratchpad bytes touch page p has not retired (R127). -/
def Core.olderCopyOn (k : Core) (seq p : Nat) : Bool :=
  k.copies.any fun c => decide (c.2.seq < seq) && (match c.2.kind with
    | .copy t _ sb => !c.2.owing && ((decide (sb < 4096 * p + 4096) && decide (4096 * p < copyReach t sb)) ||
        (tplCounterOn t && touchesPage (tplCounter t) 4 p))
    | .fill q | .evict q => q == p)

/-- A copy waits for earlier accesses of its class (R157), and for earlier copies of any class on the bytes that it moves next, in memory or in
the scratchpad, where either of the two writes them (R156). g, l, n: what it moves next. -/
def Core.copyWaits (k : Core) (c : Copy) (t : List Word) (g l n : Nat) : Bool :=
  k.classBusy (tplOc t) c.seq || k.copies.any fun d => decide (d.2.seq < c.seq) && d.2.counted != d.2.expected &&
    (match d.2.kind with
     | .copy u gb sb => ((tplDir t == 1 || tplDir u == 1) && copyMeets u gb g n) ||
         ((tplDir t != 1 || tplDir u != 1) && copyMeetsLocal u sb l n)
     | _ => false)

/-- Where an access on behalf of a copy or fill ends its task: PAGE_FAULT parks, PROTECTION faults the
launch, and a poisoned PTE too (R225). -/
def State.mapFail (s : State) (core access : Nat) (f : XlFail × Nat) : State :=
  match f.1 with
  | .page => s.pageFault core access f.2
  | .prot => s.abortCore core cProtection (BitVec.ofNat 64 f.2) .faulted
  | .bad => s.readPoison core f.2 0

/-- Count the bytes a copy has moved for its buffer number, and the cycles in which it waited for global data (R149). -/
def State.countBuffer (s : State) (r : Run) (buf bytes stalls : Nat) : State :=
  s.modLaunch r.job r.launch fun l =>
    let b := kget l.bufs buf (0, 0)
    { l with bufs := kset l.bufs buf (b.1 + bytes, b.2 + stalls) }

/-- What the bytes of a sector meet in the scratchpad, and its counter word with them where it is counted at once (R123, R129, R138). -/
def State.copyTouch (s : State) (core : Nat) (c : Copy) (t : List Word) (l n : Nat) (reads writes : Bool) : Touch :=
  match s.touchAs true core c.seq [(l, n)] reads writes with
  | .ready s => if tplCounterOn t && tplDir t != 1 then s.touchAs true core c.seq [(tplCounter t, 4)] true true else .ready s
  | x => x

/-- A channel that waits for something else than global data. -/
def State.copyIdle (s : State) (core chan : Nat) : State :=
  s.modCore core fun k => match kfind k.copies chan with
    | some c => { k with copies := kset k.copies chan { c with since := s.cycle } }
    | none => k

/-- A sector of a copy of direction 0 or 2: its global bytes, read through the quarantine view, into the scratchpad. -/
def State.sectorIn (s : State) (core chan : Nat) (r : Run) (c : Copy) (t : List Word) (gb sb : Nat) : State :=
  let (g, l, n, m) := sectorSpan t gb sb c.next
  let waited (s : State) : State := s.countBuffer r (tplBuffer t) 0 (s.cycle - c.since)
  let (s, x) := s.translateRange (some core) (dieOf core) r.job g n .read
  match x with
  | .error f => (waited s).mapFail core 0 f
  | .ok x =>
    if inMgmt x.pa then (waited s).mapFail core 0 (.prot, g)
    else if s.poisoned x.pa n then (waited s).readPoison core x.pa n
    else match s.copyTouch core c t l n false true with
      | .wait s => s.copyIdle core chan
      | .lost s d loc => s.lostWord core d loc
      | .ready s =>
        let s := s.request r.job r.launch g x m false (tplHint t)
        let (bs, _) := s.viewBytes core r.job r.tcb (fun i => x.pa + i) n false
        let s := (s.noteReads r.job r.tcb x n).countBuffer r (tplBuffer t) n (s.cycle - c.since)
        let s := s.modCore core fun k =>
          { k.put l bs with copies := kset (k.put l bs).copies chan { c with next := c.next + 1, since := s.cycle } }
        s.countSector core chan

/-- A sector of direction 1: its scratchpad bytes enter the Safety Net. -/
def State.sectorOut (s : State) (core chan : Nat) (r : Run) (c : Copy) (t : List Word) (gb sb : Nat) : State :=
  let (g, l, n, _) := sectorSpan t gb sb c.next
  let (s, x) := s.translateRange (some core) (dieOf core) r.job g n .write
  match x with
  | .error f => s.mapFail core 1 f
  | .ok x =>
    if inMgmt x.pa then s.mapFail core 1 (.prot, g)
    else if !s.netFits core n then s
    else match s.copyTouch core c t l n true false with
      | .wait s => s
      | .lost s d loc => s.lostWord core d loc
      | .ready s =>
        let bs := (s.core core).spVia (16 + chan) l n
        let s := (s.countBuffer r (tplBuffer t) n 0).modCore core fun k =>
          { k with copies := kset k.copies chan { c with next := c.next + 1, net := c.net + 1 } }
        s.netPut core c.seq (tplOc t) n (.sector chan g ((List.range n).map fun i => (x.pa + i, bs.getD i 0)) (x.hint (tplHint t)))

/-! ## Write-backs and fills of backed pages (R122-R127) -/

/-- The Safety Net has room for the write-back of a tag; else it waits (R215). -/
def State.writeBackFits (s : State) (core : Nat) (pg : Page) : Bool :=
  let size := pg.dirty.length * netSize 32
  decide (s.netOf core + size ≤ 49152) && decide (s.netOfCluster (clusterOf core) + size ≤ 65536)

/-- Write the dirty sectors of a tag into the task's quarantine, each as a store of the task through the Safety Net (R124,
R215), which has room for them (State.writeBackFits). none where the task has ended: a word cannot be corrected (rung 4, R225), translation failed, or
the quota is full. -/
def State.writeBack (s : State) (core page : Nat) (pg : Page) : Option State × State :=
  match (s.core core).run with
  | none => (some s, s)
  | some r =>
    if pg.dirty.isEmpty then (some s, s)
    else
      let hit := inRanges (pg.dirty.map fun i => (4096 * page + 32 * i, 32))
      let s := s.correct core .sp hit 0
      match s.fatalAt core .sp hit with
      | some w => (none, (s.logFatal core .sp w 4).lostWord core false (8 * w))
      | none =>
      let (s, x) := s.translate (some core) (dieOf core) r.job (4096 * pg.range) .write
      match x with
      | .error f => (none, s.mapFail core 1 (f, 4096 * pg.range))
      | .ok x =>
        if inMgmt x.pa then (none, s.mapFail core 1 (.prot, 4096 * pg.range))
        else
          let s := s.modCore core fun k => k.trace s.cycle 3 5 0 (BitVec.ofNat 64 (4096 * pg.range))
          let seq := (s.core core).arch.seq
          let r := pg.dirty.foldl (fun (a : Option State) i => match a with
            | none => none
            | some s =>
              let bs := (s.core core).arch.spBytes (4096 * page + 32 * i) 32
              let y : Xl := { x with pa := x.pa + 32 * i }
              match s.quarStore r seq noClass (4096 * pg.range + 32 * i) y bs pg.hint false false [] with
              | none => none
              | some s => some (s.netPut core seq noClass 32 .store)) (some s)
          match r with
          | some s => (some s, s)
          | none => (none, s.overflow core)

/-- The dirty mask of a page is clean (R124). -/
def State.cleanPage (s : State) (core page : Nat) : State :=
  s.modArchOf core fun a => match kfind a.pages page with
    | some pg => { a with pages := kset a.pages page { pg with dirty := [] } }
    | none => a

/-- The sectors that a fill writes: all of an absent page; of a resident one, whose clean sectors are filled again after an error, those
that are clean (R123, R225). -/
def Page.stale (pg : Page) (i : Nat) : Bool := !pg.res || !pg.dirty.contains i

/-- The bytes of a page after a fill with bs. -/
def Core.fillWith (k : Core) (page : Nat) (pg : Page) (bs : List Byte) : Arch :=
  (List.range 128).foldl (fun (a : Arch) i =>
    if pg.stale i then a.spRaw (4096 * page + 32 * i) ((bs.drop (32 * i)).take 32) else a) k.arch

/-- The flawed words of a core that a fill of a page writes again; the uncorrectable ones are logged at rung 1 (R225). -/
def Core.refill (k : Core) (cycle page : Nat) (pg : Page) : Core :=
  let mine (f : Flaw) : Bool := f.ring == .sp && decide (f.granule < 65536) && f.granule / 512 == page && pg.stale (f.granule % 512 / 4)
  let k := (k.flaws.filter fun f => mine f && f.fatal).foldl
    (fun (k : Core) f => k.log (Ring5.code .sp) (logEntry 2 1 0 (flawLoc .sp f.granule) cycle)) k
  { k with flaws := k.flaws.filter fun f => !mine f }

/-- Fill a backed page from its range through the quarantine view (R123, R125): of an absent page, dirty mask clear, RES set, and the hint h of
its later write-backs (R124). A refill of a resident page (R225) leaves its hint as it is (DESIGN CHOICE, log entry 58). The tag is the one that
the page words from lo on have not replaced. The Bool: the task goes on. -/
def State.fillPage (s : State) (core lo page : Nat) (h : Hint) : State × Bool :=
  let k := s.core core
  match k.run, k.tagFrom lo page with
  | some r, some pg =>
    let va := 4096 * pg.range
    let (s, x) := s.translate (some core) (dieOf core) r.job va .read
    match x with
    | .error f => (s.mapFail core 0 (f, va), false)
    | .ok x =>
      if inMgmt x.pa then (s.mapFail core 0 (.prot, va), false)
      else if s.poisoned x.pa 4096 then (s.readPoison core x.pa 4096, false)
      else
        let hint := if pg.res then pg.hint else h
        let s := s.modCore core fun k => k.trace s.cycle 3 5 0 (BitVec.ofNat 64 va)
        let s := s.request r.job r.launch va x 4096 false hint
        let (bs, _) := s.viewBytes core r.job r.tcb (fun i => x.pa + i) 4096 false
        let s := s.noteReads r.job r.tcb x 4096
        (s.modCore core fun k =>
          let k := k.refill s.cycle page pg
          let tag : Page := { pg with dirty := if pg.res then pg.dirty else [], res := true, hint := hint }
          { k with fills := ndel k.fills page, arch := k.fillWith page pg bs }.setTagFrom lo page tag, true)
  | _, _ => (s.modCore core fun k => { k with fills := ndel k.fills page }, true)

/-! ## The queues of WENQ (spec/17 R423) -/

def isPow2 (n : Nat) : Bool := n != 0 && 2 ^ Nat.log2 n == n

/-- The limits of R423 on a descriptor, by its eight doublewords, and on a payload length. -/
def queueOk (w : Nat → Word) (len : Nat) : Bool :=
  let base := (w 2).field 0 48
  let count := (w 3).field 32 32
  let size := (w 3).field 0 16
  (w 2).field 48 16 == 0 && base % 64 == 0 && isPow2 count && decide (count ≤ 1048576) && (w 3).field 16 16 == 0 &&
    size % 16 == 0 && decide (16 ≤ size) && decide (size ≤ 256) && decide (1 ≤ len) && decide (len ≤ size) &&
    w 5 == 0 && w 6 == 0 && w 7 == 0

/-- The slot of a ring at a count of entries. -/
def queueSlot (w : Nat → Word) (t : Nat) : Nat := (w 2).field 0 48 + (w 3).field 0 16 * (t % (w 3).field 32 32)

end Sys2Proof.Machine
end

