-- ==== Sys2Proof/Machine/Encore.lean ====
section
/-!
DEFINITION. Encores (spec/09): consumer lists, what a newer version does to each consumer, PUBV and REFSTOP at the home slice,
snapshots, and when a task and a launch are settled.
-/

namespace Sys2Proof.Machine

/-! ## Consumer lists (R201) -/

/-- The entries of a consumer list in memory, as input slot and TCB; none for a reserved bit or a list without its terminator. -/
def consumerEntries (m : List Host.Cell) (pa : Nat) : Nat → Option (List (Nat × Nat))
  | 0 => none
  | fuel + 1 =>
    let w : Word := BitVec.ofNat 64 (leNat (Memory.reads m pa 8))
    if w = 0 then some []
    else if w.field 48 12 ≠ 0 ∨ w.field 0 6 ≠ 0 then none
    else match consumerEntries m (pa + 8) fuel with
      | some t => some ((w.field 60 4, w.field 0 48) :: t)
      | none => none

/-- A consumer list, which the device reads by loads of its own (R147, R243); none where its page does not translate, as a list without
its terminator (DEDUCED, log entry 50). -/
def State.consumerList (s : State) (job page : Nat) : State × Option (List (Nat × Nat)) :=
  match s.translateNow job (4096 * page) .read with
  | (s, .error _) => (s, none)
  | (s, .ok x) =>
    let l := consumerEntries s.mem x.pa 512
    let n := match l with | some l => 8 * (l.length + 1) | none => 4096
    (s.l2Access x.pa n false (x.hint .normal), if s.poisoned x.pa n then none else l)

/-- The consumers of region r. -/
def State.consumersOfRegion (s : State) (job r : Nat) : State × Option (List (Nat × Nat)) :=
  let w := s.regionHi job r
  if w.field 36 28 = 0 ∨ w.field 0 36 = 0 then (s, some []) else s.consumerList job (w.field 0 36)

/-- The running launch whose TCB array holds a TCB, and the task's index. -/
def State.launchOfTcb (s : State) (job tcb : Nat) : Option (Lnch × Nat) :=
  (s.launches.find? fun l => l.job == job && l.status == stRunning && decide (l.tcbs ≤ tcb) &&
    decide (tcb < l.tcbs + 64 * l.count)).map fun l => (l, (tcb - l.tcbs) / 64)

/-! ## Snapshots (R207) -/

/-- The snapshot of a task: nibble k holds slot k's region state. -/
def State.snapshot (s : State) (l : Lnch) (index : Nat) : Word :=
  BitVec.ofNat 64 ((List.range 16).map fun k => match l.inputs.find? fun i => i.1 == index && i.2.1 == k with
    | some i => s.regionNibble l.job i.2.2 * 2 ^ (4 * k)
    | none => 0).sum

/-- A nibble stands below another: a smaller version, or the same one that has just become final (R208). -/
def nibbleLt (old new : Nat) : Bool :=
  decide (old % 8 < new % 8) || (old % 8 == new % 8 && decide (old < 8) && decide (8 ≤ new))

/-! ## What a newer version does (R208) -/

/-- Bits [4:3] of the policy mask: 0 ACCEPT, 1 REFIRE_AFTER, 2 REFIRE_NOW (R176). -/
def State.consumerPolicy (s : State) (job tcb : Nat) : Nat := s.tcbPolicy job tcb / 8 % 4

/-- A re-fire: attempts and FAILS return to 0, and the task is released as a new run (R208). -/
def State.refireTask (s : State) (l : Lnch) (index : Nat) (key : List Nat) : State :=
  let tcb := l.tcbs + 64 * index
  let s := s.tcbSet l.job l.record tcb 16 48 16 0
  let s := s.tcbSet l.job l.record tcb 0 32 8 0
  s.release l index key true

/-- The key of a release that a PUBV, a REFSTOP, the host or a launch causes (R182, R208): by a core, its place in the consumer list. -/
def encoreKey (cycle : Nat) (core : Option Nat) (launch index pos : Nat) : List Nat :=
  match core with
  | some c => coreKey cycle c pos
  | none => launchKey cycle launch index

/-- One consumer of a region that now stands at version nibble n. -/
def State.consume (s : State) (job slot tcb n : Nat) (core : Option Nat) (pos : Nat) : State :=
  match s.launchOfTcb job tcb with
  | none => s
  | some (l, index) =>
    let key := encoreKey s.cycle core l.id index pos
    let st := s.tcbState job tcb
    let policy := s.consumerPolicy job tcb
    let lower := nibbleLt ((s.tcbWord job tcb 56).field (4 * slot) 4) n
    if st = tWaiting then
      if s.tcbCount job tcb = 0 && s.versionsMet l index then s.release l index key false else s
    else if !lower || policy == 0 then s
    else if st = tRunning ∨ st = tCheckpointed then
      if policy = 2 then s.abort job tcb cRefire .again
      else s.modTask job tcb fun t => { t with refire := some (t.refire.getD key) }
    else if st = tCommitting then s.modTask job tcb fun t => { t with refire := some (t.refire.getD key) }
    else if st = tDone then s.refireTask l index key
    else s

/-- Every consumer of region r, in list order, after its version or FINAL has changed (R207, R208). -/
def State.regionChanged (s : State) (job r : Nat) (core : Option Nat) : State :=
  let n := s.regionNibble job r
  let (s, l) := s.consumersOfRegion job r
  (l.getD []).zipIdx.foldl (fun s c => s.consume job c.1.1 c.1.2 n core c.2) s

/-- Version and FINAL of an entry (R200). -/
def State.setRegion (s : State) (job r version : Nat) (final : Bool) : State :=
  s.devField job 0 (s.regionVa job r) 60 4 (version + 8 * final.toNat)

/-! ## REFSTOP (R205) and PUBV (R203) at the home slice -/

def State.regionSize (s : State) (job r : Nat) : Nat := (s.regionHi job r).field 36 28
def State.regionBase (s : State) (job r : Nat) : Nat := (s.regionLo job r).field 0 48

/-- REFSTOP: the region becomes final at its version, and its status. -/
def State.refstop (s : State) (job r : Nat) (core : Option Nat) : State × Nat :=
  if s.regionSize job r = 0 then (s, 3)
  else if s.regionNibble job r ≥ 8 then (s, 1)
  else ((s.setRegion job r (s.regionNibble job r % 8) true).regionChanged job r core, 0)

/-- The bytes of a quarantine entry inside [lo, hi), and what is left of it. -/
def QEntry.split (e : QEntry) (lo hi : Nat) : Option QEntry × List QEntry :=
  let a := max lo e.va
  let b := min hi (e.va + e.bytes.length)
  if e.wenq ∨ b ≤ a then (none, [e])
  else
    let part (x n : Nat) : QEntry :=
      { e with va := e.va + x, pa := e.pa + x, bytes := (e.bytes.drop x).take n }
    let rest := [part 0 (a - e.va), part (b - e.va) (e.bytes.length - (b - e.va))]
    (some (part (a - e.va) (b - a)), rest.filter fun p => !p.bytes.isEmpty)

/-- Take the bytes of a region out of a task's quarantine: those of stores before the PUBV, whose place in program order is seq. -/
def State.takeRegion (s : State) (job tcb seq lo hi : Nat) : State × List QEntry :=
  match s.task job tcb with
  | none => (s, [])
  | some t =>
    let parts := t.quar.map fun e => if e.seq ≤ seq then e.split lo hi else (none, [e])
    (s.modTask job tcb fun t => { t with quar := parts.flatMap (·.2) }, parts.filterMap (·.1))

/-- PUBV: its status, the bytes applied, the version changed, and the consumers acted on. A task whose PUBV finds the version
published already counts as a publisher of the region: a re-run repeats it (R204, R211). A strong store that MIXSIZE traps stays applied, and
the launch faults once the task's TEND has finished, as with one that a TEND applies (R166; DEDUCED, log entry 50). -/
def State.pubv (s : State) (job tcb core seq r n : Nat) (final : Bool) : State × Nat :=
  let lo := s.regionBase job r
  let hi := lo + 64 * s.regionSize job r
  let noted (s : State) : State := s.modTask job tcb fun t => { t with pubs := nins t.pubs r }
  if s.regionSize job r = 0 then (s, 3)
  else if s.regionNibble job r ≥ 8 then ((s.takeRegion job tcb seq lo hi).1, 2)
  else if n ≤ s.regionNibble job r then (noted (s.takeRegion job tcb seq lo hi).1, 1)
  else
    let launch := match s.task job tcb with | some t => t.launch | none => 0
    let (s, es) := s.takeRegion job tcb seq lo hi
    let (s, mix) := s.applyEntries (some core) job launch es
    let s := match mix with
      | some va => s.modTask job tcb fun t => { t with fault := some (cMixsize, va) }
      | none => s
    ((noted (s.setRegion job r n final)).regionChanged job r (some core), 0)

/-! ## Settling (R209-R211) -/

/-- A task is settled: it has committed, and no re-fire of it is marked or queued. -/
def State.settledTask (s : State) (l : Lnch) (index : Nat) : Bool :=
  let tcb := l.tcbs + 64 * index
  let snap (i : Nat × Nat × Nat) : Nat := (s.tcbWord l.job tcb 56).field (4 * i.2.1) 4
  s.tcbState l.job tcb == tDone &&
    (!s.tcbVersioned l.job tcb || (l.inputs.filter (·.1 == index)).all fun i =>
      decide (8 ≤ snap i) ||
        (s.consumerPolicy l.job tcb == 0 && decide ((s.tcbWord l.job tcb 16).field 32 16 ≤ snap i % 8)))

/-- At the commit of a re-run that kept its snapshot, inputs that now stand above it act as if published now (R209). -/
def State.staleInput (s : State) (l : Lnch) (index : Nat) : Bool :=
  let tcb := l.tcbs + 64 * index
  s.consumerPolicy l.job tcb != 0 && (l.inputs.filter (·.1 == index)).any fun i =>
    nibbleLt ((s.tcbWord l.job tcb 56).field (4 * i.2.1) 4) (s.regionNibble l.job i.2.2)

/-- The regions that the tasks of a launch published become final, as if by a REFSTOP of the launch (R211): what a task published in its
final run, so of the tasks that are settled at that moment (DEDUCED, log entry 50). -/
def State.finalise (s : State) (l : Lnch) : State :=
  l.pubs.foldl (fun (s : State) p =>
    if s.settledTask l p.1 then p.2.foldl (fun (s : State) r => match s.regionRead l.job r with
      | (s, none) => (s.refstop l.job r none).1
      | (s, some _) => s) s else s) s

end Sys2Proof.Machine
end

