-- ==== Sys2Proof/Machine/Commit.lean ====
section
/-!
DEFINITION. How a task commits (spec/02 R26, spec/16 R393): write-back of dirty pages, what must have happened before step
4, the quarantine becoming visible in one step with its WENQ enqueues (spec/17 R425, spec/11 R250), NMXG groups (spec/07 R171),
STEP and DEPDEC words, successors, the count, and the end of launches and graphs (spec/02 R34, R36, R462).
-/

namespace Sys2Proof.Machine

/-! ## Launches that end DONE (R34, R36, R150, R462) -/

/-- Decrement the dependence count of a PENDING launch, of the same graph or on its own. -/
def State.launchDep (s : State) (job id : Nat) (graph : Option Nat) : State :=
  let hit (l : Lnch) : Bool :=
    l.job == job && l.id == id && l.status == stPending && l.graph == graph && decide (0 < l.deps)
  { s with launches := replaceFirst hit (fun l => { l with deps := l.deps - 1 }) s.launches }

/-- A launch is DONE: its report and word, the job's count, its successors, which a list names up to its terminator or a word that
does not translate (R462), and its graph, whose word reads RUNNING from its first launch that is DONE on (DESIGN CHOICE, log entry 39). -/
def State.launchDone (s : State) (job id : Nat) : State :=
  match s.launch job id with
  | none => s
  | some l =>
    let s := s.endLaunch job id stDone 0
    let s := (s.modJob job fun j => { j with done := j.done + 1 }).writeJob job
    match l.graph with
    | none =>
      if l.succ = 0 then s
      else
        let (s, ids, _) := s.readList job l.succ true 1048576
        ids.foldl (fun s i => s.launchDep job i none) s
    | some g => match s.graphs.find? fun x => x.job == job && x.id == g with
      | none => s
      | some gr =>
        let s := (kget gr.succs id []).foldl (fun s i => s.launchDep job i (some g)) s
        let all := gr.launches.all fun i => match s.launch job i with | some l => l.status == stDone | none => false
        (s.modGraph job g fun x => { x with status := if all then stDone else stRunning }).writeGraph job g

/-! ## Before step 4 -/

/-- Steps 1 to 3 of TEND, but for the write-backs (R26): every engine has retired every entry, and every item sent through
the Safety Net has been released. -/
def State.tendIdle (s : State) (core : Nat) : Bool :=
  let k := s.core core
  let a := k.arch
  a.ended && a.vl.isEmpty && a.va.isEmpty && a.vs.isEmpty && a.mx.isEmpty && a.nm.isEmpty && a.cl.isEmpty &&
    a.owed.isEmpty && k.copies.isEmpty && k.fills.isEmpty && k.pend.isEmpty && k.replay.isNone

/-- Step 3: nothing of the task is left in the Safety Net. -/
def State.netClear (s : State) (core job tcb : Nat) : Bool :=
  !(s.net.any fun i => i.core == core && i.job == job && i.tcb == tcb)

/-- Step 2: the dirty pages are written back, as far as the Safety Net has room for them (R215); none where the task ends with it. -/
def State.flushPages (s : State) (core : Nat) : Option State × State :=
  ((s.core core).arch.pages).foldl (fun (a : Option State × State) p => match a.1 with
    | none => a
    | some s =>
      if !s.writeBackFits core p.2 then a
      else match s.writeBack core p.1 p.2 with
        | (some s, _) => (some (s.cleanPage core p.1), s)
        | (none, s) => (none, s)) (some s, s)

def Core.dirtyPages (k : Core) : Bool := k.arch.pages.any fun p => !p.2.dirty.isEmpty

/-- The tasks bound to one another through forwarded values, in either direction (R163). -/
def boundSet (bonds : List (Nat × Nat)) : Nat → NSet → NSet
  | 0, seen => seen
  | fuel + 1, seen =>
    let more := (bonds.filter fun b => seen.contains b.1 != seen.contains b.2).flatMap fun b => [b.1, b.2]
    if more.isEmpty then seen else boundSet bonds fuel (more.foldl nins seen)

/-! ## Step 4 -/

/-- A store that step 4 makes for a WENQ. -/
structure WenqStore where
  va : Nat
  x : Xl
  bytes : List Byte
  hint : Hint
  deriving DecidableEq, Repr

/-- The check before step 4: the state with the A and D bits that it has set, memory as the commit will leave it, and the stores of
the WENQs. -/
structure CommitPlan where
  s : State
  mem : List Host.Cell
  stores : List WenqStore

/-- One WENQ (R423, R425): the tail page and every page of its slot translate first (R250); a descriptor that cannot be read is R225's, and one
outside R423 when the word commits gives PROTECTION (DEDUCED, log entry 60). -/
def CommitPlan.enqueue (a : CommitPlan) (die job desc : Nat) (bs : List Byte) (h : Hint) :
    Except (State × XlFail × Nat) CommitPlan :=
  match a.s.translate none die job desc .write with
  | (s, .error f) => .error (s, f, desc)
  | (s, .ok d) =>
    let word (i : Nat) : Word := BitVec.ofNat 64 (leNat (Memory.reads a.mem (d.pa + 8 * i) 8))
    let (t, head) := ((word 0).toNat, (word 1).toNat)
    let slot := queueSlot word t
    if s.poisoned d.pa 64 then .error (s, .bad, desc)
    else if inMgmt d.pa || !queueOk word bs.length then .error (s, .prot, desc)
    else match s.translateRange none die job slot bs.length .write with
      | (s, .error f) => .error (s, f)
      | (s, .ok x) =>
        let put (m : List Host.Cell) (w : WenqStore) : List Host.Cell :=
          let n1 := min w.bytes.length (4096 - w.x.pa % 4096)
          Memory.writes (Memory.writes m w.x.pa (w.bytes.take n1)) w.x.pa2 (w.bytes.drop n1)
        let ws : List WenqStore :=
          if (t + 2 ^ 64 - head) % 2 ^ 64 ≥ (word 3).field 32 32 then
            [{ va := desc + 32, x := { d with pa := d.pa + 32 }, bytes := bytesOf 8 (((word 4).toNat + 1) % 2 ^ 64), hint := h }]
          else [{ va := slot, x := x, bytes := bs, hint := h }, { va := desc, x := d, bytes := bytesOf 8 ((t + 1) % 2 ^ 64), hint := h }]
        if x.inRegion bs.length then .error (s, .prot, slot)
        else .ok { s := s, mem := ws.foldl put a.mem, stores := a.stores ++ ws }

/-- A held word that translates a page before step 4: WENQ, then DEPDEC (R250, R341). -/
def CommitPlan.held (a : CommitPlan) (die job : Nat) : Held → Except (State × XlFail × Nat) CommitPlan
  | .wenq desc bs h => a.enqueue die job desc bs h
  | .depdec tcb => match a.s.translate none die job tcb .write with
    | (s, .error f) => .error (s, f, tcb)
    | (s, .ok _) => .ok { a with s := s }
  | .step .. => .ok a

/-- What must translate before a task passes step 4; nothing is applied meanwhile. -/
def State.commitPlan (s : State) (mem : List Host.Cell) (t : Task) : Except (State × XlFail × Nat) CommitPlan :=
  let mem := (t.quar.filter fun e => !e.wenq).foldl (fun m e => Memory.writes m e.pa e.bytes) mem
  t.held.foldl (fun (a : Except (State × XlFail × Nat) CommitPlan) h => match a with
    | .ok a => a.held t.home t.job h
    | .error f => .error f) (.ok { s := s, mem := mem, stores := [] })

/-- The whole quarantine becomes visible: ordinary bytes in order, then what the WENQs write. The answer: the first strong store that
met MIXSIZE (R166). core: where the task runs. -/
def State.applyQuarantine (s : State) (core : Option Nat) (t : Task) (ws : List WenqStore) : State × Option Nat :=
  let (s, mix) := s.applyEntries core t.job t.launch (t.quar.filter fun e => !e.wenq)
  (ws.foldl (fun s w => s.storeX t.job t.launch w.va w.x w.bytes w.hint) s, mix)

/-- The bonds and forwarded values of a task end with its commit (R162, R163). -/
def State.dropForwards (s : State) (job tcb : Nat) : State :=
  { s with
    fwds := s.fwds.filter fun f => !(f.job == job && f.tcb == tcb),
    bonds := s.bonds.filter fun b => !(b.1 == job && (b.2.1 == tcb || b.2.2 == tcb)) }

/-- Records that R268 keeps under an open step are no longer the task's to undo. -/
def LogRec.keep (job tcb : Nat) (r : LogRec) : LogRec :=
  if r.job == job && r.task == some tcb then { r with task := none } else r

/-- The log records of a task's commands stay with the open step. -/
def State.keepRecords (s : State) (job tcb : Nat) : State :=
  { s with nmus := s.nmus.map fun n => (n.1, { n.2 with log := n.2.log.map (LogRec.keep job tcb) }) }

/-- Step 4 of one task: state COMMITTING, the quarantine visible, and nothing undoes its near-memory commands any more
(R373). -/
def State.step4 (s : State) (core : Option Nat) (job tcb : Nat) (ws : List WenqStore) : State :=
  match s.task job tcb with
  | none => s
  | some t =>
    let (s, mix) := s.applyQuarantine core t ws
    let s := (s.setTcbState job t.launch tcb tCommitting).dropForwards job tcb
    let fault : Option (Nat × Nat) := match mix with | some va => some (cMixsize, va) | none => t.fault
    let s := s.modTask job tcb fun t => { t with quar := [], undo := [], past4 := true, fault := fault }
    { (s.keepRecords job tcb) with
      colls := s.colls.filter (fun (x : Coll) => !(x.job == job && x.tcb == tcb)),
      kept := s.kept.filter fun x => !(x.job == job && x.tcb == tcb) }

/-! ## Between step 4 and step 5 -/

/-- The open step under which a launch's near-memory writes are logged (R268). -/
def State.loggedStep (s : State) (job launch : Nat) : Option Nat :=
  match s.launch job launch, kfind s.jobs job with
  | some l, some j => if l.step then j.step else none
  | _, _ => none

/-- The granules that bytes written at the given addresses touch, in order. -/
def granulesOf (ws : List (Nat × Byte)) : List Nat :=
  ws.foldl (fun a w => if a.contains (w.1 / 64 * 64) then a else a ++ [w.1 / 64 * 64]) []

/-- Log granules of an NMU before they change: none when its area is full. An area of size 0 logs nothing (R267, R268). -/
def State.logAll (s : State) (nmu job launch : Nat) (task : Option Nat) (gs : List Nat) : Option State :=
  match s.loggedStep job launch with
  | none => some s
  | some k =>
    if undoUnits s.regs nmu = 0 then some s
    else gs.foldl (fun (a : Option State) g => match a with
      | some s => s.logGranule nmu job k task g
      | none => none) (some s)

/-- The lines of a write range leave the L2, and a sector written whole is no longer poisoned (R172, R225). -/
def State.invalidate (s : State) (pa n : Nat) : State :=
  (s.unpoison pa n).dropLines fun l => decide (pa < 128 * l + 128) && decide (128 * l < pa + n)

/-- Write bytes as an NMU does: memory, and the L2 lines of what it wrote. -/
def State.nmWrite (s : State) (ws : List (Nat × Byte)) : State :=
  let s := ws.foldl (fun s w => { s with mem := Memory.write s.mem w.1 w.2 }) s
  (granulesOf ws).foldl (fun s g => s.invalidate g 64) s

/-- The undo records of granules before bytes at them change, newest first. -/
def State.undosOf (s : State) (job launch : Nat) (gs : List Nat) : List Undo :=
  (gs.map fun g => ({ nmu := nmuOf g, pa := g, old := Memory.reads s.mem g 64,
                      stepped := (s.loggedStep job launch).isSome && undoUnits s.regs (nmuOf g) != 0 } : Undo)).reverse

/-- One channel of a group swaps in, in one step (R171, R271): none where the undo area of its NMU is full (R268). -/
def State.swapChannel (s : State) (job launch tcb : Nat) (g : Nat × List (Nat × Byte)) : Option (State × List Undo) :=
  let gs := granulesOf g.2
  (s.logAll g.1 job launch (some tcb) gs).map fun t => (t.nmWrite g.2, s.undosOf job launch gs)

/-- The next channel to commit, and the others. -/
def nextChannel (cycle : Nat) (gs : List (Nat × List (Nat × Byte))) :
    Option ((Nat × List (Nat × Byte)) × List (Nat × List (Nat × Byte))) :=
  let i := Config.nextChannel cycle % gs.length
  match gs[i]? with
  | some g => some (g, gs.eraseIdx i)
  | none => none

/-- The places of the channels that may commit next: an earlier group of the task comes first on its channels, and first as a whole where it has
the same class (R156, R157). -/
def readyChannels (gs : List Shadow) : List Nat :=
  (List.range gs.length).filter fun i => match gs[i]? with
    | some g => (gs.take i).all fun h => h.seq == g.seq || (h.oc != g.oc && h.chan != g.chan)
    | none => false

/-- The channel of a task's groups that commits next, and the others. -/
def nextShadow (cycle : Nat) (gs : List Shadow) : Option (Shadow × List Shadow) :=
  let ready := readyChannels gs
  match ready[Config.nextChannel cycle % ready.length]? with
  | some i => gs[i]?.map fun g => (g, gs.eraseIdx i)
  | none => none

/-- Drop the log records that a command of a task has appended. -/
def State.dropRecords (s : State) (job tcb : Nat) : State :=
  { s with nmus := s.nmus.map fun n => (n.1, { n.2 with log := n.2.log.filter fun r => !(r.job == job && r.task == some tcb) }) }

/-- After step 4 the channels of a task's NMXG groups commit one by one. A full undo area stops the command, which undoes its own
records; the launch faults when the TEND completes, and rung 5 follows (R268). -/
def State.swapGroups (s : State) (t : Task) : State :=
  match nextShadow s.cycle t.groups with
  | none => s
  | some (g, rest) => match s.swapChannel t.job t.launch t.tcb (g.chan, g.bytes) with
    | some (s, us) => s.modTask t.job t.tcb fun t => { t with groups := rest, undo := us ++ t.undo }
    | none =>
      let quota := match s.launch t.job t.launch with | some l => l.quota | none => 0
      ((s.undoAll t.undo).dropRecords t.job t.tcb).modTask t.job t.tcb fun t =>
        { t with groups := [], undo := [], fault := some (cQuarOverflow, quota) }

/-- A logged command of the job still runs, or a group of it has not committed after its task's TEND step 4 (R390, R171). -/
def State.loggedRuns (s : State) (job : Nat) : Bool :=
  (s.nmus.any fun n => match n.2.run with
    | some r => r.req.job == job && (s.loggedStep job r.req.launch).isSome && (ecbSlot r.req.slots 0).field 0 8 != 0x21
    | none => false) ||
    s.tasks.any fun t => t.job == job && t.past4 && !t.groups.isEmpty && (s.loggedStep job t.launch).isSome

/-- STEP BEGIN, COMMIT and ABORT (R390, R269). -/
def State.stepWord (s : State) (job form k : Nat) : State :=
  let now := match kfind s.jobs job with | some j => j.step | none => none
  let close (s : State) : State := s.modJob job fun j => { j with step := none }
  if form = 0 then
    if now = none then s.modJob job fun j => { j with step := some k } else s
  else if now ≠ some k then s
  else if form = 1 then close (s.stepDiscard job k)
  else
    let (s, bad) := s.stepRestore job k
    let s := close s
    if bad then (s.modJob job fun j => { j with status := stFaulted, cause := cUncorrectable }).writeJob job else s

/-- The held words of a task in program order; what is left waits for logged commands. pos counts the decrements. -/
def State.heldWords (s : State) (core : Nat) (t : Task) : List Held → Nat → State × List Held
  | [], _ => (s, [])
  | h :: hs, pos => match h with
    | .wenq .. => s.heldWords core t hs pos
    | .depdec tcb => (s.decrement t.job tcb (coreKey s.cycle core pos)).heldWords core t hs (pos + 1)
    | .step form k =>
      let now := match kfind s.jobs t.job with | some j => j.step | none => none
      if form ≠ 0 ∧ now = some k ∧ s.loggedRuns t.job then (s, h :: hs)
      else (s.stepWord t.job form k).heldWords core t hs pos

/-! ## Steps 5 and 6 -/

/-- The successor decrements of a TEND (R178-R180), and the cause where the list faults the launch. -/
def State.successors (s : State) (core : Nat) (t : Task) (l : Lnch) : State × Option Nat :=
  match s.succList t.job t.tcb with
  | (s, _, some c) => (s, some c)
  | (s, is, none) =>
    (is.zipIdx.foldl (fun s i =>
      if i.1 < l.count then s.decrement t.job (l.tcbs + 64 * i.1) (coreKey s.cycle core i.2) else s) s,
     if is.any fun i => decide (l.count ≤ i) then some cIllegalField else none)

/-- No spill list has passed its 65,536 entries with what a TEND has released, which turned the state old into s (R181). -/
def State.spillRoom (s old : State) : Bool :=
  s.rings.all fun r => decide (r.2.spill.length ≤ max 65536 (old.ring r.1).spill.length)

/-- The count of a launch after a commit, with DONE where every task has committed and is settled (R34, R210, R211). -/
def State.countCommit (s : State) (job launch : Nat) : State :=
  match s.launch job launch with
  | none => s
  | some l =>
    let s := if l.committed = l.count then s.finalise l else s
    if l.status = stRunning ∧ l.committed = l.count ∧ (List.range l.count).all (s.settledTask l) then
      s.launchDone job launch
    else s.writeCw job launch

/-- The end of a TEND past step 5 (R393): the count, what faults the launch when the TEND completes (a malformed list, MIXSIZE, a full undo area or
a sector that cannot be read), with its report (R260), the Encore actions (R208, R209); then the core is free. -/
def State.tendDone (s : State) (core : Nat) (t : Task) (l : Lnch) : State :=
  let (job, tcb) := (t.job, t.tcb)
  let again : Option (List Nat) := match t.refire with
    | some key => some key
    | none => if t.keepSnap && s.staleInput l t.index then some (coreKey s.cycle core 0) else none
  let s := s.setTcbState job t.launch tcb tDone
  let s := match t.fault, s.coreOf job tcb with
    | some (c, info), some k => s.modCore k fun k => k.fault s.cycle c (BitVec.ofNat 64 info) k.arch.word []
    | _, _ => s
  let s := { s with tasks := s.tasks.filter fun x => !(x.job == job && x.tcb == tcb) }
  let s := s.modLaunch job t.launch fun l =>
    { l with committed := l.committed + (if t.refired then 0 else 1), pubs := kset l.pubs t.index t.pubs }
  let s := match again with
    | some key => if l.status = stRunning ∧ t.fault.isNone then s.refireTask l t.index key else s
    | none => s
  let s := match t.fault with
    | some (c, _) =>
      let s := s.writeCw job t.launch
      if c = cQuarOverflow ∨ c = cUncorrectable then s.faultStep job t.launch c else s.launchFault job t.launch c
    | none => s.countCommit job t.launch
  s.evict job tcb 2

/-- A task that has performed its held words and successors has passed step 5; a malformed list faults its launch when the TEND completes. -/
def Task.passed (t : Task) (bad : Option Nat) : Task :=
  { t with past5 := true, fault := match bad with | some c => some (c, 0) | none => t.fault }

/-- The steps of a task past step 4: its groups, its held words and its successors, each a turn that waits for its predecessor, and the end. It
waits for logged commands (R390), and, with nothing released, while a spill list has no room (R181). -/
def State.tendEnd (s : State) (core : Nat) (job tcb : Nat) : State :=
  match s.task job tcb with
  | none => s
  | some t => match s.launch job t.launch with
    | none => s
    | some l =>
      if t.past5 then s.tendDone core t l
      else if !t.groups.isEmpty then s.swapGroups t
      else
        let s0 := s
        let (s, left) := s.heldWords core t t.held 0
        let s := (s.modTask job tcb fun t => { t with held := left, undo := [] }).keepRecords job tcb
        if !left.isEmpty then (if s.spillRoom s0 then s else s0)
        else
          let (s, bad) := if t.refired then (s, none) else s.successors core t l
          if s.spillRoom s0 then s.modTask job tcb (·.passed bad) else s0

/-- A page that a WENQ or DEPDEC needs does not translate: the task ends as if TEND had not reached step 4 (R250, R341). -/
def State.commitFail (s : State) (core : Option Nat) (t : Task) (f : XlFail × Nat) : State :=
  match core, f.1 with
  | some c, .page => s.pageFault c 1 f.2
  | some c, .prot => s.abortCore c cProtection (BitVec.ofNat 64 f.2) .faulted
  | some c, .bad => s.readPoison c f.2 0
  | none, .page => (s.abort t.job t.tcb cPageFault .parked).pfRecord t.home 1 f.2 t.tcb false t.job
  | none, .prot => s.abort t.job t.tcb cProtection .faulted
  | none, .bad => s.faultStep t.job t.launch cUncorrectable

/-- The checks of tasks that pass step 4 together: their stores, or the first that fails. -/
def State.commitPlans : List (Option Nat × Task) → State → List Host.Cell →
    Except State (State × List ((Option Nat × Task) × List WenqStore))
  | [], s, _ => .ok (s, [])
  | t :: ts, s, mem => match s.commitPlan mem t.2 with
    | .error (s, f) => .error (s.commitFail t.1 t.2 f)
    | .ok a => (State.commitPlans ts a.s a.mem).map fun r => (r.1, (t, a.stores) :: r.2)

/-- The order in which bound tasks apply their quarantines within their one step: a writer before what consumed its values, else by rising TCB
(R156; among tasks that forwarded nothing to one another DESIGN CHOICE, log entry 58). -/
def forwardOrder (bonds : List (Nat × Nat)) : Nat → NSet → List Nat
  | 0, _ => []
  | fuel + 1, rest =>
    let ready (x : Nat) : Bool := !(bonds.any fun b => b.2 == x && b.1 != x && rest.contains b.1)
    match (rest.find? ready).or rest.head? with
    | none => []
    | some x => x :: forwardOrder bonds fuel (ndel rest x)

/-- Tasks that are bound to one another pass step 4 together (R163); then each goes on. rel: the core whose releases they
are. -/
def State.commitTasks (s : State) (rel : Nat) (ts : List (Option Nat × Task)) : State :=
  match State.commitPlans ts s s.mem with
  | .error s => s
  | .ok (s, ps) =>
    let s := ps.foldl (fun s p => s.step4 p.1.1 p.1.2.job p.1.2.tcb p.2) s
    ps.foldl (fun s p => s.tendEnd (p.1.1.getD rel) p.1.2.job p.1.2.tcb) s

end Sys2Proof.Machine
end

