-- ==== Sys2Proof/Machine/Preempt.lean ====
section
/-!
DEFINITION. Checkpoints (spec/08 R192-R195, spec/06 R128): when one is permitted, the save record, and the steps from the
request to the free core. The record becomes valid when its item leaves the Safety Net (R194).
-/

namespace Sys2Proof.Machine

/-! ## The save record (R195) -/

/-- Slots of the TWA written in this attempt. -/
def Arch.slotNumbers (a : Arch) : NSet := a.slots.foldl (fun m p => nins m (p.1 / 256)) []

/-- Declared pages that are scratch. -/
def scratchPages (r : Run) (a : Arch) : List Nat := (List.range r.npage).filter fun p => (kfind a.pages p).isNone

def saveSize (r : Run) (a : Arch) : Nat :=
  512 + 640 + 8320 + 256 * r.nvec + 16448 * r.ntile + 3200 + 256 * a.slotNumbers.length + 16448 +
    1024 + 128 * r.npage + 4096 * (scratchPages r a).length

/-- The doubleword of a page tag (R122). -/
def tagWord (pg : Page) : Word :=
  BitVec.ofNat 64 (pg.range * 2 ^ 28 + pg.lock.toNat * 16 + (!pg.dirty.isEmpty).toNat * 8 + pg.res.toNat * 4 + pg.pin.toNat * 2 + 1)

/-- Bits 8i to 8i + 7 of a set of numbers, as bytes. -/
def setBytes (m : NSet) (n : Nat) : List Byte :=
  (List.range n).map fun i =>
    BitVec.ofNat 8 ((List.range 8).foldl (fun a b => a + (m.contains (8 * i + b)).toNat * 2 ^ b) 0)

/-- The bytes of a record: the sections in the order of R195; bytes whose place within a section has no stated layout
are free (DESIGN CHOICE, log entry 15). -/
def saveRecord (cycle : Nat) (r : Run) (a : Arch) : List Byte :=
  let free (at_ n : Nat) : List Byte := (List.range n).map fun i => Config.freeSave cycle (at_ + i)
  let scal := ((List.range 63).flatMap fun i => bytesOf 8 (a.rd (Fin.ofNat 64 (i + 1))).toNat) ++
    (List.range 15).flatMap fun i => bytesOf 8 (a.prd (Fin.ofNat 16 (i + 1))).toNat
  let vecs := (List.range r.nvec).flatMap fun i =>
    (a.vrd (Fin.ofNat 768 i)).toArray.toList.flatMap fun w => bytesOf 4 w.toNat
  let tiles := (List.range r.ntile).flatMap fun z =>
    ((a.tile z).data.flatMap fun w => bytesOf 4 w.toNat) ++ free (100000 + 64 * z) 64
  let dirs := (List.range 1024).flatMap fun i => bytesOf 2 (a.dir i).toNat
  let scales := (List.range 1024).map a.scaleByte
  let slots := a.slotNumbers.flatMap fun n => (List.range 256).map fun i => a.slotByte (256 * n + i)
  let tpls := (List.range 256).flatMap fun i => (kget a.tpls i (List.replicate 8 0)).flatMap fun w => bytesOf 8 w.toNat
  let tags := (List.range 128).flatMap fun p =>
    bytesOf 8 (match kfind a.pages p with | some pg => (tagWord pg).toNat | none => 0)
  let scratch := (scratchPages r a).flatMap fun p => a.spBytes (4096 * p) 4096
  let imgs := (List.range 16).flatMap fun i => match a.mx[i]? with
    | some e => (List.range 16).flatMap fun j => bytesOf 8 (ecbSlot e.slots j).toNat
    | none => free (8000 + 128 * i) 128
  let bank := (List.range 16).flatMap fun i => bytesOf 8 (a.bankSlot i).toNat
  free 0 512 ++ scal ++ free 512 16 ++ free 1024 6144 ++ imgs ++ bank ++ vecs ++ tiles ++ dirs ++ scales ++
    setBytes a.slotNumbers 128 ++ slots ++ tpls ++ free 50000 64 ++ tags ++ setBytes a.full (128 * r.npage) ++ scratch

/-- The doublewords of n bytes. -/
def dwords : Nat → List Byte → List Word
  | 0, _ => []
  | n + 1, bs => BitVec.ofNat 64 (leNat (bs.take 8)) :: dwords n (bs.drop 8)

/-- The n-byte pieces of a list, as numbers. -/
def pieces (w : Nat) : Nat → List Byte → List Nat
  | 0, _ => []
  | n + 1, bs => leNat (bs.take w) :: pieces w n (bs.drop w)

/-- A map of the values of a list, by place from i on. -/
def kmapFrom {α : Type} (i : Nat) : List α → KMap α
  | [] => []
  | x :: t => (i, x) :: kmapFrom (i + 1) t

/-- What the bytes of a record give back (R196), section by section as saveRecord lays them out; what has no stated place, or is not
in the record, is that of a, which the device saved. -/
def Arch.reload (a : Arch) (r : Run) (bs : List Byte) : Arch :=
  let bs := bs.drop 512
  let sregs := kmapFrom 1 (dwords 63 bs)
  let bs := bs.drop 504
  let pregs := kmapFrom 1 (dwords 15 bs)
  let bs := bs.drop (136 + 6144)
  let image (b : List Byte) (e : Ecb) : Ecb := { e with slots := dwords 16 b }
  let mx := a.mx.zipIdx.map fun e => if e.2 < 16 then image (bs.drop (128 * e.2)) e.1 else e.1
  let bs := bs.drop 2048
  let bank := kmapFrom 0 (dwords 16 bs)
  let bs := bs.drop 128
  let vec (i : Nat) : Vec :=
    let l := pieces 4 64 (bs.drop (256 * i))
    laneTab fun j => BitVec.ofNat 32 (l.getD j 0)
  let vregs := (List.range r.nvec).map fun i => (i, vec i)
  let bs := bs.drop (256 * r.nvec)
  let tile (z : Nat) : Tile := { a.tile z with data := (pieces 4 4096 (bs.drop (16448 * z))).map fun n => BitVec.ofNat 32 n }
  let tiles := (List.range r.ntile).map fun z => (z, tile z)
  let bs := bs.drop (16448 * r.ntile)
  let dirs := kmapFrom 0 ((pieces 2 1024 bs).map fun n => (BitVec.ofNat 16 n : BitVec 16))
  let bs := bs.drop 2048
  let scales := kmapFrom 0 (bs.take 1024)
  let bs := bs.drop (1024 + 128)
  let slots := a.slotNumbers.zipIdx.flatMap fun n => kmapFrom (256 * n.1) ((bs.drop (256 * n.2)).take 256)
  let bs := bs.drop (256 * a.slotNumbers.length)
  let tpls := a.tpls.map fun t => (t.1, dwords 8 (bs.drop (64 * t.1)))
  let bs := bs.drop (16384 + 64)
  let tag (p : Nat) (pg : Page) : Page :=
    let w : Word := BitVec.ofNat 64 (leNat ((bs.drop (8 * p)).take 8))
    { pg with range := w.field 28 36, pin := bitAt w 1 }
  let pages := a.pages.map fun p => (p.1, tag p.1 p.2)
  let bs := bs.drop 1024
  let bits := (bs.take (128 * r.npage)).zipIdx.flatMap fun b =>
    ((List.range 8).filter fun i => b.1.toNat / 2 ^ i % 2 == 1).map fun i => 8 * b.2 + i
  let bs := bs.drop (128 * r.npage)
  let sp := (scratchPages r a).zipIdx.foldl (fun m p => putBytes m (4096 * p.1) ((bs.drop (4096 * p.2)).take 4096)) a.sp
  { a with sregs := sregs, pregs := pregs, mx := mx, bank := bank, vregs := vregs, tiles := tiles, dirs := dirs, scales := scales,
           slots := slots, tpls := tpls, pages := pages, full := bits, sp := sp }

/-- The n bytes of memory from pa on, in one pass over what is listed. -/
def sliceBytes : List Host.Cell → Nat → Nat → List Byte
  | _, _, 0 => []
  | [], pa, n + 1 => 0 :: sliceBytes [] (pa + 1) n
  | c :: t, pa, n + 1 => if c.1 = pa then c.2 :: sliceBytes t (pa + 1) n else 0 :: sliceBytes (c :: t) (pa + 1) n

def Memory.slice (m : List Host.Cell) (pa n : Nat) : List Byte := sliceBytes (m.dropWhile fun c => decide (c.1 < pa)) pa n

/-- The place of a record of n bytes in the save pool of a die: the lowest that no other record overlaps. -/
def State.savePlace (s : State) (die n : Nat) : Option Nat :=
  let base := (s.reg (mRing die + 0x70)).toNat
  let top := base + (s.reg (mRing die + 0x78)).toNat
  let used := (s.tasks.filter fun t => t.save.isSome && t.home == die).map fun t => (t.savePa, t.saveLen)
  let ok (p : Nat) : Bool :=
    decide (base ≤ p) && decide (p + n ≤ top) && used.all fun u => decide (p + n ≤ u.1) || decide (u.1 + u.2 ≤ p)
  ((base :: used.map fun u => u.1 + u.2).filter ok).foldl
    (fun (m : Option Nat) p => match m with | some q => some (min p q) | none => some p) none

/-- Checkpoint is permitted for the task on a core (R190, R192, R195). -/
def State.ckptOk (s : State) (core : Nat) : Bool :=
  let k := s.core core
  match k.run with
  | none => false
  | some r =>
    let home := match s.task r.job r.tcb with | some t => t.home | none => 0
    !r.exch && s.tcbPolicy r.job r.tcb / 2 % 2 == 0 && !k.arch.bypassLive && !k.arch.ended &&
      !(s.fwds.any fun f => f.job == r.job && f.tcb == r.tcb) &&
      !(s.bonds.any fun b => b.1 == r.job && (b.2.1 == r.tcb || b.2.2 == r.tcb)) &&
      k.arch.nm.isEmpty && k.arch.cl.isEmpty && (s.savePlace home (saveSize r k.arch)).isSome

/-- Step 1 (R193): SQ stops pushing, and no engine starts another entry. -/
def State.startCkpt (s : State) (core : Nat) (held : Option (Nat × Nat)) : State :=
  (if held.isSome then s.ranked rOverflow else s).modCore core fun k => { k with ckpt := some { held := held, since := s.cycle } }

/-- A checkpoint request has reached the core: in a later cycle than the decision, or at once where SQ itself waits at a SPAWN. -/
def Ckpt.arrived (c : Ckpt) (cycle : Nat) : Bool := c.held.isSome || decide (c.since < cycle)

/-- Step 2 is done: nothing that has started is outstanding. A retired copy or command may still owe its token (R60). -/
def Core.quiet (k : Core) : Bool :=
  k.pend.isEmpty && k.copies.all (·.2.owing) && k.fills.isEmpty && !(k.arch.mx.any fun x => x.started && !x.owing) && k.replay.isNone &&
    k.early.isEmpty && k.latched.isEmpty

/-- What a record holds: every backed page clean, with its tag as it stands (R128), and the tokens that a retired command of MX and retired
copies owe: engine 4, and 8 + the channel. -/
def Core.saved (k : Core) : Arch :=
  let tag (p : Nat) (pg : Page) : Page := { pg with dirty := [], lock := k.locked (4096 * p) 4096 }
  { k.arch with
    pages := k.arch.pages.map fun p => (p.1, tag p.1 p.2), delivered := [],
    mx := k.arch.mx.filter (!·.owing),
    owed := (k.copies.filter (·.2.owing)).foldl (fun m c => kset m (8 + c.1) 5)
      (if k.arch.mx.any (·.owing) then kset k.arch.owed 4 6 else k.arch.owed) }

/-- What a record reads: its granules of each structure. -/
def Core.savedGranule (k : Core) (r : Run) (ring : Ring5) (g : Nat) : Bool :=
  match ring with
  | .vrf => decide (g / 64 < r.nvec)
  | .acc => decide (g / 2048 < r.ntile)
  | .twa => true
  | .sp => decide (65536 ≤ g) || (decide (g / 512 < r.npage) && (kfind k.arch.pages (g / 512)).isNone)
  | .queue => decide (g / 128 ≤ 9) || g / 128 == 11

/-- The record reads the task's storage: errors are corrected, and one that cannot be is rung 4 (R218, R232). The Bool: the task goes on. -/
def State.ckptMeet (s : State) (core : Nat) (r : Run) : State × Bool :=
  let rings := [Ring5.vrf, .acc, .twa, .sp, .queue]
  let s := rings.foldl (fun (s : State) x => s.correct core x ((s.core core).savedGranule r x) 0) s
  match rings.findSome? fun x => (s.fatalAt core x ((s.core core).savedGranule r x)).map fun g => (x, g) with
  | none => (s, true)
  | some (x, g) =>
    let t := (s.logFatal core x g 4).abortCore core cUncorrectable (BitVec.ofNat 64 (flawLoc x g)) .counted
    (if inZoneD { ring := x, granule := g, fatal := true } then t.scrubZoneD core else t, false)

/-- The record has no place in the save pool any more: R190 moves to a later row (R195), kill, then drain; where neither is permitted the task is
no candidate, and the reservation and its token return. A slice or a held spawner goes on. -/
def State.ckptNoRoom (s : State) (core : Nat) (r : Run) : State :=
  let s := s.modCore core fun k => { k with ckpt := none }
  let m := s.tcbPolicy r.job r.tcb
  match (s.core core).reserved with
  | none => s
  | some (job, _) =>
    if m % 2 = 0 then s.modCore core fun k => { k with killAt := some s.cycle }
    else if m / 4 % 2 = 0 then s.bump (mRing (dieOf core) + 0x60) 1
    else (s.modJob job fun j => { j with tokens := j.tokens + 1 }).modCore core fun k => { k with reserved := none }

/-- Steps 3 and 4: dirty pages into the quarantine, then the record into the Safety Net; the core is free. -/
def State.finishCkpt (s : State) (core : Nat) : State :=
  let k := s.core core
  match k.run, k.ckpt with
  | some r, some c =>
    if !c.arrived s.cycle then s
    -- V has reached step 1 of TEND first: the request becomes a drain (R191)
    else if k.arch.ended then (s.modCore core fun k => { k with ckpt := none }).bump (mRing (dieOf core) + 0x60) 1
    else if !k.quiet || !s.netFits core 16 || !k.arch.pages.all (fun p => s.writeBackFits core p.2) then s
    else match s.ckptMeet core r with
    | (s, false) => s
    | (s, true) =>
      let home := match s.task r.job r.tcb with | some t => t.home | none => 0
      let size := saveSize r (s.core core).saved
      match s.savePlace home size with
      | none => s.ckptNoRoom core r
      | some pa =>
        let wrote := k.arch.pages.foldl (fun (a : Option State × State) p => match a.1 with
          | none => a
          | some s => if !s.writeBackFits core p.2 then (none, s) else match s.writeBack core p.1 p.2 with
            | (some s, _) => (some (s.cleanPage core p.1), s)
            | (none, s) => (none, s)) (some s, s)
        match wrote with
        | (none, s) => s
        | (some s, _) =>
          let s := s.modTask r.job r.tcb fun t =>
            { t with save := some (s.core core).saved, saveValid := false, savePa := pa, saveLen := size, ckptAt := c.since,
                     ran := t.ran + (s.cycle - r.since) }
          let s := s.netPut core k.arch.seq noClass 16 (.save r.since c.held)
          (s.modCore core Core.vacate).bump (mRing (dieOf core) + 0x58) 1
  | _, _ => s

/-- A kill request arrives (R191): the occupant is aborted and re-queued; it is drained instead where it has reached step 1 of TEND. -/
def State.killArrives (s : State) (core : Nat) : State :=
  let k := s.core core
  let s := s.modCore core fun k => { k with killAt := none }
  if k.arch.ended then s.bump (mRing (dieOf core) + 0x60) 1
  else (s.abortCore core cKill 0 .again).bump (mRing (dieOf core) + 0x50) 1

/-- Requests that have arrived, and checkpoints whose step 2 has ended, go on. -/
def State.settleCkpt (s : State) : State :=
  s.cores.foldl (fun s c =>
    match c.2.killAt with
    | some d => if d + 1 < s.cycle ∨ (d < s.cycle ∧ rPreempt ≤ s.rank) then s.killArrives c.1 else s
    | none => if c.2.ckpt.isSome then s.finishCkpt c.1 else s) s

/-- A record's item leaves the Safety Net (R194): the record is in the pool and valid, and the task is CHECKPOINTED and
ready, or HELD while the class it was to spawn into is in overflow (R188). -/
def State.saveValid (s : State) (job launch tcb : Nat) (held : Option (Nat × Nat)) : State :=
  match s.task job tcb with
  | none => s
  | some t => match t.save with
    | none => s
    | some a =>
      let r : Option Run := (s.launch job launch).map fun l =>
        { exch := false, job := job, launch := launch, index := t.index, tcb := tcb, code := 0, entry := 0,
          nvec := l.vregs, ntile := l.tiles, npage := l.pages, slip := 1, since := 0, icache := [] }
      let s := match r with
        | some r => s.store t.savePa (saveRecord s.cycle r a) .normal
        | none => s
      let s := s.modTask job tcb fun t => { t with saveValid := true }
      match held with
      | none => s.requeue job tcb true
      | some (die, c) =>
        if (s.ring die).overflow.contains c then
          (s.setTcbState job launch tcb tHeld).modTask job tcb fun t => { t with heldFor := some (die, c) }
        else s.requeue job tcb true

end Sys2Proof.Machine
end

