-- ==== Sys2Proof/Machine/MatrixOps.lean ====
section
/-!
DEFINITION. What the commands of the matrix engine compute (spec/05 R99-R119, spec/04 R79-R92, spec/15 R343, R344, R356,
spec/16 R367, R368, R396, R397, spec/17 R429): their checks, what each reads and writes, and their results.
-/

namespace Sys2Proof.Machine

/-! ## Packed elements (R79, R100, R103) -/

/-- Element k of w bits in a packed string of bytes. -/
def packedAt (byte : Nat → Byte) (w k : Nat) : Nat :=
  leNat ((List.range 4).map fun i => byte (w * k / 8 + i)) / 2 ^ (w * k % 8) % 2 ^ w

/-- Elements packed from the first byte's bit 0 on. -/
def packRow (w : Nat) (codes : List Nat) : List Byte :=
  leBytes (w * codes.length / 8) ((codes.zipIdx.map fun c => c.1 * 2 ^ (w * c.2)).sum)

/-- Bytes of an A panel, and of a block image. -/
def panelSize (f : Fmt) : Nat := 128 * f.width
def imageSize (f : Fmt) : Nat := 32 * f.width
/-- Slots of a block. -/
def slotsOf (f : Fmt) : Nat := if f == .bf16 then 2 else 1

/-! ## The loop nest (R111) -/

def LoopLevel.n (l : LoopLevel) : Nat := if l.count = 0 then 1 else l.count.toNat
def LoopLevel.a (l : LoopLevel) : Int := if l.count = 0 then 0 else 64 * l.aStride.toInt
def LoopLevel.b (l : LoopLevel) : Int := if l.count = 0 then 0 else l.bStride.toInt
def LoopLevel.c (l : LoopLevel) : Int := if l.count = 0 then 0 else l.cStride.toInt

def levels (m : MmaCmd) : List LoopLevel := [m.l0, m.l1, m.l2, m.l3, m.l4, m.l5]

def stepsOf (ls : List LoopLevel) : Nat := ls.foldl (fun n l => n * LoopLevel.n l) 1

/-- The indices of step t, L0 first. -/
def indices : List LoopLevel → Nat → List Nat
  | [], _ => []
  | l :: ls, t => t % LoopLevel.n l :: indices ls (t / LoopLevel.n l)

/-- Σ l_n × stride_n. -/
def affine (st : LoopLevel → Int) (ls : List LoopLevel) (is : List Nat) : Int :=
  ((ls.zip is).map fun p => st p.1 * (p.2 : Int)).sum

/-- The least and the greatest value of an affine function over the nest. -/
def corners (st : LoopLevel → Int) (ls : List LoopLevel) : Int × Int :=
  let ends := ls.map fun l => st l * ((LoopLevel.n l - 1 : Nat) : Int)
  ((ends.map fun x => min x 0).sum, (ends.map fun x => max x 0).sum)

/-- Every K index is 0. -/
def firstK (ls : List LoopLevel) (is : List Nat) : Bool := (ls.zip is).all fun p => !p.1.kLevel || p.2 == 0

/-- The K step, counted from 0 in nest order (R104). -/
def kStep : List LoopLevel → List Nat → Nat
  | l :: ls, i :: is => if l.kLevel then i + LoopLevel.n l * kStep ls is else kStep ls is
  | _, _ => 0

def kSteps (ls : List LoopLevel) : Nat := stepsOf (ls.filter (·.kLevel))

def tileAt (m : MmaCmd) (is : List Nat) : Nat := ((m.tile.val : Int) + affine LoopLevel.c (levels m) is).toNat
def dirAt (m : MmaCmd) (is : List Nat) : Nat := ((m.dirBase.toNat : Int) + affine LoopLevel.b (levels m) is).toNat
def panelAt (m : MmaCmd) (is : List Nat) : Nat := ((m.aAddr.toNat : Int) + affine LoopLevel.a (levels m) is).toNat

/-- The formats of an MMA. -/
def fmtA (m : MmaCmd) : Fmt := (Fmt.ofCode m.aFmt.toNat).getD .bf16
def fmtB (m : MmaCmd) : Fmt := (Fmt.ofCode m.bFmt.toNat).getD .bf16

/-- The ragged level's place among L0 to L5. -/
def raggedLevel (m : MmaCmd) : Option Nat := (levels m).findIdx? (·.ragged)

/-! ## Ragged groups (R112, R113) -/

/-- n_g. -/
def groupRows (a : Arch) (m : MmaCmd) (g : Nat) : Nat := leNat (a.spBytes (m.raggedTable.toNat + 2 * g) 2)
def groupStart (a : Arch) (m : MmaCmd) (g : Nat) : Nat := ((List.range g).map (groupRows a m)).sum

/-- The rows of a step, as [lo, hi), and whether rows of its group are clipped. -/
def stepRows (a : Arch) (m : MmaCmd) (is : List Nat) : Nat × Nat × Bool :=
  match raggedLevel m with
  | none => (0, 64, false)
  | some n =>
    let g := is.getD n 0
    let lo := groupStart a m g
    let hi := lo + groupRows a m g
    (min lo 64, min hi 64, decide (64 < hi) && decide (0 < groupRows a m g))

/-- The first group that passes row 64. -/
def raggedOver (a : Arch) (m : MmaCmd) : Option Nat :=
  (List.range m.groups.toNat).find? fun g => decide (64 < groupStart a m g + groupRows a m g)

/-! ## Operands of a chunk (R102-R104) -/

/-- Code and scale of a[i][kk]. -/
def chunkA (a : Arch) (m : MmaCmd) (is : List Nat) (i kk : Nat) : Nat × Nat :=
  let f := fmtA m
  if m.bypass then
    match a.bypass with
    | some b => let k := kStep (levels m) is
                (b.codes.getD (64 * i + 16 * k + kk) 0, (b.scales.getD (4 * (i / 16) + k) 127).toNat)
    | none => (0, 127)
  else
    let at_ := panelAt m is
    let p := ((at_ : Int) - m.aAddr.toNat) / panelSize f
    let scale := if f.isMX then (a.spByte (((m.scaleBase.toNat : Int) + 4 * p).toNat + i / 16)).toNat else 127
    (packedAt (fun b => a.spByte (at_ + b)) f.width (16 * i + kk), scale)

/-- The directory entry of block m of a chunk. -/
def chunkDir (m : MmaCmd) (is : List Nat) (blk : Nat) : Nat := dirAt m is + (if m.transp then 4 * blk else blk)

/-- Code and scale of b[kk][j]; a ZERO block has none of its own. -/
def chunkB (a : Arch) (m : MmaCmd) (is : List Nat) (kk j : Nat) : Nat × Nat × Bool :=
  let f := fmtB m
  let e := a.dir (chunkDir m is (j / 16))
  if e.getLsbD 15 then (0, 127, true)
  else
    let slot := e.toNat % 1024
    let (r, c) := if m.transp then (j % 16, kk) else (kk, j % 16)
    (packedAt (fun b => a.slotByte (256 * slot + b)) f.width (16 * r + c),
      if f.isMX then (a.scaleByte slot).toNat else 127, false)

/-- Reserved integer codes that a chunk reads (R91). -/
def chunkReserved (a : Arch) (m : MmaCmd) (is : List Nat) (lo hi : Nat) : Nat :=
  let ra := ((List.range (hi - lo)).flatMap fun i => (List.range 16).map fun kk => (chunkA a m is (lo + i) kk).1).filter
    (isReserved (fmtA m))
  let rb := ((List.range 16).flatMap fun kk => (List.range 64).map fun j => chunkB a m is kk j).filter
    fun x => !x.2.2 && isReserved (fmtB m) x.1
  ra.length + rb.length

/-- One element of a chunk step (R82). -/
def chunkElem (a : Arch) (m : MmaCmd) (is : List Nat) (i j : Nat) (acc : W32) : W32 :=
  let fa := fmtA m
  let fb := fmtB m
  let xv := m.xv.toNat
  let ps := (List.range 16).map fun kk =>
    let x := chunkA a m is i kk
    let y := chunkB a m is kk j
    (mulVal (decodeElem fa x.1 x.2 xv) (decodeElem fb y.1 y.2.1 xv)).1
  accumulate acc (chunkSum (fa == .bf16 || fb == .bf16) ps)

/-- A step of the nest. fresh: the command has not yet visited the tile. -/
def mmaStep (m : MmaCmd) (a : Arch) (t : Nat) (fresh : Bool) : Arch :=
  let is := indices (levels m) t
  let z := tileAt m is
  let (lo, hi, clip) := stepRows a m is
  if hi ≤ lo ∧ clip = false then a
  else
    let old := a.tile z
    let start := m.overwrite && firstK (levels m) is
    let base : Tile := if fresh && m.overwrite then { old with count := 0, clip := false } else old
    let data := (List.range 4096).map fun k =>
      let x := base.data.getD k 0
      if lo ≤ k / 64 ∧ k / 64 < hi then chunkElem a m is (k / 64) (k % 64) (if start then 0x80000000#32 else x) else x
    let count := if lo < hi then min 32767 (base.count.toNat + chunkReserved a m is lo hi) else base.count.toNat
    a.setTile z { data := data, count := BitVec.ofNat 15 count, clip := base.clip || clip }

/-- An MMA (R367). The tiles that it has visited are those whose step has written. -/
def mmaRun (m : MmaCmd) (a : Arch) : Arch :=
  ((List.range (stepsOf (levels m))).foldl (fun (x : Arch × NSet) t =>
    let is := indices (levels m) t
    let z := tileAt m is
    let (lo, hi, clip) := stepRows a m is
    if hi ≤ lo ∧ clip = false then x
    else (mmaStep m x.1 t (!x.2.contains z), nins x.2 z)) (a, [])).1

/-- Tiles that an MMA visits in nest order, with whether the first visit falls at a step whose K indices are 0 (R222). -/
def mmaTiles (m : MmaCmd) : KMap Bool :=
  (List.range (stepsOf (levels m))).foldl (fun (x : KMap Bool) t =>
    let is := indices (levels m) t
    let z := tileAt m is
    if (kfind x z).isSome then x else kset x z (firstK (levels m) is)) []

/-- Directory entries that an MMA reads. -/
def mmaDirs (m : MmaCmd) : NSet :=
  (List.range (stepsOf (levels m))).foldl (fun x t =>
    (List.range 4).foldl (fun x b => nins x (chunkDir m (indices (levels m) t) b)) x) []

/-! ## DRAIN (R88-R92, R114, R115, R343) -/

def drainFmt (d : DrainCmd) : Fmt := (Fmt.ofCode d.fmt.toNat).getD .fp32
def drainMode (d : DrainCmd) : RMode := (RMode.ofCode d.rnd.toNat).getD .rne
/-- Data bytes, and the offset of the status word (R90). -/
def dataBytes (f : Fmt) : Nat := 512 * f.width
def statusOff (f : Fmt) : Nat := dataBytes f + (if f.isMX then 16 else 0)
/-- Columns that the drain converts. -/
def drainCols (d : DrainCmd) : Nat := if d.frozen && !d.toBypass then d.frozenCols.toNat else 64

/-- The scale of block (bi, bj) of a tile. -/
def tileScale (f : Fmt) (t : Tile) (bi bj : Nat) : Nat :=
  if f.isMX then
    blockScale f ((List.range 256).map fun k => t.at_ (16 * bi + k / 16) (16 * bj + k % 16))
  else 127

/-- The scales of a tile, row-major by block. -/
def tileScales (f : Fmt) (t : Tile) : List Nat := (List.range 16).map fun b => tileScale f t (b / 4) (b % 4)

/-- The codes of the first cols columns, row by row, with the NaN and overflow counts. -/
def drainRows (f : Fmt) (rm : RMode) (t : Tile) (cols : Nat) (key : Nat → Nat → W32) : List (List (Nat × Bool × Bool)) :=
  let ss := tileScales f t
  (List.range 64).map fun i => (List.range cols).map fun j =>
    drainElem (t.at_ i j) f rm (ss.getD (4 * (i / 16) + j / 16) 127) (key i j)

/-- The random word of an element (R92). -/
def drainKey (seed : W32) (d : DrainCmd) (serial : BitVec 16) (i j : Nat) : W32 :=
  mix32 seed (BitVec.ofNat 32 (d.row0.toNat + i))
    (BitVec.ofNat 32 (d.col0.toNat + j) ^^^ BitVec.ofNat 32 (serial.toNat * 2 ^ 16))

/-- The status word (R91). -/
def drainStatus (t : Tile) (serial : BitVec 16) (rows : List (List (Nat × Bool × Bool))) : Word :=
  let count (p : Nat × Bool × Bool → Bool) : Nat := min 65535 (rows.map fun r => (r.filter p).length).sum
  BitVec.ofNat 64 (serial.toNat * 2 ^ 48 + t.clip.toNat * 2 ^ 47 + t.count.toNat * 2 ^ 32 +
    count (·.2.1) * 2 ^ 16 + count (·.2.2))

/-- What a DRAIN writes to the scratchpad, as offset and bytes, and the bypass it leaves. -/
def drainOut (a : Arch) (serial : BitVec 16) (seed : W32) (d : DrainCmd) : List (Nat × List Byte) × Option Bypass :=
  let f := drainFmt d
  let w := f.width
  let t := a.tile d.tile.val
  let rows := drainRows f (drainMode d) t (drainCols d) (drainKey seed d serial)
  let ss := tileScales f t
  let st := bytesOf 8 (drainStatus t serial rows).toNat
  let copy := if d.statusCopy then [(d.statusAddr.toNat, st)] else []
  if d.toBypass then
    (copy, some { fmt := f, codes := rows.flatMap fun r => r.map (·.1), scales := ss.map (BitVec.ofNat 8) })
  else
    let at_ := d.addr.toNat
    let data := rows.zipIdx.map fun r => (at_ + 8 * w * r.2, packRow w (r.1.map (·.1)))
    let scales := if f.isMX then
        (List.range 16).filterMap fun b =>
          if 16 * (b % 4) < drainCols d then some (at_ + dataBytes f + b, [BitVec.ofNat 8 (ss.getD b 127)]) else none
      else []
    (data ++ scales ++ [(at_ + statusOff f, st)] ++ copy, a.bypass)

/-! ## TWFILL (R117) -/

def fillFmt (t : TwfillCmd) : Fmt := (Fmt.ofCode t.fmt.toNat).getD .bf16

/-- Blocks j below n that are not elided. -/
def fillBlocks (t : TwfillCmd) : List Nat := (List.range t.blocks.toNat).filter fun j => !bitAt t.zeroMask j

/-- The slot of each block that is not elided. -/
def fillSlots (t : TwfillCmd) : List (Nat × Nat) :=
  (fillBlocks t).zipIdx.map fun p => (p.1, t.firstSlot.toNat + slotsOf (fillFmt t) * p.2)

def twfillRun (t : TwfillCmd) (a : Arch) : Arch :=
  let f := fillFmt t
  let zero := (List.range t.blocks.toNat).filter fun j => bitAt t.zeroMask j
  let a := zero.foldl (fun a j => { a with dirs := kset a.dirs (t.firstDir.toNat + j) 0x8000 }) a
  (fillSlots t).foldl (fun a p =>
    let bs := a.spBytes (t.src.toNat + imageSize f * p.1) (imageSize f)
    { a with
      slots := putBytes a.slots (256 * p.2) bs,
      scales := if f.isMX then kset a.scales p.2 (a.spByte (t.scaleSrc.toNat + p.1)) else a.scales,
      dirs := kset a.dirs (t.firstDir.toNat + p.1) (BitVec.ofNat 16 p.2) }) a

/-! ## KAT (R118) -/

def katFmt (k : KatCmd) : Fmt := (Fmt.ofCode k.fmtA.toNat).getD .bf16

/-- CRC-64/ECMA-182: no reflection, initial value 0. -/
def crc64Byte (c : Word) (b : Byte) : Word :=
  (List.range 8).foldl (fun c _ => if c.getLsbD 63 then (c <<< 1) ^^^ 0x42F0E1EBA9EA3693#64 else c <<< 1)
    (c ^^^ (b.setWidth 64 <<< 56))

/-- The hidden tile: a 64 × 64 × 64 product of a constant set of the image that was booted. -/
def katTile (image : Option (List Byte)) (f : Fmt) (set : Nat) : Tile :=
  let elem (isB : Bool) (r c : Nat) : Val :=
    decodeElem f (Config.katConst image set isB (64 * r + c) % 2 ^ f.width)
      (if f.isMX then (Config.katScale image set isB (4 * (r / 16) + c / 16)).toNat else 127) 0
  let data := (List.range 4096).map fun k =>
    (List.range 4).foldl (fun acc t => accumulate acc (chunkSum (f == .bf16) ((List.range 16).map fun kk =>
      (mulVal (elem false (k / 64) (16 * t + kk)) (elem true (16 * t + kk) (k % 64))).1))) 0x80000000#32
  { data := data, count := 0, clip := false }

/-- The signature: the drained bytes, data then scales, folded. -/
def katFold (image : Option (List Byte)) (k : KatCmd) : Word :=
  let f := katFmt k
  let t := katTile image f k.set.toNat
  let rows := drainRows f .rne t 64 fun _ _ => 0
  let bytes := (rows.flatMap fun r => packRow f.width (r.map (·.1))) ++
    (if f.isMX then (tileScales f t).map (BitVec.ofNat 8) else [])
  bytes.foldl crc64Byte 0

/-! ## What a command reads and writes -/

/-- The plan of a command: scratchpad ranges that it reads and that it writes, tiles, directory entries and slots. -/
structure MxPlan where
  reads : List (Nat × Nat)
  outs : List (Nat × Nat)
  tilesR : NSet
  tilesW : NSet
  starts : NSet
  dirsR : NSet
  slotsR : NSet
  dirsW : NSet
  slotsW : NSet
  steps : Nat
  /-- A DRAIN that writes its output to the scratchpad. -/
  drains : Bool
  /-- It locks what it reads (R224). -/
  locks : Bool
  /-- It reads the bypass, or writes it; it reads through the operand staging (R104, R114, R218). -/
  bypassR : Bool
  bypassW : Bool
  staged : Bool
  deriving DecidableEq, Repr

def MxPlan.none : MxPlan :=
  { reads := [], outs := [], tilesR := [], tilesW := [], starts := [], dirsR := [], slotsR := [], dirsW := [],
    slotsW := [], steps := 1, drains := false, locks := false, bypassR := false, bypassW := false, staged := false }

def rangeOf (lo n : Nat) : List (Nat × Nat) := if n = 0 then [] else [(lo, n)]

def mmaPlan (a : Arch) (m : MmaCmd) : MxPlan :=
  let ls := levels m
  let f := fmtA m
  let (lo, hi) := corners LoopLevel.a ls
  let base : Int := m.aAddr.toNat
  let p0 := lo / panelSize f
  let p1 := hi / panelSize f
  let tiles := mmaTiles m
  let dirs := mmaDirs m
  let slots := dirs.foldl (fun x d =>
    let e := a.dir d
    if e.getLsbD 15 then x else (List.range (slotsOf (fmtB m))).foldl (fun x i => nins x (e.toNat % 1024 + i)) x) []
  { MxPlan.none with
    reads := (if m.bypass then [] else
        rangeOf (base + lo).toNat ((hi - lo).toNat + panelSize f) ++
        (if f.isMX then rangeOf ((m.scaleBase.toNat : Int) + 4 * p0).toNat (4 * (p1 - p0).toNat + 4) else [])) ++
      (if (raggedLevel m).isSome then rangeOf m.raggedTable.toNat (2 * m.groups.toNat) else []),
    tilesR := (tiles.filter fun t => !(t.2 && m.overwrite)).map (·.1),
    tilesW := tiles.map (·.1),
    starts := (tiles.filter fun t => t.2 && m.overwrite).map (·.1),
    dirsR := dirs, slotsR := slots, steps := stepsOf ls, locks := true, bypassR := m.bypass, staged := true }

def drainPlan (d : DrainCmd) : MxPlan :=
  let f := drainFmt d
  { MxPlan.none with
    outs := (if d.toBypass then [] else [(d.addr.toNat, statusOff f + 8)]) ++
      (if d.statusCopy then [(d.statusAddr.toNat, 8)] else []),
    tilesR := [d.tile.val], drains := !d.toBypass, bypassW := d.toBypass }

def twfillPlan (t : TwfillCmd) : MxPlan :=
  let f := fillFmt t
  let last := (fillBlocks t).getLast?
  { MxPlan.none with
    reads := rangeOf t.src.toNat (imageSize f * t.blocks.toNat) ++ (match last with
      | some j => if f.isMX then [(t.scaleSrc.toNat, j + 1)] else []
      | none => []),
    dirsW := (List.range t.blocks.toNat).map (t.firstDir.toNat + ·),
    slotsW := (fillSlots t).flatMap fun p => (List.range (slotsOf f)).map (p.2 + ·),
    locks := true }

/-- KAT runs four steps. A DRAIN, ZACC or TWFILL, and KAT, have no nest for R121's steps: the first three are charged as one step (DESIGN CHOICE, log
entry 62). -/
def katPlan (h : EcbHead) (k : KatCmd) : MxPlan :=
  { MxPlan.none with outs := if h.katCmp then [] else [(k.sigAddr.toNat, 8)], steps := 4 }

def mxPlan (a : Arch) : Instr → MxPlan
  | .mma _ m => mmaPlan a m
  | .drain _ d => drainPlan d
  | .zacc _ z => { MxPlan.none with tilesW := [z.val], starts := [z.val] }
  | .twfill _ t => twfillPlan t
  | .kat h k => katPlan h k
  | _ => MxPlan.none

/-! ## The checks (R110): the slot of the first failure, lowest slot first -/

def firstBad (l : List (Nat × Bool)) : Option Nat := (l.find? (·.2)).map (·.1)

/-- A format code that is not in a set of formats. -/
def fmtBad (p : Fmt → Bool) (code : Nat) : Bool := match Fmt.ofCode code with | some f => !p f | none => true

/-- A range that leaves the declared pages. -/
def outside (r : Run) (lo : Int) (n : Nat) : Bool := decide (lo < 0) || decide ((4096 * r.npage : Nat) < lo + n)

def mmaBad (r : Run) (a : Arch) (h : EcbHead) (m : MmaCmd) : Option Nat :=
  let ls := levels m
  let f := fmtA m
  let base : Int := m.aAddr.toNat
  let (lo, hi) := corners LoopLevel.a ls
  let (d0, d1) := corners LoopLevel.b ls
  let (z0, z1) := corners LoopLevel.c ls
  let p0 := lo / panelSize f
  let p1 := hi / panelSize f
  let span := (hi - lo).toNat + panelSize f
  let ragged := ls.zipIdx.filter (·.1.ragged)
  let badA : Bool :=
    if m.bypass then match a.bypass with
      | none => true
      | some b => b.fmt != f || kSteps ls != 4
    else
      outside r (base + lo) span || m.aAddr.toNat % 64 != 0 ||
      (f.isMX && (ls.any (fun l => decide (1 < LoopLevel.n l) && LoopLevel.a l % (panelSize f : Int) != 0) ||
        outside r ((m.scaleBase.toNat : Int) + 4 * p0) (4 * (p1 - p0).toNat + 4)))
  let dtop : Int := if m.transp then 12 else 3
  firstBad ([
    (0, h.role.toNat == 3),
    (3, fmtBad Fmt.isMatrix m.aFmt.toNat || badA),
    (4, fmtBad Fmt.isMatrix m.bFmt.toNat || decide ((m.dirBase.toNat : Int) + d0 < 0) ||
      decide (1023 < (m.dirBase.toNat : Int) + d1 + dtop)),
    (5, decide ((m.tile.val : Int) + z0 < 0) || decide ((r.ntile : Int) ≤ m.tile.val + z1))] ++
    (ragged.map fun l => (6 + l.2, decide (1 < ragged.length) || l.1.count.toNat != m.groups.toNat || m.groups == 0)) ++
    [(12, !ragged.isEmpty && (m.raggedTable.toNat % 2 != 0 || outside r m.raggedTable.toNat (2 * m.groups.toNat)))])

def drainBad (r : Run) (h : EcbHead) (d : DrainCmd) : Option Nat :=
  let f := drainFmt d
  firstBad [
    (0, h.role.toNat == 3),
    (5, fmtBad Fmt.isDrain d.fmt.toNat || decide (6 ≤ d.rnd.toNat) || d.addr.toNat % 64 != 0 ||
      decide (r.ntile ≤ d.tile.val) || (!d.toBypass && outside r d.addr.toNat (statusOff f + 8)) ||
      (d.toBypass && (fmtBad Fmt.isMatrix d.fmt.toNat || !d.statusCopy))),
    (12, d.frozen && (d.frozenCols.toNat % 16 != 0 || decide (64 < d.frozenCols.toNat))),
    (13, d.statusCopy && (d.statusAddr.toNat % 8 != 0 || outside r d.statusAddr.toNat 8))]

def twfillBad (r : Run) (h : EcbHead) (t : TwfillCmd) : Option Nat :=
  let f := fillFmt t
  let n := t.blocks.toNat
  let used := (fillBlocks t).length
  let last := match (fillBlocks t).getLast? with | some j => j + 1 | none => 0
  firstBad [
    (0, h.role.toNat == 3),
    (3, fmtBad Fmt.isMatrix t.fmt.toNat || t.src.toNat % 64 != 0 || outside r t.src.toNat (imageSize f * n) ||
      (f.isMX && decide (0 < last) && outside r t.scaleSrc.toNat last)),
    (4, decide (1023 < t.firstDir.toNat + n - 1)),
    (6, decide (n = 0) || decide (64 < n)),
    (12, (f == .bf16 && t.firstSlot.toNat % 2 != 0) ||
      (decide (0 < used) && decide (1024 < t.firstSlot.toNat + slotsOf f * used))),
    (13, decide (t.zeroMask.toNat ≥ 2 ^ n))]

def katBad (r : Run) (h : EcbHead) (k : KatCmd) : Option Nat :=
  firstBad [
    (0, h.role.toNat != 2),
    (3, fmtBad Fmt.isMatrix k.fmtA.toNat),
    (4, k.fmtB != k.fmtA),
    (5, k.fmtD != k.fmtA),
    (13, if h.katCmp then k.sigAddr != 0 else k.sigAddr.toNat % 8 != 0 || outside r k.sigAddr.toNat 8)]

def mxBad (r : Run) (a : Arch) : Instr → Option Nat
  | .mma h m => mmaBad r a h m
  | .drain h d => drainBad r h d
  | .zacc h z => firstBad [(0, h.role.toNat == 3), (5, decide (r.ntile ≤ z.val))]
  | .twfill h t => twfillBad r h t
  | .kat h k => katBad r h k
  | _ => none

/-- RAGGED_BOUNDS: the first group of a strict MMA that passes row 64 (R113). -/
def mxRagged (a : Arch) : Instr → Option Nat
  | .mma h m => if h.strict && (raggedLevel m).isSome then raggedOver a m else none
  | _ => none

/-! ## The result of a command -/

/-- Apply a command to a core of a device that booted an image: tiles, TWA, bypass, scratchpad. -/
def Core.mxApply (k : Core) (image : Option (List Byte)) (x : Ecb) : Instr → Core
  | .mma _ m => { k with arch := mmaRun m k.arch }
  | .drain h d =>
    let (outs, b) := drainOut k.arch h.tag x.seed d
    let k := outs.foldl (fun k o => k.put o.1 o.2) k
    { k with arch := { k.arch with bypass := b } }
  | .zacc _ z => { k with arch := k.arch.setTile z.val { data := List.replicate 4096 0, count := 0, clip := false } }
  | .twfill _ t => { k with arch := twfillRun t k.arch }
  | .kat h c => if h.katCmp then k else k.put c.sigAddr.toNat (bytesOf 8 (katFold image c).toNat)
  | _ => k

end Sys2Proof.Machine
end

