-- ==== Sys2Proof/Machine/NearMem.lean ====
section
/-!
DEFINITION. The near-memory units (spec/12, spec/16 R372, R373, spec/07 R171, R172): arrival, the checks at start, NMATT, NMOPT and
NMXG, undo and log records, completion, and ordinary accesses against an open row.
-/

namespace Sys2Proof.Machine

/-! ## Ranges and their translation (R261, R262) -/

/-- Where the frames of a range must lie. -/
inductive Place where
  | any | stack | own
  deriving DecidableEq, Repr

structure NmRange where
  va : Nat
  n : Nat
  write : Bool
  place : Place
  /-- The command reads it; what it writes it may read too. -/
  reads : Bool := true
  deriving DecidableEq, Repr

def dieOfNmu (nmu : Nat) : Nat := nmu / 64

def Place.ok (p : Place) (nmu pa : Nat) : Bool :=
  match p with
  | .any => inMem pa
  | .stack => inHbm pa && nmuOf pa / 32 == nmu / 32
  | .own => inHbm pa && nmuOf pa == nmu

/-- The pages of a range. -/
def NmRange.pages (r : NmRange) : List Nat :=
  if r.n = 0 then [] else (List.range ((r.va + r.n - 1) / 4096 + 1 - r.va / 4096)).map (r.va / 4096 + ·)

/-- What is wrong with a command: ECB_ILLEGAL with its slot, or a page. -/
inductive NmBad where
  | slot (n : Nat)
  | page (f : XlFail) (va : Nat)
  deriving DecidableEq, Repr

/-- What the translation of ranges finds: the pages that translate, the first that is absent, the first that is misplaced or not
permitted, and the first whose PTE cannot be read. -/
structure NmXl where
  s : State
  pages : KMap (Nat × Bool)
  page : Option Nat
  prot : Option Nat
  bad : Option Nat

/-- Translate one page of a range. -/
def NmXl.one (nmu job : Nat) (r : NmRange) (a : NmXl) (p : Nat) : NmXl :=
  let va := 4096 * p
  let (s, x) := a.s.translate none (dieOfNmu nmu) job va (if r.write then .nmWrite else .nmRead)
  match x with
  | .ok x => { a with s := s, pages := kset a.pages p (x.pa, x.uncached),
                      prot := if r.place.ok nmu x.pa then a.prot else some (a.prot.getD va) }
  | .error .page => { a with s := s, page := some (a.page.getD va) }
  | .error .prot => { a with s := s, prot := some (a.prot.getD va) }
  | .error .bad => { a with s := s, bad := some (a.bad.getD va) }

def NmXl.all (nmu job : Nat) (a : NmXl) (rs : List NmRange) : NmXl :=
  rs.foldl (fun a r => r.pages.foldl (NmXl.one nmu job r) a) a

def NmXl.start (s : State) : NmXl := { s := s, pages := [], page := none, prot := none, bad := none }

/-- The failure that R262 ranks first: an absent page, then placement and permission, then a PTE that cannot be read. -/
def NmXl.failure (a : NmXl) : Option NmBad :=
  match a.page, a.prot, a.bad with
  | some va, _, _ => some (.page .page va)
  | none, some va, _ => some (.page .prot va)
  | none, none, some va => some (.page .bad va)
  | none, none, none => none

/-- Translate every page of the ranges. -/
def State.nmTranslate (s : State) (nmu job : Nat) (rs : List NmRange) : State × KMap (Nat × Bool) × Option NmBad :=
  let a := NmXl.all nmu job (NmXl.start s) rs
  (a.s, a.pages, a.failure)

/-- The physical address of a VA whose page has translated. -/
def pagePa (pages : KMap (Nat × Bool)) (va : Nat) : Nat :=
  match kfind pages (va / 4096) with | some p => p.1 + va % 4096 | none => 0

def pageUncached (pages : KMap (Nat × Bool)) (va : Nat) : Bool :=
  match kfind pages (va / 4096) with | some p => p.2 | none => false

/-- The physical spans of [va, va + n), page by page. -/
def pageSpans (pages : KMap (Nat × Bool)) (va n : Nat) : List (Nat × Nat) :=
  if n = 0 then []
  else (List.range ((va + n - 1) / 4096 + 1 - va / 4096)).map fun p =>
    let lo := max va ((va / 4096 + p) * 4096)
    (pagePa pages lo, min (va + n) ((va / 4096 + p) * 4096 + 4096) - lo)

/-- The access of a command to [va, va + n), of two pages at most. -/
def pageXl (pages : KMap (Nat × Bool)) (va : Nat) : Xl :=
  let next := (va / 4096 + 1) * 4096
  { pa := pagePa pages va, pa2 := pagePa pages next, uncached := pageUncached pages va, uncached2 := pageUncached pages next }

/-- The dirty sectors within a read range are written back (R172). -/
def State.nmClean (s : State) (pages : KMap (Nat × Bool)) (r : NmRange) : State :=
  let spans := pageSpans pages r.va r.n
  let clean (line : Nat) (x : Sector × Nat) : Sector :=
    let pa := 128 * line + 32 * x.2
    if spans.any fun y => decide (y.1 < pa + 32) && decide (pa < y.1 + y.2) then { x.1 with dirty := false } else x.1
  { s with l2 := s.l2.map fun l => (l.1, { l.2 with sectors := l.2.sectors.zipIdx.map (clean l.1) }) }

/-- A range touches a poisoned sector (R225). -/
def State.nmPoisoned (s : State) (pages : KMap (Nat × Bool)) (r : NmRange) : Bool :=
  r.reads && (pageSpans pages r.va r.n).any fun x => s.poisoned x.1 x.2

/-- The first poisoned sector of what a command reads. -/
def State.nmPoisonAt (s : State) (pages : KMap (Nat × Bool)) (rs : List NmRange) : Nat :=
  ((rs.filter (·.reads)).findSome? fun r => (pageSpans pages r.va r.n).findSome? fun x =>
    ((List.range ((x.1 + x.2 - 1) / 32 + 1 - x.1 / 32)).map fun i => 32 * (x.1 / 32 + i)).find? fun pa => s.poisoned pa 32).getD 0

/-- The latent errors of what a range reads are met. -/
def State.nmMeet (s : State) (pages : KMap (Nat × Bool)) (r : NmRange) : State :=
  if !r.reads then s else (pageSpans pages r.va r.n).foldl (fun s x => s.meetFlaws 0 x.1 x.2) s

/-! ## Global memory as a command sees it -/

/-- Memory by physical address, the command's pages, and what the command has written so far, the last write first. -/
structure NmMem where
  rd : Nat → Byte
  pages : KMap (Nat × Bool)
  laid : KMap Byte
  out : List (Nat × List Byte)

/-- latched: sectors that the command has read before (R172). -/
def State.nmMem (s : State) (latched : KMap Byte) (pages : KMap (Nat × Bool)) : NmMem :=
  { rd := fun pa => match kfind latched pa with | some b => b | none => Memory.read s.mem pa, pages := pages, laid := [], out := [] }

def NmMem.byte (m : NmMem) (va : Nat) : Byte :=
  let pa := pagePa m.pages va
  match kfind m.laid pa with | some b => b | none => m.rd pa

def NmMem.nat (m : NmMem) (va n : Nat) : Nat := leNat ((List.range n).map fun i => m.byte (va + i))
def NmMem.f32 (m : NmMem) (va : Nat) : W32 := BitVec.ofNat 32 (m.nat va 4)

/-- Write bytes at a VA. -/
def NmMem.put (m : NmMem) (va : Nat) (bs : List Byte) : NmMem :=
  let spans := pageSpans m.pages va bs.length
  let parts := spans.foldl (fun (a : List (Nat × List Byte) × List Byte) x => (a.1 ++ [(x.1, a.2.take x.2)], a.2.drop x.2)) ([], bs)
  { m with laid := parts.1.foldl (fun o p => putBytes o p.1 p.2) m.laid, out := parts.1.reverse ++ m.out }

/-- The writes of a command in order. -/
def NmMem.writes (m : NmMem) : List (Nat × List Byte) := m.out.reverse

/-! ## Fields (R263, R265, R270) -/

/-- The slot of the first field outside its limits. bound: an NMU-bound task's command. npage: the declared pages. -/
def nmFields (bound : Bool) (npage : Nat) (h : EcbHead) : Instr → Option Nat
  | .nmatt _ a => firstBad [
      (1, bound && h.wait != 0), (2, bound && h.signal != 0),
      (3, a.query.toNat % 64 != 0), (4, a.table.toNat % 8 != 0),
      (5, a.dest.toNat % 64 != 0 || (!a.toGlobal &&
        (bound || decide (2 ^ 19 ≤ a.dest.toNat) || decide (4096 * npage < a.dest.toNat + 4 * (a.dim.toNat + 2))))),
      (6, a.dim.toNat % 16 != 0 || decide (a.dim.toNat < 16) || decide (256 < a.dim.toNat) || a.tokens == 0)]
  | .nmopt _ o =>
      let f := (Fmt.ofCode o.fmt.toNat).getD .bf16
      let sgd := o.alg == 0
      let c := o.cols.toNat
      let unit := if f.isMX then 16 * c else c
      firstBad [
        (1, bound && h.wait != 0), (2, bound && h.signal != 0),
        (3, decide (1 < o.alg.toNat) || o.w.toNat % 64 != 0), (4, o.m1.toNat % 64 != 0),
        (5, o.m2.toNat % 64 != 0 || (sgd && o.m2 != 0)), (6, o.g.toNat % 64 != 0),
        (7, fmtBad Fmt.isMatrix o.fmt.toNat || o.narrow.toNat % 64 != 0),
        (8, c % 16 != 0 || decide (c < 16) || o.n.toNat % unit != 0), (9, o.arrive.toNat % 8 != 0),
        (11, sgd && o.c1 != 0), (12, sgd && (o.c2 != 0 || o.beta2 != 0)), (13, sgd && (o.b2 != 0 || o.b1 != 0))]
  | .nmxg _ x => firstBad [
      (1, bound && h.wait != 0), (2, bound && h.signal != 0),
      (3, x.list.toNat % 16 != 0), (4, x.count == 0 || decide (256 < x.count.toNat))]
  | _ => none

def nmHead : Instr → EcbHead
  | .nmatt h _ | .nmopt h _ | .nmxg h _ => h
  | _ => default

/-- The primary range's first byte (R261), which the image names wherever its fields lie. -/
def nmPrimary (slots : List Word) : Nat :=
  if (ecbSlot slots 0).field 0 8 = 0x21 then (ecbSlot slots 4).field 0 48 else (ecbSlot slots 3).field 0 48

/-- The NMU that owns a command; a primary range that is not in HBM4E has none, and NMU 0 checks it (DESIGN CHOICE, log entry 11). -/
def State.nmOwner (s : State) (job : Nat) (slots : List Word) : Nat :=
  match s.paOf job (nmPrimary slots) with
  | some pa => if inHbm pa then nmuOf pa else 0
  | none => 0

/-! ## Ranges of each command -/

/-- Bytes of a narrow copy: data, scales, status word (R266). -/
def narrowSize (f : Fmt) (n : Nat) : Nat := n * f.width / 8 + (if f.isMX then n / 256 else 0) + 8

/-- The ranges that the fields alone give. -/
def nmRanges : Instr → List NmRange
  | .nmatt _ a =>
      [{ va := a.query.toNat, n := 2 * a.dim.toNat, write := false, place := .any },
       { va := a.table.toNat, n := 8 * ceilDiv a.tokens.toNat 64, write := false, place := .stack }] ++
      (if a.toGlobal then [{ va := a.dest.toNat, n := 4 * (a.dim.toNat + 2), write := true, place := .any, reads := false }] else [])
  | .nmopt _ o =>
      let n := o.n.toNat
      [{ va := o.w.toNat, n := 4 * n, write := true, place := .own },
       { va := o.m1.toNat, n := 4 * n, write := true, place := .own }] ++
      (if o.alg == 0 then [] else [{ va := o.m2.toNat, n := 4 * n, write := true, place := .own }]) ++
      [{ va := o.g.toNat, n := 4 * n, write := false, place := .own },
       { va := o.narrow.toNat, n := narrowSize ((Fmt.ofCode o.fmt.toNat).getD .bf16) n, write := true, place := .own,
         reads := false },
       { va := o.arrive.toNat, n := 8, write := false, place := .own }]
  | .nmxg _ x => [{ va := x.list.toNat, n := 16 * x.count.toNat, write := false, place := .any }]
  | _ => []

/-- The block-table entries of an NMATT. -/
def NmMem.table (m : NmMem) (a : NmattCmd) : List Nat :=
  (List.range (ceilDiv a.tokens.toNat 64)).map fun p => m.nat (a.table.toNat + 8 * p) 8

/-- An entry of an NMXG list: target, source, length in bytes; none for a field outside its limits. -/
def NmMem.entry (m : NmMem) (va : Nat) : Option (Nat × Nat × Nat) :=
  let t := m.nat va 8
  let u := m.nat (va + 8) 8
  let src := u % 2 ^ 48
  let len := u / 2 ^ 48
  if t ≥ 2 ^ 48 ∨ t % 64 ≠ 0 ∨ src % 64 ≠ 0 ∨ len < 1 ∨ 32 < len then none else some (t, src, 64 * len)

def NmMem.entries (m : NmMem) (x : NmxgCmd) : List (Option (Nat × Nat × Nat)) :=
  (List.range x.count.toNat).map fun i => m.entry (x.list.toNat + 16 * i)

/-- The ranges that the command's table or list names, or the slot that is wrong. -/
def NmMem.named (m : NmMem) : Instr → Except Nat (List NmRange)
  | .nmatt _ a =>
      let es := m.table a
      if es.any fun e => e % 65536 != 0 || decide (2 ^ 48 ≤ e) then .error 4
      else .ok (es.zipIdx.flatMap fun e =>
        let k := min 64 (a.tokens.toNat - 64 * e.2)
        [{ va := e.1, n := 2 * a.dim.toNat * k, write := false, place := .stack },
         { va := e.1 + 32768, n := 2 * a.dim.toNat * k, write := false, place := .stack }])
  | .nmxg _ x =>
      let es := m.entries x
      if es.any Option.isNone then .error 3
      else .ok ((es.filterMap id).flatMap fun e =>
        [{ va := e.1, n := e.2.2, write := true, place := .stack }, { va := e.2.1, n := e.2.2, write := false, place := .any }])
  | _ => .ok []

/-- Bytes that one channel receives from a group. -/
def NmMem.share (m : NmMem) (x : NmxgCmd) (nmu : Nat) : Nat :=
  ((m.entries x).filterMap id).foldl (fun a e =>
    a + ((List.range (e.2.2 / 64)).filter fun k => nmuOf (pagePa m.pages (e.1 + 64 * k)) == nmu).length * 64) 0

/-- No channel may receive more than 64 KiB from one group (R270). -/
def NmMem.tooMuch (m : NmMem) : Instr → Bool
  | .nmxg _ x => ((m.entries x).filterMap id).any fun e =>
      (List.range (e.2.2 / 64)).any fun k => decide (65536 < m.share x (nmuOf (pagePa m.pages (e.1 + 64 * k))))
  | _ => false

/-- The checks of R262 in order: fields, translation of every page that the command can touch, placement. What a table or list names can
be checked only where it can be read. The answer: the ranges and the pages. -/
def State.nmCheck (s : State) (nmu job : Nat) (bound : Bool) (npage : Nat) (i : Instr) :
    State × Except NmBad (List NmRange × KMap (Nat × Bool)) :=
  match nmFields bound npage (nmHead i) i with
  | some n => (s, .error (.slot n))
  | none =>
    let a := NmXl.all nmu job (NmXl.start s) (nmRanges i)
    let readable := (nmRanges i).all fun r => r.write || r.pages.all fun p => (kfind a.pages p).isSome
    match a.page, (if readable then (a.s.nmMem [] a.pages).named i else .ok []) with
    | some va, _ => (a.s, .error (.page .page va))
    | none, .error n => (a.s, .error (.slot n))
    | none, .ok rs =>
      let b := NmXl.all nmu job a rs
      match b.failure with
      | some f => (b.s, .error f)
      | none => if (b.s.nmMem [] b.pages).tooMuch i then (b.s, .error (.slot 3)) else (b.s, .ok (nmRanges i ++ rs, b.pages))

/-! ## Writes with their undo records (R268, R373) -/

/-- The state, the granules written so far, the command's undo records newest first, and whether an undo area was full. -/
structure NmAcc where
  s : State
  seen : NSet
  undo : List Undo
  full : Bool

/-- Write bytes at a physical address; each granule is kept, and logged under an open step, before it first changes. -/
def NmAcc.put (job launch tcb : Nat) (a : NmAcc) (pa : Nat) (bs : List Byte) : NmAcc :=
  if a.full then a
  else
    let ws := bs.zipIdx.map fun b => (pa + b.2, b.1)
    let new := (granulesOf ws).filter fun g => !a.seen.contains g
    let kept := new.foldl (fun (x : Option State × List Undo) g => match x.1 with
      | none => x
      | some s =>
        let u : Undo := { nmu := nmuOf g, pa := g, old := Memory.reads s.mem g 64,
                          stepped := (s.loggedStep job launch).isSome && undoUnits s.regs (nmuOf g) != 0 }
        (s.logAll (nmuOf g) job launch (some tcb) [g], u :: x.2)) (some a.s, a.undo)
    match kept with
    | (none, us) => { a with undo := us.tail, full := true }
    | (some s, us) => { s := s.nmWrite ws, seen := new.foldl nins a.seen, undo := us, full := false }

/-- Apply the writes of a command in order, as far as their sectors are selected. -/
def NmAcc.apply (job launch tcb : Nat) (sel : Nat → Bool) (a : NmAcc) (ws : List (Nat × List Byte)) : NmAcc :=
  ws.foldl (fun a w =>
    (List.range ((w.1 + w.2.length + 31) / 32 - w.1 / 32)).foldl (fun a i =>
      let lo := max w.1 (32 * (w.1 / 32 + i))
      let hi := min (w.1 + w.2.length) (32 * (w.1 / 32 + i) + 32)
      if sel (w.1 / 32 + i) then a.put job launch tcb lo ((w.2.drop (lo - w.1)).take (hi - lo)) else a) a) a

/-! ## NMATT (R264) -/

/-- log2 e. -/
def log2e : W32 := 0x3FB8AA3B
def negInf : W32 := 0xFF800000

structure AttState where
  m : W32
  l : W32
  o : List W32
  /-- A NaN or +∞ score, or a NaN or infinite element. -/
  bad : Bool

def bf16Bad (c : Nat) : Bool := c / 128 % 256 == 255

/-- One token: its key and value as BF16 codes. -/
def attToken (q : List Nat) (sigma : W32) (a : AttState) (ks vs : List Nat) : AttState :=
  let s := (q.zip ks).foldl (fun s p => (ffma .rne (bf16to32 p.1) (bf16to32 p.2) s).1) 0
  let s := nmul sigma s
  let m1 := nmax a.m s
  let (x, y) := if m1 = negInf then (0x3F800000, 0)
    else (nexp2 (nmul (nsub a.m m1) log2e), nexp2 (nmul (nsub s m1) log2e))
  { m := m1, l := nadd (nmul a.l x) y,
    o := (a.o.zip vs).map fun p => nadd (nmul p.1 x) (nmul y (bf16to32 p.2)),
    bad := a.bad || s == nan32 || s == 0x7F800000 || ks.any bf16Bad || vs.any bf16Bad }

/-- The d + 2 result words. -/
def NmMem.attend (m : NmMem) (a : NmattCmd) : List W32 :=
  let d := a.dim.toNat
  let row (va : Nat) : List Nat := (List.range d).map fun k => m.nat (va + 2 * k) 2
  let q := row a.query.toNat
  let es := m.table a
  let r := (List.range a.tokens.toNat).foldl (fun (st : AttState) t =>
    let page := es.getD (t / 64) 0
    attToken q a.sigma st (row (page + 2 * d * (t % 64))) (row (page + 32768 + 2 * d * (t % 64))))
    { m := negInf, l := 0, o := List.replicate d 0, bad := false }
  let out := if r.bad || r.l == 0 then List.replicate d nan32 else r.o.map fun x => ndiv x r.l
  out ++ [r.m, r.l]

/-! ## NMOPT (R266) -/

/-- One element; every array is read and written where a statement of R266 names it. -/
def optElem (o : NmoptCmd) (m : NmMem) (i : Nat) : NmMem :=
  let rd (m : NmMem) (va : BitVec 48) : W32 := m.f32 (va.toNat + 4 * i)
  let put (m : NmMem) (va : BitVec 48) (x : W32) : NmMem := m.put (va.toNat + 4 * i) (bytesOf 4 x.toNat)
  let g := nmul (rd m o.g) o.gs
  if o.alg = 0 then
    let g := nadd g (nmul o.lambda (rd m o.w))
    let m := put m o.m1 (nadd (nmul o.mu (rd m o.m1)) g)
    put m o.w (nsub (rd m o.w) (nmul o.eta (rd m o.m1)))
  else
    let m := put m o.m1 (nadd (nmul o.mu (rd m o.m1)) (nmul o.c1 g))
    let m := put m o.m2 (nadd (nmul o.beta2 (rd m o.m2)) (nmul o.c2 (nmul g g)))
    let den := nadd (nsqrt (nmul (rd m o.m2) o.b2)) o.eps
    let upd := nadd (ndiv (nmul (rd m o.m1) o.b1) den) (nmul o.lambda (rd m o.w))
    put m o.w (nsub (rd m o.w) (nmul o.eta upd))

/-- The narrow copy of W: data, scales, status word. -/
def NmMem.narrow (m : NmMem) (tag : BitVec 16) (o : NmoptCmd) : List Byte :=
  let f := (Fmt.ofCode o.fmt.toNat).getD .bf16
  let c := o.cols.toNat
  let rows := o.n.toNat / c
  let el (r k : Nat) : W32 := m.f32 (o.w.toNat + 4 * (r * c + k))
  let scale (br bc : Nat) : Nat := if f.isMX then
      blockScale f ((List.range 256).map fun k => el (16 * br + k / 16) (16 * bc + k % 16)) else 127
  let scales := (List.range (rows / 16)).flatMap fun br => (List.range (c / 16)).map fun bc => scale br bc
  let out := (List.range rows).map fun r => (List.range c).map fun k =>
    drainElem (el r k) f .rne (if f.isMX then scales.getD (r / 16 * (c / 16) + k / 16) 127 else 127) 0
  let count (p : Nat × Bool × Bool → Bool) : Nat := min 65535 (out.map fun r => (r.filter p).length).sum
  (out.flatMap fun r => packRow f.width (r.map (·.1))) ++ (if f.isMX then scales.map (BitVec.ofNat 8) else []) ++
    bytesOf 8 (tag.toNat * 2 ^ 48 + count (·.2.1) * 2 ^ 16 + count (·.2.2))

/-- The writes of an NMOPT. -/
def NmMem.optimise (m : NmMem) (tag : BitVec 16) (o : NmoptCmd) : List (Nat × List Byte) :=
  let m := (List.range o.n.toNat).foldl (optElem o) m
  (m.put o.narrow.toNat (m.narrow tag o)).writes

/-! ## NMXG (R270, R271) -/

/-- The bytes of a group by target address, later entries last. -/
def NmMem.group (m : NmMem) (x : NmxgCmd) : List (Nat × Byte) :=
  ((m.entries x).filterMap id).flatMap fun e => (List.range e.2.2).map fun k =>
    (pagePa m.pages (e.1 + k), m.byte (e.2.1 + k))

/-- The group's writes, channel by channel. -/
def channelsOf (ws : List (Nat × Byte)) : List (Nat × List (Nat × Byte)) :=
  (ws.foldl (fun (a : NSet) w => nins a (nmuOf w.1)) []).map fun n => (n, ws.filter fun w => nmuOf w.1 == n)

/-! ## A command at its NMU -/

def State.nmu (s : State) (n : Nat) : Nmu := kget s.nmus n Nmu.reset
def State.modNmu (s : State) (n : Nat) (f : Nmu → Nmu) : State := { s with nmus := kset s.nmus n (f (s.nmu n)) }

def NmReq.same (a b : NmReq) : Bool := a.core == b.core && a.seq == b.seq && a.job == b.job && a.tcb == b.tcb

/-- Order of arrival; in one cycle, by die, then core (R261); a command of the Ringmaster's comes first in its cycle. -/
def NmReq.before (a b : NmReq) : Bool :=
  let who (r : NmReq) : Nat := match r.core with | some c => c + 1 | none => 0
  decide (a.arrived < b.arrived) || (a.arrived == b.arrived && decide (who a < who b))

/-- A command arrives at its NMU. -/
def State.nmArrive (s : State) (r : NmReq) : State :=
  let n := s.nmOwner r.job r.slots
  if (s.nmu n).queue.any r.same || (match (s.nmu n).run with | some x => x.req.same r | none => false) then s
  else s.modNmu n fun u => { u with queue := insertBy NmReq.before { r with arrived := s.cycle } u.queue }

/-- A command ends its task with a cause of disposition L. -/
def State.nmFail (s : State) (r : NmReq) (cause : Nat) (info : Word) : State :=
  match r.core with
  | some c => s.abortCore c cause info .faulted
  | none => s.abort r.job r.tcb cause .faulted

/-- UNCORRECTABLE or a full undo area: the launch faults, and rung 5 follows (R225, R268). info: the location, or the quota (R255). -/
def State.nmFatal (s : State) (r : NmReq) (cause info : Nat) : State :=
  let s := match r.core with
    | some c => s.modCore c fun k => k.fault s.cycle cause (BitVec.ofNat 64 info) k.arch.word []
    | none => s
  s.faultStep r.job r.launch cause

def State.nmQuota (s : State) (r : NmReq) : Nat := match s.launch r.job r.launch with | some l => l.quota | none => 0

/-- A page that a command needs is absent, not permitted, or cannot be looked up (R225, R262, R373). -/
def State.nmPage (s : State) (r : NmReq) (f : XlFail) (va : Nat) : State :=
  match r.core, f with
  | some c, .page => s.pageFault c 3 va
  | none, .page =>
    let home := match s.task r.job r.tcb with | some t => t.home | none => 5
    (s.abort r.job r.tcb cPageFault .parked).pfRecord home 3 va r.tcb false r.job
  | _, .prot => s.nmFail r cProtection (BitVec.ofNat 64 va)
  | _, .bad => s.nmFatal r cUncorrectable va

/-- One word of NMATT's result stands in the scratchpad of core c, with its full bit. -/
def State.nmWord (s : State) (c seq w : Nat) (v : W32) : State :=
  (s.modCore c (·.put (4 * w) (bytesOf 4 v.toNat))).setFull c seq w true

/-- NMATT's results: into the scratchpad with their full bits, but for words that stand there already, or the quarantine of the task. The Bool:
delivered; not while a page of the destination is absent. -/
def State.nmDeliver (s : State) (y : NmRun) (a : NmattCmd) : State × Bool :=
  let r := y.req
  let ws := y.result.getD ((s.nmMem y.latched y.pages).attend a)
  let bs := ws.flatMap fun w => bytesOf 4 w.toNat
  let at_ := a.dest.toNat / 4
  match r.core, a.toGlobal with
  | some c, false =>
    (match s.touch c r.seq [(a.dest.toNat, bs.length)] false false with
     | .ready s =>
       if y.result.isSome then
         (ws.zipIdx.foldl (fun (s : State) w => if y.did.contains (scratchMark + at_ + w.2) then s else s.nmWord c r.seq (at_ + w.2) w.1) s, true)
       else
         let s := s.modCore c (·.put a.dest.toNat bs)
         ((List.range ws.length).foldl (fun s i => s.setFull c r.seq (at_ + i) true) s, true)
     | .wait s => (s, false)
     | .lost s d loc => (s.lostWord c d loc, true))
  | _, _ =>
    let x := pageXl y.pages a.dest.toNat
    match s.quarPut r.job r.launch r.tcb (quarEntries r.seq ((ecbSlot r.slots 0).field 16 4) a.dest.toNat x bs .normal false false) [] with
    | some s => ((s.noteWrites r.job r.tcb x.pa).noteWrites r.job r.tcb (spanPa x.pa x.pa2 (bs.length - 1)), true)
    | none => (s.nmFail r cQuarOverflow (BitVec.ofNat 64 (s.nmQuota r)), true)

/-- A partial turn of NMATT: the result has been formed, and the words p of it, which scratchMark offsets, stand in the scratchpad (R58, R158). -/
def State.nmWords (s : State) (n : Nat) (y : NmRun) (a : NmattCmd) (p : NSet) : State :=
  let ws := y.result.getD ((s.nmMem y.latched y.pages).attend a)
  let at_ := a.dest.toNat / 4
  match y.req.core, a.toGlobal with
  | some c, false => match s.touch c y.req.seq [(a.dest.toNat, 4 * ws.length)] false false with
    | .ready s =>
      let now := ws.zipIdx.filter fun w => p.contains (scratchMark + at_ + w.2) && !y.did.contains (scratchMark + at_ + w.2)
      (now.foldl (fun (s : State) w => s.nmWord c y.req.seq (at_ + w.2) w.1) s).modNmu n fun u =>
        { u with run := u.run.map fun z => { z with result := some ws, did := now.foldl (fun d w => nins d (scratchMark + at_ + w.2)) z.did } }
    | .wait s => s
    | .lost s d loc => s.lostWord c d loc
  | _, _ => s

/-- The sectors that a partial turn latches (R172). -/
def State.latch (s : State) (m : KMap Byte) (secs : NSet) : KMap Byte :=
  secs.foldl (fun m k => (List.range 32).foldl (fun m i =>
    if (kfind m (32 * k + i)).isSome then m else kset m (32 * k + i) (Memory.read s.mem (32 * k + i))) m) m

/-- A command that the NMU has checked, after a turn of it: us are its undo records. done: it has written everything. -/
def State.nmRan (s : State) (n : Nat) (us : List Undo) (done : Bool) : State :=
  s.modNmu n fun u => { u with run := (u.run.map fun x => { x with waiting := !done, lastWrite := s.cycle, undo := us }) }

/-- The writes of a command, as far as a turn of it performs them. -/
def State.nmOptimise (s : State) (y : NmRun) (tag : BitVec 16) (o : NmoptCmd) : NmAcc :=
  let sel (k : Nat) : Bool := !y.did.contains k && (match s.part with | some p => p.contains k | none => true)
  NmAcc.apply y.req.job y.req.launch y.req.tcb sel { s := s, seen := y.undo.foldl (fun m u => nins m u.pa) [], undo := y.undo, full := false }
    ((s.nmMem y.latched y.pages).optimise tag o)

/-- A bound task's group forms once its sources are read; each turn then commits one of its channels (R171). -/
def State.nmSwap (s : State) (n : Nat) (y : NmRun) (x : NmxgCmd) : State :=
  let r := y.req
  match nextChannel s.cycle (y.shadow.getD (channelsOf ((s.nmMem y.latched y.pages).group x))) with
  | none => s.nmRan n y.undo true
  | some (g, rest) => match s.swapChannel r.job r.launch r.tcb g with
    | some (s, us) => (s.nmRan n (us ++ y.undo) rest.isEmpty).modNmu n fun u =>
        { u with run := u.run.map fun z => { z with shadow := some rest } }
    | none => s.nmFatal r cQuarOverflow (s.nmQuota r)

/-- The sectors that an NMOPT reads for what it writes in the sectors p: every operand of the elements that they hold, of all elements for the
narrow copy, which follows the last of them (R266). -/
def nmoptReads (pages : KMap (Nat × Bool)) (o : NmoptCmd) (p : NSet) : NSet :=
  let arrays := [o.w.toNat, o.m1.toNat, o.g.toNat] ++ (if o.alg == 0 then [] else [o.m2.toNat])
  let sec (va : Nat) : Nat := pagePa pages va / 32
  let size := narrowSize ((Fmt.ofCode o.fmt.toNat).getD .bf16) o.n.toNat
  let all := (pageSpans pages o.narrow.toNat size).any fun x => p.any fun k => decide (32 * k < x.1 + x.2) && decide (x.1 < 32 * k + 32)
  (List.range o.n.toNat).foldl (fun m i =>
    if all || arrays.any fun a => p.contains (sec (a + 4 * i)) then arrays.foldl (fun m a => nins m (sec (a + 4 * i))) m else m) p

/-- The command of NMU n executes: it has been checked, and for NMOPT the arrival word has reached its target (DESIGN CHOICE, log entry 11).
A partial turn works on some sectors ahead of the rest (R172, R272). -/
def State.nmExecute (s : State) (n : Nat) (i : Instr) : State :=
  match (s.nmu n).run with
  | none => s
  | some y =>
    let r := y.req
    let y := match s.part with
      | some p => { y with latched := s.latch y.latched ((match i with | .nmopt _ o => nmoptReads y.pages o p | _ => p).filter (· < scratchMark)) }
      | none => y
    let keep (s : State) : State := s.modNmu n fun u =>
      { u with run := u.run.map fun z => { z with latched := y.latched, did := (s.part.getD []).foldl nins z.did } }
    match i with
    | .nmatt _ a => match s.part with
      | some p => if p.any fun k => decide (scratchMark ≤ k) then s.nmWords n y a p else keep s
      | none =>
        let (s, ok) := s.nmDeliver y a
        if ok && (s.nmu n).run.isSome then s.nmRan n [] true else s
    | .nmopt h o =>
      if (s.nmMem [] y.pages).nat o.arrive.toNat 8 < o.target.toNat then s
      else
        let a := s.nmOptimise y h.tag o
        let s := a.s.nmRan n a.undo s.part.isNone
        if a.full then s.nmFatal r cQuarOverflow (s.nmQuota r) else if s.part.isSome then keep s else s
    | .nmxg _ x =>
      if s.part.isSome then keep s
      else match r.core with
        | some _ =>
          let ws := (channelsOf ((s.nmMem y.latched y.pages).group x)).map fun g =>
            ({ chan := g.1, bytes := g.2, oc := (ecbSlot r.slots 0).field 16 4, seq := r.seq } : Shadow)
          (s.modTask r.job r.tcb fun t => { t with groups := t.groups ++ ws }).nmRan n [] true
        | none => s.nmSwap n y x
    | _ => s

/-- The NMUs that take part in a command (R227): its own, and the channels that its group writes. -/
def NmMem.parts (m : NmMem) (n : Nat) : Instr → NSet
  | .nmxg _ x => (m.group x).foldl (fun a w => nins a (nmuOf w.1)) [n]
  | _ => [n]

/-- NMU n starts the command at the head of its queue: its checks (R262), then its reads are written back, and it executes. -/
def State.nmStart (s : State) (n : Nat) (r : NmReq) (i : Instr) (npage : Nat) : State :=
  let (s, c) := s.nmCheck n r.job r.core.isNone npage i
  match c with
  | .error (.slot k) => s.nmFail r cEcbIllegal (BitVec.ofNat 64 k)
  | .error (.page f va) => s.nmPage r f va
  | .ok (rs, pages) =>
    let s := (rs.filter (·.reads)).foldl (fun s x => s.nmClean pages x) s
    if rs.any (s.nmPoisoned pages) then (rs.foldl (fun s x => s.nmMeet pages x) s).nmFatal r cUncorrectable (s.nmPoisonAt pages rs)
    else
      let s := rs.foldl (fun s x => s.nmMeet pages x) s
      let s := s.modNmu n fun u =>
        { u with queue := u.queue.filter (fun q => !q.same r),
                 run := some { req := r, waiting := true, lastWrite := s.cycle, undo := [], pages := pages,
                               parts := (s.nmMem [] pages).parts n i } }
      s.nmExecute n i

/-- The request of a core's NM entry. -/
def State.nmReqOf (s : State) (x : Ecb) : NmReq :=
  let r := s.runD
  { core := some s.focus, seq := x.seq, job := r.job, launch := r.launch, tcb := r.tcb, slots := x.slots }

/-- The head of the NM queue of the core in focus, which has not started: it arrives at its NMU, and starts there after every command that
arrived before it and once its wait mask is met (R261, R262). -/
def State.nmHead (s : State) (x : Ecb) (go : State → Nat → NmReq → State) : State :=
  let r := s.nmReqOf x
  let n := s.nmOwner r.job r.slots
  let s := s.nmArrive r
  if !maskMet s.arch (ecbSlot x.slots 1) then s.setStallOf 6 (some .event)
  else if s.cur.classBusy (ecbOc x) x.seq || (s.nmu n).run.isSome ||
      !(match (s.nmu n).queue with | q :: _ => q.same r | [] => false) then s.setStallOf 6 (some .inFlight)
  else
    let s := s.modArch fun a =>
      { a.clearEvents (ecbSlot x.slots 1) with
        nm := match a.nm with | y :: t => { y with started := true } :: t | [] => [] }
    go (s.setStallOf 6 none) n r

/-- The head of the NM queue of the core in focus. -/
def State.nmCore (s : State) (i : Instr) (x : Ecb) : State :=
  let r := s.nmReqOf x
  if x.started then
    match s.nmus.find? fun u => match u.2.run with | some y => y.req.same r && y.waiting | none => false with
    | some u => s.nmExecute u.1 i
    | none => s
  else s.nmHead x fun s n r => s.nmStart n r i s.runD.npage

/-- The head of NMU n's own queue, where it is an NMU-bound task's. -/
def State.nmBound (s : State) (n : Nat) (i : Instr) : State :=
  match (s.nmu n).run with
  | some y => if y.req.core.isNone && y.waiting then s.nmExecute n i else s
  | none => match (s.nmu n).queue with
    | q :: _ => if q.core.isNone then s.nmStart n q i 0 else s
    | [] => s

/-- An NM command: at the head of a core's queue, or at an NMU that focus names from 1,024 on. -/
def State.nmRun (s : State) (i : Instr) : State :=
  let same (slots : List Word) : Bool := match decodeEcb .nm slots with | .ok j => j == i | .error _ => false
  if s.focus < 1024 then
    match s.arch.nm with
    | x :: _ => if !x.net && same x.slots then s.nmCore i x else s
    | [] => s
  else
    let n := s.focus - 1024
    let slots := match (s.nmu n).run, (s.nmu n).queue with
      | some y, _ => y.req.slots
      | none, q :: _ => q.slots
      | none, [] => []
    if same slots then s.nmBound n i else s

/-- NMATT (R263, R264). -/
def execNmatt (h : EcbHead) (a : NmattCmd) (s : State) : Host.Outcome State Fault Refusal := s.sealed (s.nmRun (.nmatt h a))

/-- NMOPT (R265, R266). -/
def execNmopt (h : EcbHead) (o : NmoptCmd) (s : State) : Host.Outcome State Fault Refusal := s.sealed (s.nmRun (.nmopt h o))

/-- NMXG (R270, R271). -/
def execNmxg (h : EcbHead) (x : NmxgCmd) (s : State) : Host.Outcome State Fault Refusal := s.sealed (s.nmRun (.nmxg h x))

/-! ## Completion (R227, R373) and open rows (R272) -/

/-- The NM entry of a core retires with its signal mask; the task keeps the undo records until its TEND. -/
def State.nmRetire (s : State) (c : Nat) (r : NmReq) (us : List Undo) : State :=
  match (s.core c).arch.nm with
  | x :: _ =>
    if x.seq = r.seq ∧ x.started then
      ((s.modCore c (·.retireEcb s.cycle .nm)).signalled (ecbSlot x.slots 2)).modTask r.job r.tcb fun t => { t with undo := us ++ t.undo }
    else s
  | [] => s

/-- A command has completed at NMU n: each NMU that took part notes it, for as long as a strike can name it (R227). -/
def State.nmPast (s : State) (y : NmRun) : State :=
  y.parts.foldl (fun s p => s.modNmu p fun u =>
    { u with past := (u.past.filter fun x => decide (s.cycle < x.2.2 + Config.window)) ++ [(y.req.job, y.req.tcb, s.cycle)] }) s

/-- NMU_COMPLETION: 2,048 cycles after the last write, never earlier. An NMU-bound task commits with it (R28), and holds the NMU until its
TEND has ended. -/
def State.nmComplete (s : State) (n : Nat) : State :=
  match (s.nmu n).run with
  | none => s
  | some y =>
    if y.waiting ∨ s.cycle < y.lastWrite + Config.window then s
    else match y.req.core with
      | some c => ((s.modNmu n fun u => { u with run := none }).nmPast y).nmRetire c y.req y.undo
      | none =>
        let rel := 128 * dieOfNmu n
        let s := match s.task y.req.job y.req.tcb with
          | some t => if t.past4 then s.tendEnd rel y.req.job y.req.tcb else s.commitTasks rel [(none, t)]
          | none => s
        if (s.task y.req.job y.req.tcb).all fun t => !t.past4 then s.modNmu n fun u => { u with run := none } else s

def execNmuCompletion (nmu : Fin 512) (s : State) : Host.Outcome State Fault Refusal := s.sealed (s.nmComplete nmu.val)

/-- OPEN_ROW_ACCESS: an ordinary access to a channel whose NMU is in the middle of a command arrives and waits for the end of the column step;
the next event of the same access serves it from the row as it stands, a write with the stored value (R272). That it waits at most 44 cycles is
the schedule's: State.due. -/
def execOpenRowAccess (nmu : Fin 512) (write : Bool) (pa : Nat) (value : Byte) (s : State) :
    Host.Outcome State Fault Refusal :=
  let mine (w : RowWait) : Bool := w.nmu == nmu && w.write == write && w.pa == pa && w.value == value
  s.sealed (if s.rowWaits.any mine then
      { s with rowWaits := s.rowWaits.eraseP mine, mem := if write then Memory.write s.mem pa value else s.mem }
    else if inHbm pa && nmuOf pa == nmu.val && (s.nmu nmu.val).run.isSome then
      { s with rowWaits := s.rowWaits ++ [{ nmu := nmu, write := write, pa := pa, value := value, arrived := s.cycle }] }
    else s)

end Sys2Proof.Machine
end

