-- ==== Sys2Proof/Machine/Collective.lean ====
section
/-!
DEFINITION. Collectives (spec/13 R276-R280, spec/15 R329-R332, spec/21 R447, spec/10 R228, R229): the checks of a command at the head
of CL, its reduction, its steps and their failures, its completion. The other members are input (Member).
-/

namespace Sys2Proof.Machine

/-! ## Fields and ranges (R329, R331) -/

/-- Whether a command is a reduction with the fixed tree. -/
def isDet (op : Nat) (c : CollCmd) : Bool := op != 0x42 && !c.arr

/-- The slot of the first field outside its limits. -/
def collFields (op : Nat) (h : EcbHead) (c : CollCmd) : Option Nat :=
  let det := isDet op c
  firstBad [
    (0, h.scope != 0 && h.scope != 7),
    (3, c.src.toNat % 64 != 0), (4, c.dst.toNat % 64 != 0),
    (5, (op == 0x42 && c.arr) || decide (c.e.toNat < 1) || decide (2 ^ 28 < c.e.toNat) ||
      (op == 0x41 && c.m != 0 && c.e.toNat % c.m.toNat != 0)),
    (6, if det then c.b.toNat % 2 ^ c.w.toNat != 0 else c.bigW != 0 || c.w != 0 || c.b != 0),
    (7, decide (c.m.toNat < 1) || decide (4096 < c.m.toNat) || decide (c.m.toNat ≤ c.rank.toNat)),
    (8, c.arrive.toNat % 8 != 0 || (op != 0x41 && c.arrive != 0))]

/-- Bytes of the destination. -/
def collDstBytes (op : Nat) (c : CollCmd) : Nat :=
  if op = 0x41 then 4 * (c.e.toNat / c.m.toNat) else if op = 0x42 then 4 * (c.m.toNat * c.e.toNat) else 4 * c.e.toNat

/-- The source overlaps the destination. -/
def collOverlap (op : Nat) (c : CollCmd) : Bool :=
  decide (c.src.toNat < c.dst.toNat + collDstBytes op c) && decide (c.dst.toNat < c.src.toNat + 4 * c.e.toNat)

def collRanges (op : Nat) (c : CollCmd) : List NmRange :=
  [{ va := c.src.toNat, n := 4 * c.e.toNat, write := false, place := .any },
   { va := c.dst.toNat, n := collDstBytes op c, write := true, place := .any }] ++
  (if c.arrive = 0 then [] else [{ va := c.arrive.toNat, n := 8, write := true, place := .any }])

/-! ## Members and their agreement (R277, R331) -/

/-- Ranges [b, b + 2^w) in order of b cover [pos, stop) exactly once. -/
def partitions : List (Nat × Nat) → Nat → Nat → Bool
  | [], pos, stop => pos == stop
  | (b, w) :: t, pos, stop => b == pos && partitions t (pos + 2 ^ w) stop

/-- Every member has the same opcode, E, mode, M and W, its own rank, and in DET the ranges partition [0, 2^W). -/
def agree (ms : List Member) : Bool :=
  match ms with
  | [] => true
  | x :: _ =>
    let rs := (ms.map fun m => (m.cmd.b.toNat, m.cmd.w.toNat)).foldl
      (fun l r => insertBy (fun (a b : Nat × Nat) => decide (a.1 < b.1)) r l) []
    (ms.all fun m => m.op == x.op && m.cmd.e == x.cmd.e && m.cmd.arr == x.cmd.arr && m.cmd.m == x.cmd.m &&
      m.cmd.bigW == x.cmd.bigW) &&
      ((ms.zipIdx).all fun a => (ms.zipIdx).all fun b => a.2 == b.2 || a.1.rank != b.1.rank) &&
      (!isDet x.op x.cmd || partitions rs 0 (2 ^ x.cmd.bigW.toNat))

/-! ## Reduction (R276-R278, R330) -/

def memberElem (m : Member) (e : Nat) : W32 := m.data.getD e 0

/-- Node(b, w) of element e. -/
def node (ms : List Member) (e b : Nat) : Nat → W32
  | 0 => match ms.find? fun m => m.cmd.b.toNat == b && m.cmd.w == 0 with
    | some m => memberElem m e
    | none => 0
  | w + 1 => match ms.find? fun m => m.cmd.b.toNat == b && m.cmd.w.toNat == w + 1 with
    | some m => memberElem m e
    | none => nadd (node ms e b w) (node ms e (b + 2 ^ w) w)

/-- Remove the element at a place. -/
def pluck (l : List W32) (i : Nat) : W32 × List W32 := (l.getD i 0, l.take i ++ l.drop (i + 1))

/-- The value of a full binary tree over the leaves, which pick chooses: two values are joined until one is left. -/
def treeValue : Nat → Nat → List W32 → W32
  | 0, _, l => l.headD 0
  | fuel + 1, pick, l =>
    if l.length ≤ 1 then l.headD 0
    else
      let (x, l1) := pluck l (pick % l.length)
      let (y, l2) := pluck l1 (pick / l.length % l1.length)
      treeValue fuel (pick / l.length / l1.length) (nadd x y :: l2)

/-- Reduce(e). attempt: each attempt of ARR may choose another tree. -/
def reduce (ms : List Member) (tag op attempt e : Nat) : W32 :=
  match ms with
  | [] => 0
  | x :: _ =>
    if isDet op x.cmd then node ms e 0 x.cmd.bigW.toNat
    else treeValue ms.length (Config.arrTree tag e attempt) (ms.map fun m => memberElem m e)

/-- The destination words of a member. -/
def collResult (ms : List Member) (tag op attempt : Nat) (c : CollCmd) : List W32 :=
  let e := c.e.toNat
  if op = 0x42 then
    (List.range c.m.toNat).flatMap fun j => match ms.find? fun m => m.rank == j with
      | some m => (List.range e).map (memberElem m)
      | none => []
  else
    let (lo, n) := if op = 0x41 then (c.rank.toNat * (e / c.m.toNat), e / c.m.toNat) else (0, e)
    (List.range n).map fun i => reduce ms tag op attempt (lo + i)

/-! ## The source (R332, R279) -/

/-- The source words through the quarantine view of the task, of the entries that sel takes. -/
def State.collSource (s : State) (job tcb : Nat) (sel : QEntry → Bool) (pages : KMap (Nat × Bool)) (c : CollCmd) : List W32 :=
  let q := match s.task job tcb with | some t => t.quar.filter sel | none => []
  (List.range c.e.toNat).map fun i => BitVec.ofNat 32 (leNat ((List.range 4).map fun b =>
    let pa := pagePa pages (c.src.toNat + 4 * i + b)
    (viewByte q pa).getD (Memory.read s.mem pa)))

/-- What a command of class oc at place seq finds in the quarantine: not what a later access of its class put there (R157). -/
def QEntry.forColl (e : QEntry) (oc seq : Nat) : Bool := e.oc != oc || decide (e.seq < seq)

/-- What it finds there at least: an access of another class that the Safety Net has not released may come after it (R157, R450). -/
def State.surely (s : State) (core oc seq : Nat) (e : QEntry) : Bool :=
  decide (e.seq < seq) && (e.oc == oc || !s.net.any fun i => i.core == core && i.seq == e.seq)

/-- The place of a task's CL command: its class and the place of its push; it is the head. -/
def State.collPlace (s : State) (core : Nat) : Nat × Nat :=
  match (s.core core).arch.cl with | x :: _ => (ecbOc x, x.seq) | [] => (noClass, 0)

/-- The source words as they stand now. -/
def State.collNow (s : State) (k : Coll) : List W32 :=
  let p := s.collPlace k.core
  s.collSource k.job k.tcb (fun e => e.forColl p.1 p.2) k.pages k.cmd

/-- The requests of an attempt for its source, one for each line (R147, R149). -/
def State.collRequest (s : State) (k : Coll) : State :=
  (pageSpans k.pages k.cmd.src.toNat (4 * k.cmd.e.toNat)).foldl (fun (a : State × Nat) x =>
    let xl : Xl := { pa := x.1, pa2 := 0, uncached := pageUncached k.pages a.2 }
    (a.1.request k.job k.launch a.2 xl x.2 false .normal, a.2 + x.2)) (s, k.cmd.src.toNat) |>.1

/-- What an attempt reads: each sector as it stood when the command started, or as it stands now. -/
def mixSource (tag attempt : Nat) (old now : List W32) : List W32 :=
  now.zipIdx.map fun x => if Config.oldSector tag attempt (x.2 / 8) then old.getD x.2 x.1 else x.1

/-- The words that an attempt has when the words now stand in the source: those of the sectors of its steps so far as it read them. -/
def Coll.source (k : Coll) (now : List W32) : List W32 :=
  (mixSource k.tag k.retries k.old now).zipIdx.map fun x =>
    if Config.readStep k.tag k.retries (x.2 / 8) ≤ k.steps then k.src.getD x.2 x.1 else x.1

/-- A step begins: it reads its sectors, and so does the first step of an attempt those of the steps that it does not repeat. -/
def Coll.take (k : Coll) (now : List W32) : Coll :=
  { k with src := (mixSource k.tag k.retries k.old now).zipIdx.map fun x =>
      let n := Config.readStep k.tag k.retries (x.2 / 8)
      if n = k.steps ∨ (k.src = [] ∧ n < k.steps) then x.1 else k.src.getD x.2 0 }

/-- The command as a member of its collective. -/
def Coll.asMember (k : Coll) (data : List W32) : Member :=
  { tag := k.tag, op := k.op, rank := k.cmd.rank.toNat, cmd := k.cmd, data := data }

/-- The members that have arrived: the others, and this device's. -/
def State.arrived (s : State) (k : Coll) : List Member :=
  k.asMember (k.source (s.collNow k)) :: s.members.filter (·.tag == k.tag)

/-- The command needs no other member: it has one, or its result is held (R447). -/
def State.alone (s : State) (k : Coll) : Bool :=
  k.cmd.m == 1 || s.kept.any fun x => x.job == k.job && x.tcb == k.tcb && x.tag == k.tag

/-! ## Completion (R280, R332, R447) -/

/-- Sectors of bytes at a VA that may span pages, not quarantined (R332). -/
def State.storeVa (s : State) (k : Coll) (sel : Nat → Bool) (va : Nat) (bs : List Byte) : State :=
  (pageSpans k.pages va bs.length).foldl (fun (a : State × List Byte) x =>
    let at_ := va + (bs.length - a.2.length)
    let t := (List.range ((x.1 + x.2 + 31) / 32 - x.1 / 32)).foldl (fun (s : State) i =>
      let lo := max x.1 (32 * (x.1 / 32 + i))
      let hi := min (x.1 + x.2) (32 * (x.1 / 32 + i) + 32)
      let xl : Xl := { pa := lo, pa2 := 0, uncached := pageUncached k.pages at_ }
      if sel (x.1 / 32 + i) then
        (((s.hotSpan k.job k.launch (at_ + (lo - x.1)) xl.pa 0 (hi - lo)).unpoison lo (hi - lo)).wrBytes lo
          ((a.2.drop (lo - x.1)).take (hi - lo))).noteCommit lo (hi - lo)
      else s) a.1
    -- one request for each line (R147)
    (if s.part.isNone then t.l2Access x.1 x.2 true ({ pa := x.1, pa2 := 0, uncached := pageUncached k.pages at_ : Xl }.hint .normal) else t,
     a.2.drop x.2)) (s, bs) |>.1

/-- A range lies in HBM4E. -/
def rangeInHbm (pages : KMap (Nat × Bool)) (va n : Nat) : Bool := (pageSpans pages va n).all fun x => inHbm x.1

/-- The CL entry retires, and the collective is over on this device. -/
def State.collRetire (s : State) (k : Coll) (out : List W32) : State :=
  let s := s.storeVa k (fun i => !k.did.contains i) k.cmd.dst.toNat (out.flatMap fun w => bytesOf 4 w.toNat)
  let at_ := pagePa k.pages k.cmd.arrive.toNat
  let s := if k.op = 0x41 ∧ k.cmd.arrive ≠ 0 ∧ rangeInHbm k.pages k.cmd.dst.toNat (collDstBytes k.op k.cmd) then
      s.store at_ (bytesOf 8 ((s.rdNat at_ 8 + 1) % 2 ^ 64))
        (({ pa := at_, pa2 := 0, uncached := pageUncached k.pages k.cmd.arrive.toNat } : Xl).hint .normal) else s
  let s := s.acquire k.core
  let keep : Kept := { job := k.job, tcb := k.tcb, tag := k.tag, data := out }
  let s := { s with
    colls := s.colls.filter fun (x : Coll) => !(x.job == k.job && x.tcb == k.tcb && x.tag == k.tag),
    members := s.members.filter fun (m : Member) => m.tag != k.tag,
    kept := (s.kept.filter fun (x : Kept) => !(x.job == k.job && x.tcb == k.tcb && x.tag == k.tag)) ++
      (if k.op = 0x43 then [keep] else []) }
  let m := match (s.core k.core).arch.cl with | x :: _ => ecbSlot x.slots 2 | [] => 0
  (s.modCore k.core fun x => x.retireEcb s.cycle .cl).signalled m

/-- A command ends with a cause of disposition L. -/
def State.collBad (s : State) (core cause : Nat) (info : Word) : State := s.abortCore core cause info .faulted

/-- COLL_FAIL or UNCORRECTABLE: the launch faults, and rung 5 follows (R225, R229). -/
def State.collFatal (s : State) (k : Coll) (cause info : Nat) : State :=
  let s := if k.attached then s.modCore k.core fun x => x.fault s.cycle cause (BitVec.ofNat 64 info) x.arch.word [] else s
  s.faultStep k.job k.launch cause

/-- The members are all there: they agree, or every command ends with ECB_ILLEGAL. go: what an agreed collective does. -/
def State.collTogether (s : State) (k : Coll) (go : List Member → State) : State :=
  let ms := s.arrived k
  if ms.length < k.cmd.m.toNat then s
  else if agree ms && ms.length == k.cmd.m.toNat then go ms
  else s.collBad k.core cEcbIllegal 7

def State.modColl (s : State) (k : Coll) (f : Coll → Coll) : State :=
  { s with colls := replaceFirst (fun (x : Coll) => x.job == k.job && x.tcb == k.tcb && x.tag == k.tag) f s.colls }

/-- The result stands in the destination, and the command retires; a partial turn writes some of its sectors before (R169). -/
def State.collDeliver (s : State) (k : Coll) (out : List W32) : State :=
  match s.part with
  | none => s.collRetire k out
  | some p =>
    let s := s.storeVa k (fun i => p.contains i && !k.did.contains i) k.cmd.dst.toNat (out.flatMap fun w => bytesOf 4 w.toNat)
    s.modColl k fun x => { x with result := some out, did := p.foldl nins x.did }

/-- The last step: the result is formed once (R447). -/
def State.collComplete (s : State) (k : Coll) (ms : List Member) : State :=
  s.collDeliver k (k.result.getD (collResult ms k.tag k.op k.retries k.cmd))

/-! ## The links (R274, R275) -/

def State.port (s : State) (p : Nat) : Port := kget s.ports p Port.reset
def State.modPort (s : State) (p : Nat) (f : Port → Port) : State := { s with ports := kset s.ports p (f (s.port p)) }

/-- Partition size and this device's place in dimension d. -/
def State.fabricSize (s : State) (d : Nat) : Nat := (s.reg 0x5200).field (12 + 4 * d) 4 + 1
def State.place (s : State) (d : Nat) : Nat := (s.reg 0x5200).field (4 * d) 4

/-- The 64 bytes of a flit: 60 of header and payload, then their CRC-32C. -/
def flitOf (seq : Nat) (payload : List Byte) : List Byte :=
  let b := (Config.flitBytes seq payload).take 60
  let b := b ++ List.replicate (60 - b.length) 0
  b ++ bytesOf 4 (crc32c b).toNat

/-- A flit goes out with the next number; the port keeps the last 256. -/
def Port.sendFlit (step : Option (Nat × Nat)) (q : Port) (payload : List Byte) : Port :=
  let sent := q.sent ++ [(q.nextSeq, flitOf q.nextSeq payload)]
  let carries := match step with | some x => kset q.carries q.nextSeq x | none => kdel q.carries q.nextSeq
  { q with sent := sent.drop (sent.length - 256), nextSeq := (q.nextSeq + 1) % 4096, asked := kdel q.asked q.nextSeq,
           carries := kdel carries ((q.nextSeq + 3840) % 4096) }

/-- Flits go out over a port: those of a step of a collective, or no step's. -/
def State.sendFlits (s : State) (p : Nat) (step : Option (Nat × Nat)) (payloads : List (List Byte)) : State :=
  s.modPort p fun q => payloads.foldl (Port.sendFlit step) q

/-- This device's part of the present step of a collective, whose sectors it has read, over the port that works on it; none in a dimension of one device. -/
def State.sendStep (s : State) (k : Coll) : State :=
  let p := Config.stepPort k.tag k.steps % 6
  if k.cmd.m = 1 ∨ s.fabricSize (p / 2) = 1 then s
  else s.sendFlits p (some (k.tag, k.steps)) (Config.stepFlits k.tag k.steps k.src)

/-! ## Steps (R228, R229, R279) -/

/-- Steps fail: they are retried from the sources, the earliest first, each at most COLL_RETRY times. -/
def State.stepsFail (s : State) (k : Coll) (steps : List Nat) : State :=
  match steps with
  | [] => s
  | first :: _ =>
    let s := s.devLog 3 (logEntry 2 6 0 0 s.cycle) (BitVec.ofNat 64 k.tcb)
    if steps.any fun i => decide ((s.reg 0x3010).toNat ≤ kget k.fails i 0) then s.collFatal k cCollFail k.tag
    else
      let fails := steps.foldl (fun m i => kset m i (kget m i 0 + 1)) k.fails
      let again := ({ k with retries := k.retries + 1, steps := first, src := [] } : Coll).take (s.collNow k)
      ((s.collRequest k).sendStep again).modColl k fun x =>
        { again with fails := fails, acked := x.acked.take first, since := s.cycle, stamp := s.cycle, did := [], result := none }

/-- A step is acknowledged: the next one, or completion. -/
def State.stepAcked (s : State) (tag : Nat) : State :=
  match s.colls.find? fun k => k.tag == tag && k.attached with
  | none => s
  | some k => s.collTogether k fun ms =>
      if s.alone k then s
      else if Config.collSteps tag k.cmd.m.toNat ≤ k.steps then s.collComplete k ms
      else if s.part.isSome then s
      else
        let next := ({ k with steps := k.steps + 1 } : Coll).take (s.collNow k)
        (s.sendStep next).modColl k fun _ =>
          { next with acked := k.acked ++ [s.cycle], since := s.cycle, stamp := s.cycle }

def execCollectiveStepAck (tag : BitVec 16) (s : State) : Host.Outcome State Fault Refusal :=
  s.sealed (s.stepAcked tag.toNat)

/-- A step that has waited for its acknowledgement past the timeout fails. -/
def State.stepTimeout (s : State) (tag : Nat) : State :=
  match s.colls.find? fun k =>
    k.tag == tag && k.attached && !s.alone k && decide (k.since + Config.cyclesPerUs * (s.reg 0x5208).toNat ≤ s.cycle) with
  | none => s
  | some k => s.stepsFail k [k.steps]

def execCollectiveStepTimeout (tag : BitVec 16) (s : State) : Host.Outcome State Fault Refusal :=
  s.sealed (s.stepTimeout tag.toNat)

/-! ## A command at the head of CL -/

/-- A device that the job had when it was there is lost (R281). -/
def State.partLost (s : State) (job : Nat) : Bool :=
  match kfind s.jobs job with | some j => j.lost.any s.lostDevs.contains | none => false


/-- Its checks in the order of R331; then it joins its collective, or completes from a held result. -/
def State.collStart (s : State) (op : Nat) (h : EcbHead) (c : CollCmd) : State :=
  let r := s.runD
  let tag := h.tag.toNat
  let live : Option Coll := s.colls.find? fun k => k.tag == tag
  match collFields op h c with
  | some n => s.collBad s.focus cEcbIllegal (BitVec.ofNat 64 n)
  | none =>
    if collOverlap op c then s.collBad s.focus cEcbIllegal 4
    else match s.nmTranslate (64 * dieOf s.focus) r.job (collRanges op c) with
      | (s, _, some (.page .page va)) => s.pageFault s.focus 3 va
      | (s, _, some (.page .prot va)) => s.collBad s.focus cProtection (BitVec.ofNat 64 va)
      | (s, _, some (.page .bad va)) => s.readPoison s.focus va 0
      | (s, _, some (.slot n)) => s.collBad s.focus cEcbIllegal (BitVec.ofNat 64 n)
      | (s, pages, none) =>
        let p := s.collPlace s.focus
        let k : Coll := { attached := true, old := s.collSource r.job r.tcb (s.surely s.focus p.1 p.2) pages c, core := s.focus, job := r.job,
                          launch := r.launch, tcb := r.tcb, tag := tag, op := op, cmd := c, steps := 0, retries := 0,
                          since := s.cycle, stamp := s.cycle, pages := pages }
        let src : NmRange := { va := c.src.toNat, n := 4 * c.e.toNat, write := false, place := .any }
        match s.kept.find? fun x => x.job == r.job && x.tcb == r.tcb && x.tag == tag with
        | some x => ({ s with colls := (s.colls.filter fun (y : Coll) => !(y.job == r.job && y.tcb == r.tcb && y.tag == tag)) ++ [k] } : State).collDeliver
            k x.data
        | none =>
          let again : Option Coll := match live with
            | some y => if y.job = r.job ∧ y.tcb = r.tcb ∧ !y.attached then some y else none
            | none => none
          if live.isSome ∧ again.isNone then s.collBad s.focus cEcbIllegal 0
          else if s.nmPoisoned pages src then (s.nmMeet pages src).collFatal k cUncorrectable (s.nmPoisonAt pages [src])
          else if c.m ≠ 1 ∧ s.partLost r.job then s.collFatal k cCollFail tag
          else
            let s := s.nmMeet pages src
            let k := match again with | some y => { k with retries := y.retries, fails := y.fails } | none => k
            let k := if c.m = 1 then k else k.take (s.collNow k)
            let s := ({ s with colls := (s.colls.filter fun (x : Coll) => x.tag != tag) ++ [k] } : State).collRequest k
            if k.fails.any fun f => decide ((s.reg 0x3010).toNat < f.2) then s.collFatal k cCollFail tag
            else (s.sendStep k).collTogether k fun ms => if k.cmd.m = 1 then s.collComplete k ms else s.sendStep k

/-- A command that has started and needs no other member delivers the rest of its result (R169, R447). -/
def State.collGoOn (s : State) : State :=
  match s.colls.find? fun k => k.core == s.focus && k.attached && s.alone k with
  | some k => match k.result with | some out => s.collDeliver k out | none => s
  | none => s

/-- CRS, CAG or CAR: its wait mask (R61), its ordering class (R157), then its start; once. -/
def State.collRun (s : State) (op : Nat) (h : EcbHead) (c : CollCmd) (i : Instr) : State :=
  match s.arch.cl with
  | [] => s
  | x :: _ =>
    let same : Bool := match decodeEcb .cl x.slots with | .ok j => j == i | .error _ => false
    if x.net || !same then s
    else if x.started then s.collGoOn
    else if !maskMet s.arch (ecbSlot x.slots 1) then s.setStallOf 7 (some .event)
    else if s.cur.classBusy (ecbOc x) x.seq then s.setStallOf 7 (some .inFlight)
    else
      let s := s.modArch fun a =>
        { a.clearEvents (ecbSlot x.slots 1) with
          cl := match a.cl with | y :: t => { y with started := true } :: t | [] => [] }
      (s.setStallOf 7 none).collStart op h c

/-- CRS (R329-R332). -/
def execCrs (h : EcbHead) (c : CollCmd) (s : State) : Host.Outcome State Fault Refusal :=
  s.sealed (s.collRun 0x41 h c (.crs h c))

/-- CAG (R329-R332). -/
def execCag (h : EcbHead) (c : CollCmd) (s : State) : Host.Outcome State Fault Refusal :=
  s.sealed (s.collRun 0x42 h c (.cag h c))

/-- CAR (R329-R332). -/
def execCar (h : EcbHead) (c : CollCmd) (s : State) : Host.Outcome State Fault Refusal :=
  s.sealed (s.collRun 0x43 h c (.car h c))

end Sys2Proof.Machine
end

