-- ==== Sys2Proof/Machine/Engine.lean ====
section
/-!
DEFINITION. The engine words, class EC (spec/14 R294): ECGO, MXW, MXGO, CPTPL (spec/15 R339, R345, R346, spec/16 R370, R371)
and the words of published regions PUBV, REFSTOP, VERGET (spec/09 R200-R206, spec/16 R380, spec/17 R414).
-/

namespace Sys2Proof.Machine

/-- A 64-byte aligned range of the scratchpad that sa names as CPTPL and ECGO read it (R339): WINDOW_FAULT, MISALIGNED,
then what the occupant meets on reading it. -/
def State.imageAt (s : State) (sa : Word) (n : Nat) (f : State → Nat → Sq) : Sq :=
  match spOffset sa with
  | none => .raise cWindowFault sa
  | some o =>
    guard (s.inPages o n) cWindowFault sa
      (guard (o % 64 == 0) cMisaligned sa
        (s.notExch sa ((s.touch s.focus s.arch.seq [(o, n)] true false).sq fun s => f s o)))

/-- n doublewords of the scratchpad. -/
def Arch.spWords (a : Arch) (o n : Nat) : List Word :=
  (List.range n).map fun i => BitVec.ofNat 64 (leNat (a.spBytes (o + 8 * i) 8))

/-- ECGO (R345). -/
def execEcgo (eng : EcbEngine) (sd sa : SReg) (s : State) : Host.Outcome State Fault Refusal :=
  s.run (s.sq false [sd, sa] (s.imageAt (s.arch.rd sa) 128 fun s o =>
    let slots := s.arch.spWords o 16
    let s0 := ecbSlot slots 0
    guard ((ecbCrc slots).toNat == (ecbSlot slots 15).field 0 32) cEcbCheck ((ecbCrc slots).setWidth 64)
      (guard (s0.field 8 3 == eng.code && ecbEngineOf (s0.field 0 8) == some eng) cEcbIllegal 0
        (s.ecbPush eng sd slots))))

/-- MXW (R370). -/
def execMxw (sa : SReg) (slot : Fin 16) (s : State) : Host.Outcome State Fault Refusal :=
  s.run (s.sq false [sa] (s.notExch s.arch.word
    (.ok (s.modArch fun a => { a with bank := kset a.bank slot.val (a.rd sa) }).done)))

/-- The image that MXGO pushes: the build bank, with its CRC in slot 15 (R370). -/
def Arch.bankImage (a : Arch) : List Word :=
  let slots := (List.range 15).map a.bankSlot
  slots ++ [(ecbCrc slots).setWidth 64]

/-- MXGO (R370). -/
def execMxgo (sd : SReg) (s : State) : Host.Outcome State Fault Refusal :=
  let slots := s.arch.bankImage
  let s0 := ecbSlot slots 0
  s.run (s.sq false [sd] (s.notExch s.arch.word
    (guard (s0.field 8 3 == 1 && ecbEngineOf (s0.field 0 8) == some .mx) cEcbIllegal 0 (s.ecbPush .mx sd slots))))

/-- CPTPL (R339): no cause of its own in an exchange stream (DEDUCED, log entry 14). -/
def execCptpl (tpl : Fin 256) (sa : SReg) (s : State) : Host.Outcome State Fault Refusal :=
  let x := s.arch.rd sa
  s.run (s.sq false [sa] (match spOffset x with
    | none => .raise cWindowFault x
    | some o =>
      guard (s.inPages o 64) cWindowFault x
        (guard (o % 64 == 0) cMisaligned x
          ((s.touch s.focus s.arch.seq [(o, 64)] true false).sq fun s =>
            let t := s.arch.spWords o 8
            guard (tplOk t) cTemplateFault (BitVec.ofNat 64 tpl.val)
              (.ok (s.modArch fun a => { a with tpls := kset a.tpls tpl.val t }).done)))))

/-- A word that leaves through the Safety Net and answers in sd once it has performed (R320, R380). -/
def State.verb (s : State) (sd : SReg) (oc payload : Nat) (body : SnBody) : Sq :=
  waitFor (s.netFits s.focus payload) .inFlight
    (let p : Pend := { kind := .verb, seq := s.arch.seq, sd := sd, va := 0, pa := 0, pa2 := 0, n := 8, sx := false,
                       oc := oc, scope := 0, hint := .normal, addr := s.arch.word }
     let s := s.netPut s.focus s.arch.seq oc payload body
     .ok (s.modCur fun k => { k with pend := k.pend ++ [p], arch := k.arch.tick }).done)

/-- PUBV (R380): it counts as a store of class 0 for FENCE. -/
def execPubv (sd : SReg) (region : Fin 4096) (n : Fin 8) (final : Bool) (s : State) : Host.Outcome State Fault Refusal :=
  s.run (s.sq false [sd] (s.notExch s.arch.word (s.verb sd 0 8 (.pubv sd region.val n.val final))))

/-- REFSTOP (R380). -/
def execRefstop (sd : SReg) (region : Fin 4096) (s : State) : Host.Outcome State Fault Refusal :=
  s.run (s.sq false [sd] (s.notExch s.arch.word (s.verb sd 0 8 (.refstop sd region.val))))

/-- The value of VERGET (R206). -/
def State.regionVersion (s : State) (job r : Nat) : Word :=
  if s.regionSize job r = 0 then BitVec.allOnes 64 else BitVec.ofNat 64 (s.regionNibble job r)

/-- VERGET (R414): the entry is read at once at the home slice, as a load of the task, and the read acquires what the PUBV of its version
released (R167, R206). -/
def execVerget (sd : SReg) (region : Fin 4096) (s : State) : Host.Outcome State Fault Refusal :=
  s.run (s.sq false [sd] (s.notExch s.arch.word
    (match s.regionRead s.runD.job region.val with
     | (t, some f) => t.xlFail 0 f
     | (t, none) => .ok ((t.acquire t.focus).doneWith sd (t.regionVersion s.runD.job region.val)))))

end Sys2Proof.Machine
end

