-- ==== Sys2Proof/Machine/Fabric.lean ====
section
/-!
DEFINITION. Denpen links (spec/13 R274, R275) and the loss of a device (R281).
-/

namespace Sys2Proof.Machine

/-! ## Flits (R275) -/

def flitOk (bs : List Byte) : Bool := bs.length == 64 && (crc32c (bs.take 60)).toNat == leNat (bs.drop 60)

/-- The other members that the accepted flits of a port announce (DESIGN CHOICE, log entry 20). -/
def memberOf (f : List Nat) : Member :=
  let g (i : Nat) : Nat := f.getD i 0
  { dev := g 9, tag := g 0, op := g 1, rank := g 2,
    cmd := { (default : CollCmd) with arr := g 3 == 1, e := BitVec.ofNat 32 (g 4), bigW := BitVec.ofNat 5 (g 5), w := BitVec.ofNat 5 (g 6),
                                      b := BitVec.ofNat 32 (g 7), m := BitVec.ofNat 16 (g 8), rank := BitVec.ofNat 16 (g 2) },
    data := (f.drop 10).map (BitVec.ofNat 32) }

/-- A flit is accepted: the next number is expected, and what it announces is known. -/
def State.acceptFlit (s : State) (p : Nat) (bs : List Byte) : State :=
  let q := s.port p
  let got := q.got ++ [bs.take 60]
  let ms := (Config.announced got).map memberOf
  { s.modPort p fun q => { q with got := got, expect := (q.expect + 1) % 4096, waiting := false, replays := kdel q.replays q.expect } with
    members := (s.members.filter fun (x : Member) => !ms.any fun m => m.tag == x.tag && m.dev == x.dev) ++ ms }

/-- The link of a port retrains, and a flit fails the step that it carried (R228, R275). -/
def State.retrain (s : State) (p : Nat) (step : Option (Nat × Nat)) : State :=
  let s := s.modPort p fun q => { q with state := 1, waiting := false }
  match step with
  | none => s
  | some x => match s.colls.find? fun k => k.tag == x.1 && k.attached && !s.alone k && decide (x.2 ≤ k.steps) with
    | some k => s.stepsFail k [x.2]
    | none => s

/-- The step that a flit carried which the port has not received whole: of a collective whose present step the port works on, or of none. -/
def State.brokenStep (s : State) (p seq : Nat) : Option (Nat × Nat) :=
  let ks := s.colls.filter fun k => k.attached && Config.stepPort k.tag k.steps % 6 == p
  if s.fabricSize (p / 2) = 1 then none
  else (ks[Config.brokenFlit p seq]?).map fun k => (k.tag, k.steps)

/-- A CRC mismatch: the receiver discards the flit and every later one, and asks for a replay; after 8 replays of one flit the link
retrains, and the flit fails its collective step. -/
def State.badFlit (s : State) (p : Nat) : State :=
  let q := s.port p
  let n := kget q.replays q.expect 0
  if 8 ≤ n then (s.modPort p fun q => { q with replays := kdel q.replays q.expect }).retrain p (s.brokenStep p q.expect)
  else s.modPort p fun q => { q with waiting := true, replays := kset q.replays q.expect (n + 1) }

/-- FLIT_RECEIVE on a port that is up; an incoming flit wakes the device (R287). -/
def State.flit (s : State) (p : Nat) (bs : List Byte) : State :=
  let s := s.wake
  let q := s.port p
  if q.state ≠ 2 then s
  else if !flitOk bs then s.badFlit p
  else if Config.flitSeq bs % 4096 = q.expect then s.acceptFlit p bs
  else s

def execFlitReceive (port : Fin 6) (bytes : List Byte) (s : State) : Host.Outcome State Fault Refusal :=
  s.sealed (s.flit port.val bytes)

/-- LINK_REPLAY_REQUEST: the kept flits go out again from a number on; the port counts them (R274). After 8 replays of one flit the link
retrains. -/
def State.replayLink (s : State) (p seq : Nat) : State :=
  let q := s.port p
  let n := (q.sent.dropWhile fun f => f.1 != seq).length
  if 8 ≤ kget q.asked seq 0 then (s.modPort p fun q => { q with asked := kdel q.asked seq }).retrain p (kfind q.carries seq)
  else if n = 0 then s
  else (s.modPort p fun q => { q with asked := kset q.asked seq (kget q.asked seq 0 + 1) }).bump (0x5210 + 8 * p) (n * 2 ^ 32)

def execLinkReplayRequest (port : Fin 6) (seq : BitVec 12) (s : State) : Host.Outcome State Fault Refusal :=
  s.sealed (s.replayLink port.val seq.toNat)

/-- LINK_SIGNAL_CHANGE: training while a signal is there, down without one. -/
def State.signal (s : State) (p : Nat) (on : Bool) : State :=
  s.modPort p fun q =>
    if on then (if q.state = 0 then { q with state := 1 } else q)
    else if q.state = 0 then q else { q with state := 0, downSince := s.cycle, waiting := false }

def execLinkSignalChange (port : Fin 6) (signal : Bool) (s : State) : Host.Outcome State Fault Refusal :=
  s.sealed (s.signal port.val signal)

/-! ## The partition and the neighbours (R274) -/

/-- A device by its coordinates. -/
def devCode (x y z : Nat) : Nat := 256 * z + 16 * y + x

/-- The neighbour at a port, with the wrap of each dimension. -/
def State.neighbour (s : State) (p : Nat) : Nat :=
  let at_ (d : Nat) : Nat :=
    if p / 2 = d then (s.place d + (if p % 2 = 1 then 1 else s.fabricSize d - 1)) % s.fabricSize d else s.place d
  devCode (at_ 0) (at_ 1) (at_ 2)

/-- LINK_TRAINING_COMPLETE: the port is up, and its neighbour is there. -/
def State.trained (s : State) (p : Nat) : State :=
  if (s.port p).state = 1 then
    { s.modPort p (fun q => { q with state := 2, lost := false, waiting := false }) with lostDevs := ndel s.lostDevs (s.neighbour p) }
  else s

def execLinkTrainingComplete (port : Fin 6) (s : State) : Host.Outcome State Fault Refusal := s.sealed (s.trained port.val)

/-! ## Loss of a device (R281) -/

/-- A CL command of more than one member that has not started. -/
def Ecb.needsOthers (e : Ecb) : Bool :=
  !e.started && match decodeEcb .cl e.slots with
    | .ok (.crs _ c) | .ok (.cag _ c) | .ok (.car _ c) => c.m != 1
    | _ => false

/-- A core whose CL queue holds such a command: its task's launch faults with COLL_FAIL. -/
def State.endQueued (s : State) (core : Nat) : State :=
  match (s.core core).run, (s.core core).arch.cl.find? Ecb.needsOthers with
  | some r, some e =>
    (s.modCore core fun x => x.fault s.cycle cCollFail (BitVec.ofNat 64 ((ecbSlot e.slots 0).field 32 16)) x.arch.word []).faultStep
      r.job r.launch cCollFail
  | _, _ => s

/-- Collectives of more than one member end with COLL_FAIL, without retry: those that have started, and those that are queued. -/
def State.endColls (s : State) : State :=
  let s := s.cores.foldl (fun (s : State) c => s.endQueued c.1) s
  (s.colls.filter fun k => !s.alone k).foldl (fun (s : State) k => s.collFatal k cCollFail k.tag) s

/-- Every open job: rung 5 with an open step, else its word reads FAULTED. -/
def State.loseJob (s : State) (job : Nat) : State :=
  match kfind s.jobs job with
  | none => s
  | some j =>
    if j.status ≠ stPending ∧ j.status ≠ stRunning then s
    else if j.step.isSome then s.rung5 job cCollFail
    else (s.modJob job fun j => { j with status := stFaulted, cause := cCollFail }).writeJob job

/-- Steps 2 to 4 of R281, once for a lost device. -/
def State.deviceLost (s : State) (dev : Nat) : State :=
  if s.lostDevs.contains dev then s
  else
    let s := ({ s with lostDevs := nins s.lostDevs dev, jobs := s.jobs.map fun (j : Nat × Job) => (j.1, { j.2 with lost := nins j.2.lost dev }) } :
      State).endColls
    let s := s.jobs.foldl (fun (s : State) j => s.loseJob j.1) s
    (s.devLog 3 (logEntry 2 7 0 0 s.cycle) 0).send 0x21 0 (payloadOf dev)

/-- Step 1 of R281: a loss notice goes out over the other links that are up, in the dimensions of more than one device. -/
def State.forwardLoss (s : State) (p dev : Nat) : State :=
  ((List.range 6).filter fun q => q != p && (s.port q).state == 2 && s.fabricSize (q / 2) != 1).foldl
    (fun (s : State) q => s.sendFlits q none [Config.lossFlit dev]) s

/-- DEVICE_LOST: a port that has been down past the loss limit, in a dimension of more than one device. -/
def State.neighbourLost (s : State) (p : Nat) : State :=
  let q := s.port p
  if q.state ≠ 0 ∨ q.lost ∨ s.fabricSize (p / 2) = 1 ∨ s.cycle ≤ q.downSince + Config.cyclesPerUs * (s.reg 0x5240).toNat then s
  else ((s.modPort p fun q => { q with lost := true }).forwardLoss p (s.neighbour p)).deviceLost (s.neighbour p)

def execDeviceLost (port : Fin 6) (s : State) : Host.Outcome State Fault Refusal := s.sealed (s.neighbourLost port.val)

/-- LOSS_NOTICE about a device of the partition. -/
def execLossNotice (x y z : Fin 16) (s : State) : Host.Outcome State Fault Refusal :=
  s.sealed (if x.val < s.fabricSize 0 ∧ y.val < s.fabricSize 1 ∧ z.val < s.fabricSize 2 then s.deviceLost (devCode x.val y.val z.val)
    else s)

end Sys2Proof.Machine
end

