-- ==== Sys2Proof/Machine/Launch.lean ====
section
/-!
DEFINITION. Launches and graphs: acceptance and refusal of a record (spec/02 R29-R32, R42, R44, R459, R460), graphs (R36, R37), a launch
that becomes RUNNING (R34, spec/08 R178-R180, spec/09 R201), CANCEL (R45, R46), and the phases of a job (R38-R43, R458, R459).
-/

namespace Sys2Proof.Machine

/-! ## Launch records (R29-R32) -/

/-- The cause of a launch that a failed translation refuses or faults: PROTECTION, or UNCORRECTABLE where a table or the record stands in a
poisoned sector (R225). -/
def XlFail.cause : XlFail → Nat
  | .bad => cUncorrectable
  | .page | .prot => cProtection

/-- Every field within its limits, every reserved field 0, every pointer aligned (R32). -/
def recordOk (job : Nat) (ws : List Word) : Bool :=
  let w (i : Nat) : Word := ws.getD i 0
  let exch := bitAt (w 0) 18
  let entry := (w 9).field 0 32
  (w 0).field 19 13 == 0 && (w 0).field 0 16 == 1 && decide (1 ≤ (w 1).field 32 32) && decide ((w 1).field 32 32 ≤ 1048576) &&
    (w 1).field 0 32 == job && (w 2).toNat % 256 == 0 && (w 3).toNat % 64 == 0 && (w 4).toNat % 16 == 0 &&
    decide (1 ≤ (w 5).field 48 16) && decide ((w 5).field 48 16 ≤ 1024) && (w 5).field 47 1 == 0 &&
    decide (1 ≤ (w 5).field 40 7) && decide ((w 5).field 40 7 ≤ 64) && decide ((w 5).field 32 8 ≤ 128) &&
    decide ((w 5).field 26 6 ≤ 32) && decide ((w 5).field 16 10 ≤ 768) && decide (1 ≤ (w 5).field 0 16) &&
    decide ((w 5).field 0 16 ≤ 1024) && (w 6).toNat % 8 == 0 && (w 7).toNat % 64 == 0 && (w 8).field 56 8 == 0 &&
    decide ((w 8).field 32 16 ≤ 1024) && decide (64 ≤ (w 8).field 0 32) && decide ((w 8).field 0 32 ≤ 65536) &&
    (if exch then entry != 0xFFFFFFFF else entry == 0xFFFFFFFF) && decide ((w 10).field 32 32 ≤ 65535) &&
    w 12 == 0 && w 13 == 0 && w 14 == 0 && w 15 == 0

/-- An entry of the binding table (R31), none for a field outside its limits. -/
def bindOf (w0 w1 : Word) : Option Bind :=
  let nmus := bitAt w1 31
  let n := w1.field 10 11
  let t := w1.field 0 10
  let cap := if nmus then 512 else 1024
  if w0.field 32 32 = 0 ∨ w1.field 32 32 ≠ 0 ∨ w1.field 21 10 ≠ 0 ∨ n = 0 ∨ cap < n ∨ cap < t + n then none
  else some { first := w0.field 0 32, count := w0.field 32 32, nmus := nmus, target := t, targets := n }

/-- Runs in order of their first index cover 0 to count − 1 exactly once. -/
def covers : List Bind → Nat → Nat → Bool
  | [], pos, count => pos == count
  | b :: t, pos, count => b.first == pos && covers t (pos + b.count) count

/-- The binding table at va, none when it is refused. -/
def State.bindings (s : State) (job va n count : Nat) : Option (List Bind) :=
  let es := (List.range n).map fun i => bindOf (s.jobWord job (va + 16 * i)) (s.jobWord job (va + 16 * i + 8))
  let bs := (es.filterMap id).foldl (fun l b => insertBy (fun x y => decide (x.first < y.first)) b l) []
  if es.all Option.isSome && covers bs 0 count then some bs else none

/-- What the check of a record comes to. hold: the words that have been read; pending: its completion word has translated (R44). -/
inductive Accept where
  | accept (ws : List Word) (binds : List Bind)
  | refuse (cause : Nat) (ws : Option (List Word))
  | hold (access va : Nat) (ws : List Word) (pending : Bool)
  deriving DecidableEq, Repr

/-- The phase of a record against the job's phases (R42, R459). runs: the compute step of the phase in progress still runs. -/
def Job.phaseOk (j : Job) (p : Nat) (runs : Bool) : Bool :=
  (match j.confirmed with | some c => decide (c < p) | none => true) &&
  (match j.phase with
   | some q => decide (q.num < p) || (q.num == p && q.part == .compute && runs)
   | none => true)

/-- The checks of R32 that look at other launches. -/
def State.freshOk (s : State) (job : Nat) (ws : List Word) : Bool :=
  let id := (ws.getD 0 0).field 32 32
  let pass := (ws.getD 0 0).field 17 1
  let phase := (ws.getD 9 0).field 32 32
  !(s.launches.any fun l => l.job == job && l.id == id && l.live) &&
    !(s.launches.any fun l => l.job == job && l.accepted && l.phase == phase && l.pass != pass) &&
    (match kfind s.jobs job with
     | some j => j.phaseOk phase (s.launches.any fun l => l.job == job && l.accepted && l.live && l.phase == phase)
     | none => false)

/-- A pointer of a record that has been read: k goes on, a page fault holds the launch, another failure refuses it. -/
def State.checkPtr (r : State × Option (XlFail × Nat)) (access : Nat) (ws : List Word) (pending : Bool) (k : State → State × Accept) :
    State × Accept :=
  match r with
  | (s, none) => k s
  | (s, some (.page, a)) => (s, .hold access a ws pending)
  | (s, some (f, _)) => (s, .refuse f.cause (some ws))

/-- The check of a launch record at acceptance (R32, R460). -/
def State.checkRecord (s : State) (job va : Nat) : State × Accept :=
  if va % 256 ≠ 0 then (s, .refuse cIllegalField none)
  else match s.jobRead job va 256 with
    | (s, some (.page, a)) => (s, .hold 0 a [] false)
    | (s, some (f, _)) => (s, .refuse f.cause none)
    | (s, none) =>
      let ws := (List.range 32).map fun i => s.jobWord job (va + 8 * i)
      let w (i : Nat) : Nat := (ws.getD i 0).toNat
      let nbind := (ws.getD 5 0).field 0 16
      if !recordOk job ws || !s.freshOk job ws then (s, .refuse cIllegalField (some ws))
      else State.checkPtr (s.jobWrites job (w 6) 8) 1 ws false fun s =>
        State.checkPtr (s.jobWrites job (w 7) ((ws.getD 8 0).field 0 32)) 1 ws true fun s =>
          State.checkPtr (s.jobRead job (w 4) (16 * nbind)) 0 ws true fun s =>
            match s.bindings job (w 4) nbind ((ws.getD 1 0).field 32 32) with
            | none => (s, .refuse cIllegalField (some ws))
            | some bs => (s, .accept ws bs)

/-- The launch of an accepted record. -/
def Lnch.make (job va : Nat) (ws : List Word) (bs : List Bind) (graph : Option Nat) : Lnch :=
  { job := job, id := (ws.getD 0 0).field 32 32, record := va, words := ws, binds := bs, status := stPending, cause := 0,
    committed := 0, deps := (ws.getD 10 0).field 32 32, graph := graph, hold := none, inputs := [], bufs := [], ranges := [],
    pubs := [] }

/-- A launch that has ended takes another number, and with it everything that names it. -/
def State.renameLaunch (s : State) (job old new : Nat) : State :=
  let f (j i : Nat) : Nat := if j = job ∧ i = old then new else i
  let graph (g : Graph) : Graph := { g with
    launches := g.launches.map (f g.job),
    succs := ((g.succs.map fun x => (f g.job x.1, x.2.map (f g.job))).foldl (fun m x => kset m x.1 x.2) []) }
  let core (k : Core) : Core := { k with
    run := k.run.map fun r => { r with launch := f r.job r.launch },
    deliv := k.deliv.map fun d => { d with launch := f d.job d.launch } }
  let phase (j : Job) : Job := { j with phase := j.phase.map fun p =>
    { p with streams := p.streams.map fun x => { x with launch := f j.id x.launch } } }
  let entry (e : Ready) : Ready := { e with launch := f e.job e.launch }
  let req (r : NmReq) : NmReq := { r with launch := f r.job r.launch }
  { s with
    launches := s.launches.map fun l => { l with id := f l.job l.id },
    graphs := s.graphs.map graph,
    cores := s.cores.map fun c => (c.1, core c.2),
    jobs := s.jobs.map fun j => (j.1, phase j.2),
    tasks := s.tasks.map fun t => { t with launch := f t.job t.launch },
    rings := s.rings.map fun r => (r.1, { r.2 with ready := r.2.ready.map entry, spill := r.2.spill.map entry }),
    devFaults := s.devFaults.map fun x => (x.1, f x.1 x.2.1, x.2.2),
    net := s.net.map fun i => { i with launch := f i.job i.launch },
    xmcs := s.xmcs.map fun x => { x with launch := f x.job x.launch },
    nmus := s.nmus.map fun n => (n.1, { n.2 with
      queue := n.2.queue.map req, run := n.2.run.map fun y => { y with req := req y.req } }),
    colls := s.colls.map fun c => { c with launch := f c.job c.launch } }

/-- A number for a launch that has ended: no record can name it, and no launch has it. Its low 32 bits stay the id. -/
def State.oldNumber (s : State) (id : Nat) : Nat :=
  id + 2 ^ 32 * (((s.launches.filter fun l => decide (l.id < 2 ^ 64)).foldl (fun m l => max m (l.id / 2 ^ 32)) 0) + 1)

/-- A new launch takes an id; a launch that has ended under it keeps its place under another number. -/
def State.addLaunch (s : State) (l : Lnch) : State :=
  let s := if (s.launch l.job l.id).isSome then s.renameLaunch l.job l.id (s.oldNumber l.id) else s
  { s with launches := s.launches ++ [l] }

/-- A refused launch (R32, R150, R460): its word and the first 64 bytes of its report where both pointers translate, else a notice. -/
def State.refuse (s : State) (job va cause : Nat) (ws : Option (List Word)) : State :=
  let note (s : State) : State := s.send 0x20 4 (payloadOf va)
  match ws with
  | none => note s
  | some ws =>
    let l := { Lnch.make job va ws [] none with status := stRefused, cause := cause }
    match s.jobWrites job l.cw 8 with
    | (s, some _) => note s
    | (s, none) => match s.jobWrites job l.report 64 with
      | (s, some _) => note s
      | (s, none) =>
        let word := cwWord stRefused cause 0
        let s := s.devWords job va l.report (l.reportWords word true)
        (s.devWord job va l.cw word).notice l.cw

/-- A launch that waits for the pager before its record can be read (R44); its id is one that no record can name. -/
def Lnch.placeholder (job va : Nat) (graph : Option Nat) : Lnch :=
  { Lnch.make job va [] [] graph with id := 2 ^ 64 + va, hold := some .accept }

/-- A launch that waits for the pager before it is accepted (R44): PENDING under its id once its record has been read, in its word once that
translates. graph: the graph whose acceptance it holds. -/
def State.holdLaunch (s : State) (job va : Nat) (ws : List Word) (pending : Bool) (graph : Option Nat) : State :=
  if ws.isEmpty then { s with launches := s.launches ++ [Lnch.placeholder job va graph] }
  else
    let l := { Lnch.make job va ws [] graph with hold := some .accept }
    let s := s.addLaunch l
    if pending then s.writeCw job l.id else s

/-- Submit a launch record (R32, R34, R460). -/
def State.submitLaunch (s : State) (job va : Nat) : State :=
  match s.checkRecord job va with
  | (s, .hold acc a ws pending) => (s.holdLaunch job va ws pending none).pfRecord 5 acc a va true job
  | (s, .refuse cause ws) => s.refuse job va cause ws
  | (s, .accept ws bs) =>
    let l := Lnch.make job va ws bs none
    (s.addLaunch l).writeCw job l.id

/-! ## Graph records (R36, R37) -/

/-- The launches that can start and finish in order, given their counts and successors: what is left has a nonzero count. -/
def settleCounts (succs : KMap (List Nat)) : Nat → List Nat → KMap Nat → KMap Nat
  | 0, _, counts => counts
  | _ + 1, [], counts => counts
  | fuel + 1, i :: ready, counts =>
    let r := (kget succs i []).foldl (fun (a : KMap Nat × List Nat) j =>
      let n := kget a.1 j 0
      if n = 0 then a else (kset a.1 j (n - 1), if n = 1 then a.2 ++ [j] else a.2)) (counts, ready)
    settleCounts succs fuel r.2 r.1

/-- What the check of a graph record comes to. hold: the VA that RESUME must name, and of a launch that holds the graph what its record gave,
and whether its word has translated (R44). -/
inductive GraphAcc where
  | accept (ls : List Lnch) (succs : KMap (List Nat))
  | refuse (cause : Nat) (refused : List (Nat × Nat × Option (List Word)))
  | hold (access va resume : Nat) (launch : Option (List Word × Bool))

/-- The records of a graph in array order. A record that cannot be read, or stands at a misaligned address, refuses the graph with
ILLEGAL_FIELD (R460). -/
def State.checkLaunches (s : State) (job graph : Nat) : List Nat → List Lnch → State × GraphAcc
  | [], ls => (s, .accept ls [])
  | va :: vas, ls =>
    let (t, r) := ({ s with launches := s.launches ++ ls } : State).checkRecord job va
    let t : State := { t with launches := s.launches }
    match r with
    | .hold acc a ws pending => (t, .hold acc a va (some (ws, pending)))
    | .refuse cause ws => (t, .refuse (if ws.isNone then cIllegalField else cause) [(va, cause, ws)])
    | .accept ws bs => t.checkLaunches job graph vas (ls ++ [Lnch.make job va ws bs (some graph)])

/-- Every successor list of a graph, and its cycles: a list that names a launch outside the graph or has no end, and a cycle, are
ILLEGAL_FIELD (R37); one that does not translate is as any pointer at acceptance (R460). -/
def State.graphLists (s : State) (job : Nat) (ls : List Lnch) : State × GraphAcc :=
  let ids := ls.map (·.id)
  let rec go (s : State) (m : KMap (List Nat)) : List Lnch → State × Except GraphAcc (KMap (List Nat))
    | [] => (s, .ok m)
    | l :: t =>
      if l.succ = 0 then go s (kset m l.id []) t
      else match s.readList job l.succ true 1048577 with
        | (s, es, none) => if es.all ids.contains then go s (kset m l.id es) t else (s, .error (.refuse cIllegalField []))
        | (s, _, some (some (.page, va))) => (s, .error (.hold 0 va l.record (some (l.words, true))))
        | (s, _, some (some (f, _))) => (s, .error (.refuse f.cause [(l.record, f.cause, some l.words)]))
        | (s, _, some none) => (s, .error (.refuse cIllegalField []))
  match go s [] ls with
  | (s, .error r) => (s, r)
  | (s, .ok succs) =>
    let counts := ls.foldl (fun (m : KMap Nat) l => kset m l.id l.deps) []
    let ready := (ls.filter (·.deps == 0)).map (·.id)
    let left := settleCounts succs (ls.length + 1) ready counts
    (s, if left.any fun c => c.2 != 0 then .refuse cIllegalField [] else .accept ls succs)

/-- A pointer of a graph record: k goes on, a page fault holds the graph, another failure refuses it. -/
def State.graphPtr (r : State × Option (XlFail × Nat)) (access va : Nat) (k : State → State × GraphAcc) : State × GraphAcc :=
  match r with
  | (s, none) => k s
  | (s, some (.page, a)) => (s, .hold access a va none)
  | (s, some (f, _)) => (s, .refuse f.cause [])

/-- The check of a graph record: its fields, the launch records, the successor lists. An id that a live graph of the job holds is refused
with ILLEGAL_FIELD (DESIGN CHOICE, log entry 39). -/
def State.checkGraph (s : State) (job va : Nat) : State × GraphAcc :=
  State.graphPtr (s.jobRead job va 32) 0 va fun s =>
    let w0 := s.jobWord job va
    let n := w0.field 32 32
    let cw := (s.jobWord job (va + 16)).toNat
    let arr := (s.jobWord job (va + 8)).toNat
    if n = 0 ∨ 65536 < n ∨ cw % 8 ≠ 0 ∨ s.jobWord job (va + 24) ≠ 0 ∨
        (s.graphs.any fun g => g.job == job && g.id == w0.field 0 32 && (g.status == stPending || g.status == stRunning)) then
      (s, .refuse cIllegalField [])
    else State.graphPtr (s.jobWrites job cw 8) 1 va fun s =>
      State.graphPtr (s.jobRead job arr (8 * n)) 0 va fun s =>
        let vas := (List.range n).map fun i => (s.jobWord job (arr + 8 * i)).toNat
        match s.checkLaunches job (w0.field 0 32) vas [] with
        | (s, .accept ls _) => s.graphLists job ls
        | r => r

/-- Submit a graph record: every launch is accepted, or none (R36, R37). dead: its launches that a CANCEL has named while it waited (R45). -/
def State.submitGraph (s : State) (job va : Nat) (dead : NSet) : State :=
  let (s, r) := s.checkGraph job va
  let gid := (s.jobWord job va).field 0 32
  match r with
  | .hold acc a resume launch =>
    let g : HeldGraph := { job := job, va := va, resume := resume, cancelled := dead }
    let s : State := { s with heldGraphs := s.heldGraphs ++ [g] }
    let s := match launch with
      | some (ws, pending) => s.holdLaunch job resume ws pending (some gid)
      | none => s
    s.pfRecord 5 acc a resume true job
  | .refuse cause rs => (rs.foldl (fun s r => s.refuse job r.1 r.2.1 r.2.2) s).writeUnstarted job va stRefused cause
  | .accept ls succs =>
    let g : Graph := { job := job, id := gid, cw := (s.jobWord job (va + 16)).toNat, launches := ls.map (·.id), succs := succs,
                       status := stPending, cause := 0 }
    -- the launches first: the graph that ended under this id keeps what it names
    let s := ls.foldl (fun s l => (s.addLaunch l).writeCw job l.id) s
    let s := { s with graphs := (s.graphs.filter fun (x : Graph) => !(x.job == job && x.id == gid)) ++ [g] }
    dead.foldl (fun s i => s.cancelLaunch job i) (s.writeGraph job gid)

/-- What a CANCEL of a launch can find of the graphs of the job that wait for the pager: the ids that a graph's records give, as far as they can be
read (R45). -/
def State.graphIds (s : State) (job va : Nat) : State × List Nat :=
  match s.jobRead job va 32 with
  | (s, some _) => (s, [])
  | (s, none) =>
    let n := (s.jobWord job va).field 32 32
    let arr := (s.jobWord job (va + 8)).toNat
    if 65536 < n then (s, [])
    else match s.jobRead job arr (8 * n) with
      | (s, some _) => (s, [])
      | (s, none) => ((List.range n).map fun i => (s.jobWord job (arr + 8 * i)).toNat).foldl (fun (a : State × List Nat) r =>
          match a.1.jobRead job r 256 with
          | (s, some _) => (s, a.2)
          | (s, none) => (s, a.2 ++ [(s.jobWord job r).field 32 32])) (s, [])

/-! ## A launch becomes RUNNING (R34, R178-R180, R185, R201) -/

/-- The checks of R178 on the TCB of a task of a launch. A placement hint that names no target of the binding is accepted and not followed
(R181; DESIGN CHOICE, log entry 58). -/
def State.tcbOk (s : State) (l : Lnch) (index : Nat) : Bool :=
  let t := l.tcbs + 64 * index
  let w (o : Nat) : Word := s.tcbWord l.job t o
  let nmus : Bool := match l.bindOf index with | some b => b.nmus | none => false
  (w 0).field 61 3 == 0 && (w 0).field 59 2 != 3 && decide ((w 0).field 48 8 ≤ 3) && (w 0).field 40 4 == 0 &&
    (w 0).field 32 8 == 0 && (!nmus || 4 * (w 0).field 0 32 % 64 == 0) && (w 16).field 48 16 == 0 &&
    decide ((w 16).field 32 16 ≤ 7) && (w 24).toNat % 4 == 0 && (w 40).field 56 8 == 0 &&
    ((w 40).field 0 8 == tWaiting || (w 40).field 0 8 == tDormant) && (w 48).field 32 32 == index &&
    (w 48).field 0 32 == l.id % 2 ^ 32 && w 56 == 0

/-- The regions of a job's table that are in use. -/
def State.regionsInUse (s : State) (job : Nat) : List Nat :=
  (List.range 4096).filter fun r => (s.paOf job (s.regionVa job r + 8)).isSome && s.regionSize job r != 0

/-- The device reads the region table, page by page (R147, R201, R243). -/
def State.regionsRead (s : State) (job : Nat) : State :=
  let va := s.regionVa job 0
  (List.range ((65535 + va) / 4096 + 1 - va / 4096)).foldl (fun s i =>
    let lo := max va ((va / 4096 + i) * 4096)
    (s.jobRead job lo (min (65536 + va) ((va / 4096 + i + 1) * 4096) - lo)).1) s

/-- The inputs of a launch's tasks, as index, slot and region; none where a list is refused (R201). -/
def State.inputsOf (s : State) (l : Lnch) : State × Option (List (Nat × Nat × Nat)) :=
  let s := s.regionsRead l.job
  let (s, lists) := (s.regionsInUse l.job).foldl (fun (a : State × List (Nat × Option (List (Nat × Nat)))) r =>
    let (s, es) := a.1.consumersOfRegion l.job r
    (s, a.2 ++ [(r, es)])) (s, [])
  if lists.any fun x => x.2.isNone then (s, none)
  else
    let all := lists.flatMap fun x => (x.2.getD []).filterMap fun e =>
      if l.tcbs ≤ e.2 ∧ e.2 < l.tcbs + 64 * l.count then some ((e.2 - l.tcbs) / 64, e.1, x.1) else none
    let clash : Bool := (all.zipIdx).any fun a => (all.zipIdx).any fun b =>
      a.2 != b.2 && a.1.1 == b.1.1 && a.1.2.1 == b.1.2.1 && a.1.2.2 != b.1.2.2
    let plain : Bool := all.any fun a => !s.tcbVersioned l.job (l.tcbs + 64 * a.1)
    (s, if clash || plain then none else some all)

/-- WCLASS of a task with INHERIT, when its TCB is first read (R185). -/
def State.firstRead (s : State) (l : Lnch) (index : Nat) : State :=
  let t := l.tcbs + 64 * index
  let w := s.tcbWord l.job t 0
  if bitAt w 45 then s.tcbSet l.job l.record t 0 46 2 (w.field 48 8) else s

/-- The compute step of a launch's phase has begun (R34). -/
def State.phaseOpen (s : State) (job phase : Nat) : Bool :=
  match kfind s.jobs job with
  | some j => match j.phase with
    | some p => p.num == phase && p.part == .compute
    | none => false
  | none => false

/-- LAUNCH_RUNNING. -/
def State.launchRunning (s : State) (job id : Nat) : State :=
  match s.launch job id with
  | none => s
  | some l =>
    if l.status ≠ stPending ∨ l.hold.isSome ∨ l.deps ≠ 0 ∨ s.phaseOpen job l.phase = false then s
    else match s.jobWrites job l.tcbs (64 * l.count) with
      | (s, some (.page, a)) =>
        (s.modLaunch job id fun l => { l with hold := some .tcbs }).pfRecord 5 1 a l.record true job
      | (s, some (f, _)) => s.launchFault job id f.cause
      | (s, none) =>
        let (s, bad) := s.jobLines job l.tcbs (64 * l.count)
        if bad then s.launchFault job id cUncorrectable
        else if !(List.range l.count).all (s.tcbOk l) then s.launchFault job id cIllegalField
        else match s.inputsOf l with
          | (s, none) => s.launchFault job id cIllegalField
          | (s, some ins) =>
            let l := { l with status := stRunning, inputs := ins }
            let s := (s.modLaunch job id fun _ => l).writeCw job id
            let s := (List.range l.count).foldl (fun s i => s.firstRead l i) s
            (List.range l.count).foldl (fun s i =>
              let t := l.tcbs + 64 * i
              if s.tcbState job t = tWaiting ∧ s.tcbCount job t = 0 ∧ s.versionsMet l i then
                s.release l i (launchKey s.cycle l.id i) false else s) s

def execLaunchRunning (job launch : W32) (s : State) : Host.Outcome State Fault Refusal :=
  s.sealed (s.launchRunning job.toNat launch.toNat)

/-! ## CANCEL (R45, R46) -/

/-- Cancel a task by its index in a launch. -/
def State.cancelTask (s : State) (job launch index : Nat) : State × Nat :=
  match s.launch job launch with
  | none => (s, 2)
  | some l =>
    if l.count ≤ index then (s, 2)
    else
      let tcb := l.tcbs + 64 * index
      let st := s.tcbState job tcb
      let known := s.task job tcb
      let past : Bool := match known with | some t => t.past4 | none => false
      if st = tDone ∧ known.isNone ∨ st = tCancelled ∨ st = tFaulted ∨ past then (s, 1)
      else
        let s := match known with
          | some _ =>
            let joint := (consumersOf (s.bondsOf job) s.bonds.length [tcb]).filter (· != tcb)
            let s := s.takeDown job tcb
            let s := joint.foldl (fun (s : State) c => s.jointAbort job c) s
            s.forget job tcb
          | none => s
        let s := s.dropPubs job launch index
        let s := s.tcbSet job l.record tcb 40 40 16 cCancel
        (s.setTcbState job launch tcb tCancelled, 0)

/-- Cancel a set of launches. -/
def State.cancelAll (s : State) (job : Nat) (ids : List Nat) : State := ids.foldl (fun s i => s.cancelLaunch job i) s

/-- Graph words of a job whose graphs are not over. -/
def State.cancelGraphs (s : State) (job : Nat) (hit : Graph → Bool) : State :=
  s.graphs.foldl (fun s g =>
    if g.job == job && hit g && (g.status == stPending || g.status == stRunning) then
      (s.modGraph job g.id fun x => { x with status := stCancelled }).writeGraph job g.id
    else s) s

/-- Launches of a phase that have been accepted. -/
def State.ofPhase (s : State) (job phase : Nat) : List Lnch :=
  s.launches.filter fun l => l.job == job && l.accepted && l.phase == phase

/-- The exchange streams of a phase: each core of a core binding of each of its launches that has EXCH, however that launch ended (R38). -/
def State.streamsOf (s : State) (job phase : Nat) : List Stream :=
  ((s.ofPhase job phase).filter (·.exch)).flatMap fun l =>
    (l.binds.filter fun b => !b.nmus).foldl (fun (a : List Stream) b =>
      (List.range b.targets).foldl (fun (a : List Stream) i =>
        if a.any fun x => x.core == b.target + i then a
        else a ++ [{ core := b.target + i, launch := l.id, started := false, parked := false, ended := false, sync := none }]) a) []

/-- CANCEL of a launch of a graph that waits for the pager: it does not run when the graph goes on. 0 or 1 as R46 says, 2 where no such graph
names the id. -/
def State.cancelWaiting (s : State) (job id : Nat) : State × Nat :=
  (s.heldGraphs.filter fun g => g.job == job).foldl (fun (a : State × Nat) g =>
    if a.2 != 2 then a
    else match a.1.graphIds job g.va with
      | (s, ids) =>
        if !ids.contains id then (s, 2)
        else if g.cancelled.contains id then (s, 1)
        else ({ s with heldGraphs := s.heldGraphs.map fun x => if x = g then { x with cancelled := nins x.cancelled id } else x }, 0)) (s, 2)

/-- CANCEL of a graph that waits for the pager, and of the launch that holds it. -/
def State.cancelHeldGraph (s : State) (job id : Nat) : State × Nat :=
  (s.heldGraphs.filter fun g => g.job == job).foldl (fun (a : State × Nat) g =>
    if a.2 != 2 then a
    else match a.1.jobRead job g.va 32 with
      | (s, some _) => (s, 2)
      | (s, none) =>
        if (s.jobWord job g.va).field 0 32 ≠ id then (s, 2)
        else
          let ls := s.launches.filter fun l => l.job == job && l.record == g.resume && l.hold == some .accept && l.graph == some id
          let s := s.cancelAll job (ls.map (·.id))
          let s : State := { s with heldGraphs := s.heldGraphs.filter fun x => !(x.job == job && x.va == g.va) }
          (s.writeUnstarted job g.va stCancelled 0, 0)) (s, 2)

/-- CANCEL of a level (R20) within a job; launch: that of the issuing task, for level 0. The answer is that of R46. -/
def State.cancel (s : State) (job : Nat) (launch : Option Nat) (level id : Nat) : State × Nat :=
  let mine := s.launches.filter fun l => l.job == job
  match level with
  | 0 => match launch with
    | some l => s.cancelTask job l id
    | none => (s, 2)
  | 1 =>
    let live : Bool := match s.launch job id with | some l => l.live | none => false
    if live then (s.cancelLaunch job id, 0)
    else match s.cancelWaiting job id with
      | (s, 2) => (s, if (s.launch job id).isSome then 1 else 2)
      | r => r
  | 2 =>
    let known := s.graphs.find? fun g => g.job == job && g.id == id
    match known.filter fun g => g.status == stPending || g.status == stRunning with
    | some g => ((s.cancelAll job g.launches).cancelGraphs job (·.id == id), 0)
    | none => match s.cancelHeldGraph job id with
      | (s, 2) => (s, if known.isSome then 1 else 2)
      | r => r
  | 3 =>
    let ls := mine.filter fun l => !l.words.isEmpty && l.phase == id
    let now : Option Phase := match kfind s.jobs job with | some j => j.phase.filter (·.num == id) | none => none
    -- an exchange step that has still to start belongs to the phase as one that runs
    let step : Bool := match now with
      | some p => !p.cancelled && (p.part != .compute || !(s.streamsOf job id).isEmpty)
      | none => false
    if ls.isEmpty then (s, 2)
    else if ls.any (·.live) || step then
      let ids := ls.map (·.id)
      let s := (s.cancelAll job ids).cancelGraphs job fun g => g.launches.all ids.contains
      (if now.isSome then s.cancelPhase job else s, 0)
    else (s, 1)
  | _ =>
    if id ≠ job then (s, 2)
    else match kfind s.jobs job with
      | none => (s, 2)
      | some j =>
        if j.status = stPending ∨ j.status = stRunning then
          let s := ((s.cancelAll job (mine.map (·.id))).cancelGraphs job fun _ => true).cancelPhase job
          let s := s.endHeldGraphs job stCancelled 0
          ((s.modJob job fun j => { j with status := stCancelled }).writeJob job, 0)
        else (s, 1)

/-! ## Phases (R38, R43, R458, R459) -/

/-- PHASE_BEGIN: the lowest phase above the last confirmed one among launches that have not ended. -/
def State.phaseBegin (s : State) (job : Nat) : State :=
  s.modJob job fun j =>
    if j.phase.isSome then j
    else
      let above (p : Nat) : Bool := match j.confirmed with | some c => decide (c < p) | none => true
      let ls := s.launches.filter fun l => l.job == job && l.accepted && l.live && above l.phase
      match ls with
      | [] => j
      | l :: t =>
        let n := t.foldl (fun m x => min m x.phase) l.phase
        let pass := match ls.find? fun x => x.phase == n with | some x => x.pass | none => 0
        { j with phase := some { num := n, pass := pass, part := .compute, streams := [] } }

def execPhaseBegin (job : W32) (s : State) : Host.Outcome State Fault Refusal := s.sealed (s.phaseBegin job.toNat)

/-- A core as a launch enters it (R68): everything undefined but what R68 names (DEDUCED, log entry 32). -/
def Core.enter (k : Core) (epoch : Nat) (r : Run) (seed : W32) (slip : Nat) (lattol : Word) : Core :=
  let pc : Word := BitVec.ofNat 64 (r.code + 4 * r.entry)
  { k.vacate with
    run := some r,
    arch := { Arch.reset with
      epoch := epoch, spEpoch := k.arch.spEpoch, sp := k.arch.sp, full := k.arch.full, delivered := k.arch.delivered,
      sregs := [(61, BitVec.ofNat 64 r.tcb), (62, 0), (63, BitVec.ofNat 64 (0xFF00 * 2 ^ 48 + 4096 * r.npage))],
      seed := seed, slip := slip, lattol := lattol, pc := pc, atHeader := true } }

/-- SEED and LATTOL of a job's tasks (R44). -/
def State.seedOf (s : State) (job : Nat) : W32 × Word :=
  match kfind s.jobs job with
  | some j => ((j.desc.getD 3 0).setWidth 32, j.desc.getD 4 0)
  | none => (0, 0)

/-- Start an exchange stream on a core that nothing occupies, or on which another stream of the phase has ended (R38). -/
def State.startStream (s : State) (job : Nat) (x : Stream) : State :=
  let k := s.core x.core
  let free : Bool := match k.run with
    | none => true
    | some r => r.exch && r.job == job && k.arch.ended && k.arch.drained
  match s.launch job x.launch with
  | none => s
  | some l =>
    if x.started ∨ x.parked ∨ x.ended ∨ free = false ∨ s.cycle < k.scrubUntil then s
    else
      let r : Run := { exch := true, job := job, launch := l.id, index := 0, tcb := l.record, code := l.code, entry := l.exchEntry,
                       nvec := l.vregs, ntile := l.tiles, npage := l.pages, slip := l.slip, since := s.cycle, icache := s.mem }
      let e := s.epoch + 1
      let (seed, lat) := s.seedOf job
      let k' := k.enter e r seed l.slip lat
      let k' := { k' with arch := { k'.arch with sregs := (1, BitVec.ofNat 64 x.core) :: k'.arch.sregs } }
      let mark (y : Stream) : Stream := if y.core == x.core && y.launch == x.launch then { y with started := true, since := s.cycle } else y
      ({ s.setCore x.core k' with epoch := e } : State).modStreams job mark

/-- EXCHANGE_START: when the compute step has ended, the streams of the phase start, each on its core. -/
def State.exchangeStart (s : State) (job : Nat) : State :=
  match kfind s.jobs job with
  | none => s
  | some j => match j.phase with
    | none => s
    | some p => match p.part with
      | .compute =>
        let xs := if p.cancelled then [] else s.streamsOf job p.num
        if ((s.ofPhase job p.num).any (·.live)) || xs.isEmpty then s
        else
          let s := s.modJob job fun j => { j with phase := some { p with part := .exchange, streams := xs } }
          xs.foldl (fun s x => s.startStream job x) s
      | .exchange => p.streams.foldl (fun s x => s.startStream job x) s
      | _ => s

def execExchangeStart (job : W32) (s : State) : Host.Outcome State Fault Refusal := s.sealed (s.exchangeStart job.toNat)

/-- EXCHANGE_HOLD_EXPIRY: one strike window after the last TEND of a stream. -/
def State.holdExpiry (s : State) (job : Nat) : State :=
  s.modJob job fun j => match j.phase with
    | some p => match p.part with
      | .holding since => if since + Config.window ≤ s.cycle then { j with phase := some { p with part := .confirm } } else j
      | _ => j
    | none => j

def execExchangeHoldExpiry (job : W32) (s : State) : Host.Outcome State Fault Refusal := s.sealed (s.holdExpiry job.toNat)

/-- One core at the barrier: deliveries in delivery order, each full, then the local writes in program order (R38, R39). -/
def Core.confirm (k : Core) (job : Nat) : Core :=
  let ds := k.deliv.filter (·.job == job)
  let own : Bool := match k.run with | some r => r.exch && r.job == job | none => false
  let k1 := ds.foldl (fun (k : Core) d =>
    let k := k.put (4 * d.word) (bytesOf 4 d.value.toNat)
    { k with arch := { k.arch with full := nins k.arch.full d.word } }) k
  let k2 := (k.prov.filter (·.job == job)).foldl (fun (k : Core) p => match p.write with
      | .bytes off bs => k.put off bs
      | .bit w full => { k with arch := { k.arch with full := if full then nins k.arch.full w else ndel k.arch.full w } }) k1
  let k3 := { k2 with prov := k.prov.filter (·.job != job), deliv := k.deliv.filter (·.job != job), clash := ndel k.clash job }
  let k4 := if own then k3.vacate else k3
  if own ∨ k.run.isNone ∨ !ds.isEmpty then
    { k4 with arch := { k4.arch with delivered := ds.foldl (fun m d => nins m d.word) [] } }
  else k4

/-- The status of a phase (R43). -/
def phaseStatus (ls : List Lnch) : Nat :=
  if ls.all (·.status == stDone) then stDone else if ls.any (·.status == stFaulted) then stFaulted else stCancelled

/-- The entries of a job leave every TLB (R245). -/
def State.dropTlbs (s : State) (job : Nat) : State :=
  { s with
    cores := s.cores.map fun c => (c.1, { c.2 with tlb := c.2.tlb.filter (·.job != job) }),
    dieTlbs := s.dieTlbs.map fun d => (d.1, d.2.filter (·.job != job)) }

/-- The phase is confirmed: the exchanged words, the job's new attributes, its tokens, the phase word (R38, R43, R189, R458). -/
def State.confirmPhase (s : State) (job : Nat) (p : Phase) : State :=
  let s := { s with cores := s.cores.map fun (c : Nat × Core) => (c.1, c.2.confirm job) }
  let st := phaseStatus (s.ofPhase job p.num)
  let s := match kfind s.jobs job with
    | some j => if j.next.isSome then s.dropTlbs job else s
    | none => s
  let s := s.modJob job fun j =>
    let d := j.next.getD j.desc
    { j with desc := d, next := none, tokens := (d.getD 2 0).field 16 8, confirmed := some p.num, phase := none }
  match kfind s.jobs job with
  | some j => s.devWord job 0 (j.desc.getD 6 0).toNat (BitVec.ofNat 64 (st * 2 ^ 32 + p.num))
  | none => s

/-- CONFIRMATION_BARRIER: after the hold, with every delivery arrived; or at the end of a compute step without exchange streams. -/
def State.confirmation (s : State) (job : Nat) : State :=
  match kfind s.jobs job with
  | none => s
  | some j => match j.phase with
    | none => s
    | some p => match p.part with
      | .compute =>
        if (s.ofPhase job p.num).any (·.live) ∨ (!p.cancelled && !(s.streamsOf job p.num).isEmpty) then s else s.confirmPhase job p
      | .confirm =>
        if (s.net.any fun i => i.exch && i.job == job) || (s.xmcs.any fun x => x.job == job) then s else s.confirmPhase job p
      | _ => s

def execConfirmationBarrier (job : W32) (s : State) : Host.Outcome State Fault Refusal :=
  s.sealed (s.confirmation job.toNat)

/-! ## XSYNC (R428) and XMC deliveries (R427, R40) -/

/-- A stream has reached its TEND (R428). -/
def State.atTend (s : State) (job : Nat) (x : Stream) : Bool :=
  x.ended || (x.started && (match (s.core x.core).run with
    | some r => r.exch && r.job == job && r.launch == x.launch && (s.core x.core).arch.ended
    | none => false))

/-- XSYNC_BARRIER: every stream stands at an XSYNC or has reached its TEND; the lowest id goes on, the launches at other ids fault. -/
def State.xsyncBarrier (s : State) (job : Nat) : State :=
  match kfind s.jobs job with
  | none => s
  | some j => match j.phase with
    | none => s
    | some p =>
      let at_ := p.streams.filter fun x => !x.ended && x.sync.isSome
      match at_ with
      | [] => s
      | x :: t =>
        if !(p.streams.all fun x => s.atTend job x || x.sync.isSome) then s
        else
          let low := t.foldl (fun m y => min m (y.sync.getD 0)) (x.sync.getD 0)
          let go := at_.filter fun y => y.sync == some low
          let bad := at_.filter fun y => y.sync != some low
          let s := s.modStreams job fun y => { y with sync := none }
          let s := go.foldl (fun s y => s.modCore y.core fun k => { k with arch := k.arch.advance.retire, stallSq := none }) s
          -- the report of R260; R255 gives EXCH_CONFLICT a target word, which an XSYNC has not (DESIGN CHOICE, log entry 52)
          bad.foldl (fun s y =>
            (s.modCore y.core fun k => k.fault s.cycle cExchConflict 0 k.arch.word []).streamFault job y.launch cExchConflict) s

def execXsyncBarrier (job : W32) (s : State) : Host.Outcome State Fault Refusal := s.sealed (s.xsyncBarrier job.toNat)

/-- A delivery to one core: provisional, or EXCH_CONFLICT with one that waits or with a word that the core has written (R40). After a conflict
of the step on the core, what still arrives there is discarded. -/
def State.deliver (s : State) (core : Nat) (d : Deliv) : State :=
  let k := s.core core
  let wrote : Bool := k.prov.any fun p => p.job == d.job && match p.write with
    | .bytes off bs => decide (4 * d.word < off + bs.length) && decide (off < 4 * d.word + 4)
    | .bit .. => false
  if k.clash.contains d.job then s
  else if (k.deliv.any fun x => x.word == d.word) || wrote then s.conflict core d.job d.launch d.word
  else s.setCore core { k with deliv := k.deliv ++ [d] }

/-- XMC_DELIVERY on one die: from 64 cycles after the release on (R427). That the issuing die's comes in that very cycle and the others' at
most 512 cycles later (R170) is the schedule's: State.due. -/
def State.xmcDelivery (s : State) (die index : Nat) : State :=
  match s.xmcs[index]? with
  | none => s
  | some x =>
    let here := x.targets.filter fun c => dieOf c == die
    if s.cycle < x.released + 64 ∨ here.isEmpty then s
    else
      let rest := x.targets.filter fun c => dieOf c != die
      let drop (l : List XmcOut) : List XmcOut :=
        (l.zipIdx).filterMap fun y => if y.2 = index then (if rest.isEmpty then none else some { y.1 with targets := rest }) else some y.1
      let s := { s with xmcs := drop s.xmcs }
      here.foldl (fun s c => s.deliver c { word := x.off / 4, value := x.value, job := x.job, launch := x.launch }) s

def execXmcDelivery (die : Fin 8) (index : Nat) (s : State) : Host.Outcome State Fault Refusal :=
  s.sealed (s.xmcDelivery die.val index)

end Sys2Proof.Machine
end

