-- ==== Sys2Proof/Machine/Mgmt.lean ====
section
/-!
DEFINITION. What a store to the management region does (spec/13 R457): the words that software programs take their value in
regStore (Memsys); the others act here: retention registers and counters (spec/06 R145, R146, R148), DEGRADED (spec/10 R231, R238),
TLBINV (spec/11 R246), RESUME (R249), the page-fault consumer indices (R248).
-/

namespace Sys2Proof.Machine

/-! ## Counters and retention (R145, R146, R174, R238, R274) -/

/-- The counters that a write of 0 clears. -/
def isCounter (off : Nat) : Bool :=
  (decide (0x1000 ≤ off) && decide (off < 0x1200) && [24, 32, 40].contains (off % 64)) ||
  (decide (0x2000 ≤ off) && decide (off < 0x2800) && [0x50, 0x58, 0x60, 0x68].contains (off % 0x100)) || off == 0x3020 ||
  (decide (0x5210 ≤ off) && decide (off < 0x5240) && off % 8 == 0)

def State.clearCounter (s : State) (off : Nat) (v : Word) : State := if isCounter off && v == 0 then s.setStat off 0 else s

/-- The lines that register n retains are ordinary lines again. -/
def Line.release (n : Nat) (l : Line) : Line := if l.retained = some n then { l with retained := none, age := .ordinary } else l

/-- The lines that register n retains leave retention. -/
def State.releaseLines (s : State) (n : Nat) : State :=
  { s with l2 := s.l2.map fun l => (l.1, l.2.release n) }

/-- Whether off is a word of a retention register that software programs. -/
def isRetain (off : Nat) : Bool := decide (0x1000 ≤ off) && decide (off < 0x1200) && [0, 8, 16].contains (off % 64)

/-- A write of a retention register, beside its value: refused, ignored, or accepted and its lines released. -/
def State.retainEffect (s : State) (off : Nat) (v : Word) : State :=
  let n := (off - 0x1000) / 64
  let w : Word := v &&& BitVec.ofNat 64 (regMask off)
  if !regLegal off w then s
  else if retRefused s.regs off v then s.setStat (mRetain n + 8) 2
  else (s.releaseLines n).setStat (mRetain n + 8) 0

/-! ## DEGRADED (R231) -/

/-- Writing 1 to a bit of the bitmap clears it, and with it STATUS DEGRADED of the core. -/
def State.clearDegraded (s : State) (word : Nat) (v : Word) : State :=
  { s with cores := s.cores.map fun c =>
      (c.1, if c.1 / 64 = word ∧ bitAt v (c.1 % 64) then { c.2 with degraded := false } else c.2) }

/-! ## TLBINV (R246) -/

/-- An entry of a job overlaps the named pages; count 0 names every page. -/
def TlbEntry.named (t : TlbEntry) (job va count : Nat) : Bool :=
  t.job == job && (count == 0 ||
    (decide (t.va * leafSize t.level < va + 4096 * count) && decide (va < t.va * leafSize t.level + leafSize t.level)))

/-- GO: the entries go, and DONE is clear until TLBINV_DONE. Ignored while DONE is clear. -/
def State.tlbGo (s : State) : State :=
  match s.tlbinv with
  | some _ => s
  | none =>
    let va := (s.reg 0x5100).toNat
    let count := (s.reg 0x5108).field 32 32
    let job := (s.reg 0x5108).field 0 32
    { s with
      tlbinv := some (job, va, count),
      cores := s.cores.map (fun c => (c.1, { c.2 with tlb := c.2.tlb.filter fun t => !t.named job va count })),
      dieTlbs := s.dieTlbs.map fun d => (d.1, d.2.filter fun t => !t.named job va count) }

/-- Bytes [a, a + n) touch the named pages. -/
def namedBytes (va count a n : Nat) : Bool := count == 0 || (decide (a < va + 4096 * count) && decide (va < a + n))

/-- Every access that the entries translated has performed, or was held and has since been applied or discarded. -/
def State.tlbSettled (s : State) (job va count : Nat) : Bool :=
  let hit (a n : Nat) : Bool := namedBytes va count a n
  let mine (k : Core) : Bool := match k.run with | some r => r.job == job | none => false
  !(s.cores.any fun c => mine c.2 && c.2.pend.any fun p => p.kind.counted && hit p.va p.n) &&
    !(s.net.any fun i => i.job == job && (match i.body with
      | .sector _ a bs _ => hit a bs.length
      -- a supervisor's store went through some leaf of the region
      | .mgmt .. => true
      | .depdec t | .spawn _ t => hit t 64
      | _ => false)) &&
    !(s.tasks.any fun t => t.job == job && ((t.quar.any fun e => hit e.va e.bytes.length) ||
      t.held.any fun h => match h with | .depdec a => hit a 64 | .wenq a _ _ => hit a 64 | .step .. => false)) &&
    !(s.nmus.any fun n => match n.2.run with | some r => r.req.job == job | none => false) && !(s.colls.any (·.job == job))

/-- TLBINV_DONE. -/
def State.tlbDone (s : State) : State :=
  match s.tlbinv with
  | some (job, va, count) => if s.tlbSettled job va count then { s with tlbinv := none } else s
  | none => s

/-! ## The pager (R248, R249) -/

/-- Write the entries of a die that wait, oldest first, while its ring has room. -/
def State.pfDrain (s : State) (die : Nat) : Nat → State
  | 0 => s
  | fuel + 1 =>
    let p := (s.statAt (pfIndex die)).field 0 32
    let c := (s.statAt (pfIndex die + 8)).field 0 32
    match s.pfWait.find? (·.die == die) with
    | none => s
    | some e =>
      if (p + 2 ^ 32 - c) % 2 ^ 32 = 256 then s
      else
        let rec drop : List PfEntry → List PfEntry
          | [] => []
          | x :: t => if x.die = die then t else x :: drop t
        (({ s with pfWait := drop s.pfWait } : State).pfWrite e).pfDrain die fuel

/-- A write of a consumer index; ignored where it would leave the difference negative or above 256. -/
def State.pfConsume (s : State) (die : Nat) (v : Word) : State :=
  let p := (s.statAt (pfIndex die)).field 0 32
  let c := v.field 0 32
  if 256 < (p + 2 ^ 32 - c) % 2 ^ 32 then s
  else (s.setStat (pfIndex die + 8) (BitVec.ofNat 64 c)).pfDrain die 256

/-- The device stores held for a launch, or for the job whose held word the pager names, are made again, in order. -/
def State.retryStores (s : State) (va : Nat) : State :=
  let hit (h : HeldStore) : Bool := (h.record != 0 && h.record == va) ||
    (h.record == 0 && s.heldStores.any fun x => x.job == h.job && x.record == 0 && x.va == va)
  let go := s.heldStores.filter hit
  let s := { s with heldStores := s.heldStores.filter fun h => !hit h }
  go.foldl (fun (s : State) h => s.devRetry h) s

/-- Parked tasks with a TCB VA re-enter READY with their last key. -/
def State.resumeTasks (s : State) (va : Nat) : State :=
  (s.tasks.filter fun t => t.tcb == va && s.tcbState t.job t.tcb == tParked).foldl
    (fun (s : State) t => s.requeue t.job t.tcb false) s

/-- The decrements that a launch took while it was held at acceptance stay (R462). -/
def State.carryDeps (s : State) (l : Lnch) : State :=
  match s.launch l.job l.id with
  | some x => if x.record = l.record ∧ x.live then
      s.modLaunch l.job l.id fun x => { x with deps := x.deps - ((l.w 10).field 32 32 - l.deps) } else s
  | none => s

/-- Launches, graphs and exchange streams that wait under a record VA go on: their check again, or their translation. -/
def State.resumeLaunches (s : State) (va : Nat) : State :=
  let hit (l : Lnch) : Bool := l.record == va && l.live && l.hold == some .accept
  let again := s.launches.filter hit
  let graphs := s.heldGraphs.filter fun g => g.resume == va
  let unhold (l : Lnch) : Lnch := if l.record = va ∧ l.hold = some .tcbs then { l with hold := none } else l
  let wake (job : Nat) (x : Stream) : Stream := match s.launch job x.launch with
    | some l => if l.record = va then { x with parked := false } else x
    | none => x
  let fix (j : Job) : Job := match j.phase with
    | some p => { j with phase := some { p with streams := p.streams.map (wake j.id) } }
    | none => j
  let s := { s with
    launches := (s.launches.filter fun l => !hit l).map unhold,
    heldGraphs := s.heldGraphs.filter (fun g => g.resume != va),
    jobs := s.jobs.map fun j => (j.1, fix j.2) }
  let s := (again.filter (·.graph.isNone)).foldl (fun (s : State) l => (s.submitLaunch l.job l.record).carryDeps l) s
  graphs.foldl (fun (s : State) g => s.submitGraph g.job g.va g.cancelled) s

/-- RESUME; a VA that nothing waits under is ignored (R249). -/
def State.resume (s : State) (va : Nat) : State := ((s.retryStores va).resumeTasks va).resumeLaunches va

/-! ## A store of one word -/

/-- What a store to the word at off does beside programming a register. -/
def State.mgmtEffect (s : State) (off : Nat) (v : Word) : State :=
  if isCounter off then s.clearCounter off v
  else if isRetain off then s.retainEffect off v
  else if 0x3080 ≤ off ∧ off < 0x3100 then s.clearDegraded ((off - 0x3080) / 8) v
  else if off = 0x5110 then (if bitAt v 0 then s.tlbGo else s)
  else if 0x5400 ≤ off ∧ off < 0x5480 ∧ off % 16 = 8 then s.pfConsume ((off - 0x5400) / 16) v
  else if 0x5500 ≤ off ∧ off < 0x5540 then s.resume v.toNat
  else s

/-- A store of a whole word to the region performs at the register (R457). -/
def State.mgmtPut (s : State) (off : Nat) (v : Word) : State := { s.mgmtEffect off v with regs := regStore s.regs off v }

/-- A store of the supervisor or of the host. -/
def State.mgmtOut (s : State) (off : Nat) (v : Word) : Host.Outcome State Fault Refusal := .next (s.mgmtPut off v)

/-! ## The rows of the table -/

/-- RETAIN_WRITE: word 0, 1 or 2 of register n; words 3 to 5 are counters, and the others read-only. -/
def execRetainWrite (n : Fin 8) (word : Fin 8) (v : Word) (s : State) : Host.Outcome State Fault Refusal :=
  s.mgmtOut (mRetain n.val + 8 * word.val) v

/-- COUNTER_CLEAR: a write of 0 to a counter. -/
def execCounterClear (off : BitVec 26) (s : State) : Host.Outcome State Fault Refusal :=
  s.sealed (s.clearCounter off.toNat 0)

def execDegradedClear (word : Fin 16) (v : Word) (s : State) : Host.Outcome State Fault Refusal :=
  s.sealed (s.clearDegraded word.val v)

def execTlbinvGo (s : State) : Host.Outcome State Fault Refusal := s.sealed s.tlbGo

def execTlbinvDone (s : State) : Host.Outcome State Fault Refusal := s.sealed s.tlbDone

/-- RESUME_WRITE (R249). -/
def execResumeWrite (die : Fin 8) (va : Word) (s : State) : Host.Outcome State Fault Refusal :=
  s.mgmtOut (0x5500 + 8 * die.val) va

/-- PF_CONSUMER_INDEX_WRITE (R248). -/
def execPfConsumerIndexWrite (die : Fin 8) (v : Word) (s : State) : Host.Outcome State Fault Refusal :=
  s.mgmtOut (0x5408 + 16 * die.val) v

/-- MGMT_REGISTER_WRITE: a whole, aligned word; any other address changes nothing. -/
def execMgmtRegisterWrite (off : BitVec 26) (v : Word) (s : State) : Host.Outcome State Fault Refusal :=
  if off.toNat % 8 = 0 then s.mgmtOut off.toNat v else .next s

end Sys2Proof.Machine
end

