-- ==== Sys2Proof/Machine/HostMsgs.lean ====
section
/-!
DEFINITION. Uzolink (spec/13 R282-R284, R286): numbering, and each message of the host: job open (spec/02 R44, R458), submissions (R29,
R36), CANCEL (R45, R46), REFSTOP (spec/09 R205), memory (spec/07 R173, spec/13 R273, R457), resynchronise, attestation.
-/

namespace Sys2Proof.Machine

/-! ## Numbering (R283) -/

/-- n is newer than m. -/
def newer (n m : Nat) : Bool := let d := (n + 2 ^ 32 - m % 2 ^ 32) % 2 ^ 32; decide (1 ≤ d) && decide (d ≤ 2 ^ 31 - 1)

/-- A message of the host numbered n: the next is performed, a duplicate answered OK, a later one NAK. An answer carries the type of its
message (DEDUCED, log entry 23). -/
def State.hostMsg (s : State) (type n : Nat) (perform : State → State) : State :=
  let s := s.wake
  if (s.host.h + 1) % 2 ^ 32 = n % 2 ^ 32 then perform { s with host := { s.host with h := n % 2 ^ 32 } }
  else if newer n s.host.h then s.send type 2 [] else s.send type 0 []

/-- A payload in whole 16-byte units. -/
def pad16 (bs : List Byte) : List Byte := bs ++ List.replicate (16 * ceilDiv bs.length 16 - bs.length) 0

/-- A job that has been opened; nothing in the spec closes one (DEDUCED, log entry 17). -/
def State.jobIsOpen (s : State) (job : Nat) : Bool := (kfind s.jobs job).isSome

/-! ## Jobs (R44, R458) -/

/-- The limits of a job descriptor (DESIGN CHOICE, log entry 22). -/
def descOk (d : List Word) : Bool :=
  let w (i : Nat) : Word := d.getD i 0
  d.length == 8 && (w 0).field 32 32 == 0 && (w 2).field 24 40 == 0 && (w 2).field 0 8 == 0 && decide ((w 2).field 8 8 ≤ 3) &&
    (w 1).toNat % 4096 == 0 && inMem (w 1).toNat && (w 6).toNat % 8 == 0 && (w 7).toNat % 8 == 0 && (w 5).toNat % 16 == 0

def Job.make (d : List Word) : Job :=
  { id := (d.getD 0 0).field 0 32, desc := d, next := none, tokens := (d.getD 2 0).field 16 8, confirmed := none, phase := none,
    step := none, done := 0, status := stRunning, cause := 0 }

/-- Open a job. -/
def State.openJob (s : State) (d : List Word) : State :=
  let j := Job.make d
  { s with jobs := kset s.jobs j.id j }

/-- A job open message: refused, a rewrite that the next barrier takes, or a new job. -/
def State.jobOpen (s : State) (d : List Word) : State :=
  let id := (d.getD 0 0).field 0 32
  if !descOk d ∨ s.plat.power = 3 then s.send 0x10 4 []
  else if s.jobIsOpen id then (s.modJob id fun j => { j with next := some d }).send 0x10 0 []
  else (s.openJob d).send 0x10 0 []

def execJobOpen (seq : W32) (desc : List Word) (s : State) : Host.Outcome State Fault Refusal :=
  s.sealed (s.hostMsg 0x10 seq.toNat fun s => if 512 < desc.length then s.send 0x10 1 [] else s.jobOpen desc)

/-! ## Submissions, CANCEL, REFSTOP (R282) -/

/-- A message about a job: REFUSED unless the job is open. -/
def State.forJob (s : State) (type job : Nat) (k : State → State) : State := if s.jobIsOpen job then k s else s.send type 4 []

/-- LAUNCH_SUBMIT: answered OK once it is queued. -/
def execLaunchSubmit (seq job : W32) (va : Word) (s : State) : Host.Outcome State Fault Refusal :=
  s.sealed (s.hostMsg 0x11 seq.toNat fun s => s.forJob 0x11 job.toNat fun s => (s.send 0x11 0 []).submitLaunch job.toNat va.toNat)

/-- GRAPH_SUBMIT. -/
def execGraphSubmit (seq job : W32) (va : Word) (s : State) : Host.Outcome State Fault Refusal :=
  s.sealed (s.hostMsg 0x12 seq.toNat fun s => s.forJob 0x12 job.toNat fun s => (s.send 0x12 0 []).submitGraph job.toNat va.toNat [])

/-- HOST_CANCEL: the answer holds the result of R46. -/
def execHostCancel (seq job : W32) (level : BitVec 8) (id : W32) (s : State) : Host.Outcome State Fault Refusal :=
  s.sealed (s.hostMsg 0x13 seq.toNat fun s => s.forJob 0x13 job.toNat fun s =>
    if 4 < level.toNat then s.send 0x13 1 []
    else
      let (s, r) := s.cancel job.toNat none level.toNat id.toNat
      s.send 0x13 0 (payloadOf r))

/-- HOST_REFSTOP. -/
def execHostRefstop (seq job : W32) (region : Fin 4096) (s : State) : Host.Outcome State Fault Refusal :=
  s.sealed (s.hostMsg 0x14 seq.toNat fun s => s.forJob 0x14 job.toNat fun s =>
    (s.refstop job.toNat region.val none).1.send 0x14 0 [])

/-! ## Memory (R173, R273, R457) -/

/-- Every byte lies at an address that the map lists. -/
def listed (pa n : Nat) : Bool :=
  n == 0 || (inHbm pa && inHbm (pa + n - 1)) || (inNode pa && inNode (pa + n - 1)) || (inMgmt pa && inMgmt (pa + n - 1))

/-- Whole, aligned words of the management region. -/
def wholeWords (pa n : Nat) : Bool := !inMgmt pa || (pa % 8 == 0 && n % 8 == 0)

/-- The words of a byte string. -/
def wordsOf (bs : List Byte) : List Word :=
  (List.range (bs.length / 8)).map fun i => BitVec.ofNat 64 (leNat ((bs.drop (8 * i)).take 8))

/-- A host write to the management region, word by word. -/
def State.mgmtPuts (s : State) (off : Nat) : List Word → State
  | [] => s
  | w :: ws => (s.mgmtPut off w).mgmtPuts (off + 8) ws

/-- Host traffic never allocates a line (spec/18 R431). -/
def hostHint (pa : Nat) : Hint := if inHbm pa then .noAllocate else .bypass

/-- The accesses that a host access is made of: its bytes by 8-byte word; those that are naturally aligned are strong (R164, R173; DEDUCED, log
entry 61). -/
def hostPieces (pa n : Nat) : List (Nat × Nat) :=
  if n = 0 then []
  else (List.range ((pa + n - 1) / 8 + 1 - pa / 8)).map fun i =>
    let lo := max pa (8 * (pa / 8 + i))
    (lo, min (pa + n) (8 * (pa / 8 + i) + 8) - lo)

def hostStrong (x : Nat × Nat) : Bool := isPow2 x.2 && x.1 % x.2 == 0

/-- The bytes of memory that a host access works on, where they race with a core's strong stores (R165). -/
def State.hostWrites (s : State) (pa : Nat) (bs : List Byte) : State :=
  (hostPieces pa bs.length).foldl (fun (s : State) x =>
    let new := (bs.drop (x.1 - pa)).take x.2
    if hostStrong x then (s.wrBytes x.1 (s.racingStore theHost x.1 new)).noteStore theHost x.1 (Memory.reads s.mem x.1 x.2)
    else s.wrBytes x.1 new) s

/-- What a host read finds. -/
def State.hostReads (s : State) (pa n : Nat) : List Byte :=
  (hostPieces pa n).flatMap fun x => Memory.reads (if hostStrong x then s.racingLoad theHost x.1 x.2 else s).mem x.1 x.2

/-- A host write performs at the home slice, or at the registers; an error performs nothing. -/
def State.hostWrite (s : State) (pa : Nat) (bs : List Byte) : State :=
  if 4096 < bs.length ∨ !listed pa bs.length ∨ !wholeWords pa bs.length then s.send 0x01 1 []
  else if inMgmt pa then (s.mgmtPuts (pa - Config.mgmtBase) (wordsOf bs)).send 0x01 0 []
  else ({ ((s.l2Access pa bs.length true (hostHint pa)).unpoison pa bs.length).hostWrites pa bs with regs := s.regs } : State).send 0x01 0 []

/-- MEMORY_WRITE. Only a write that reaches the region changes a register. -/
def execMemoryWrite (seq : W32) (pa : Nat) (bytes : List Byte) (s : State) : Host.Outcome State Fault Refusal :=
  .next (s.hostMsg 0x01 seq.toNat fun s => s.hostWrite pa bytes)

/-- A host read is served at the home slice, and answered with read data; a poisoned sector gives an error (R225). -/
def State.hostRead (s : State) (pa n : Nat) : State :=
  if 4096 < n ∨ !listed pa n then s.send 0x03 1 []
  else if inMgmt pa then s.send 0x03 0 (pad16 ((List.range n).map fun i => s.physByte (pa + i)))
  else if s.poisoned pa n then (s.meetFlaws 0 pa n).send 0x03 1 []
  else (s.l2Access pa n false (hostHint pa)).send 0x03 0 (pad16 (s.hostReads pa n))

/-- MEMORY_READ. -/
def execMemoryRead (seq : W32) (pa n : Nat) (s : State) : Host.Outcome State Fault Refusal :=
  s.sealed (s.hostMsg 0x03 seq.toNat fun s => s.hostRead pa n)

/-! ## Resynchronise (R284), attestation (R286), any other type (R282) -/

/-- The response with H and D, then the retained messages newer than Dh; LOST where one of them is no longer retained (DESIGN CHOICE, log entry 24). -/
def State.resync (s : State) (dh : Nat) : State :=
  let want := s.host.sent.filter fun m => newer m.seq dh
  let count := (s.host.d + 2 ^ 32 - dh % 2 ^ 32) % 2 ^ 32
  let lost := newer s.host.d dh && decide (want.length < count)
  let s := s.send 0x31 (if lost then 3 else 0) (bytesOf 4 s.host.h ++ bytesOf 12 s.host.d)
  { s with host := { s.host with again := if lost then [] else want } }

def execResynchroniseRequest (seq dh : W32) (s : State) : Host.Outcome State Fault Refusal :=
  s.sealed (s.hostMsg 0x31 seq.toNat fun s => s.resync dh.toNat)

/-- The items of an attestation report, in the order of R286 (DESIGN CHOICE, log entry 25). -/
def State.report (s : State) (nonce : List Byte) : List Byte :=
  let h (x : BitVec 384) : List Byte := bytesOf 48 x.toNat
  nonce ++ h (Config.sha384 (s.plat.image.getD [])) ++ h Config.romRsaHash ++ h Config.romSlhHash ++ bytesOf 8 s.plat.boots ++
    bytesOf 8 (s.reg 0x5200).toNat

/-- Messages of at most 4,096 bytes. -/
def State.sendAll (s : State) (type : Nat) : Nat → List Byte → State
  | 0, bs => s.send type 0 bs
  | n + 1, bs => if bs.length ≤ 4096 then s.send type 0 bs else (s.send type 0 (bs.take 4096)).sendAll type n (bs.drop 4096)

/-- The report with both signatures. -/
def State.attest (s : State) (nonce : List Byte) : State :=
  let r := s.report nonce
  let bs := pad16 (r ++ Config.attestRsa r ++ Config.attestSlh r)
  if nonce.length = 32 then s.sendAll 0x41 bs.length bs else s.send 0x41 1 []

def execAttestationRequest (seq : W32) (nonce : List Byte) (s : State) : Host.Outcome State Fault Refusal :=
  s.sealed (s.hostMsg 0x41 seq.toNat fun s => s.attest nonce)

/-- The types that the host sends. -/
def hostTypes : List Nat := [0x01, 0x02, 0x10, 0x11, 0x12, 0x13, 0x14, 0x30, 0x40]

/-- UNKNOWN_MESSAGE: any other type is answered ERROR, and its number is accepted. -/
def execUnknownMessage (seq : W32) (type : Byte) (s : State) : Host.Outcome State Fault Refusal :=
  s.sealed (if hostTypes.contains type.toNat then s else s.hostMsg type.toNat seq.toNat fun s => s.send type.toNat 1 [])

end Sys2Proof.Machine
end

