-- ==== Sys2Proof/Machine/Matrix.lean ====
section
/-!
DEFINITION. The matrix engine at the head of its queue (spec/05 R110, R119-R121, spec/03 R56, R57, R60, R61): waits, the
governor, windows and their locks (spec/10 R221, R224), replays (R222, R223), and the five MX commands.
-/

namespace Sys2Proof.Machine

/-! ## The governor (R121) -/

/-- What a command is charged before each step. -/
def stepCost (h0 : Word) (toggle : Nat) : Nat := ceilDiv (max 1 (h0.field 24 8) * toggle) 64

def State.budgetOf (s : State) (die : Nat) : Nat := kget s.budget die (s.reg mBudget).toNat

/-- The order in which commands are served: promoted, role 1, role 0, role 2; then the lower estimate. R121 orders equals no further: the
lower core goes first (DESIGN CHOICE, log entry 47). -/
def grantKey (core : Nat) (promoted : Bool) (h0 : Word) : List Nat :=
  let role := h0.field 14 2
  [if promoted then 0 else if role = 1 then 1 else if role = 0 then 2 else 3, h0.field 24 8, core]

/-- Slot 0 of what MX is to be charged for next: a command that a replay executes again, else its head. -/
def Core.mxNext (k : Core) : Option Word :=
  match k.replay, k.arch.mx with
  | some r, _ => r.todo.head?.map (·.1)
  | none, x :: _ => if x.owing then none else some (ecbSlot x.slots 0)
  | none, [] => none

/-- The next-step costs of the commands of the die that wait and are served before the one of a core. -/
def State.ahead (s : State) (core : Nat) (h0 : Word) : Nat :=
  let mine := grantKey core (s.core core).promoted h0
  (s.cores.map fun c => match c.2.mxNext with
    | some y =>
      if c.1 != core && dieOf c.1 == dieOf core && c.2.refused.isSome && keyLt (grantKey c.1 c.2.promoted y) mine then stepCost y c.2.toggle else 0
    | none => 0).sum

/-- The toggle rate that the governor samples next, from 16 to 128 (R121; DESIGN CHOICE, log entry 34). -/
def sampleToggle (core cycle : Nat) : Nat := 16 + Config.freeToggle core cycle % 113

/-- The steps that the governor grants now, of the left ones that a command has still to be charged for: each is charged before it runs. -/
def State.grantable (s : State) (core : Nat) (h0 : Word) (left : Nat) : Nat :=
  min left ((s.budgetOf (dieOf core) - s.ahead core h0) / stepCost h0 (s.core core).toggle)

/-- The grant of the command at the head of core's MX: charged, with the number of steps granted; none: it is refused for now. -/
def State.grant (s : State) (core : Nat) (h0 : Word) (left : Nat) : Option (State × Nat) :=
  let n := s.grantable core h0 left
  if n = 0 then none
  else
    let t : State := { s with budget := kset s.budget (dieOf core) (s.budgetOf (dieOf core) - n * stepCost h0 (s.core core).toggle) }
    some (t.modCore core fun k =>
      { k with refused := none, promoted := k.promoted && decide (n < left), toggle := sampleToggle core s.cycle }, n)

/-! ## Windows (R221, R224) -/

/-- The cycle at which the youngest started command of a window retired. -/
def Window.youngest (w : Window) : Nat := w.cmds.foldl (fun m c => max m c.retired) 0

/-- The command is the head of MX, has started and has not retired. -/
def Core.headRuns (k : Core) (c : WinCmd) : Bool :=
  match k.arch.mx with
  | x :: _ => x.started && !x.owing && x.seq == c.ecb.seq
  | [] => false

/-- The replay under way is of a window. -/
def Core.replays (k : Core) (w : Window) : Bool :=
  match k.replay with
  | some r => (w.cmds.head?.map fun c => c.ecb.seq) == some r.win
  | none => false

/-- A command runs: it has started and has not retired, or a replay executes it again. -/
def Core.running (k : Core) (c : WinCmd) : Bool := k.headRuns c || k.windows.any fun w => k.replays w && w.cmds.contains c

/-- The command that MX runs belongs to a window. -/
def Core.runsIn (k : Core) (w : Window) : Bool := w.cmds.any k.running

def Core.aged (k : Core) (cycle : Nat) (w : Window) : Bool :=
  decide (w.youngest + Config.window ≤ cycle) && !k.runsIn w

/-- MX_WINDOW_AGE_OUT: aged windows leave the buffer and release their locks; commands that follow an aged youngest window
belong to none. -/
def Core.ageOut (k : Core) (cycle : Nat) : Core :=
  let last : Bool := match k.windows.getLast? with | some w => k.aged cycle w | none => false
  { k with windows := k.windows.filter (fun w => !k.aged cycle w), flaws := k.keepImages fun w => !k.aged cycle w, unprotected := k.unprotected || last,
           unprot := k.unprot.filter fun u => k.running u || decide (cycle < u.retired + Config.window) }

/-- Commands in the retention buffer. -/
def Core.retained (k : Core) : Nat := (k.windows.map fun w => w.cmds.length).sum

def Core.lastFull (k : Core) : Bool := match k.windows.getLast? with | some w => w.cmds.length == 32 | none => false

/-- A command opens a window. -/
def opensWindow : Instr → Bool
  | .twfill .. => true
  | .mma h _ | .drain h _ | .zacc h _ | .kat h _ => h.tsm
  | _ => false

/-- A command can start: the buffer has room for it, or it needs none (R221). -/
def Core.bufferFree (k : Core) (opens : Bool) : Bool :=
  decide (k.retained < 32) || (!opens && (k.unprotected || k.lastFull))

/-- The 33rd command of a window makes it unprotected. -/
def Core.spillWindow (k : Core) (opens : Bool) : Core :=
  if opens || k.unprotected || !k.lastFull then k
  else match k.windows.getLast? with
    | some w => k.dropWindows (· == w)
    | none => k

/-- A command starts: it opens a window, joins the youngest, or is unprotected. -/
def Core.join (k : Core) (opens : Bool) (c : WinCmd) : Core :=
  if opens then { k with windows := k.windows ++ [{ cmds := [c], bypass := k.arch.bypass, replays := 0 }],
                         unprotected := false }
  else if k.unprotected then { k with unprot := k.unprot ++ [c] }
  else match k.windows.getLast? with
    | some w => { k with windows := k.windows.dropLast ++ [{ w with cmds := w.cmds ++ [c] }] }
    | none => { k with unprot := k.unprot ++ [c] }

/-- The retirement cycle of a command. -/
def Core.stamp (k : Core) (seq cycle : Nat) : Core :=
  let at_ (c : WinCmd) : WinCmd := if c.ecb.seq == seq then { c with retired := cycle } else c
  { k with windows := k.windows.map (fun w => { w with cmds := w.cmds.map at_ }), unprot := k.unprot.map at_ }

/-- A retained window reads a directory entry or slot that a TWFILL would write. -/
def Core.twaHeld (k : Core) (p : MxPlan) : Bool :=
  k.windows.any fun w => w.cmds.any fun c => (c.dirs.any p.dirsW.contains) || (c.slots.any p.slotsW.contains)

/-! ## Replay (R222, R223) -/

/-- Item 2 of R222: every tile was started before a command added to it. -/
def startsOk : NSet → List WinCmd → Bool
  | _, [] => true
  | seen, c :: t =>
    (c.writes.all fun z => seen.contains z || c.starts.contains z) && startsOk (c.starts.foldl nins seen) t

/-- The slots of the retention buffer that hold a window's images, as granules of the QUEUE ring (R237). -/
def Core.slotsOf (k : Core) (w : Window) : List Nat :=
  (((k.windows.flatMap fun v => v.cmds.map fun _ => v).zipIdx).filter fun x => x.1 == w).map fun x => gQueue 12 x.2

/-- An image of a window in the retention buffer is lost: the window is unprotected (R232; DEDUCED, log entry 53). -/
def Core.imageLost (k : Core) (w : Window) : Bool :=
  k.flaws.any fun f => f.ring == .queue && f.fatal && (k.slotsOf w).contains f.granule

/-- Lost images are met where a replay of their window would read them: logged at rung 4, and the window is unprotected (R232). -/
def State.meetImages (s : State) (core : Nat) (use : Window → Bool) : State :=
  let lost (w : Window) : Bool := use w && (s.core core).imageLost w
  let slots := ((s.core core).windows.filter lost).flatMap (s.core core).slotsOf
  if slots.isEmpty then s
  else
    let bad := ((s.core core).flaws.filter fun f => f.ring == .queue && f.fatal && slots.contains f.granule).map (·.granule)
    (bad.foldl (fun (s : State) g => s.logFatal core .queue g 4) s).modCore core (·.dropWindows lost)

/-- The conditions of R222 for a window. affected: the commands, of windows and unprotected, that a report or an error affects. -/
def Core.canReplay (k : Core) (w : Window) (affected : List WinCmd) : Bool :=
  startsOk [] w.cmds && !(affected.any fun c => c.drains && !k.running c) && !(affected.any (·.seen)) && decide (w.replays < 4) && !k.imageLost w

/-- A command wrote what a granule holds: the tile, the slot or directory entry, the bypass. -/
def WinCmd.made (ring : Ring5) (g : Nat) (c : WinCmd) : Bool :=
  match ring with
  | .acc =>
    if g < gBypass then c.writes.contains (g / 2048)
    else (match decodeEcb .mx c.ecb.slots with | .ok (.drain _ d) => d.toBypass | _ => false)
  | _ => match decodeEcb .mx c.ecb.slots with
    | .ok (.twfill _ t) =>
      let p := twfillPlan t
      if g < 32768 then p.slotsW.contains (g / 32)
      else if g < 32896 then p.slotsW.any fun n => n / 8 == g - 32768
      else p.dirsW.any fun n => n / 4 == g - 32896
    | _ => false

/-- The granules of the matrix engine's stores that a replay of a window makes anew: what its commands wrote, the bypass, the operand staging. -/
def Window.rewrites (w : Window) (f : Flaw) : Bool :=
  match f.ring with
  | .acc => w.cmds.any (WinCmd.made .acc f.granule) || f.granule == gBypass || f.granule == gStaging
  | .twa => w.cmds.any (WinCmd.made .twa f.granule)
  | _ => false

/-- The running command is abandoned: it starts over, and is charged anew (R223). -/
def Arch.mxRestart (a : Arch) : Arch :=
  match a.mx with
  | x :: t => if x.started && !x.owing then { a with mx := { x with paid := 0 } :: t } else a
  | [] => a

/-- The end of a replay: the drained output and the status words are written again, and the tiles have been made anew. What the other commands
write again to tiles, TWA and bypass are the bits that stand there (R220). -/
def Core.replayDone (k : Core) (cycle : Nat) (w : Window) : Core :=
  let k' := ((w.cmds.filter fun c => !k.headRuns c).flatMap (·.wrote)).foldl (fun (k : Core) o => k.put o.1 o.2) k
  let note (v : Window) : Window := if v == w then { v with cmds := v.cmds.map fun c => { c with retired := cycle, redone := cycle } } else v
  { k' with replay := none, windows := k'.windows.map note, flaws := k'.flaws.filter fun f => !w.rewrites f }

/-- The replay under way ends once every step is charged; nothing is left of it where its window has left the buffer. -/
def Core.replayEnd (k : Core) (cycle : Nat) : Core :=
  match k.windows.find? k.replays with
  | some w => k.replayDone cycle w
  | none => { k with replay := none }

/-- Replay a window of a core (R223): the running command is abandoned and starts over; the retired ones are charged again, in queue order, and
execute again. Their data stand in the tiles meanwhile, since a replay writes the same bits. The trace says so (R258). -/
def State.replay (s : State) (core rung : Nat) (w : Window) : State :=
  let s := s.correct core .queue ((s.core core).slotsOf w).contains 0
  let tag := (w.cmds.head?.map fun c => (ecbSlot c.ecb.slots 0).field 32 16).getD 0
  let s := s.modCore core fun k => k.trace s.cycle 6 rung 2 (BitVec.ofNat 64 tag)
  let k := s.core core
  let again := w.cmds.filter fun c => !k.headRuns c
  let todo := again.map fun c => (ecbSlot c.ecb.slots 0, match decodeEcb .mx c.ecb.slots with | .ok i => (mxPlan k.arch i).steps | .error _ => 1)
  s.modCore core fun k =>
    let note (v : Window) : Window := if v == w then { v with replays := v.replays + 1 } else v
    let k : Core := { k with arch := k.arch.mxRestart, windows := k.windows.map note,
                             replay := some { win := (w.cmds.head?.map fun c => c.ecb.seq).getD 0, todo := todo } }
    if todo.isEmpty then k.replayEnd s.cycle else k

/-! ## Latent errors that a command meets (R232) -/

/-- Granules of the TWA ring that a command reads: slots, scale bytes, directory entries. -/
def MxPlan.hitsTwa (p : MxPlan) (g : Nat) : Bool :=
  if g < 32768 then p.slotsR.contains (g / 32)
  else if g < 32896 then p.slotsR.any fun n => n / 8 == g - 32768
  else p.dirsR.any fun n => n / 4 == g - 32896

/-- Granules of the ACC ring that it reads: tiles, the bypass, the operand staging. -/
def MxPlan.hitsAcc (p : MxPlan) (g : Nat) : Bool :=
  if g < gBypass then p.tilesR.contains (g / 2048) else if g = gBypass then p.bypassR else p.staged

/-- Rung 4 for zone D: after the abort the zone is scrubbed (R223). -/
def State.lostZoneD (s : State) (core : Nat) (ring : Ring5) (g : Nat) : State :=
  ((s.logFatal core ring g 4).abortCore core cUncorrectable (BitVec.ofNat 64 (flawLoc ring g)) .counted).scrubZoneD core

/-- The window that an uncorrectable granule can be re-made from: one with a command that wrote it; for the bypass else the youngest, which
keeps it, and for the operand staging the youngest, in which the command that met it stands. -/
def Core.windowOfFlaw (k : Core) (ring : Ring5) (g : Nat) : Option Window :=
  let can (w : Window) : Bool := k.canReplay w (w.cmds.filter (WinCmd.made ring g))
  let youngest : Option Window := if k.unprotected then none else k.windows.getLast?
  if ring = .acc ∧ g = gStaging then youngest.filter can
  else match k.windows.reverse.find? fun w => w.cmds.any (WinCmd.made ring g) with
    | some w => if can w then some w else none
    | none => if ring = .acc ∧ g = gBypass then youngest.filter can else none

/-- Rung 3 where a replay re-makes the granule, else rung 4 (R218). opens: the command that met it opens a window, so that operand staging is
read again by it alone. The Bool: the command goes on now, not after a replay or an abort. -/
def State.remake (s : State) (core : Nat) (opens : Bool) (ring : Ring5) (g : Nat) : State × Bool :=
  let s := s.meetImages core fun w => w.cmds.any (WinCmd.made ring g)
  if opens ∧ ring = .acc ∧ g = gStaging then (s.logFatal core ring g 3, true)
  else match (s.core core).windowOfFlaw ring g with
    | some w =>
      let t := (s.logFatal core ring g 3).replay core 3 w
      (t, (t.core core).replay.isNone)
    | none => (s.lostZoneD core ring g, false)

/-- Everything of one ring that a command reads is corrected or re-made. -/
def State.cleanRing (s : State) (core : Nat) (opens : Bool) (ring : Ring5) (hit : Nat → Bool) : Nat → State × Bool
  | 0 => (s, true)
  | fuel + 1 =>
    let s := s.correct core ring hit 0
    match s.fatalAt core ring hit with
    | none => (s, true)
    | some g => match s.remake core opens ring g with
      | (s, true) => s.cleanRing core opens ring hit fuel
      | (s, false) => (s, false)

/-! ## A command at the head of MX -/

/-- The bypass after a command retires (R105). -/
def Core.noteBypass (k : Core) (i : Instr) : Core :=
  let reads (x : Ecb) : Bool := match decodeEcb .mx x.slots with | .ok (.mma _ m) => m.bypass | _ => false
  match i with
  | .drain _ d => if d.toBypass then { k with arch := { k.arch with bypassLive := true } } else k
  | .mma _ m => if m.bypass && !(k.arch.mx.any reads) then { k with arch := { k.arch with bypassLive := false } } else k
  | _ => k

/-- Retire the head: its signal bits, its MA token (R56, R60, R61); KATCOUNT for a compared KAT (R119). While MA is full the head keeps its
slot and owes the push. -/
def State.mxRetire (s : State) (i : Instr) (x : Ecb) : State :=
  let pushes := bitAt (ecbSlot x.slots 0) 23
  let owes := pushes && !s.arch.tokRoom 6
  (s.modCur fun k =>
    let k := (((k.stamp x.seq s.cycle).retireEcb s.cycle .mx).noteBypass i)
    let passed : Bool := match i with | .kat h _ => h.katCmp | _ => false
    { k with katcount := if passed then k.katcount + 1 else k.katcount,
             flaws := if owes then s.cur.flaws else k.flaws,
             arch := if owes then { k.arch with mx := { x with started := true, owing := true } :: k.arch.mx }
                     else if pushes then k.arch.pushTok 6 else k.arch }).setStallOf 4 (if owes then some .token else none)
    |>.signalled (ecbSlot x.slots 2)

/-- The push that a retired head owes (R60). -/
def State.mxOwed (s : State) : State :=
  if s.arch.tokRoom 6 then
    (s.modCur fun k => { k with arch := { k.arch.pushTok 6 with mx := k.arch.mx.tail }, flaws := popFlaws 3 k.flaws }).setStallOf 4 none
  else s.setStallOf 4 (some .token)

/-- A KAT whose signature is not the expected one (R119): a replay of the window that holds it, where it can be replayed, and at a second mismatch
SDC_KAT with DEGRADED (R231). R222 asks for the commands that a report affects; a mismatch comes with none, so none counts as affected (DESIGN
CHOICE, log entry 62). -/
def State.katMiss (s : State) (x : Ecb) (sig : Word) : State :=
  let holds (w : Window) : Bool := w.cmds.any fun c => c.ecb.seq == x.seq
  let s := s.meetImages s.focus holds
  let k := s.cur
  let w := k.windows.find? holds
  let out : State := (s.modCur fun k => { k with degraded := true }).abortCore s.focus cSdcKat sig .counted
  match w with
  | some w =>
    if x.missed || !k.canReplay w [] then out
    else (s.modArch fun a => { a with mx := match a.mx with | y :: t => { y with missed := true } :: t | [] => [] }).replay s.focus 2 w
  | none => out

/-- A command that starts takes its place in a window and begins to run. -/
def Core.mxStarts (k : Core) (cycle : Nat) (i : Instr) (x : Ecb) (p : MxPlan) : Core :=
  let opens := opensWindow i
  let c : WinCmd := { ecb := x, retired := cycle, reads := if p.locks then p.reads else [], writes := p.tilesW,
                      starts := p.starts, drains := p.drains, dirs := p.dirsR, slots := p.slotsR }
  (k.spillWindow opens).join opens c

/-- What a command writes to the scratchpad. -/
def Core.mxWrites (k : Core) (image : Option (List Byte)) (x : Ecb) : Instr → List (Nat × List Byte)
  | .drain h d => (drainOut k.arch h.tag x.seed d).1
  | .kat h c => if h.katCmp then [] else [(c.sigAddr.toNat, bytesOf 8 (katFold image c).toNat)]
  | _ => []

/-- The command on the core, with the words that it has read ahead of the rest as it read them (R58). -/
def Core.mxPerform (k : Core) (image : Option (List Byte)) (x : Ecb) (i : Instr) : Core :=
  let early := kget k.latched 4 []
  let seen : Core := { k with arch := { k.arch with sp := early.foldl (fun m b => kset m b.1 b.2) k.arch.sp } }
  let ws := seen.mxWrites image x i
  let back (m : KMap Byte) (b : Nat × Byte) : KMap Byte :=
    if ws.any fun w => decide (w.1 ≤ b.1) && decide (b.1 < w.1 + w.2.length) then m else kset m b.1 (k.arch.spByte b.1)
  let done := seen.mxApply image x i
  let note (c : WinCmd) : WinCmd := if c.ecb.seq == x.seq then { c with wrote := ws } else c
  { done with
    arch := { done.arch with sp := early.foldl back done.arch.sp },
    windows := done.windows.map fun w => { w with cmds := w.cmds.map note } }

/-- The effect of a command whose steps have all been granted, and its retirement (DESIGN CHOICE, log entry 6). What it writes whole has no
latent error any more. -/
def State.mxExecute (s : State) (i : Instr) (x : Ecb) (p : MxPlan) : State :=
  let s := s.modCur fun k =>
    let k := k.mxPerform s.plat.image x i
    { k with
      flaws := k.flaws.filter fun f => !(f.ring == .acc && decide (f.granule < gBypass) && p.starts.contains (f.granule / 2048)) &&
        !(f.ring == .acc && f.granule == gBypass && p.bypassW) &&
        !(f.ring == .twa && decide (f.granule < 32768) && p.slotsW.contains (f.granule / 32)) }
  match i with
  | .kat h kc =>
    let sig := katFold s.plat.image kc
    if h.katCmp && sig != kc.expect then s.katMiss x sig else s.mxRetire i x
  | _ => s.mxRetire i x

/-- The head of MX waits for the governor. -/
def State.mxRefused (s : State) : State :=
  (s.modCur fun k => { k with refused := some (k.refused.getD s.cycle) }).setStallOf 4 (some .inFlight)

/-- n more steps of the running head have been charged: it executes with the last of them, or waits for the rest. A partial turn only starts it
(State.wide). -/
def State.mxPaid (s : State) (i : Instr) (p : MxPlan) (n : Nat) : State :=
  match s.arch.mx with
  | [] => s
  | x :: t =>
    let y := { x with started := true, paid := x.paid + n }
    let s := s.modArch fun a => { a with mx := y :: t }
    if p.steps ≤ y.paid ∧ s.part.isNone then s.mxExecute i y p else s.setStallOf 4 (some .inFlight)

/-- Older vector entries on the tiles of a command (R57). -/
def Core.tileWait (k : Core) (x : Ecb) (p : MxPlan) : Bool :=
  (k.arch.vl ++ k.arch.vs).any fun e => decide (e.seq < x.seq) && (match Machine.Instr.vtile e.instr with
    | some z => p.tilesR.contains z || p.tilesW.contains z
    | none => false)

/-- What the scratchpad puts in the way of a command: pages to fill, locked ranges, latent errors. -/
def State.mxTouch (s : State) (x : Ecb) (p : MxPlan) : Touch :=
  match s.touch s.focus x.seq p.reads true false with
  | .ready s => s.touch s.focus x.seq p.outs false true
  | t => t

/-- The data of a command: nothing of the scratchpad is in its way, and every latent error that it meets is settled (R218, R232). -/
def State.mxData (s : State) (i : Instr) (x : Ecb) (p : MxPlan) (go : State → State) : State :=
  match s.mxTouch x p with
  | .wait s => s.setStallOf 4 (some .inFlight)
  | .lost s d loc => s.lostWord s.focus d loc
  | .ready s =>
    let (s, ok1) := s.cleanRing s.focus (opensWindow i) .acc p.hitsAcc s.cur.flaws.length
    let (s, ok2) := if ok1 then s.cleanRing s.focus (opensWindow i) .twa p.hitsTwa s.cur.flaws.length else (s, false)
    if ok1 && ok2 then go s else s

/-- The governor grants the first step of the head of MX: its wait bits are cleared (R61), and go follows with the steps granted. -/
def State.mxFirst (s : State) (x : Ecb) (steps : Nat) (go : State → Nat → State) : State :=
  match s.grant s.focus (ecbSlot x.slots 0) steps with
  | none => s.mxRefused
  | some (s, n) => go (s.modArch fun a => a.clearEvents (ecbSlot x.slots 1)) n

/-- ECB_ILLEGAL, which the check after the first grant finds (R110). -/
def State.mxIllegal (s : State) (x : Ecb) (slot : Nat) : State :=
  s.mxFirst x 1 fun s _ => s.abortCore s.focus cEcbIllegal (BitVec.ofNat 64 slot) .faulted

/-- The head of MX starts once nothing holds it back and the governor grants its first step. -/
def State.mxStart (s : State) (i : Instr) (x : Ecb) (p : MxPlan) : State :=
  s.mxFirst x p.steps fun s n => match mxRagged s.arch i with
    | some g => s.abortCore s.focus cRaggedBounds (BitVec.ofNat 64 g) .faulted
    | none => (s.modCur fun k => k.mxStarts s.cycle i x p).mxPaid i p n

/-- The steps that the running head has still to be charged for. -/
def State.mxGo (s : State) (i : Instr) (p : MxPlan) : State :=
  match s.arch.mx with
  | [] => s
  | x :: _ =>
    if p.steps ≤ x.paid then s.mxPaid i p 0
    else match s.grant s.focus (ecbSlot x.slots 0) (p.steps - x.paid) with
      | none => s.mxRefused
      | some (s, n) => s.mxPaid i p n

/-- MX during a replay: the next steps of the retired commands are charged, and it ends with the last of them (R223). -/
def State.replayTurn (s : State) : State :=
  match s.cur.replay with
  | none => s
  | some r => match r.todo with
    | [] => s.modCur (·.replayEnd s.cycle)
    | (h0, left) :: rest => match s.grant s.focus h0 left with
      | none => s.mxRefused
      | some (s, n) =>
        let todo := if left ≤ n then rest else (h0, left - n) :: rest
        s.modCur fun k =>
          let k : Core := { k with replay := some { r with todo := todo } }
          if todo.isEmpty then k.replayEnd s.cycle else k

/-- A command of MX whose fields are not those of its opcode (R110): its wait mask, its grant, then ECB_ILLEGAL. -/
def State.mxUndecoded (s : State) (x : Ecb) (slot : Nat) : State :=
  if maskMet s.arch (ecbSlot x.slots 1) then s.mxIllegal x slot else s.setStallOf 4 (some .event)

/-- MX at its head, where the head decodes to i. -/
def State.mxRun (s : State) (i : Instr) : State :=
  match s.arch.mx with
  | [] => s
  | x :: _ =>
    let same : Bool := match decodeEcb .mx x.slots with | .ok j => j == i | .error _ => false
    if !same then s
    else if s.cur.replay.isSome then s.replayTurn
    else if x.owing then s.mxOwed
    else if x.started then
      let p := mxPlan s.arch i
      s.mxData i x p fun s => s.mxGo i p
    else if !maskMet s.arch (ecbSlot x.slots 1) then s.setStallOf 4 (some .event)
    else
      let s := s.modCur (·.ageOut s.cycle)
      let a := s.arch
      match mxBad s.runD a i with
      | some n => s.mxIllegal x n
      | none =>
        let p := mxPlan a i
        if s.cur.tileWait x p then s.setStallOf 4 (some .interlock)
        else if !s.cur.bufferFree (opensWindow i) || s.cur.twaHeld p then s.setStallOf 4 (some .inFlight)
        else s.mxData i x p fun s => s.mxStart i x p

/-- MMA (R367, R368). -/
def execMma (h : EcbHead) (m : MmaCmd) (s : State) : Host.Outcome State Fault Refusal := s.sealed (s.mxRun (.mma h m))

/-- DRAIN (R343, R344). -/
def execDrain (h : EcbHead) (d : DrainCmd) (s : State) : Host.Outcome State Fault Refusal := s.sealed (s.mxRun (.drain h d))

/-- ZACC (R429). -/
def execZacc (h : EcbHead) (tile : Fin 32) (s : State) : Host.Outcome State Fault Refusal :=
  s.sealed (s.mxRun (.zacc h tile))

/-- TWFILL (R396, R397). -/
def execTwfill (h : EcbHead) (t : TwfillCmd) (s : State) : Host.Outcome State Fault Refusal :=
  s.sealed (s.mxRun (.twfill h t))

/-- KAT (R356). -/
def execKat (h : EcbHead) (k : KatCmd) (s : State) : Host.Outcome State Fault Refusal := s.sealed (s.mxRun (.kat h k))

end Sys2Proof.Machine
end

