-- ==== Sys2Proof/Machine/ScalarMem.lean ====
section
/-!
DEFINITION. The scalar memory words, class SM (spec/14 R291, spec/15 R324-R326, R335, R338, R350, spec/16 R357-R361, R378,
R387-R389, spec/17 R423, R424).
-/

namespace Sys2Proof.Machine

/-! ## Windows of a scalar access (R69, R70) -/

/-- Natural alignment where the access must have it (R164). -/
def alignedFor (must : Bool) (a : Word) (n : Nat) : Bool := !must || a.toNat % n == 0

/-- Where the access of an outstanding word translated to. -/
def Pend.xl (p : Pend) : Xl := { pa := p.pa, pa2 := p.pa2, uncached := p.unc, uncached2 := p.unc2 }

/-- An access to the scratchpad window: its bytes lie in the declared pages, aligned where it must be; then f acts on
the offset once nothing stands in its way. -/
def State.spAccess (s : State) (a : Word) (n : Nat) (must reads writes : Bool) (f : State → Nat → Sq) : Sq :=
  let o := offsetOf a
  guard (decide (o + n ≤ 2 ^ 19) && s.inPages o n) cWindowFault a
    (guard (alignedFor must a n) cMisaligned a
      ((s.touch s.focus s.arch.seq [(o, n)] reads writes).sq fun s => f s o))

/-- An access to the global window: in range, aligned where it must be, not in an exchange stream (R39), translated. -/
def State.globalAccess (s : State) (a : Word) (n : Nat) (must : Bool) (acc : Access) (f : State → Nat → Xl → Sq) : Sq :=
  let va := offsetOf a
  guard (decide (va + n ≤ 2 ^ 48)) cWindowFault a
    (guard (alignedFor must a n) cMisaligned a
      (s.notExch a
        (let (s, x) := s.translateRange (some s.focus) (dieOf s.focus) s.runD.job va n acc
         match x with
         | .error f => s.xlFail (if accWrites acc then 1 else 0) f
         | .ok x => f s va x)))

/-- PROTECTION of a scalar access to the management region, once it has translated (R457; DEDUCED, log entry 30). -/
def State.mgmtProt (s : State) (a : Word) : Sq := .ok (s.abortCore s.focus cProtection a .faulted)

/-- The trace record of a global access (R258). -/
def State.traceMem (s : State) (at_ : MemAttr) (va : Nat) : State :=
  s.modCur fun k => k.trace s.cycle 3 0 (16 * at_.oc.val + at_.scope.val) (BitVec.ofNat 64 va)

/-! ## LD (R358) -/

/-- A load of the global window leaves, unless 512 requests are outstanding (R14); its value returns with GLOBAL_LOAD_RETURN. A load, AMO or CAS
counts as one of the 512, also where its bytes span two lines and so make two requests (R147) (DESIGN CHOICE, log entry 58). -/
def State.globalLoad (s : State) (n : Nat) (sx : Bool) (at_ : MemAttr) (sd : SReg) (a : Word) : Sq :=
  s.globalAccess a n at_.strong .read fun s va x =>
    let p : Pend := { kind := .load at_.strong, seq := s.arch.seq, sd := sd, va := va, pa := x.pa, pa2 := x.pa2, n := n,
                      sx := sx, oc := at_.oc.val, scope := at_.scope.val, hint := at_.hint, addr := s.arch.word,
                      unc := x.uncached, unc2 := x.uncached2 }
    waitFor (decide (s.cur.pend.length < 512)) .inFlight
      (.ok ((s.traceMem at_ va).modCur fun k => { k with pend := k.pend ++ [p], arch := k.arch.tick }).done)

/-- A read of the accumulator view: the retained and the unprotected commands that wrote the tile note it (R222). -/
def Core.readTile (k : Core) (z : Nat) : Core :=
  let note (c : WinCmd) : WinCmd := if c.writes.contains z then { c with seen := true } else c
  { k with windows := k.windows.map (fun w => { w with cmds := w.cmds.map note }), unprot := k.unprot.map note }

/-- Words of the accumulator store that bytes [off, off + n) of its view touch, as granules of the ACC ring. -/
def accHit (off n : Nat) (g : Nat) : Bool := decide (8 * g < off + n) && decide (off < 8 * g + 8)

/-- A read of a code-protected store outside the scratchpad: corrected, or rung 4 (R232). -/
def State.useStore (s : State) (c : Nat) (ring : Ring5) (hit : Nat → Bool) : Touch :=
  let s := s.correct c ring hit 0
  match s.fatalAt c ring hit with
  | some g => .lost (s.logFatal c ring g 4) false (flawLoc ring g)
  | none => .ready s

/-- LD by window. In the scratchpad window a partial turn reads some words ahead of the rest, unless the access is strong (R58, R164). -/
def State.load (s : State) (n : Nat) (sx : Bool) (at_ : MemAttr) (sd : SReg) (a : Word) : Sq :=
  let o := offsetOf a
  match windowOf a with
  | .glob => s.globalLoad n sx at_ sd a
  | .sp => s.spAccess a n at_.strong true false fun s o =>
      match s.part with
      | some p => if at_.strong then .stall .done else .ok (s.modCur (·.latchWords 0 p))
      | none => .ok ((s.acquire s.focus).doneWith sd (extend sx n (leNat (s.cur.spVia 0 o n))))
  | .acc =>
    guard (decide (o + n ≤ 2 ^ 19) && s.inTiles o n) cWindowFault a
      (guard (alignedFor at_.strong a n) cMisaligned a
        ((s.useStore s.focus .acc (accHit o n)).sq fun s =>
          let v := leNat ((List.range n).map fun i => s.arch.accByte (o + i))
          let s := s.modCur fun k => (k.readTile (o / 16384)).readTile ((o + n - 1) / 16384)
          .ok (s.doneWith sd (extend sx n v))))
  | .twa =>
    guard (decide (o + n ≤ 2 ^ 18)) cWindowFault a
      (guard (alignedFor at_.strong a n) cMisaligned a
        ((s.useStore s.focus .twa (accHit o n)).sq fun s =>
          .ok (s.doneWith sd (extend sx n (leNat ((List.range n).map fun i => s.arch.slotByte (o + i)))))))
  | .aperture | .none => .raise cWindowFault a

def execLd (sz : MSize) (sx : Bool) (at_ : MemAttr) (sd sa : SReg) (off : W32) (s : State) :
    Host.Outcome State Fault Refusal :=
  s.run (s.sq true [sd, sa] (s.load (MSize.bytes sz) sx at_ sd (s.arch.ea sa off)))

/-! ## ST (R389) -/

/-- A supervisor's store to the management region enters the Safety Net and performs at its release; only a whole, aligned
word changes anything (R457). -/
def State.mgmtStore (s : State) (n : Nat) (at_ : MemAttr) (a : Word) (pa : Nat) (v : Word) : Sq :=
  let off := pa - Config.mgmtBase
  if !s.inHandler then s.mgmtProt a
  else waitFor (s.netFits s.focus n && !s.cur.storeWaits at_.oc.val (offsetOf a) pa n true false) .inFlight
    (let body := if n = 8 ∧ pa % 8 = 0 then SnBody.mgmt off v else .store
     .ok (((s.traceMem at_ (offsetOf a)).netPut s.focus s.arch.seq at_.oc.val n body).modArch (·.tick)).done)

/-- A store to the global window (R389): the quarantine, the Safety Net, and cluster peers when the scope is 3. -/
def State.globalStore (s : State) (n : Nat) (at_ : MemAttr) (a : Word) (v : Word) : Sq :=
  s.globalAccess a n at_.strong .write fun s va x =>
    if x.inRegion n then s.mgmtStore n at_ a x.pa v
    else waitFor (s.netFits s.focus n && !s.cur.storeWaits at_.oc.val va x.pa n (at_.scope.val == 3) (at_.scope.val == 3)) .inFlight
      (let r := s.runD
       let bs := bytesOf n v.toNat
       match s.quarStore r s.arch.seq at_.oc.val va x bs at_.hint at_.strong false [] with
       | none => .ok (s.overflow s.focus)
       | some s =>
         let s := (s.traceMem at_ va).netPut s.focus s.arch.seq at_.oc.val n .store
         let s := if at_.scope.val = 3 then s.forward s.focus r x bs else s
         .ok (s.modArch (·.tick)).done)

/-- ST by window. In the scratchpad window a partial turn writes some words ahead of the rest, unless the access is strong (R58, R164). -/
def State.storeWord (s : State) (n : Nat) (at_ : MemAttr) (a : Word) (v : Word) : Sq :=
  let o := offsetOf a
  match windowOf a with
  | .glob => s.globalStore n at_ a v
  | .sp => s.spAccess a n at_.strong false true fun s o =>
      match s.part with
      | some p => if at_.strong || s.isExch then .stall .done else .ok (s.modCur fun k => k.takeEarly (k.put o (bytesOf n v.toNat)) 0 p)
      | none => .ok (s.spWrite s.focus s.arch.seq o (bytesOf n v.toNat)).doneLive
  | .aperture =>
    guard (n == 8 && decide (o + 8 ≤ 64)) cWindowFault a
      (guard (a.toNat % 8 == 0) cMisaligned a
        (s.notExch a (s.aperture (o / 8) (v.field 0 8) (v.field 8 19) (v.sshiftRight 27).toInt)))
  | .acc | .twa | .none => .raise cWindowFault a

def execSt (sz : MSize) (at_ : MemAttr) (sa : SReg) (off : W32) (sd : SReg) (s : State) :
    Host.Outcome State Fault Refusal :=
  s.run (s.sq true [sa, sd] (s.storeWord (MSize.bytes sz) at_ (s.arch.ea sa off) (s.arch.rd sd)))

/-! ## AMO, CAS (R324, R325, R335) -/

/-- Op of R324 on n bytes. -/
def amoResult (op : AmoOp) (n old v : Nat) : Nat :=
  let w := 8 * n
  let x := BitVec.ofNat w old
  let y := BitVec.ofNat w v
  (match op with
   | .add => x + y | .and => x &&& y | .or => x ||| y | .xor => x ^^^ y
   | .min => if y.slt x then y else x | .max => if x.slt y then y else x
   | .minu => if y.ult x then y else x | .maxu => if x.ult y then y else x
   | .swap => y).toNat

/-- What an AMO or CAS writes: none where a CAS does not match. -/
def atomicResult (k : PendKind) (n old : Nat) : Option Nat :=
  match k with
  | .amo op v => some (amoResult op n old (v.toNat % 2 ^ (8 * n)))
  | .cas cmp new => if old = cmp.toNat % 2 ^ (8 * n) then some (new.toNat % 2 ^ (8 * n)) else none
  | _ => none

/-- An AMO or CAS: at SQ in the scratchpad window; through the Safety Net to its home slice in the global one. -/
def State.atomic (s : State) (k : PendKind) (n : Nat) (sx : Bool) (at_ : MemAttr) (sd : SReg) (a : Word) : Sq :=
  match windowOf a with
  | .glob => s.globalAccess a n true .write fun s va x =>
      if inMgmt x.pa then s.mgmtProt a
      else waitFor (s.netFits s.focus n && decide (s.cur.pend.length < 512) && !s.cur.storeWaits at_.oc.val va x.pa n true false) .inFlight
        (let p : Pend := { kind := k, seq := s.arch.seq, sd := sd, va := va, pa := x.pa, pa2 := x.pa2, n := n, sx := sx,
                           oc := at_.oc.val, scope := at_.scope.val, hint := at_.hint, addr := s.arch.word,
                           unc := x.uncached, unc2 := x.uncached2 }
         let s := (s.traceMem at_ va).netPut s.focus s.arch.seq at_.oc.val n .atomic
         .ok (s.modCur fun k => { k with pend := k.pend ++ [p], arch := k.arch.tick }).done)
  | .sp => s.spAccess a n true true true fun s o =>
      let old := leNat (s.arch.spBytes o n)
      let s := match atomicResult k n old with
        | some v => s.spWrite s.focus s.arch.seq o (bytesOf n v)
        | none => s
      .ok (if s.cur.run.isSome then s.doneWith sd (extend sx n old) else s)
  | _ => .raise cWindowFault a

def execAmo (op : AmoOp) (sz : MSize) (sx : Bool) (at_ : MemAttr) (sd sa : SReg) (off : W32) (sb : SReg) (s : State) :
    Host.Outcome State Fault Refusal :=
  s.run (s.sq true [sd, sa, sb] (s.atomic (.amo op (s.arch.rd sb)) (MSize.bytes sz) sx at_ sd (s.arch.ea sa off)))

def execCas (sz : MSize) (sx : Bool) (at_ : MemAttr) (sd sa : SReg) (off : W32) (sb : SReg) (s : State) :
    Host.Outcome State Fault Refusal :=
  s.run (s.sq true [sd, sa, sb]
    (s.atomic (.cas (s.arch.rd sb) (s.arch.rd sd)) (MSize.bytes sz) sx at_ sd (s.arch.ea sa off)))

/-! ## Full/empty words (R130, R360, R350) -/

/-- One full/empty word: the window, the declared pages, 4-byte alignment, the parity of its bit; it waits for its bit. -/
def State.feWord (s : State) (a : Word) (want : Option Bool) (reads writes : Bool) (f : State → Nat → Sq) : Sq :=
  guard (windowOf a == .sp) cWindowFault a
    (s.spAccess a 4 true reads writes fun s o => (s.touchBit s.focus (o / 4)).sq fun s =>
      let full := s.arch.full.contains (o / 4)
      waitFor (match want with | some b => full == b | none => true) .fullEmpty (f s o))

/-- The word at an offset, extended. -/
def Arch.word32 (a : Arch) (sx : Bool) (o : Nat) : Word := extend sx 4 (leNat (a.spBytes o 4))

def execLdfe (sx : Bool) (sd sa : SReg) (off : W32) (s : State) : Host.Outcome State Fault Refusal :=
  s.run (s.sq true [sd, sa] (s.feWord (s.arch.ea sa off) (some true) true false fun s o =>
    .ok (((s.acquire s.focus).setFull s.focus s.arch.seq (o / 4) false).doneWith sd (s.arch.word32 sx o))))

def execLdff (sx : Bool) (sd sa : SReg) (off : W32) (s : State) : Host.Outcome State Fault Refusal :=
  s.run (s.sq true [sd, sa] (s.feWord (s.arch.ea sa off) (some true) true false fun s o =>
    .ok ((s.acquire s.focus).doneWith sd (s.arch.word32 sx o))))

/-- The store half of STEF and STFF: the word, then its bit. -/
def State.storeFull (s : State) (o : Nat) (v : Word) : State :=
  let s := s.spWrite s.focus s.arch.seq o (bytesOf 4 (v.toNat % 2 ^ 32))
  if s.cur.run.isSome then (s.setFull s.focus s.arch.seq (o / 4) true).done else s

def execStef (sa : SReg) (off : W32) (sd : SReg) (s : State) : Host.Outcome State Fault Refusal :=
  s.run (s.sq true [sd, sa] (s.feWord (s.arch.ea sa off) (some false) false true fun s o =>
    .ok (s.storeFull o (s.arch.rd sd))))

def execStff (sa : SReg) (off : W32) (sd : SReg) (s : State) : Host.Outcome State Fault Refusal :=
  s.run (s.sq true [sd, sa] (s.feWord (s.arch.ea sa off) none false true fun s o =>
    .ok (s.storeFull o (s.arch.rd sd))))

def execFeclr (sa : SReg) (off : W32) (s : State) : Host.Outcome State Fault Refusal :=
  s.run (s.sq true [sa] (s.feWord (s.arch.ea sa off) none false false fun s o =>
    .ok (s.setFull s.focus s.arch.seq (o / 4) false).done))

/-! ## CPGO (R338) -/

/-- CPGO. TEMPLATE_FAULT, which R71 does not rank, comes after PROTECTION of an exchange stream (DESIGN CHOICE, log entry 46). -/
def execCpgo (chan : Fin 8) (tpl : Fin 256) (sa sb : SReg) (s : State) : Host.Outcome State Fault Refusal :=
  let x := s.arch.rd sa
  let y := (s.arch.rd sb).toInt
  s.run (s.sq false [sa, sb]
    (s.notExch (BitVec.ofNat 64 (0xFF03 * 2 ^ 48 + 8 * chan.val))
      (guard (decide (x.toNat < 2 ^ 19) && decide (-(2 ^ 36 : Int) ≤ y) && decide (y < 2 ^ 36)) cTemplateFault
          (BitVec.ofNat 64 tpl.val)
        (s.aperture chan.val tpl.val x.toNat y))))

/-! ## Page words (R126, R387, R388) -/

/-- The page of the task that maps the 4 KiB range of va. -/
def Arch.pageOf (a : Arch) (va : Nat) : Option Nat := (a.pages.find? fun p => p.2.range == va / 4096).map (·.1)

/-- P: a 4,096-aligned scratchpad address in a declared page. -/
def State.pageArg (s : State) (p : Word) (f : Nat → Sq) : Sq :=
  guard (windowOf p == .sp && decide (offsetOf p < 2 ^ 19) && s.inPages (offsetOf p) 1) cWindowFault p
    (guard (offsetOf p % 4096 == 0) cMisaligned p (f (offsetOf p / 4096)))

def execSplook (sd sa : SReg) (off : W32) (s : State) : Host.Outcome State Fault Refusal :=
  let g := s.arch.ea sa off
  s.run (s.sq false [sd, sa] (.ok (s.doneWith sd
    (match (if windowOf g = .glob then s.arch.pageOf (offsetOf g) else none) with
     | some p => BitVec.ofNat 64 (0xFF00 * 2 ^ 48 + 4096 * p + offsetOf g % 4096)
     | none => BitVec.allOnes 64))))

/-- SPFILL: the tag changes at issue; the write-back of the old one and the fill follow on the channel. -/
def execSpfill (hint : Hint) (oc : Fin 16) (sa : SReg) (off : W32) (sd : SReg) (s : State) :
    Host.Outcome State Fault Refusal :=
  let g := s.arch.ea sa off
  let p := s.arch.rd sd
  let gp := offsetOf g / 4096
  s.run (s.sq false [sa, sd]
    (guard (windowOf g == .glob) cWindowFault g
      (guard (windowOf p == .sp && decide (offsetOf p < 2 ^ 19) && s.inPages (offsetOf p) 1) cWindowFault p
        (guard (offsetOf g % 4096 == 0) cMisaligned g
          (s.pageArg p fun page =>
            s.notExch g
              (let a := s.arch
               let mapped := a.pageOf (offsetOf g)
               if mapped.isSome ∧ mapped ≠ some page then s.mgmtProt g
               else match s.cur.freeChan with
                 | none => .stall .queue
                 | some ch =>
                   let s := s.modCur fun k => k.trace s.cycle 3 0 (16 * oc.val) g
                   let old := kfind a.pages page
                   let again := mapped = some page
                   let tag : Page := match old with
                     | some pg => if again then { pg with pin := true }
                                  else { range := gp, res := false, pin := true, dirty := [], hint := hint }
                     | none => { range := gp, res := false, pin := true, dirty := [], hint := hint }
                   let s := s.startOn ch (.fill page) (if again then 0 else 1) (if again then none else old)
                   .ok (s.modArch fun a => { a with pages := kset a.pages page tag }).done))))))

/-- SPEVICT: the page is scratch at issue; the write-back of the tag that it had, or its drop, follows on the channel. -/
def State.spevict (s : State) (p : Word) (wb : Bool) : Sq :=
  s.pageArg p fun page =>
    s.notExch p
      (match s.cur.freeChan with
       | none => .stall .queue
       | some ch =>
         let s := s.startOn ch (.evict page) (if wb then 1 else 2) (kfind s.arch.pages page)
         .ok (s.modArch fun a => { a with pages := kdel a.pages page }).done)

def execSpevictWb (sa : SReg) (off : W32) (s : State) : Host.Outcome State Fault Refusal :=
  s.run (s.sq false [sa] (s.spevict (s.arch.ea sa off) true))

def execSpevictDrop (sa : SReg) (off : W32) (s : State) : Host.Outcome State Fault Refusal :=
  s.run (s.sq false [sa] (s.spevict (s.arch.ea sa off) false))

/-- SPPIN and SPPIN.UN: PIN of a backed page. -/
def State.setPin (s : State) (p : Word) (pin : Bool) : Sq :=
  s.pageArg p fun page =>
    .ok (s.modArch fun a => match kfind a.pages page with
      | some pg => { a with pages := kset a.pages page { pg with pin := pin } }
      | none => a).done

def execSppin (sa : SReg) (off : W32) (s : State) : Host.Outcome State Fault Refusal :=
  s.run (s.sq true [sa] (s.setPin (s.arch.ea sa off) true))

def execSppinUn (sa : SReg) (off : W32) (s : State) : Host.Outcome State Fault Refusal :=
  s.run (s.sq true [sa] (s.setPin (s.arch.ea sa off) false))

/-! ## WENQ (R423, R424) -/

/-- What WENQ does with its descriptor, translated to x, and the payload at offset o (R424): it waits for its own AMO and CAS on the descriptor
(R156), reads it through its own view, and puts the payload and the new tail into the quarantine. -/
def State.enqueueAt (s : State) (oc : Nat) (hint : Hint) (a : Word) (o n va : Nat) (x : Xl) : Sq :=
  let r := s.runD
  let word (i : Nat) : Word :=
    BitVec.ofNat 64 (leNat (s.viewBytes s.focus r.job r.tcb (fun j => x.pa + 8 * i + j) 8 false).1)
  let t0 := (word 0).toNat
  let slot := queueSlot word t0
  let px := s.provXl r.job slot
  waitFor (!s.cur.pend.any fun p => p.kind.counted && p.hits va x.pa 64) .inFlight
    (if inMgmt x.pa then s.mgmtProt a
     else if s.poisoned x.pa 64 then .ok (s.readPoison s.focus x.pa 64)
     else if !queueOk word n || px.inRegion n then s.mgmtProt a
     else (s.touch s.focus s.arch.seq [(o, n)] true false).sq fun s =>
      -- accesses of the same bytes, and of its class, come first (R156, R157)
      waitFor (s.netFits s.focus n && !s.cur.storeWaits oc va x.pa 8 false false && !s.cur.storeWaits oc slot px.pa n false false)
          .inFlight
        (let bs := s.arch.spBytes o n
         let es := quarEntries s.arch.seq oc slot px bs hint false true ++
           quarEntries s.arch.seq oc va x (bytesOf 8 ((t0 + 1) % 2 ^ 64)) hint false true
         let s := (s.request r.job r.launch va x 64 false hint).noteReads r.job r.tcb x 64
         match s.quarPut r.job r.launch r.tcb es [.wenq va bs hint] with
         | none => .ok (s.overflow s.focus)
         | some s =>
           let s := s.modCur fun k => k.trace s.cycle 3 0 (16 * oc) (BitVec.ofNat 64 va)
           .ok (((s.noteWrites r.job r.tcb x.pa).netPut s.focus s.arch.seq oc n .store).modArch (·.tick)).done))

def State.wenq (s : State) (oc : Nat) (hint : Hint) (a pay len : Word) : Sq :=
  let n := len.toNat
  guard (windowOf a == .glob) cWindowFault a
    (match spOffset pay with
     | none => .raise cWindowFault pay
     | some o =>
       guard (decide (o + n ≤ 2 ^ 19) && s.inPages o n) cWindowFault pay
        (guard (a.toNat % 64 == 0) cMisaligned a
         (guard (o % 16 == 0) cMisaligned pay
          (s.globalAccess a 64 true .write fun s va x => s.enqueueAt oc hint a o n va x))))

def execWenq (oc : Fin 16) (hint : Hint) (sa : SReg) (off : W32) (sd sb : SReg) (s : State) :
    Host.Outcome State Fault Refusal :=
  s.run (s.sq false [sa, sd, sb] (s.wenq oc.val hint (s.arch.ea sa off) (s.arch.rd sd) (s.arch.rd sb)))

/-! ## PREF (R378) -/

/-- PREF reads its line into the L2, with the trace record of an access; where it would fault it does nothing (R242). -/
def State.prefetch (s : State) (hint : Hint) (oc : Fin 16) (a : Word) : State :=
  if windowOf a ≠ .glob ∨ hint = .noAllocate ∨ hint = .bypass then s
  else
    let r := s.runD
    match s.translate (some s.focus) (dieOf s.focus) r.job (offsetOf a) .read with
    | (_, .error _) => s
    | (s', .ok x) =>
      if inMgmt x.pa then s
      else (s'.request r.job r.launch (offsetOf a) x 1 false hint).traceMem
        { oc := oc, scope := 0, hint := hint, strong := false } (offsetOf a)

def execPref (hint : Hint) (oc : Fin 16) (sa : SReg) (off : W32) (s : State) : Host.Outcome State Fault Refusal :=
  let a := s.arch.ea sa off
  s.run (s.sq true [sa] (s.notExch a (.ok (s.prefetch hint oc a).done)))

end Sys2Proof.Machine
end

