-- ==== Sys2Proof/Machine/MemEvents.lean ====
section
/-!
DEFINITION. Events of the memory system on behalf of a core (spec/95): a load's return (spec/16 R358), a copy sector (spec/06
R138), a page fill (R123, R127) and a table walk (spec/11 R240, R243).
-/

namespace Sys2Proof.Machine

/-- A load waits for earlier accesses of its class (R157), for earlier accesses to the same bytes, and for a store to the
same word of the management region (R156). -/
def State.loadWaits (s : State) (core : Nat) (p : Pend) : Bool :=
  let k := s.core core
  k.classBusy p.oc p.seq || (k.pend.any fun q => q.kind.counted && decide (q.seq < p.seq) && q.hits p.va p.pa p.n) ||
    (s.net.any fun i => i.core == core && decide (i.seq < p.seq) && (match i.body with
      | .mgmt off _ => decide (Config.mgmtBase + off < p.pa + p.n) && decide (p.pa < Config.mgmtBase + off + 8)
      | _ => false))

/-- The value of a load reaches sd: the quarantine view, forwarded values for scope 3, then the home slice, where a strong load may race
(R165). -/
def State.loadReturn (s : State) (core : Nat) (r : Run) (p : Pend) (strong : Bool) : State :=
  let x := p.xl
  let n1 := min p.n (4096 - p.pa % 4096)
  let atRegs (bs : List Byte) : List Byte := bs.zipIdx.map fun b =>
    if inMgmt (spanPa p.pa p.pa2 b.2) then s.physByte (spanPa p.pa p.pa2 b.2) else b.1
  let put (s : State) (bs : List Byte) : State := (s.modCore core fun k =>
    { k with pend := k.pend.filter (· != p), arch := k.arch.wr p.sd (extend p.sx p.n (leNat bs)) }).acquire core
  if inMgmt p.pa && (decide (p.n ≤ n1) || inMgmt p.pa2) then put s ((List.range p.n).map fun i => s.physByte (spanPa p.pa p.pa2 i))
  else if s.spanPoisoned x p.n then (s.meetFlaws 0 p.pa2 (p.n - n1)).readPoison core p.pa n1
  else if strong && s.mixHit core p.pa p.n then
    s.abortCore core cMixsize (BitVec.ofNat 64 p.va) .faulted
  else
    let (bs, writers) := (if strong then s.racingLoad core p.pa p.n else s).viewBytes core r.job r.tcb (spanPa p.pa p.pa2) p.n (p.scope == 3)
    let s := s.request r.job r.launch p.va x p.n false p.hint
    let s := if strong then s.noteStrong core p.pa p.n else s
    let s := s.noteReads r.job r.tcb x p.n
    put { s with bonds := s.bonds ++ writers.map fun w => (r.job, w, r.tcb) } (if x.inRegion p.n then atRegs bs else bs)

/-- GLOBAL_LOAD_RETURN: the index-th outstanding result of the core, when it is a load that nothing holds back. -/
def execGlobalLoadReturn (core : Fin 1024) (index : Nat) (s : State) : Host.Outcome State Fault Refusal :=
  s.sealed (match (s.core core.val).run, (s.core core.val).pend[index]? with
    | some r, some p => match p.kind with
      | .load strong => if s.loadWaits core.val p then s else s.loadReturn core.val r p strong
      | _ => s
    | _, _ => s)

/-- An SPEVICT on its channel: once every earlier copy on its page has retired, the write-back of the tag it held. -/
def State.evictStep (s : State) (core chan : Nat) (c : Copy) (page : Nat) : State :=
  let k := s.core core
  if k.olderCopyOn c.seq page then s
  else if c.expected = 2 ∧ k.locked (4096 * page) 4096 then s
  else match (if c.expected = 2 then none else c.writeBack) with
    | none => s.modCore core (·.retireCopy s.cycle chan)
    | some pg =>
      if !s.writeBackFits core pg then s
      else match s.writeBack core page pg with
        | (some s, _) => s.modCore core (·.retireCopy s.cycle chan)
        | (none, s) => s

/-- The counter add of a released sector whose page was absent, once it is there (R123, R138). -/
def State.lateAdd (s : State) (core chan : Nat) (c : Copy) (t : List Word) : State :=
  match s.touchAs true core c.seq [(tplCounter t, 4)] true true with
  | .wait s => s
  | .lost s d loc => s.lostWord core d loc
  | .ready s =>
    (s.modCore core fun k => { k with copies := kset k.copies chan { c with late := c.late - 1 } }).countSector core chan

/-- One sector of a copy, or the retirement it still owes. The sectors of a copy, which R157 leaves unordered, move in visiting order (DESIGN
CHOICE, log entry 58). -/
def State.copyStep (s : State) (core chan : Nat) (r : Run) (c : Copy) : State :=
  match c.kind with
  | .fill _ => s
  | .evict page => s.evictStep core chan c page
  | .copy t gb sb =>
    if c.counted = c.expected then s.modCore core (·.retireCopy s.cycle chan)
    else if tplDir t = 1 ∧ 0 < c.late then s.lateAdd core chan c t
    else if c.next = c.expected then s
    else if (s.core core).copyWaits c t (sectorSpan t gb sb c.next).1 (sectorSpan t gb sb c.next).2.1 (sectorSpan t gb sb c.next).2.2.1 then
      s.copyIdle core chan
    else if tplDir t = 1 then s.sectorOut core chan r c t gb sb
    else s.sectorIn core chan r c t gb sb

/-- COPY_SECTOR_COUNTED: the next sector of the channel moves; in direction 1 it is counted when the Safety Net releases
it. The entry of the channel is met first (spec/10 R233). -/
def execCopySectorCounted (core : Fin 1024) (chan : Fin 8) (s : State) : Host.Outcome State Fault Refusal :=
  s.sealed (match (s.core core.val).run, kfind (s.core core.val).copies chan.val with
    | some r, some c => match s.meetQueue core.val (· == gQueue 6 chan.val) with
      | (s, true) => s.copyStep core.val chan.val r c
      | (s, false) => s
    | _, _ => s)

/-- The channel and copy of the oldest SPFILL on a page. -/
def Core.fillOn (k : Core) (page : Nat) : Option (Nat × Copy) :=
  (k.copies.filter fun c => match c.2.kind with | .fill p => p == page | _ => false).foldl
    (fun (m : Option (Nat × Copy)) c => match m with
      | some x => if c.2.seq < x.2.seq then some c else some x
      | none => some c) none

/-- A first-touch fill, by the tag that the accesses which wait for it act on (R123, R127). -/
def State.firstTouch (s : State) (core page : Nat) : State :=
  if (s.core core).fills.contains page && !(s.core core).locked (4096 * page) 4096 then (s.fillPage core 0 page .normal).1 else s

/-- PAGE_FILL_COMPLETE: an SPFILL writes back the old tag, fills and retires, and one that only sets PIN retires at once; else a first-touch fill
completes, which an earlier copy may await while SPFILL waits for it (R123, R127, R388). -/
def State.pageFill (s : State) (core page : Nat) : State :=
  let k := s.core core
  match k.fillOn page with
  | some (chan, c) =>
    if c.expected = 0 then s.modCore core (·.retireCopy s.cycle chan)
    else if k.olderCopyOn c.seq page then s.firstTouch core page
    else if k.locked (4096 * page) 4096 then s
    else
      let hint := match k.tagFrom (c.seq + 1) page with | some pg => pg.hint | none => .normal
      let go (s : State) : State :=
        match s.fillPage core (c.seq + 1) page hint with
        | (s, true) => s.modCore core (·.retireCopy s.cycle chan)
        | (s, false) => s
      match c.writeBack with
      | none => go s
      | some pg =>
        if !s.writeBackFits core pg then s
        else match s.writeBack core page pg with
          | (some s, _) => go s
          | (none, s) => s
  | none => s.firstTouch core page

def execPageFillComplete (core : Fin 1024) (page : Fin 128) (s : State) : Host.Outcome State Fault Refusal :=
  s.sealed (match (s.core core.val).fillOn page.val with
    | some (chan, _) => match s.meetQueue core.val (· == gQueue 6 chan) with
      | (s, true) => s.pageFill core.val page.val
      | (s, false) => s
    | none => s.pageFill core.val page.val)

/-- The access kinds of a page-fault entry (R248). -/
def accessCode : Access → Nat
  | .read => 0 | .write => 1 | .fetch => 2 | .nmRead | .nmWrite => 3

/-- TABLE_WALK: a walker translates for the occupant of a core, sets A and D, or ends the task. -/
def execTableWalk (core : Fin 1024) (va : BitVec 48) (acc : Access) (s : State) : Host.Outcome State Fault Refusal :=
  s.sealed (match (s.core core.val).run with
    | none => s
    | some r => match s.translate (some core.val) (dieOf core.val) r.job va.toNat acc with
      | (s, .ok _) => s
      | (s, .error f) => s.mapFail core.val (accessCode acc) (f, va.toNat))

end Sys2Proof.Machine
end

