-- ==== Sys2Proof/Machine/Platform.lean ====
section
/-!
DEFINITION. The management controller: boot (spec/13 R285) and power states (R287).
-/

namespace Sys2Proof.Machine

/-! ## What P2 and P3 lose (R287) -/

/-- The L2 contents go after their dirty lines are written back; retained lines lose retention. -/
def State.dropL2 (s : State) : State := s.dropLines fun _ => true

/-- A core after P3: the words of the management region that show it stay (DEGRADED, the trace buffer); the rest is as after reset, but
that nothing is known of its scratchpad. -/
def Core.cold (k : Core) (epoch : Nat) : Core :=
  { Core.reset with
    arch := { Arch.reset with spEpoch := epoch }, degraded := k.degraded, traceBuf := k.traceBuf }

/-- Everything but the management region and the Uzolink state. Control-node memory is not the device's (DEDUCED, log entry 31). -/
def State.loseAll (s : State) : State :=
  let n := s.epoch + 1
  { s with
    mem := s.mem.filter (fun (c : Host.Cell) => !inHbm c.1), epoch := n,
    cores := s.cores.map (fun (c : Nat × Core) => (c.1, c.2.cold n)), tasks := [],
    rings := s.rings.map (fun (r : Nat × Ringm) => (r.1, { Ringm.reset with floor := r.2.floor })),
    launches := [], graphs := [], jobs := [], heldStores := [], heldGraphs := [], devFaults := [], net := [], gone := [], fwds := [],
    bonds := [], xmcs := [], l2 := [], poison := [], recent := [], strong := [], rowWaits := [], nmus := [], dieTlbs := [], tlbinv := none, members := [],
    colls := [], kept := [], budget := [], commits := [], pfWait := [], memFlaws := [], l2Pos := [], hbmPos := [] }

/-! ## Power states -/

/-- Jobs that are open. -/
def State.openJobs (s : State) : List Nat := (s.jobs.map (·.1)).filter s.jobIsOpen

/-- The latency tolerance in force, in ns. -/
def State.tolerance (s : State) : Nat :=
  let ts := s.openJobs.filterMap fun j => (kfind s.jobs j).map fun j => (j.desc.getD 4 0).toNat
  match minOf ts with
  | some t => t
  | none => (s.reg 0x5248).toNat

/-- Nothing RUNNING or COMMITTING, and every Safety Net and CL queue empty. -/
def State.quietForP2 (s : State) : Bool :=
  !(s.tasks.any fun t => let st := s.tcbState t.job t.tcb; st == tRunning || st == tCommitting) && s.net.isEmpty &&
    s.cores.all fun c => c.2.run.isNone && c.2.arch.cl.isEmpty

/-- Cores that run no task. -/
def State.idleCores (s : State) : NSet := (List.range Config.cores).filter fun c => (s.core c).run.isNone

/-- POWER_STATE_ENTRY: the deepest state whose wake latency is at most T and whose entry condition holds. -/
def State.powerEntry (s : State) : State :=
  let t := s.tolerance
  let set (s : State) (p : Nat) (dozing : NSet) : State := { s with plat := { s.plat with power := p, dozing := dozing } }
  if s.plat.power = 3 then s
  else if 5000000 ≤ t ∧ s.openJobs.isEmpty then set s.loseAll 3 []
  else if 60000 ≤ t ∧ s.quietForP2 then set s.dropL2 2 []
  else if 2000 ≤ t ∧ !s.idleCores.isEmpty then set s 1 s.idleCores
  else set s 0 []

def execPowerStateEntry (s : State) : Host.Outcome State Fault Refusal := s.sealed s.powerEntry

/-- WAKE: on a task release, a message or a flit (R287); nothing is lost. -/
def execWake (s : State) : Host.Outcome State Fault Refusal := s.sealed s.wake

/-! ## Boot (R285) -/

/-- The image carries the two root keys that the ROM names, and both signatures verify. -/
def imageOk (i : Firmware) : Bool :=
  let d := Config.sha384 i.body
  Config.sha384 i.rsaKey == Config.romRsaHash && Config.sha384 i.slhKey == Config.romSlhHash &&
    Config.rsaVerifies i.rsaKey d i.rsaSig && Config.slhVerifies i.slhKey d i.slhSig

/-- FIRMWARE_BOOT: an accepted image runs; otherwise the answer is REFUSED, and the package stays in P3 and runs nothing. -/
def State.boot (s : State) (i : Firmware) : State :=
  let s := s.loseAll
  if imageOk i then
    { s with plat := { power := 0, dozing := [], image := some i.body, boots := s.plat.boots + 1 } }
  else ({ s with plat := { s.plat with power := 3, dozing := [], image := none } } : State).send 0x20 4 []

def execFirmwareBoot (img : Firmware) (s : State) : Host.Outcome State Fault Refusal := s.sealed (s.boot img)

end Sys2Proof.Machine
end

