-- ==== Sys2Proof/Machine/Release.lean ====
section
/-!
DEFINITION. SAFETY_NET_RELEASE (spec/10 R215-R217): the oldest item of a core leaves after its strike window, is checked, and is
applied or performed where it is bound.
-/

namespace Sys2Proof.Machine

/-! ## Results that return to sd -/

/-- The occupant of the core is the task that sent the item. -/
def State.sentBy (s : State) (i : SnItem) : Bool :=
  match (s.core i.core).run with
  | some r => r.job == i.job && r.launch == i.launch && r.tcb == i.tcb && r.exch == i.exch
  | none => false

/-- The value of a word that answers in sd (R57, R320). -/
def State.answer (s : State) (i : SnItem) (sd : SReg) (v : Word) : State :=
  if s.sentBy i then
    (s.modCore i.core fun k => { k with pend := k.pend.filter (·.seq != i.seq), arch := k.arch.wr sd v }).acquire i.core
  else s

/-! ## AMO and CAS at their home slice (R324, R325, R335, R166) -/

/-- The outstanding word of an item. -/
def State.pendOf (s : State) (i : SnItem) : Option Pend := (s.core i.core).pend.find? (·.seq == i.seq)

/-- An AMO or CAS reads and writes at its home slice. -/
def State.performAtomic (s : State) (i : SnItem) : State :=
  match s.pendOf i with
  | none => s
  | some p =>
    if s.poisoned p.pa p.n then s.readPoison i.core p.pa p.n
    else if s.mixHit i.core p.pa p.n then s.abortCore i.core cMixsize (BitVec.ofNat 64 p.va) .faulted
    else
      let old := (s.racingLoad i.core p.pa p.n).rdNat p.pa p.n
      let before := Memory.reads s.mem p.pa p.n
      let s := match atomicResult p.kind p.n old with
        | some v => (s.storeX i.job i.launch p.va p.xl (s.racingStore i.core p.pa (bytesOf p.n v)) p.hint).noteStore i.core p.pa before
        | none => s.request i.job i.launch p.va p.xl p.n false p.hint
      ((s.noteStrong i.core p.pa p.n).noteReads i.job i.tcb p.xl p.n).answer i p.sd (extend p.sx p.n old)

/-! ## SPAWN at T's home slice (R385) -/

/-- The answer of SPAWN (R385): no task of a running launch is 3, one that is not DORMANT is 1, one whose count is not met is 2 and waits, and a
released one is 0, whatever the versions of its inputs (log entry 19). -/
def State.performSpawn (s : State) (i : SnItem) (tcb : Nat) : State × Nat :=
  match s.launchOfTcb i.job tcb with
  | none => (s, 3)
  | some (l, index) =>
    if s.tcbState i.job tcb ≠ tDormant then (s, 1)
    else if s.tcbCount i.job tcb ≠ 0 then (s.setTcbState i.job l.id tcb tWaiting, 2)
    else (s.release l index (coreKey s.cycle i.core 0) false, 0)

/-! ## CANCEL at the Ringmaster (R334) -/

/-- CANCEL performs, and SQ goes on with its answer unless the issuer is cancelled with it. -/
def State.performCancel (s : State) (i : SnItem) (sd : SReg) (level id : Nat) : State :=
  let (s, v) := s.cancel i.job (some i.launch) level id
  if s.sentBy i then
    s.modCore i.core fun k => { k with arch := ((k.arch.wr sd (BitVec.ofNat 64 v)).advance).retire, stallSq := none }
  else s

/-! ## What a released item does -/

/-- A DEPDEC or STEP takes its place in the task's quarantine (R25, R168, R390). -/
def State.holdWord (s : State) (i : SnItem) (h : Held) : State :=
  match s.quarPut i.job i.launch i.tcb [] [h] with
  | some s => s
  | none => s.overflow i.core

/-- The count of a released sector, with its counter add; it waits while the page of the counter word is absent (R123, R138). -/
def State.countReleased (s : State) (core chan : Nat) (c : Copy) : State :=
  match c.kind with
  | .copy t _ _ =>
    if !tplCounterOn t then s.countSector core chan
    else match s.touchAs true core c.seq [(tplCounter t, 4)] true true with
      | .ready s => s.countSector core chan
      | .wait s => s.modCore core fun k => { k with copies := kset k.copies chan { c with late := c.late + 1 } }
      | .lost s d loc => s.lostWord core d loc
  | _ => s.countSector core chan

/-- A direction-1 sector is counted, and its bytes stand in the quarantine (R138, R161). -/
def State.sectorLands (s : State) (i : SnItem) (chan va : Nat) (bs : List (Nat × Byte)) (hint : Hint) : State :=
  match kfind (s.core i.core).copies chan, bs, (s.core i.core).run with
  | some c, (pa, _) :: _, some r =>
    if c.seq ≠ i.seq then s
    else
      let x : Xl := { pa := pa, pa2 := 0, uncached := false }
      match s.quarStore r i.seq i.oc va x (bs.map (·.2)) hint false false [] with
      | none => s.overflow i.core
      | some s =>
        let c := { c with net := c.net - 1 }
        (s.modCore i.core fun k => { k with copies := kset k.copies chan c }).countReleased i.core chan c
  | _, _, _ => s

/-- An NM or CL command reaches its engine. -/
def State.ecbLands (s : State) (i : SnItem) (e : EcbEngine) : State :=
  let land (x : Ecb) : Ecb := if x.seq = i.seq then { x with net := false } else x
  let s := s.modArchOf i.core fun a => setEcbQ a e ((ecbQ a e).map land)
  match e, (ecbQ (s.core i.core).arch e).find? (·.seq == i.seq) with
  | .nm, some x => s.nmArrive { core := some i.core, seq := x.seq, job := i.job, launch := i.launch, tcb := i.tcb, slots := x.slots }
  | _, _ => s

/-- A word that names a region reads its entry of the region table (R243, R273); where the entry cannot be read, the task ends as with any
access of its own. -/
def State.withRegion (s : State) (i : SnItem) (region : Nat) (f : State → State) : State :=
  match s.regionRead i.job region with
  | (s, none) => f s
  | (s, some e) => if s.sentBy i then s.mapFail i.core 0 e else s

/-- The effect of an item, but for the registers that software programs. -/
def State.performItem (s : State) (i : SnItem) : State :=
  match i.body with
  | .store => s
  | .mgmt off v => s.mgmtEffect off v
  | .atomic => s.performAtomic i
  | .sector chan va bs hint => s.sectorLands i chan va bs hint
  | .depdec tcb => s.holdWord i (.depdec tcb)
  | .step form k => s.holdWord i (.step form k)
  | .pubv sd r n final =>
    s.withRegion i r fun s =>
      let (s, v) := s.pubv i.job i.tcb i.core i.seq r n final
      s.answer i sd (BitVec.ofNat 64 v)
  | .refstop sd r =>
    s.withRegion i r fun s =>
      let (s, v) := s.refstop i.job r (some i.core)
      s.answer i sd (BitVec.ofNat 64 v)
  | .cancel sd level id => s.performCancel i sd level id
  | .spawn sd tcb =>
    let (s, v) := s.performSpawn i tcb
    s.answer i sd (BitVec.ofNat 64 v)
  | .unpin sd n =>
    let c := s.retCount n
    (s.releaseLines n).answer i sd (BitVec.ofNat 64 c)
  | .ecb e => s.ecbLands i e
  | .xmc off value first stride count =>
    let ts := ((List.range count).map fun j => first + stride * j).filter (· < 1024)
    if ts.isEmpty then s
    else { s with xmcs := s.xmcs ++ [{ die := dieOf i.core, launch := i.launch, job := i.job, off := off, value := value,
                                       targets := ts, released := s.cycle }] }
  | .save _ held => s.saveValid i.job i.launch i.tcb held

/-- What an item does to the registers that software programs: a supervisor's store, and UNPIN. -/
def SnBody.regs : SnBody → KMap Word → KMap Word
  | .mgmt off v, m => regStore m off v
  | .unpin _ n, m => regUnpin m n
  | _, m => m

/-- The first item of a core. -/
def State.firstItem (s : State) (core : Nat) : Option SnItem := s.net.find? (·.core == core)

/-- Take the first item of a core out of the Safety Net; a latent error of its storage is corrected (R232). -/
def State.takeItem (s : State) (core : Nat) (i : SnItem) : State :=
  let rec drop : List SnItem → List SnItem
    | [] => []
    | x :: t => if x.core = core then t else x :: drop t
  let s := if i.flawed then s.bump 0x3020 1 else s
  { s with net := drop s.net,
           gone := (s.gone.filter fun g => decide (s.cycle < g.2.2.2 + Config.window)) ++ [(core, i.job, i.tcb, s.cycle)] }

/-- An item whose CRC does not match never performs; its task is aborted at rung 4 (R217). The report's location is 0, as R238
gives it outside the cores: R237 codes none (DESIGN CHOICE, log entry 29). -/
def State.rejectItem (s : State) (i : SnItem) : State :=
  if s.sentBy i then s.abortCore i.core cUncorrectable 0 .counted else s.abort i.job i.tcb cUncorrectable .counted

def execSafetyNetRelease (core : Fin 1024) (s : State) : Host.Outcome State Fault Refusal :=
  match s.firstItem core.val with
  | none => .next s
  | some i =>
    if s.cycle < i.entered + Config.window then .next s
    else
      let t := s.takeItem core.val i
      if i.intact then .next { t.performItem i with regs := i.body.regs s.regs } else s.sealed (t.rejectItem i)

end Sys2Proof.Machine
end

