-- ==== Sys2Proof/Machine/System.lean ====
section
/-!
DEFINITION. The system words, class SY (spec/14 R290): system registers (spec/03 R72, R73, spec/16 R365, R366), traps (spec/11
R252-R254, spec/15 R347, R351, spec/16 R394), fences and waits (spec/07 R159, spec/17 R422), events (spec/15 R348), task words
(spec/15 R334, R340, spec/16 R385, R390, R393), the exchange words (spec/17 R426, R428), UNPIN (R401).
-/

namespace Sys2Proof.Machine

/-! ## System registers (R72, R73) -/

def b2w (b : Bool) (i : Nat) : Word := if b then 1#64 <<< i else 0

/-- STATUS (R73). -/
def Core.status (k : Core) : Word :=
  b2w k.tfrozen 5 ||| b2w k.degraded 4 ||| b2w k.arch.sliceflr 3 ||| b2w k.arch.nest 1 ||| b2w k.arch.sv 0

/-- SECTIONS: NM, CP, MX, VS, VA, VL, SQ from high to low. -/
def Core.sections (k : Core) : Word :=
  BitVec.ofNat 64 ([k.arch.sect, k.retiredSec 1, k.retiredSec 0, k.retiredSec 2, k.retiredSec 3, k.retiredSec 4,
    k.retiredSec 5].foldr (fun x a => a * 256 + x % 256) 0)

/-- OUTSTANDING (R63), from the core and its count of stores. -/
def Core.outstanding (k : Core) (st : Nat) : Word :=
  BitVec.ofNat 64 (k.mxCount % 65536 * 2 ^ 48 + k.cpCount % 65536 * 2 ^ 32 + st % 65536 * 2 ^ 16 + k.ldCount % 65536)

/-- The scrubber of a ring. -/
def Core.scrub (k : Core) (ring : Nat) : Scrub := kget k.scrubs ring (Scrub.reset ring)

/-- The value of a register; an ERRLOG register gives its oldest entry. -/
def State.sysRead (s : State) (n : Nat) : Word :=
  let k := s.cur
  let a := k.arch
  let r := s.runD
  match n with
  | 0x000 => k.status
  | 0x001 => a.trapvec
  | 0x002 => a.trappc
  | 0x003 => a.trapcause
  | 0x004 => a.trapinfo
  | 0x005 => a.trapsave
  | 0x010 => BitVec.ofNat 64 s.focus
  | 0x011 => if r.exch then Config.freeTaskPtr r.tcb else BitVec.ofNat 64 r.tcb
  | 0x012 => BitVec.ofNat 64 (r.launch % 2 ^ 32)
  | 0x013 => BitVec.ofNat 64 (r.job % 2 ^ 32)
  | 0x020 => BitVec.ofNat 64 s.cycle
  | 0x021 => BitVec.ofNat 64 a.retired
  | 0x022 => k.outstanding (s.stCount s.focus)
  | 0x023 => k.sections
  | 0x030 => a.events
  | 0x031 => BitVec.ofNat 64 a.slip
  | 0x032 => BitVec.ofNat 64 k.ageLimit
  | 0x033 => a.fpflags.setWidth 64
  | 0x040 => a.seed.setWidth 64
  | 0x050 => k.tracectl
  | 0x051 => k.tracetrig
  | 0x052 => BitVec.ofNat 64 (k.traceWrapped.toNat * 4096 + k.traceIdx * 2)
  | 0x060 => b2w k.mixchk 0
  | 0x070 | 0x071 | 0x072 | 0x073 | 0x074 =>
    let x := k.scrub (n - 0x070)
    BitVec.ofNat 64 (x.pass.toNat * 2 ^ 32 + x.interval)
  | 0x080 | 0x081 | 0x082 | 0x083 | 0x084 => (kget k.errlogs (n - 0x080) []).headD 0
  | 0x090 => a.lattol
  | 0x0A0 => k.katcount
  | _ => 0

/-- A read of an ERRLOG register removes the entry (R236). -/
def Core.popLog (k : Core) (ring : Nat) : Core :=
  { k with errlogs := kput [] k.errlogs ring (kget k.errlogs ring []).tail }

def isErrlog (n : Nat) : Bool := decide (0x080 ≤ n) && decide (n ≤ 0x084)

/-- Registers that only supervisor mode may write (R72). -/
def isSv (n : Nat) : Bool :=
  (decide (0x001 ≤ n) && decide (n ≤ 0x004)) || (decide (0x070 ≤ n) && decide (n ≤ 0x074)) || isErrlog n ||
    n == 0x090 || n == 0x0A0

/-- MFS and MTS of FPFLAGS follow every earlier VA entry (R365). -/
def Arch.flagsReady (a : Arch) (n : Nat) : Bool := n != 0x033 || a.va.isEmpty

/-- MFS (R365, R366). -/
def execMfs (sd : SReg) (reg : Fin 4096) (s : State) : Host.Outcome State Fault Refusal :=
  let n := reg.val
  s.run (s.sq true [sd] (guard (!isErrlog n || s.inHandler) cPrivilege (BitVec.ofNat 64 n)
    (waitFor (s.arch.flagsReady n) .interlock
      (let v := s.sysRead n
       let s := if isErrlog n then s.modCur (·.popLog (n - 0x080)) else s
       .ok (s.doneWith sd v)))))

/-- The lowest bit of the field that refuses a value (R366), none when every field takes it. slip: the declared depth.
A nonzero value in reserved bits is refused by STATUS, TRACECTL, TRACETRIG, SEED and the like, and ignored in [63:33] of the SCRUB_*
registers, of which R234 gives the whole layout as written (DESIGN CHOICE, log entry 35). -/
def sysRefused (n slip : Nat) (v : Word) : Option Nat :=
  let x := v.toNat
  let first (l : List (Nat × Bool)) : Option Nat := (l.find? (·.2)).map (·.1)
  match n with
  | 0x000 => first [(2, bitAt v 2), (6, x ≥ 64)]
  | 0x001 => first [(0, x % 4 ≠ 0)]
  | 0x003 => first [(8, x ≥ 256)]
  | 0x031 => first [(0, x < 1 ∨ slip < x)]
  | 0x032 => first [(0, x < 8 ∨ 1024 < x)]
  | 0x033 => first [(5, x ≥ 32)]
  | 0x040 => first [(32, x ≥ 2 ^ 32)]
  | 0x050 => first [(2, bitAt v 2), (10, bitAt v 10), (16, v.field 16 32 ≠ 0), (48, v.field 48 16 > 2047)]
  | 0x051 => first [(0, x % 4 ≠ 0), (48, x ≥ 2 ^ 48)]
  | 0x060 => first [(1, x ≥ 2)]
  | 0x070 | 0x071 | 0x072 | 0x073 | 0x074 => first [(0, 1 ≤ v.field 0 32 ∧ v.field 0 32 < 64)]
  | 0x080 | 0x081 | 0x082 | 0x083 | 0x084 => first [(0, x ≠ 0)]
  | _ => none

/-- A write of TRACECTL: TRACEPTR reads 0 and TFROZEN is clear (R257). -/
def Core.setTracectl (k : Core) (v : Word) : Core :=
  { k with tracectl := v, traceIdx := 0, traceWrapped := false, traceLeft := none, tfrozen := false }

/-- A register takes a value that it does not refuse. -/
def Core.sysWrite (k : Core) (n : Nat) (v : Word) : Core :=
  let a := k.arch
  match n with
  | 0x000 => { k with arch := { a with sliceflr := a.sliceflr && bitAt v 3 } }
  | 0x001 => { k with arch := { a with trapvec := v } }
  | 0x002 => { k with arch := { a with trappc := v } }
  | 0x003 => { k with arch := { a with trapcause := v } }
  | 0x004 => { k with arch := { a with trapinfo := v } }
  | 0x005 => { k with arch := { a with trapsave := v } }
  | 0x030 => { k with arch := { a with events := v } }
  | 0x031 => { k with arch := { a with slip := v.toNat } }
  | 0x032 => { k with ageLimit := v.toNat }
  | 0x033 => { k with arch := { a with fpflags := v.setWidth 5 } }
  | 0x040 => { k with arch := { a with seed := v.setWidth 32 } }
  | 0x050 => k.setTracectl v
  | 0x051 => { k with tracetrig := v }
  | 0x060 => { k with mixchk := bitAt v 0 }
  | 0x070 | 0x071 | 0x072 | 0x073 | 0x074 =>
    { k with scrubs := kset k.scrubs (n - 0x070) { k.scrub (n - 0x070) with interval := v.field 0 32 } }
  | 0x080 | 0x081 | 0x082 | 0x083 | 0x084 => { k with errlogs := kdel k.errlogs (n - 0x080) }
  | 0x090 => { k with arch := { a with lattol := v } }
  | 0x0A0 => { k with katcount := v }
  | _ => k

/-- MTS (R365, R366). -/
def execMts (reg : Fin 4096) (sa : SReg) (s : State) : Host.Outcome State Fault Refusal :=
  let n := reg.val
  let v := s.arch.rd sa
  s.run (s.sq true [sa] (guard (!isSv n || s.inHandler) cPrivilege (BitVec.ofNat 64 n)
    (waitFor (s.arch.flagsReady n) .interlock
      (match sysRefused n s.runD.slip v with
       | some b => .raise cIllegalField (BitVec.ofNat 64 (2 ^ 63 + n * 256 + b))
       | none => .ok ((s.modCur (·.sysWrite n v)).done.signalled (if n = 0x030 then v else 0))))))

/-! ## Traps -/

/-- TRAP (R394). -/
def execTrap (imm : W32) (s : State) : Host.Outcome State Fault Refusal :=
  s.run (s.sq true [] (.raise cTrapInsn (imm.setWidth 64)))

/-- Leave the handler: the trapped word again, or the next one (R254). -/
def Arch.eret (a : Arch) : Arch :=
  let a' : Arch := { a with sv := false, nest := false }
  if a.trappc = a.pc then a'.retire
  else if a.atHeader then { a'.retire with pc := a.pc + 12 } else a'.advance.retire

/-- ERET (R347). -/
def execEret (s : State) : Host.Outcome State Fault Refusal :=
  let a := s.arch
  s.run (s.sq true [] (guard a.sv cPrivilege a.word
    (guard (a.trappc == a.pc || a.trappc == a.pc + 12) cStreamFault a.trappc
      (.ok (s.modCur fun k => { k with arch := k.arch.eret, stallSq := none })))))

/-- HALT (R351). -/
def execHalt (s : State) : Host.Outcome State Fault Refusal :=
  let a := s.arch
  let c := a.trapcause.field 0 8
  s.run (s.sq true [] (guard a.sv cPrivilege a.word
    (.ok (s.abortCore s.focus (if c = 0 then cTrapInsn else c) a.trapinfo .faulted))))

/-! ## FENCE, WAITC, IDLE -/

/-- Class k is in the mask; classless items are in none. -/
def inMask (mask : BitVec 16) (k : Nat) : Bool := decide (k < 16) && mask.toNat / 2 ^ k % 2 == 1

/-- Earlier loads of the classes have returned. -/
def Core.loadsBack (k : Core) (mask : BitVec 16) : Bool :=
  !(k.pend.any fun p => inMask mask p.oc && (match p.kind with | .load _ => true | _ => false))

/-- Copies of the classes: every sector counted, or for direction 1 at the narrow scopes accepted. -/
def Core.copiesAt (k : Core) (mask : BitVec 16) (wide : Bool) : Bool :=
  k.copies.all fun c => match c.2.kind with
    | .copy t _ _ => !inMask mask (tplOc t) ||
        (if tplDir t = 1 ∧ wide = false then c.2.next == c.2.expected else c.2.counted == c.2.expected)
    | _ => true

/-- What FENCE waits for (R159). PUBV and REFSTOP count as stores of class 0 at DEVICE and wider (R380). -/
def State.fenceMet (s : State) (scope : Nat) (mask : BitVec 16) : Bool :=
  let k := s.cur
  let item (i : SnItem) : Bool := i.core == s.focus && inMask mask i.oc && (match i.body with
    | .pubv .. | .refstop .. => decide (5 ≤ scope)
    | .ecb _ => false
    | _ => true)
  mask == 0 || scope == 1 || (k.loadsBack mask && k.copiesAt mask (decide (4 ≤ scope)) &&
    (decide (scope ≤ 3) || (!s.net.any item && !((k.arch.nm ++ k.arch.cl).any fun e => inMask mask (ecbOc e)))))

/-- FENCE (R159). -/
def execFence (scope : Fin 8) (mask : BitVec 16) (s : State) : Host.Outcome State Fault Refusal :=
  s.run (s.sq true [] (waitFor (s.fenceMet scope.val mask) .counter (.ok s.done)))

/-- WAITC (R422). -/
def execWaitc (ld st cp mx : BitVec 8) (s : State) : Host.Outcome State Fault Refusal :=
  let k := s.cur
  s.run (s.sq true [] (waitFor (decide (k.ldCount ≤ ld.toNat) && decide (s.stCount s.focus ≤ st.toNat) &&
    decide (k.cpCount ≤ cp.toNat) && decide (k.mxCount ≤ mx.toNat)) .counter (.ok s.done)))

/-- IDLE (R353): a copy that has retired holds it no longer, even where its push is owed. -/
def execIdle (s : State) : Host.Outcome State Fault Refusal :=
  s.run (s.sq true [] (waitFor (s.arch.drained && s.cur.cpCount == 0) .counter (.ok s.done)))

/-! ## Events (R348), TRIG (R395) -/

def execEvset (m : EvMask) (s : State) : Host.Outcome State Fault Refusal :=
  s.run (s.sq true (evRegs m) (.ok ((s.modArch fun a => a.setEvents (a.evMask m)).done.ranked rSets)))

def execEvclr (m : EvMask) (s : State) : Host.Outcome State Fault Refusal :=
  s.run (s.sq true (evRegs m) (.ok (s.modArch fun a => a.clearEvents (a.evMask m)).done))

def execEvwait (m : EvMask) (s : State) : Host.Outcome State Fault Refusal :=
  s.run (s.sq true (evRegs m) (waitFor (maskMet s.arch (s.arch.evMask m)) .event (.ok s.done)))

def execTrig (s : State) : Host.Outcome State Fault Refusal :=
  s.run (s.sq true [] (.ok (s.modCur fun k => k.trigger s.cycle 0 k.arch.word).done))

/-! ## Words on tasks -/

def Arch.regImm (a : Arch) : RegImm → Word
  | .reg sa => a.rd sa
  | .imm v => v.setWidth 64

/-- T of DEPDEC and SPAWN (R340, R385): its index, window, alignment, and page with R and W. -/
def State.tcbArg (s : State) (t : RegImm) (f : State → Nat → Sq) : Sq :=
  let r := s.runD
  let (base, count) := match s.launch r.job r.launch with | some l => (l.tcbs, l.count) | none => (0, 0)
  let idx : Bool := match t with | .imm v => decide (v.toNat < count) | .reg _ => true
  let a : Word := match t with
    | .imm v => BitVec.ofNat 64 (base + 64 * v.toNat)
    | .reg sa => s.arch.rd sa
  guard idx cIllegalField 64
    (guard (windowOf a == .glob) cWindowFault a
      (guard (a.toNat % 64 == 0) cMisaligned a
        (s.notExch a
          (let (s, x) := s.translateRange (some s.focus) (dieOf s.focus) r.job (offsetOf a) 64 .write
           match x with
           | .error f => s.xlFail 1 f
           | .ok x => if inMgmt x.pa then .ok (s.abortCore s.focus cProtection a .faulted) else f s (offsetOf a)))))

/-- A word held in the Safety Net, then in the quarantine (R168, R390). -/
def State.heldWord (s : State) (body : SnBody) : Sq :=
  waitFor (s.netFits s.focus 8) .inFlight
    (.ok ((s.netPut s.focus s.arch.seq noClass 8 body).modArch (·.tick)).done)

/-- DEPDEC (R340): a named scope acts as at least DEVICE. -/
def execDepdec (_scope : Fin 8) (t : RegImm) (s : State) : Host.Outcome State Fault Refusal :=
  s.run (s.sq false (regImmRegs t) (s.tcbArg t fun s tcb => s.heldWord (.depdec tcb)))

/-- STEP (R390). -/
def execStepBegin (k : W32) (s : State) : Host.Outcome State Fault Refusal :=
  s.run (s.sq false [] (s.notExch s.arch.word (s.heldWord (.step 0 k.toNat))))
def execStepCommit (k : W32) (s : State) : Host.Outcome State Fault Refusal :=
  s.run (s.sq false [] (s.notExch s.arch.word (s.heldWord (.step 1 k.toNat))))
def execStepAbort (k : W32) (s : State) : Host.Outcome State Fault Refusal :=
  s.run (s.sq false [] (s.notExch s.arch.word (s.heldWord (.step 2 k.toNat))))

/-- The die and class that a SPAWN of T targets: T's home and its own class, raised as R44 states. -/
def State.spawnClass (s : State) (job tcb : Nat) : Nat × Nat :=
  let own := (s.tcbWord job tcb 0).field 48 8
  let top := match kfind s.jobs job with | some j => (j.desc.getD 2 0).field 8 8 | none => 0
  let die := match s.launches.find? fun l => l.job == job && l.live && decide (l.tcbs ≤ tcb) &&
      decide (tcb < l.tcbs + 64 * l.count) with
    | some l => s.homeDie l ((tcb - l.tcbs) / 64) tcb
    | none => 0
  (die, max own top)

/-- SPAWN (R385): a class in overflow deschedules the spawner first (R188). -/
def execSpawn (sd : SReg) (t : RegImm) (s : State) : Host.Outcome State Fault Refusal :=
  s.run (s.sq false (sd :: regImmRegs t) (s.tcbArg t fun s tcb =>
    let (die, c) := s.spawnClass s.runD.job tcb
    if (s.ring die).overflow.contains c then
      if s.ckptOk s.focus then .ok (s.startCkpt s.focus (some (die, c))) else .stall .inFlight
    else s.verb sd noClass 8 (.spawn sd tcb)))

/-- CANCEL (R334): it leaves through the Safety Net, and SQ stalls until it has performed. -/
def execCancel (sd : SReg) (level : Fin 16) (id : RegImm) (s : State) : Host.Outcome State Fault Refusal :=
  let sent : Bool := s.net.any fun i => i.core == s.focus && (match i.body with | .cancel .. => true | _ => false)
  s.run (s.sq false (sd :: regImmRegs id) (s.notExch s.arch.word
    (waitFor (!sent && s.netFits s.focus 8) .inFlight
      (.ok ((s.netPut s.focus s.arch.seq noClass 8
        (.cancel sd level.val ((s.arch.regImm id).toNat % 2 ^ 32))).stallWith .inFlight)))))

/-- TEND (R393): nothing more is pushed or fetched; the commit is TASK_COMMIT. An exchange stream ends when its engines
have emptied (Turn). -/
def execTend (s : State) : Host.Outcome State Fault Refusal :=
  s.run (s.sq false [] (.ok ((s.done).modArch fun a => { a with ended := true })))

/-- UNPIN (R401, R402). -/
def execUnpin (sd : SReg) (n : Fin 8) (s : State) : Host.Outcome State Fault Refusal :=
  s.run (s.sq true [sd] (s.notExch s.arch.word (s.verb sd noClass 8 (.unpin sd n.val))))

/-! ## Exchange words -/

/-- XMC (R426, R427). -/
def execXmc (sa : SReg) (off : W32) (sb sc : SReg) (s : State) : Host.Outcome State Fault Refusal :=
  let o := s.arch.ea sa off
  let g := s.arch.rd sc
  let stride := if g.field 21 10 = 0 then 1 else g.field 21 10
  let count := g.field 10 11
  let first := g.field 0 10
  s.run (s.sq false [sa, sb, sc]
    (guard (o.toNat % 4 == 0) cMisaligned o
      (guard (s.isExch && decide (o.toNat < 524288) && g.field 31 33 == 0 && decide (count ≤ 1024) &&
          decide (first + stride * (count - 1) < 1024)) cProtection o
        (waitFor (s.netFits s.focus 4) .inFlight
          (.ok ((s.netPut s.focus s.arch.seq noClass 4
            (.xmc o.toNat ((s.arch.rd sb).setWidth 32) first stride count)).modArch (·.tick)).done)))))

/-- XSYNC (R428): the stream stands at its barrier until XSYNC_BARRIER. -/
def execXsync (id : W32) (s : State) : Host.Outcome State Fault Refusal :=
  let mark (x : Stream) : Stream := if x.core == s.focus ∧ x.launch = s.runD.launch then { x with sync := some id.toNat } else x
  s.run (s.sq false [] (guard s.isExch cProtection s.arch.word
    (.ok ((s.modStreams s.runD.job mark).stallWith .inFlight))))

end Sys2Proof.Machine
end

