-- ==== Sys2Proof/Machine/Flags.lean ====
section
/-!
DEFINITION. FPFLAGS (spec/04 R95): how vector words gather their flags, lane by lane, and lane arithmetic with flags.
-/

namespace Sys2Proof.Machine

/-- FPFLAGS are sticky: OR the flags of a word into them. -/
def Arch.orFlags (a : Arch) (f : FFlags) : Arch := { a with fpflags := a.fpflags ||| f }

/-- Active lanes get f, inactive ones 0 or the old value (R398, R404). -/
def lanesOf (qp : Word) (z : Bool) (old : Vec) (f : Nat → W32) : Vec :=
  laneTab fun i => if bitAt qp i then f i else if z then 0 else laneAt old i

/-- The flags of the active lanes. -/
def flagsOf (qp : Word) (f : Nat → FFlags) : FFlags :=
  (List.range 64).foldl (fun a i => if bitAt qp i then a ||| f i else a) 0

/-- The signed value order of two lanes. -/
def lane32Lt (ty : Lane) (x y : W32) : Bool := if ty == .i32 then x.slt y else x.ult y

/-- The lane operation of VADD, VSUB and VMUL (R403). -/
def laneAdd (ty : Lane) (rm : RMode) (x y : W32) : W32 × FFlags := if ty == .f32 then fadd rm x y else (x + y, 0)
def laneSub (ty : Lane) (rm : RMode) (x y : W32) : W32 × FFlags := if ty == .f32 then fsub rm x y else (x - y, 0)
def laneMul (ty : Lane) (rm : RMode) (x y : W32) : W32 × FFlags := if ty == .f32 then fmul rm x y else (x * y, 0)
def laneFma (ty : Lane) (rm : RMode) (x y z : W32) : W32 × FFlags :=
  if ty == .f32 then ffma rm x y z else (x * y + z, 0)
def laneMin (ty : Lane) (x y : W32) : W32 × FFlags :=
  if ty == .f32 then fminmax false x y else (if lane32Lt ty y x then y else x, 0)
def laneMax (ty : Lane) (x y : W32) : W32 × FFlags :=
  if ty == .f32 then fminmax true x y else (if lane32Lt ty x y then y else x, 0)
def laneAbs (ty : Lane) (x : W32) : W32 × FFlags :=
  (if ty == .f32 then x &&& 0x7FFFFFFF#32 else if x.getLsbD 31 then 0 - x else x, 0)

/-- Cond (R328) at 32 bits: the integer forms of VCMP (R412). -/
def laneCond (c : Cond) (x y : W32) : Bool :=
  match c with
  | .eq => x == y | .ne => x != y
  | .lt => x.slt y | .le => x.sle y | .gt => y.slt x | .ge => y.sle x
  | .ltu => x.ult y | .leu => x.ule y | .gtu => y.ult x | .geu => y.ule x

def laneCmp (ty : Lane) (c : Cond) (x y : W32) : Bool × FFlags :=
  if ty == .f32 then fcompare c x y else (laneCond c x y, 0)

/-- Op and Identity of VRED (R98). -/
def redNode (op : RedOp) (ty : Lane) (rm : RMode) (x y : W32) : W32 × FFlags :=
  match op with
  | .add => laneAdd ty rm x y
  | .min | .minu => laneMin ty x y
  | .max | .maxu => laneMax ty x y
  | .and => (x &&& y, 0) | .or => (x ||| y, 0) | .xor => (x ^^^ y, 0)

def redIdentity (op : RedOp) (ty : Lane) : W32 :=
  match op, ty with
  | .add, .f32 => 0x80000000#32
  | .min, .f32 => 0x7F800000#32
  | .max, .f32 => 0xFF800000#32
  | .min, _ => 0x7FFFFFFF#32
  | .max, _ => 0x80000000#32
  | .minu, _ | .and, _ => 0xFFFFFFFF#32
  | _, _ => 0

/-- One level of the tree: neighbours combine (R98). -/
def redLevel (f : W32 → W32 → W32 × FFlags) : List W32 → List W32 × FFlags
  | x :: y :: t => let (r, g) := f x y; let (rs, h) := redLevel f t; (r :: rs, g ||| h)
  | l => (l, 0)

/-- The six levels. -/
def redTree (f : W32 → W32 → W32 × FFlags) (xs : List W32) : W32 × FFlags :=
  let (l, g) := (List.range 6).foldl (fun (a : List W32 × FFlags) _ =>
    let (l, h) := redLevel f a.1; (l, a.2 ||| h)) (xs, 0)
  (l.getD 0 0, g)

end Sys2Proof.Machine
end

