-- ==== Sys2Proof/Machine/VectorLoad.lean ====
section
/-!
DEFINITION. The vector load words, class VL (spec/17 R398-R400, R405-R408). SQ checks and pushes; the VL engine reads.
-/

namespace Sys2Proof.Machine

/-- The address of lane i of an affine form. -/
def laneAddr (a stride : Word) (i : Nat) : Word := a + stride * BitVec.ofNat 64 i

/-- e bytes at an address lie in the scratchpad window within the declared pages. -/
def State.laneIn (s : State) (a : Word) (e : Nat) : Bool :=
  windowOf a == .sp && decide (offsetOf a + e ≤ 2 ^ 19) && s.inPages (offsetOf a) e

/-- The checks of R406 on a list of addresses: each in the window, then each a multiple of e. -/
def State.laneCheck (s : State) (as : List Word) (e : Nat) (k : Sq) : Sq :=
  match as.find? fun a => !s.laneIn a e with
  | some a => .raise cWindowFault a
  | none => match as.find? fun a => a.toNat % e != 0 with
    | some a => .raise cMisaligned a
    | none => k

/-- The 64 lane addresses. -/
def lanesFrom (a stride : Word) : List Word := (List.range 64).map (laneAddr a stride)

/-- The active lanes of a predicate, ascending. -/
def activeLanes (qp : Word) : List Nat := (List.range 64).filter fun i => bitAt qp i

/-- A load of the active lanes from scratchpad offsets; words that a partial turn has read stand as it read them (R58). -/
def State.vload (s : State) (c : VCtl) (vd : VReg) (e : VEntry) (n : Nat) (off : Nat → Nat) : Eng :=
  let a := s.arch
  let qp := a.prd c.qp
  (s.touch s.focus e.seq ((activeLanes qp).map fun i => (off i, n)) true false).eng s.focus fun s =>
    let a := s.arch
    .ok (s.setArch (a.vwr vd (lanesOf qp c.z (a.vrd vd) fun i => BitVec.ofNat 32 (leNat (s.cur.spVia 1 (off i) n)))))

/-- The offset of lane i of an affine form. -/
def affineOff (a stride : Word) (i : Nat) : Nat := offsetOf (laneAddr a stride i)

/-- VLD (R405). -/
def execVld (sz : ESize) (c : VCtl) (vd : VReg) (sa : SReg) (off : W32) (s : State) : Host.Outcome State Fault Refusal :=
  let n := ESize.bytes sz
  s.vecWord .vl (.vld sz c vd sa off)
    (fun a k => s.laneCheck (lanesFrom (a.ea sa off) (BitVec.ofNat 64 n)) n k)
    (fun e s => s.vload c vd e n (affineOff (e.base sa off) (BitVec.ofNat 64 n)))

/-- VLDS: a stride of sb bytes. -/
def execVlds (sz : ESize) (c : VCtl) (vd : VReg) (sa : SReg) (off : W32) (sb : SReg) (s : State) :
    Host.Outcome State Fault Refusal :=
  let n := ESize.bytes sz
  s.vecWord .vl (.vlds sz c vd sa off sb)
    (fun a k => s.laneCheck (lanesFrom (a.ea sa off) (a.rd sb)) n k)
    (fun e s => s.vload c vd e n (affineOff (e.base sa off) (e.scalar sb)))

/-- The address of lane i of an indexed form. -/
def indexAddr (a : Word) (n : Nat) (x : W32) : Word := a + BitVec.ofNat 64 (n * x.toNat)

/-- The first active lane of an indexed form that leaves the declared pages (R406, R410). -/
def State.badIndex (s : State) (qp : Word) (n : Nat) (addr : Nat → Word) : Option Word :=
  ((activeLanes qp).find? fun i => !s.laneIn (addr i) n).map addr

/-- VLDX: offsets of n bytes by the lanes of vx, checked by the engine. -/
def execVldx (sz : ESize) (c : VCtl) (vd : VReg) (sa : SReg) (off : W32) (vx : VSpec) (s : State) :
    Host.Outcome State Fault Refusal :=
  let n := ESize.bytes sz
  s.vecWord .vl (.vldx sz c vd sa off vx)
    (fun a k => s.laneCheck [a.ea sa off] n k)
    (fun e s =>
      let x := vopLane s.arch e vx
      let addr (i : Nat) : Word := indexAddr (e.base sa off) n (x i)
      match s.badIndex (s.arch.prd c.qp) n addr with
      | some a => s.engFault cWindowFault a
      | none => s.vload c vd e n fun i => offsetOf (addr i))

/-- VLDB: one address for every lane. -/
def execVldb (sz : ESize) (c : VCtl) (vd : VReg) (sa : SReg) (off : W32) (s : State) : Host.Outcome State Fault Refusal :=
  let n := ESize.bytes sz
  s.vecWord .vl (.vldb sz c vd sa off)
    (fun a k => s.laneCheck [a.ea sa off] n k)
    (fun e s => s.vload c vd e n fun _ => offsetOf (e.base sa off))

/-- w bits of the TWA from bit p of slot n on (R79, R100). -/
def Arch.twaBits (a : Arch) (n p w : Nat) : Nat :=
  leNat ((List.range 4).map fun i => a.slotByte (256 * n + p / 8 + i)) / 2 ^ (p % 8) % 2 ^ w

/-- Row and column of lane i of VLDT (R407). -/
def vldtAt (col : Bool) (q i : Nat) : Nat × Nat :=
  let g := 4 * q + i / 16
  let h := i % 16
  if col then (h, g) else (g, h)

/-- VLDT: raw element codes of one TWA block. -/
def execVldt (col : Bool) (q : Fin 4) (c : VCtl) (vd : VReg) (sa : SReg) (off : W32) (sb : SReg) (s : State) :
    Host.Outcome State Fault Refusal :=
  s.vecWord .vl (.vldt col q c vd sa off sb)
    (fun a k =>
      let t := a.ea sa off
      let w := (a.rd sb).toNat
      guard ([4, 6, 8, 16].contains w) cIllegalOperand (BitVec.ofNat 64 sb.val)
        (guard (windowOf t == .twa && decide (offsetOf t < 2 ^ 18)) cWindowFault t
          (guard (offsetOf t % 256 == 0 && (w != 16 || offsetOf t / 256 % 2 == 0)) cMisaligned t k)))
    (fun e s =>
      let w := (e.scalar sb).toNat
      let slot := offsetOf (e.base sa off) / 256
      (s.useStore s.focus .twa fun g => g / 32 == slot || (w == 16 && g / 32 == slot + 1)).eng s.focus fun s =>
        let a := s.arch
        let qp := a.prd c.qp
        .ok (s.setArch (a.vwr vd (lanesOf qp c.z (a.vrd vd) fun i =>
          let (r, k) := vldtAt col q.val i
          BitVec.ofNat 32 (a.twaBits slot (w * (16 * r + k)) w)))))

/-- The checks of VACCR and VACCW: the index and the tile (R408). -/
def State.accCheck (s : State) (i : Word) (tile : Nat) (k : Sq) : Sq :=
  guard (decide (i.toNat < 64) && decide (tile < s.runD.ntile)) cWindowFault i k

/-- Element ℓ of row i, or of column i. -/
def accPos (col : Bool) (i l : Nat) : Nat × Nat := if col then (l, i) else (i, l)

/-- Granules of the ACC ring that a row or column of a tile touches. -/
def accLine (col : Bool) (tile i g : Nat) : Bool :=
  g / 2048 == tile && (if col then g % 2048 % 32 == i / 2 else g % 2048 / 32 == i)

/-- VACCR: one row or column of a tile. -/
def execVaccr (col : Bool) (tile : Fin 32) (c : VCtl) (vd : VReg) (sa : SReg) (off : W32) (s : State) :
    Host.Outcome State Fault Refusal :=
  s.vecWord .vl (.vaccr col tile c vd sa off)
    (fun a k => s.accCheck (a.ea sa off) tile.val k)
    (fun e s =>
      let i := (e.base sa off).toNat
      (s.useStore s.focus .acc (accLine col tile.val i)).eng s.focus fun s =>
        let a := s.arch
        let t := a.tile tile.val
        let v := lanesOf (a.prd c.qp) c.z (a.vrd vd) fun l => let (x, y) := accPos col i l; t.at_ x y
        .ok (s.modCur fun k => { k.readTile tile.val with arch := a.vwr vd v }))

end Sys2Proof.Machine
end

