-- ==== Sys2Proof/Machine/VectorStore.lean ====
section
/-!
DEFINITION. The vector store words, class VS (spec/17 R409-R411). SQ checks and pushes; the VS engine writes.
-/

namespace Sys2Proof.Machine

/-- Store n bytes of each active lane, in ascending order, at scratchpad offsets given by the lane and the number of
active lanes below it. -/
def State.vstore (s : State) (c : VCtl) (vs : VReg) (e : VEntry) (n : Nat) (off : Nat → Nat → Nat) : Eng :=
  let a := s.arch
  let v := a.vrd vs
  let act := (activeLanes (a.prd c.qp)).zipIdx
  (s.touch s.focus e.seq (act.map fun p => (off p.1 p.2, n)) false true).eng s.focus fun s =>
    let s := act.foldl (fun s p => s.spWrite s.focus e.seq (off p.1 p.2) (bytesOf n (laneAt v p.1).toNat)) s
    if s.cur.run.isSome then .ok s else .over s

def execVst (sz : ESize) (c : VCtl) (vs : VReg) (sa : SReg) (off : W32) (s : State) : Host.Outcome State Fault Refusal :=
  let n := ESize.bytes sz
  s.vecWord .vs (.vst sz c vs sa off)
    (fun a k => s.laneCheck (lanesFrom (a.ea sa off) (BitVec.ofNat 64 n)) n k)
    (fun e s => s.vstore c vs e n fun i _ => affineOff (e.base sa off) (BitVec.ofNat 64 n) i)

def execVsts (sz : ESize) (c : VCtl) (vs : VReg) (sa : SReg) (off : W32) (sb : SReg) (s : State) :
    Host.Outcome State Fault Refusal :=
  let n := ESize.bytes sz
  s.vecWord .vs (.vsts sz c vs sa off sb)
    (fun a k => s.laneCheck (lanesFrom (a.ea sa off) (a.rd sb)) n k)
    (fun e s => s.vstore c vs e n fun i _ => affineOff (e.base sa off) (e.scalar sb) i)

def execVstx (sz : ESize) (c : VCtl) (vs : VReg) (sa : SReg) (off : W32) (vx : VSpec) (s : State) :
    Host.Outcome State Fault Refusal :=
  let n := ESize.bytes sz
  s.vecWord .vs (.vstx sz c vs sa off vx)
    (fun a k => s.laneCheck [a.ea sa off] n k)
    (fun e s =>
      let x := vopLane s.arch e vx
      let addr (i : Nat) : Word := indexAddr (e.base sa off) n (x i)
      match s.badIndex (s.arch.prd c.qp) n addr with
      | some a => s.engFault cWindowFault a
      | none => s.vstore c vs e n fun i _ => offsetOf (addr i))

/-- VSTC packs the active lanes into consecutive elements (R409); the whole range is checked (R410). -/
def execVstc (sz : ESize) (c : VCtl) (vs : VReg) (sa : SReg) (off : W32) (s : State) : Host.Outcome State Fault Refusal :=
  let n := ESize.bytes sz
  s.vecWord .vs (.vstc sz c vs sa off)
    (fun a k => s.laneCheck (lanesFrom (a.ea sa off) (BitVec.ofNat 64 n)) n k)
    (fun e s => s.vstore c vs e n fun _ j => affineOff (e.base sa off) (BitVec.ofNat 64 n) j)

/-- The tile with element (x, y) of each active lane replaced. -/
def Tile.setLine (t : Tile) (col : Bool) (i : Nat) (qp : Word) (v : Vec) : Tile :=
  { t with data := (activeLanes qp).foldl (fun d l =>
      let (x, y) := accPos col i l; d.set (64 * x + y) (laneAt v l)) t.data }

/-- A write of a tile by VACCW makes every retained window that wrote it unprotected (R411). -/
def Core.unprotectTile (k : Core) (z : Nat) : Core := k.dropWindows fun w => w.cmds.any fun c => c.writes.contains z

def execVaccw (col : Bool) (tile : Fin 32) (c : VCtl) (vs : VReg) (sa : SReg) (off : W32) (s : State) :
    Host.Outcome State Fault Refusal :=
  s.vecWord .vs (.vaccw col tile c vs sa off)
    (fun a k => s.accCheck (a.ea sa off) tile.val k)
    (fun e s =>
      let a := s.arch
      let t := (a.tile tile.val).setLine col (e.base sa off).toNat (a.prd c.qp) (a.vrd vs)
      .ok (s.modCur fun k => { k.unprotectTile tile.val with arch := a.setTile tile.val t }))

end Sys2Proof.Machine
end

