-- ==== Sys2Proof/Machine/Reliability.lean ====
section
/-!
DEFINITION. Strike reports and the recovery ladder (spec/10 R213-R231), scrubbing and patrol (R234, R235, R238), queue deadlock (spec/03
R66, R260), bank ages (R65), the governor's clocks (spec/05 R121), the trace freeze (spec/11 R259), the error logs and TRACECTL.
-/

namespace Sys2Proof.Machine

/-! ## Strikes in a core (R214, R218, R223, R236) -/

def CoreZone.code : CoreZone → Nat
  | .s => 0 | .v => 1 | .d => 3

/-- A report that the machine can make now: the strike lies in [t, t + 32], and reports arrive within 1,900 cycles of it (R6, R14, R214);
any other T is no report, and the event does nothing. -/
def State.reportOk (s : State) (t : Nat) : Bool := decide (t ≤ s.cycle) && decide (s.cycle ≤ t + 32 + 1900)

/-- The log ring of a zone of a core. -/
def zoneRing (zone : Nat) : Ring5 := match zone with | 0 => .queue | 1 => .vrf | 2 => .acc | _ => .sp

/-- The log entry of a strike, its trace record and the strike trigger (DESIGN CHOICE, log entry 29). -/
def Core.noteStrike (k : Core) (cycle zone rung t : Nat) : Core :=
  let k := k.log (Ring5.code (zoneRing zone)) (logEntry 3 rung zone (Config.sensor zone t % 4) t)
  (k.trace cycle 6 rung zone (BitVec.ofNat 64 t)).trigger cycle 3 k.arch.word

/-- A rung-4 abort of a task, on its core or off it (R27). -/
def State.strikeTask (s : State) (job tcb : Nat) : State :=
  match s.coreOf job tcb with
  | some c => s.abortCore c cStrike 0 .counted
  | none => s.abort job tcb cStrike .counted

/-- Tasks that have left the core while their save record is still in the Safety Net, and were on it at some cycle of [t, t + 32]. -/
def State.departed (s : State) (core t : Nat) : List (Nat × Nat) :=
  (s.net.filter fun i => i.core == core && (match i.body with
    | .save since _ => decide (since ≤ t + 32) && decide (t ≤ i.entered)
    | _ => false)).map fun i => (i.job, i.tcb)

/-- Jobs with an exchange stream in the step that was on a core by a cycle, and those of deliveries that wait there (R41). -/
def State.exchangeAt (s : State) (core by_ : Nat) : NSet :=
  let own := s.jobs.filter fun j => match j.2.phase with
    | some p => p.streams.any fun x => x.core == core && x.started && decide (x.since ≤ by_)
    | none => false
  (s.core core).deliv.foldl (fun m d => nins m d.job) (own.foldl (fun m j => nins m j.1) [])

/-- The tasks and the exchange steps of a strike that goes to rung 4 in a core. -/
def State.strikeAll (s : State) (core : Nat) (here : Bool) (left : List (Nat × Nat)) (exch : NSet) : State :=
  let s := if here then s.abortCore core cStrike 0 .counted else s
  let s := left.foldl (fun (s : State) x => s.strikeTask x.1 x.2) s
  exch.foldl (fun (s : State) j => s.restartStreams j) s

/-- CORE_STRIKE_REPORT. -/
def State.coreStrike (s : State) (zone : CoreZone) (core t : Nat) : State :=
  if !s.reportOk t then s
  else
    let k := s.core core
    let here : Bool := match k.run with
      | some r => !r.exch && decide (r.since ≤ t + 32) && (s.task r.job r.tcb).all fun x => !x.past4
      | none => false
    let left := s.departed core t
    let exch := s.exchangeAt core (t + 32)
    let rung := if here || !left.isEmpty || !exch.isEmpty then 4 else 0
    let s := s.modCore core fun k => k.noteStrike s.cycle (CoreZone.code zone) rung t
    let s := s.strikeAll core here left exch
    if zone = .d ∧ (here ∨ !left.isEmpty) then s.scrubZoneD core else s

def execCoreStrikeReport (zone : CoreZone) (core : Fin 1024) (t : Nat) (s : State) : Host.Outcome State Fault Refusal :=
  s.sealed (s.coreStrike zone core.val t)

/-- A zone-M report affects a command: it ran at t, retired at t or later, or runs now (R222); a replay has settled the reports of its
strike window before it (R219). -/
def Core.hitBy (k : Core) (t : Nat) (c : WinCmd) : Bool := decide (c.redone ≤ t) && (decide (t ≤ c.retired) || k.running c)

/-- The affected commands of protected windows, and the unprotected ones. -/
def Core.affected (k : Core) (t : Nat) : List WinCmd := k.windows.flatMap fun w => w.cmds.filter (k.hitBy t)
def Core.affectedFree (k : Core) (t : Nat) : List WinCmd := k.unprot.filter (k.hitBy t)

/-- What a zone-M report does to the task on the core: a replay of the window with the oldest affected command, else rung 4; none: no
command is affected. -/
def Core.mxRung (k : Core) (t : Nat) : Option (Option Window) :=
  let hit := k.affected t
  let free := k.affectedFree t
  match minOf ((hit ++ free).map fun c => c.ecb.seq) with
  | none => none
  | some q => some ((k.windows.find? fun w => w.cmds.any fun c => c.ecb.seq == q && k.hitBy t c).filter fun w => k.canReplay w (hit ++ free))

/-- MATRIX_STRIKE_REPORT: a replay of the window with the oldest affected command, else rung 4. A task whose save record is still in the
Safety Net is aborted (R194), and an exchange step in the region starts again (R41). -/
def State.matrixStrike (s : State) (core t : Nat) : State :=
  if !s.reportOk t then s
  else
    let left := s.departed core t
    let exch := s.exchangeAt core (t + 32)
    let s := s.meetImages core fun w => w.cmds.any ((s.core core).hitBy t)
    let log (rung : Nat) : State := s.modCore core fun k => k.noteStrike s.cycle 2 rung t
    match (s.core core).mxRung t with
    | some (some w) => ((log 2).replay core 2 w).strikeAll core false left exch
    | some none => (log 4).strikeAll core true left exch
    | none => (log (if left.isEmpty && exch.isEmpty then 0 else 4)).strikeAll core false left exch

def execMatrixStrikeReport (core : Fin 1024) (t : Nat) (s : State) : Host.Outcome State Fault Refusal :=
  s.sealed (s.matrixStrike core.val t)

/-! ## Strikes outside the cores (R217, R226-R228) -/

/-- The entry of device log ring 2. -/
def State.logUnit (s : State) (zone rung t unit : Nat) : State :=
  s.devLog 2 (logEntry 3 rung zone 0 t) (BitVec.ofNat 64 unit)

/-- The tasks that had an item in a cluster's Safety Net from cycle t on. -/
def State.inNet (s : State) (cluster t : Nat) : List (Nat × Nat) :=
  ((s.net.filter fun i => clusterOf i.core == cluster && !i.exch).map fun i => (i.job, i.tcb)) ++
    (s.gone.filter fun g => clusterOf g.1 == cluster && decide (t ≤ g.2.2.2)).map fun g => (g.2.1, g.2.2.1)

def uniq (l : List (Nat × Nat)) : List (Nat × Nat) := l.foldl (fun m x => if m.contains x then m else m ++ [x]) []

/-- SAFETY_NET_STRIKE. -/
def State.netStrike (s : State) (cluster t : Nat) : State :=
  if !s.reportOk t then s
  else
    let ts := uniq (s.inNet cluster t)
    let sent := (s.net.filter fun i => clusterOf i.core == cluster && i.exch).foldl (fun (m : NSet) i => nins m i.job) []
    let jobs := ((List.range 4).flatMap fun i => s.exchangeAt (4 * cluster + i) (t + 32)).foldl nins sent
    let s := s.logUnit 4 (if ts.isEmpty && jobs.isEmpty then 0 else 4) t cluster
    let s := ts.foldl (fun (s : State) x => s.strikeTask x.1 x.2) s
    jobs.foldl (fun (s : State) j => s.restartStreams j) s

def execSafetyNetStrike (cluster : Fin 256) (t : Nat) (s : State) : Host.Outcome State Fault Refusal :=
  s.sealed (s.netStrike cluster.val t)

/-- Clean sectors of a line that were filled or written at t or later are invalid. -/
def Line.strike (t : Nat) (l : Line) : Line :=
  { l with sectors := l.sectors.map fun x => if x.valid && !x.dirty && decide (t ≤ x.stamp) then { x with valid := false } else x }

/-- Dirty sectors of a line that were written at t or later. -/
def Line.struck (t line : Nat) (l : Line) : List Nat :=
  l.sectors.zipIdx.filterMap fun x => if x.1.valid && x.1.dirty && decide (t ≤ x.1.stamp) then some (4 * line + x.2) else none

/-- The sectors that a strike in a slice poisons: dirty ones, and those that a task's bytes have reached through it at t or later, wherever
they stand now. -/
def State.struckSectors (s : State) (slice t : Nat) : List Nat :=
  ((s.l2.filter fun l => homeSlice (128 * l.1) == slice).flatMap fun l => l.2.struck t l.1) ++
    (s.commits.filter fun c => homeSlice (32 * c.1) == slice && decide (t ≤ c.2)).map (·.1)

/-- Tasks that have not passed step 4 and have read from the slice, or written its quarantine ways, at t or later. -/
def State.struckTasks (s : State) (slice t : Nat) : List (Nat × Nat) :=
  let hit (m : KMap Nat) : Bool := match kfind m slice with | some c => decide (t ≤ c) | none => false
  (s.tasks.filter fun x => !x.past4 && (hit x.reads || hit x.writes)).map fun x => (x.job, x.tcb)

/-- The clean sectors that a strike in a slice makes invalid, by PA / 32: their latent errors go with them. -/
def State.struckClean (s : State) (slice t k : Nat) : Bool :=
  homeSlice (32 * k) == slice && (match kfind s.l2 (k / 4) with
    | some l => let x := l.sectors.getD (k % 4) Sector.none; x.valid && !x.dirty && decide (t ≤ x.stamp)
    | none => false)

/-- L2_STRIKE. -/
def State.l2StrikeAt (s : State) (slice t : Nat) : State :=
  if !s.reportOk t then s
  else
    let ts := s.struckTasks slice t
    let bad := s.struckSectors slice t
    let s := s.logUnit 5 (if ts.isEmpty then 0 else 4) t slice
    let s := { s with
      l2 := s.l2.map (fun (l : Nat × Line) => (l.1, if homeSlice (128 * l.1) = slice then l.2.strike t else l.2)),
      memFlaws := s.memFlaws.filter (fun f => !s.struckClean slice t f.1), poison := bad.foldl nins s.poison }
    ts.foldl (fun (s : State) x => s.strikeTask x.1 x.2) s

def execL2Strike (slice : Fin 128) (t : Nat) (s : State) : Host.Outcome State Fault Refusal :=
  s.sealed (s.l2StrikeAt slice.val t)

/-- The tasks of the commands that an NMU takes part in now, or took part in until a completion after t (R227). -/
def State.nmuTasks (s : State) (n t : Nat) : List (Nat × Nat) :=
  uniq (s.nmus.filterMap (fun u => match u.2.run with
      | some y => if y.parts.contains n then some (y.req.job, y.req.tcb) else none
      | none => none) ++
    ((s.nmu n).past.filter fun x => decide (t < x.2.2)).map fun x => (x.1, x.2.1))

/-- NMU_STRIKE: a command that had not completed at t is abandoned, and its task is run again. -/
def State.nmuStrikeAt (s : State) (n t : Nat) : State :=
  if !s.reportOk t then s
  else
    let ts := s.nmuTasks n t
    ts.foldl (fun (s : State) x => s.strikeTask x.1 x.2) (s.logUnit 6 (if ts.isEmpty then 0 else 4) t n)

def execNmuStrike (nmu : Fin 512) (t : Nat) (s : State) : Host.Outcome State Fault Refusal :=
  s.sealed (s.nmuStrikeAt nmu.val t)

/-- The steps of a collective that a port's engines worked on at t or later: those acknowledged since, and the present one (R228). -/
def Coll.struckSteps (k : Coll) (port t : Nat) : List Nat :=
  (List.range (k.steps + 1)).filter fun i => Config.stepPort k.tag i % 6 == port &&
    (match k.acked[i]? with | some c => decide (t ≤ c) | none => true)

/-- ROUTER_STRIKE. -/
def State.routerStrike (s : State) (port t : Nat) : State :=
  if !s.reportOk t then s
  else
    let ks := s.colls.filter fun k => k.attached && !s.alone k && !(k.struckSteps port t).isEmpty
    ks.foldl (fun (s : State) k => s.stepsFail k (k.struckSteps port t)) (s.logUnit 7 (if ks.isEmpty then 0 else 6) t port)

def execRouterStrike (port : Fin 6) (t : Nat) (s : State) : Host.Outcome State Fault Refusal :=
  s.sealed (s.routerStrike port.val t)

/-! ## Queue deadlock (R66, R260) -/

/-- The stall codes of kind-10 records. -/
def Stall.code : Stall → Nat
  | .token => 0 | .event => 1 | .counter => 2 | .secWait => 3 | .queue => 4 | .fullEmpty => 5
  | .inFlight | .done | .interlock => 4

/-- Every queue head with its stall reason and its word, SQ first, in engine order. -/
def Core.heads (k : Core) : List (Nat × Nat × Word) :=
  let a := k.arch
  let why (e : Nat) : Nat := match kfind k.stalls e with | some w => w.code | none => 0
  let vec (e : Nat) (l : List VEntry) : List (Nat × Nat × Word) := match l with | x :: _ => [(e, why e, x.addr)] | [] => []
  let ecb (e : Nat) (l : List Ecb) : List (Nat × Nat × Word) := match l with | x :: _ => [(e, why e, x.addr)] | [] => []
  [(0, match k.stallSq with | some w => w.code | none => 4, a.word)] ++ vec 1 a.vl ++ vec 2 a.va ++ vec 3 a.vs ++ ecb 4 a.mx ++
    ((k.copies.head?.map fun c => (5, 0, c.2.addr)).toList) ++ ecb 6 a.nm ++ ecb 7 a.cl

/-- QUEUE_DEADLOCK: the count has reached DEADLOCK_LIMIT; the task is aborted with a report of every head. -/
def State.deadlock (s : State) (core : Nat) : State :=
  let k := s.core core
  match k.run, k.deadSince with
  | some r, some d =>
    if s.cycle < d + (s.reg mDeadlock).toNat then s
    else
      let s := s.modCore core fun k => k.fault s.cycle cQueueDeadlock 0 k.arch.word k.heads
      if r.exch then s.launchFault r.job r.launch cQueueDeadlock else s.abort r.job r.tcb cQueueDeadlock .counted
  | _, _ => s

def execQueueDeadlock (core : Fin 1024) (s : State) : Host.Outcome State Fault Refusal := s.sealed (s.deadlock core.val)

/-! ## Clocks of a core: bank ages, windows, the governor, the trace -/

/-- The scratchpad bytes of a vector entry that waits in VL or VS. -/
def entryRanges (a : Arch) (e : VEntry) : List (Nat × Nat) :=
  let lanes (c : VCtl) (n : Nat) (off : Nat → Nat) : List (Nat × Nat) := (activeLanes (a.prd c.qp)).map fun i => (off i, n)
  match e.instr with
  | .vld sz c _ sa off | .vst sz c _ sa off =>
    lanes c (ESize.bytes sz) (affineOff (e.base sa off) (BitVec.ofNat 64 (ESize.bytes sz)))
  | .vlds sz c _ sa off sb | .vsts sz c _ sa off sb => lanes c (ESize.bytes sz) (affineOff (e.base sa off) (e.scalar sb))
  | .vldx sz c _ sa off vx | .vstx sz c _ sa off vx =>
    lanes c (ESize.bytes sz) fun i => offsetOf (indexAddr (e.base sa off) (ESize.bytes sz) (vopLane a e vx i))
  | .vldb sz c _ sa off => lanes c (ESize.bytes sz) fun _ => offsetOf (e.base sa off)
  | .vstc sz c _ sa off => [(offsetOf (e.base sa off), ESize.bytes sz * (activeLanes (a.prd c.qp)).length)]
  | _ => []

/-- The scratchpad bytes that the next sector of a copy reads or writes. -/
def Copy.nextBytes (c : Copy) : List (Nat × Nat) :=
  match c.kind with
  | .copy t gb sb => if c.next < c.expected then let (_, l, n, _) := sectorSpan t gb sb c.next; [(l, n)] else []
  | .fill p => [(4096 * p, 4096)]
  | .evict _ => []

/-- The head of a vector queue could have its access now. -/
def Core.vecReady (k : Core) (q : Vq) : List (Nat × Nat) :=
  match k.arch.vq q with
  | e :: _ =>
    if (kfind k.arch.owed (Vq.code q)).isNone && k.arch.tokReady (Chan.code (Machine.Instr.vctl e.instr).pop) && !k.blocked q e then
      entryRanges k.arch e
    else []
  | [] => []

/-- The local bytes that a word of SQ accesses. -/
def Instr.spSpan (a : Arch) : Instr → List (Nat × Nat)
  | .ld sz _ _ _ sa off | .st sz _ sa off _ | .amo _ sz _ _ _ sa off _ | .cas sz _ _ _ sa off _ =>
    if windowOf (a.ea sa off) = .sp then [(offsetOf (a.ea sa off), MSize.bytes sz)] else []
  | .ldfe _ _ sa off | .ldff _ _ sa off | .stef sa off _ | .stff sa off _ | .feclr sa off =>
    if windowOf (a.ea sa off) = .sp then [(offsetOf (a.ea sa off), 4)] else []
  | _ => []

/-- The local bytes of SQ's present word, where nothing holds it back. -/
def State.sqWants (s : State) (c : Nat) : List (Nat × Nat) :=
  let k := s.core c
  match k.run with
  | none => []
  | some r =>
    if k.arch.ended || k.stallSq.isSome || (k.arch.atHeader && !k.arch.sv) || k.ckpt.isSome then []
    else match s.paOf r.job (offsetOf k.arch.word) with
      | none => []
      | some pa => match decode ((List.range 12).map fun i => s.codeByte r (offsetOf k.arch.word + i) (pa + i)) with
        | .ok (i, _) => Machine.Instr.spSpan k.arch i
        | .error _ => []

/-- The results of NMATT that an NMU has still to put into the scratchpad of core c. -/
def State.nmWants (s : State) (c : Nat) : List (Nat × Nat) :=
  s.nmus.filterMap fun n => match n.2.run with
    | some y => if y.req.core = some c ∧ y.waiting then (match decodeEcb .nm y.req.slots with
        | .ok (.nmatt _ a) => if a.toGlobal then none else some (a.dest.toNat, 4 * (a.dim.toNat + 2))
        | _ => none) else none
    | none => none

/-- The scratchpad bytes for which requester q of R64's table holds a ready access between turns: 0 SQ, 1 VL, 2 CP, 3 MX operand fetch, 4 NM
results, 5 deliveries, 6 VS, 7 MX drain. -/
def State.wants (s : State) (c q : Nat) : List (Nat × Nat) :=
  let k := s.core c
  let plan : Option MxPlan := match k.arch.mx with
    | x :: _ => if x.started && !x.owing then (match decodeEcb .mx x.slots with | .ok i => some (mxPlan k.arch i) | .error _ => none) else none
    | [] => none
  if q = 0 then s.sqWants c
  else if q = 1 then k.vecReady .vl
  else if q = 2 then k.copies.flatMap fun x => match x.2.kind with
    | .copy t _ _ => if k.classBusy (tplOc t) x.2.seq then [] else x.2.nextBytes
    | _ => x.2.nextBytes
  else if q = 3 then (match plan with | some p => p.reads | none => [])
  else if q = 4 then s.nmWants c
  else if q = 5 then (s.xmcs.filter fun x => x.targets.contains c && decide (x.released + 64 ≤ s.cycle)).map fun x => (x.off, 4)
  else if q = 6 then k.vecReady .vs
  else (match plan with | some p => p.outs | none => [])

/-- Byte ranges touch bank b (R64). -/
def inBank (rs : List (Nat × Nat)) (b : Nat) : Bool :=
  rs.any fun r => r.2 != 0 && (List.range (min 16 ((r.1 + r.2 - 1) / 64 - r.1 / 64 + 1))).any fun i => (r.1 / 64 + i) % 16 == b

/-- The banks in which a group of requesters holds a ready access. -/
def State.banksOf (s : State) (c : Nat) (qs : List Nat) : List Nat :=
  let mine := qs.flatMap (s.wants c)
  if mine.isEmpty then [] else (List.range 16).filter (inBank mine)

/-- Requesters qs of core c have had their access after dt cycles in which others held ready accesses of the same banks: their counts rise, its
own return to 0 (R65). s: the machine before the access. -/
def State.granted (t s : State) (c : Nat) (qs : List Nat) (dt : Nat) : State :=
  let banks := s.banksOf c qs
  if banks.isEmpty then t
  else
    let lost := ((List.range 8).filter fun q => !qs.contains q).map fun q => (q, s.wants c q)
    t.modCore c fun k => { k with ages := banks.foldl (fun m b =>
      lost.foldl (fun m q => if inBank q.2 b then kset m (8 * b + q.1) (kget m (8 * b + q.1) 0 + max 1 dt) else m)
        (qs.foldl (fun m q => kdel m (8 * b + q)) m)) k.ages }

/-- A requester whose count has reached AGE_LIMIT goes ahead of qs at a bank that both want: the largest count wins, and ties follow the order
of the table (R65). -/
def State.yields (s : State) (c : Nat) (qs : List Nat) : Bool :=
  let k := s.core c
  if k.ages.isEmpty then false
  else
    let age (b q : Nat) : Nat := kget k.ages (8 * b + q) 0
    (s.banksOf c qs).any fun b =>
      let mine := qs.foldl (fun m q => max m (age b q)) 0
      (List.range 8).any fun q => !qs.contains q && decide (k.ageLimit ≤ age b q) &&
        (decide (mine < age b q) || (mine == age b q && qs.all fun p => decide (q < p))) && inBank (s.wants c q) b

/-- Requesters qs have lost the arbitration of dt cycles. -/
def State.loses (s : State) (c : Nat) (qs : List Nat) (dt : Nat) : State :=
  let banks := s.banksOf c qs
  s.modCore c fun k => { k with ages := banks.foldl (fun m b =>
    qs.foldl (fun m q => if inBank (s.wants c q) b then kset m (8 * b + q) (kget m (8 * b + q) 0 + max 1 dt) else m) m) k.ages }

/-- BANK_AGE_LIMIT (R65): of the requesters of a bank at AGE_LIMIT, the one with the largest count is granted; the others that wait go on
counting. Arbitration affects timing only. -/
def Core.grantAged (k : Core) (bank : Nat) : Core :=
  let age (q : Nat) : Nat := kget k.ages (8 * bank + q) 0
  let best := (List.range 8).foldl (fun (m : Option Nat) q =>
    if age q < k.ageLimit then m else match m with
      | some x => if age x < age q then some q else some x
      | none => some q) none
  match best with
  | none => k
  | some b =>
    { k with ages := (List.range 8).foldl (fun m q =>
        if q = b then kdel m (8 * bank + q) else if age q = 0 then m else kset m (8 * bank + q) (age q + 1)) k.ages }

def execBankAgeLimit (core : Fin 1024) (bank : Fin 16) (s : State) : Host.Outcome State Fault Refusal :=
  s.sealed (s.modCore core.val (·.grantAged bank.val))

/-- MX_WINDOW_AGE_OUT (R221, R224). -/
def execMxWindowAgeOut (core : Fin 1024) (s : State) : Host.Outcome State Fault Refusal :=
  s.sealed (s.modCore core.val (·.ageOut s.cycle))

/-- A command refused for more than 4 µs goes ahead of every role. -/
def Core.promote (k : Core) (cycle : Nat) : Core :=
  match k.refused with
  | some c => if c + 4 * Config.cyclesPerUs < cycle then { k with promoted := true } else k
  | none => k

/-- GOVERNOR_PROMOTION. -/
def execGovernorPromotion (core : Fin 1024) (s : State) : Host.Outcome State Fault Refusal :=
  s.sealed (s.modCore core.val (·.promote s.cycle))

/-- GOVERNOR_BUDGET_RENEWAL: a die's budget for the next microsecond; once in a microsecond. -/
def State.renewBudget (s : State) (die : Nat) : State :=
  if s.cycle < kget s.renewed die 0 + Config.cyclesPerUs then s
  else { s with budget := kset s.budget die (s.reg mBudget).toNat, renewed := kset s.renewed die s.cycle }

def execGovernorBudgetRenewal (die : Fin 8) (s : State) : Host.Outcome State Fault Refusal := s.sealed (s.renewBudget die.val)

/-- TRACE_FREEZE (R259). -/
def execTraceFreeze (core : Fin 1024) (s : State) : Host.Outcome State Fault Refusal :=
  s.sealed (s.modCore core.val Core.freezeTrace)

/-! ## Scrubbing (R234, R235) -/

/-- Granules of a pass, by ring. -/
def scrubCount : Ring5 → Nat
  | .vrf => 768 | .acc => 8192 | .sp => 8192 | .twa => 4144 | .queue => 228

/-- Structure and entry (R237) of the queue granule at a place of a pass. -/
def queueGranule (pos : Nat) : Nat :=
  if pos < 192 then pos / 64 * 128 + pos % 64
  else if pos < 208 then 3 * 128 + (pos - 192)
  else if pos < 216 then 4 * 128 + (pos - 208)
  else if pos < 220 then 5 * 128 + (pos - 216)
  else 6 * 128 + (pos - 220)

/-- The doubled register that the step at a place of a QUEUE pass reads beside its entry: the six token FIFOs, the event register, the section
state. The pass of 228 steps that R235 states leaves them no place of their own (DEDUCED, log entry 53). -/
def doubledGranule (pos : Nat) : Option Nat :=
  if pos < 6 then some (gQueue 7 (pos + 1)) else if pos = 6 then some (gQueue 8 0) else if pos = 7 then some (gQueue 9 0) else none

/-- A code granule lies in the scrub granule at a place of a pass; a full/empty bit with its word. -/
def scrubHits (ring : Ring5) (pos g : Nat) : Bool :=
  match ring with
  | .vrf => g / 64 == pos
  | .acc => decide (g < 65536) && g / 8 == pos
  | .sp => if g < 65536 then g / 8 == pos else (g - 65536) / 16 == pos
  | .twa => g / 8 == pos
  | .queue => g == queueGranule pos || doubledGranule pos == some g

/-- A task owns a granule: declared registers, tiles and pages, the TWA, queue entries. -/
def Core.owns (k : Core) (ring : Ring5) (g : Nat) : Bool :=
  match k.run with
  | none => false
  | some r => match ring with
    | .vrf => decide (g / 64 < r.nvec)
    | .acc => decide (g / 2048 < r.ntile)
    | .sp => decide ((if g < 65536 then 8 * g else 4 * (g - 65536)) < 4096 * r.npage)
    | .twa => true
    | .queue =>
      let n := match g / 128 with
        | 0 => k.arch.vl.length | 1 => k.arch.va.length | 2 => k.arch.vs.length | 3 => k.arch.mx.length
        | 4 => k.arch.nm.length | 5 => k.arch.cl.length | _ => 128
      if g / 128 = 6 then (kfind k.copies (g % 128)).isSome else decide (g % 128 < n)

/-- An uncorrectable granule that a task owns, as if the task had read it. -/
def State.scrubLost (s : State) (core : Nat) (ring : Ring5) (g : Nat) : State :=
  match ring with
  | .vrf =>
    (s.logFatal core ring g 4).abortCore core cUncorrectable (BitVec.ofNat 64 (flawLoc ring g)) .counted
  | .queue => (s.meetQueue core (· == g)).1
  | .acc | .twa => (s.remake core false ring g).1
  | .sp => match (if g < 65536 then s.touch core (s.core core).arch.seq [(8 * g, 8)] true false else s.touchBit core (g - 65536)) with
    | .ready s => s
    | .wait s => s
    | .lost s d loc => s.lostWord core d loc

/-- One uncorrectable granule that scrub finds, where nothing before has settled it. -/
def State.scrubFatal (s : State) (core : Nat) (ring : Ring5) (g : Nat) : State :=
  if (s.fatalAt core ring (· == g)).isNone then s
  else if (s.core core).owns ring g then s.scrubLost core ring g else s.scrubZero core ring g

/-- The next place, and PASS when a pass ends. -/
def Scrub.next (x : Scrub) (n : Nat) : Scrub :=
  if x.pos + 1 < n then { x with pos := x.pos + 1 } else { x with pos := 0, pass := !x.pass }

/-- SCRUB_STEP. -/
def State.scrubStep (s : State) (core : Nat) (ring : Ring5) : State :=
  let x := (s.core core).scrub (Ring5.code ring)
  if x.interval = 0 then s
  else
    let hit (g : Nat) : Bool := scrubHits ring x.pos g
    let s := s.modCore core fun k => { k with scrubs := kset k.scrubs (Ring5.code ring) (x.next (scrubCount ring)) }
    let s := s.correct core ring hit 1
    (((s.core core).flaws.filter fun f => f.ring == ring && f.fatal && hit f.granule).map (·.granule)).foldl
      (fun (s : State) g => s.scrubFatal core ring g) s

def execScrubStep (core : Fin 1024) (ring : Ring5) (s : State) : Host.Outcome State Fault Refusal :=
  s.sealed (s.scrubStep core.val ring)

/-- L2_SCRUB: one line of a slice, by set and way; nothing while the interval is 0 (R238). -/
def State.l2ScrubAt (s : State) (slice : Nat) : State :=
  if (s.reg 0x3000).toNat = 0 then s
  else
    let pos := kget s.l2Pos slice 0
    let ls := s.l2.filter fun l => homeSlice (128 * l.1) == slice && l2Set (128 * l.1) == pos / 16
    let s := { s with l2Pos := kset s.l2Pos slice ((pos + 1) % 16384) }
    match ls[pos % 16]? with
    | none => s
    | some l =>
      (s.memFlaws.filter fun f => f.1 / 4 == l.1 && (s.l2Sector f.1).1).foldl (fun (s : State) f => s.meetFlaw 1 f.1 f.2) s

def execL2Scrub (slice : Fin 128) (s : State) : Host.Outcome State Fault Refusal := s.sealed (s.l2ScrubAt slice.val)

/-- HBM_PATROL: the next 64 bytes of a channel; nothing while the interval is 0 (R238). -/
def State.patrol (s : State) (channel : Nat) : State :=
  if (s.reg 0x3008).toNat = 0 then s
  else
    let pos := kget s.hbmPos channel 0
    let pa := 0x200000 * (pos / 64) + 4096 * channel + 64 * (pos % 64)
    let s := { s with hbmPos := kset s.hbmPos channel ((pos + 1) % (Config.hbmSize / 512 / 64)) }
    (s.memFlaws.filter fun f => f.1 / 2 == pa / 64 && !(s.l2Sector f.1).1).foldl (fun (s : State) f => s.meetFlaw 1 f.1 f.2) s

def execHbmPatrol (channel : Fin 512) (s : State) : Host.Outcome State Fault Refusal := s.sealed (s.patrol channel.val)

/-! ## Error logs and TRACECTL as the supervisor reaches them (R236, R257) -/

/-- ERRLOG_READ: the oldest entry of a ring, and its removal. -/
def State.errlogRead (s : State) (core : Nat) (ring : Ring5) (sd : SReg) : State :=
  if (s.core core).arch.sv then
    s.modCore core fun k =>
      { k.popLog (Ring5.code ring) with arch := k.arch.wr sd ((kget k.errlogs (Ring5.code ring) []).headD 0) }
  else s

def execErrlogRead (core : Fin 1024) (ring : Ring5) (sd : SReg) (s : State) : Host.Outcome State Fault Refusal :=
  s.sealed (s.errlogRead core.val ring sd)

/-- ERRLOG_CLEAR: the ring is empty. -/
def State.errlogClear (s : State) (core : Nat) (ring : Ring5) : State :=
  if (s.core core).arch.sv then s.modCore core fun k => { k with errlogs := kdel k.errlogs (Ring5.code ring) } else s

def execErrlogClear (core : Fin 1024) (ring : Ring5) (s : State) : Host.Outcome State Fault Refusal :=
  s.sealed (s.errlogClear core.val ring)

/-- TRACECTL_WRITE: a value that its fields take. -/
def State.tracectlWrite (s : State) (core : Nat) (v : Word) : State :=
  if (sysRefused 0x050 1 v).isNone then s.modCore core (·.setTracectl v) else s

def execTracectlWrite (core : Fin 1024) (v : Word) (s : State) : Host.Outcome State Fault Refusal :=
  s.sealed (s.tracectlWrite core.val v)

end Sys2Proof.Machine
end

