-- ==== Sys2Proof/Machine/Ring.lean ====
section
/-!
DEFINITION. The Ringmaster at work (spec/08 R183-R198): dispatch, restore, ageing, the spill list, pre-emption, time slices; and
TASK_COMMIT (spec/02 R26, spec/16 R393, spec/07 R163).
-/

namespace Sys2Proof.Machine

/-! ## Commit -/

/-- The core of a task that has reached its commit: idle engines, no dirty page, nothing left in the Safety Net. -/
def State.readyToCommit (s : State) (job tcb : Nat) : Bool :=
  match s.coreOf job tcb with
  | some c => s.tendIdle c && !(s.core c).dirtyPages && s.netClear c job tcb
  | none => false

/-- TASK_COMMIT: the write-backs of step 2, then step 4 together with every task that a forwarded value binds to this one (R163). -/
def State.taskCommit (s : State) (core : Nat) : State :=
  match (s.core core).run with
  | none => s
  | some r => match s.task r.job r.tcb with
    | none => s
    | some t =>
      if r.exch then s
      else if t.past4 then s.tendEnd core r.job r.tcb
      else if !s.tendIdle core then s
      else if (s.core core).dirtyPages then (match s.flushPages core with | (some s, _) => s | (none, s) => s)
      else
        let all := boundSet (s.bondsOf r.job) s.bonds.length [r.tcb]
        if all.all (s.readyToCommit r.job) then
          s.commitTasks core ((forwardOrder (s.bondsOf r.job) all.length all).filterMap fun x => (s.task r.job x).map fun t => (s.coreOf r.job x, t))
        else s

def execTaskCommit (core : Fin 1024) (s : State) : Host.Outcome State Fault Refusal := s.sealed (s.taskCommit core.val)

/-! ## Targets (R183, R191, R223, R231) -/

/-- A ready entry still stands for a task. -/
def State.isReady (s : State) (job tcb : Nat) : Bool :=
  s.rings.any fun r => (r.2.ready ++ r.2.spill).any fun e => e.job == job && e.tcb == tcb

/-- A core is free for an entry: it runs nothing, is not degraded or being scrubbed, and no pre-emption reserves it for another. -/
def State.coreFree (s : State) (e : Ready) (c : Nat) : Bool :=
  let k := s.core c
  k.run.isNone && !k.degraded && decide (k.scrubUntil ≤ s.cycle) &&
    (match k.reserved with
     | none => true
     | some (j, t) => (j == e.job && t == e.tcb) || !s.isReady j t)

/-- An NMU runs one bound task at a time. -/
def State.nmuFree (s : State) (n : Nat) : Bool :=
  !((s.nmu n).queue.any fun q => q.core.isNone) && (match (s.nmu n).run with | some y => y.req.core.isSome | none => true)

/-- The NMU that owns the primary range of an NMU-bound task's command (R28, R261), where memory says which it is. -/
def State.nmuTarget (s : State) (l : Lnch) (e : Ready) : Option Nat :=
  let at_ := l.code + 4 * (s.tcbWord e.job e.tcb 0).field 0 32
  let slots := (List.range 16).map fun i => BitVec.ofNat 64 (s.vaNat e.job (at_ + 8 * i) 8)
  (s.paOf e.job (nmPrimary slots)).bind fun pa => if inHbm pa then some (nmuOf pa) else none

def Bind.ids (b : Bind) : List Nat := (List.range b.targets).map (b.target + ·)

/-- The free targets of an entry's binding. -/
def State.freeTargets (s : State) (e : Ready) (b : Bind) : List Nat :=
  b.ids.filter fun n => if b.nmus then s.nmuFree n else s.coreFree e n

def State.bindingOf (s : State) (e : Ready) : Option Bind := (s.launch e.job e.launch).bind fun l => l.bindOf e.index

/-- The target that an entry takes (R183): one reserved for it, the hinted one, the one that last ran it, the lowest-numbered. An
NMU-bound task takes the NMU that owns its primary range, once that runs no other bound task. -/
def State.pickTarget (s : State) (e : Ready) : Option (Bool × Nat) :=
  match s.bindingOf e with
  | none => none
  | some b =>
    let free := s.freeTargets e b
    let w := s.tcbWord e.job e.tcb 40
    let again : Bool := match s.task e.job e.tcb with | some t => t.refired | none => false
    let ranBefore := e.restore || again || (s.tcbWord e.job e.tcb 16).field 48 16 != 0
    let mine : Option Nat := if b.nmus then none else free.find? fun c => (s.core c).reserved == some (e.job, e.tcb)
    let owner : Option Nat := if b.nmus then ((s.launch e.job e.launch).bind fun l => s.nmuTarget l e).filter b.ids.contains else none
    let pick : Option Nat := match mine, owner with
      | some c, _ => some c
      | none, some n => if free.contains n then some n else none
      | none, none =>
        if free.contains (w.field 8 16) then some (w.field 8 16)
        else if ranBefore && free.contains (w.field 24 16) then some (w.field 24 16)
        else free.head?
    pick.map fun n => (b.nmus, n)

/-! ## The quarantine pool (R25) -/

/-- A task holds its quota from dispatch until it commits or is discarded. -/
def State.holdsQuota (s : State) (t : Task) : Bool :=
  let st := s.tcbState t.job t.tcb
  t.save.isSome || [tRunning, tCheckpointed, tHeld, tCommitting, tParked].contains st

def State.taskQuota (s : State) (job launch : Nat) : Nat := match s.launch job launch with | some l => l.quota | none => 0

/-- The quota of an entry fits in the pool of its home die: 4 MiB, in 4 KiB units (DESIGN CHOICE, log entry 28). -/
def State.quotaFits (s : State) (die : Nat) (e : Ready) : Bool :=
  let used := ((s.tasks.filter fun t => t.home == die && s.holdsQuota t && !(t.job == e.job && t.tcb == e.tcb)).map
    fun t => s.taskQuota t.job t.launch).sum
  decide (used + s.taskQuota e.job e.launch ≤ 1024)

/-! ## The entry that is dispatched next (R183, R187) -/

/-- The class as which an entry competes: one up while its class is in overflow. -/
def Ringm.effClass (r : Ringm) (e : Ready) : Nat := if r.overflow.contains e.qcls then e.qcls - 1 else e.qcls

/-- The entries in the order of the scan. -/
def Ringm.scan (r : Ringm) : List Ready :=
  r.ready.foldl (fun l e => insertBy (fun a b =>
    decide (r.effClass a < r.effClass b) || (r.effClass a == r.effClass b && keyLt a.key b.key)) e l) []

/-- A device store of the launch still waits for the pager (R461). -/
def State.recordHeld (s : State) (e : Ready) : Bool :=
  s.heldStores.any fun h => h.job == e.job && h.record == s.recordOf e.job e.launch

def State.nextEntry (s : State) (die : Nat) : Option (Ready × Bool × Nat) :=
  (s.ring die).scan.findSome? fun e =>
    if s.recordHeld e || !s.quotaFits die e then none else (s.pickTarget e).map fun t => (e, t.1, t.2)

/-! ## Dispatch (R68, R175, R183, R185, R207) -/

/-- The entry leaves its queue, and no core stays reserved for it. -/
def State.takeEntry (s : State) (die : Nat) (e : Ready) : State :=
  let s := s.modRing die fun r => { r with ready := r.ready.filter fun x => !(x.job == e.job && x.tcb == e.tcb) }
  let s := s.settleDepth die
  let free (k : Core) : Core := if k.reserved = some (e.job, e.tcb) then { k with reserved := none } else k
  { s with cores := s.cores.map fun (c : Nat × Core) => (c.1, free c.2) }

/-- What the Ringmaster writes at a dispatch or a restore: the run class, state RUNNING, the last core. -/
def State.writeRunning (s : State) (e : Ready) (target : Nat) : State :=
  let (s, c) := s.runClass e.job e.launch e.tcb
  let s := (s.modTask e.job e.tcb fun t => { t with cls := c }).inherit e.job e.launch e.tcb c
  let s := s.setTcbState e.job e.launch e.tcb tRunning
  s.tcbSet e.job (s.recordOf e.job e.launch) e.tcb 40 24 16 target

/-- What a dispatch from the first word writes beside it: attempts + 1, and the snapshot. -/
def State.writeAttempt (s : State) (l : Lnch) (e : Ready) : State :=
  let s := s.tcbSet e.job l.record e.tcb 16 48 16 ((s.tcbWord e.job e.tcb 16).field 48 16 + 1)
  let keep : Bool := match s.task e.job e.tcb with | some t => t.keepSnap | none => false
  let s := if s.tcbVersioned e.job e.tcb && !keep then s.tcbSet e.job l.record e.tcb 56 0 64 (s.snapshot l e.index).toNat else s
  s.modTask e.job e.tcb fun t => { t with ran := 0, save := none, saveValid := false, past4 := false }

/-- The occupant of a core for an entry. -/
def Lnch.runOf (l : Lnch) (e : Ready) (entry cycle : Nat) (mem : List Host.Cell) : Run :=
  { exch := false, job := l.job, launch := l.id, index := e.index, tcb := e.tcb, code := l.code, entry := entry,
    nvec := l.vregs, ntile := l.tiles, npage := l.pages, slip := l.slip, since := cycle, icache := mem }

/-- The words of a scratchpad that the last barrier delivered keep their values; the others start undefined. -/
def Arch.fresh (a : Arch) (epoch : Nat) : Arch :=
  { a with full := [], spEpoch := epoch, sp := a.sp.filter fun (b : Nat × Byte) => a.delivered.contains (b.1 / 4) }

def State.dispatchCore (s : State) (l : Lnch) (e : Ready) (c : Nat) : State :=
  let r := l.runOf e ((s.tcbWord e.job e.tcb 0).field 0 32) s.cycle s.mem
  let (seed, lat) := s.seedOf e.job
  let n := s.epoch + 1
  let k := (s.core c).enter n r seed l.slip lat
  let k : Core := { k with reserved := none, arch := k.arch.fresh n }
  { s.setCore c (k.trace s.cycle 7 0 0 (BitVec.ofNat 64 e.tcb)) with epoch := n }

/-- An NMU-bound task's command goes to its NMU, which owns its primary range (R28, R261). -/
def State.dispatchNmu (s : State) (die : Nat) (l : Lnch) (e : Ready) (b : Bind) (n : Nat) : State :=
  let at_ := l.code + 4 * (s.tcbWord e.job e.tcb 0).field 0 32
  match s.translateRange none die e.job at_ 128 .fetch with
  | (s, .error (.page, va)) => (s.abort e.job e.tcb cPageFault .parked).pfRecord die 2 va e.tcb false e.job
  | (s, .error (.prot, _)) => s.abort e.job e.tcb cProtection .faulted
  | (s, .error (.bad, _)) => (s.abort e.job e.tcb cUncorrectable .faulted).rung5 e.job cUncorrectable
  | (s, .ok _) =>
    let slots := (List.range 16).map fun i => s.jobWord e.job (at_ + 8 * i)
    if b.ids.contains ((s.nmuTarget l e).getD n) then
      let q : NmReq := { core := none, seq := 0, job := e.job, launch := e.launch, tcb := e.tcb, slots := slots, arrived := s.cycle }
      s.modNmu n fun u => { u with queue := insertBy NmReq.before q u.queue }
    else s.abort e.job e.tcb cProtection .faulted

/-- TASK_DISPATCH on a die: the first fitting entry, where it starts from its first word. -/
def State.taskDispatch (s : State) (die : Nat) : State :=
  match s.nextEntry die with
  | none => s
  | some (e, nmus, n) => match s.launch e.job e.launch, s.bindingOf e with
    | some l, some b =>
      if e.restore then s
      else
        let s := ((s.takeEntry die e).writeRunning e n).writeAttempt l e
        if nmus then s.dispatchNmu die l e b n else s.dispatchCore l e n
    | _, _ => s

def execTaskDispatch (die : Fin 8) (s : State) : Host.Outcome State Fault Refusal := s.sealed (s.taskDispatch die.val)

/-! ## Restore (R68, R196, R198) -/

/-- A bypass is not saved (R105, R195): its contents are undefined. -/
def freeBypass (epoch : Nat) (b : Bypass) : Bypass :=
  { b with codes := (List.range 4096).map (Config.freeBypass epoch), scales := (List.range 16).map (Config.freeBypassScale epoch) }

/-- The slot of a command that retired before the checkpoint and still owes its MA token (R60). -/
def owingEcb : Ecb := { slots := [], addr := 0, sec := 0, seq := 0, seed := 0, net := false, started := true, owing := true }

/-- The state that a record holds, on its new core: no page's data is resident (R128). -/
def Arch.restored (a : Arch) (k : Core) (epoch : Nat) (seed : W32) (slip : Nat) (lat : Word) : Arch :=
  { a with
    pages := a.pages.map fun p => (p.1, { p.2 with res := false, dirty := [], lock := false })
    owed := a.owed.filter fun o => decide (o.1 < 4)
    mx := (if (kfind a.owed 4).isSome then [owingEcb] else []) ++ a.mx
    seed := seed, slip := slip, lattol := lat, delivered := k.arch.delivered, bypass := a.bypass.map (freeBypass epoch) }

/-- The channels that still owe a CA token for a copy that retired before the checkpoint (R60). -/
def Arch.owedCopies (a : Arch) : KMap Copy :=
  (a.owed.filter fun o => decide (8 ≤ o.1)).map fun o =>
    (o.1 - 8, { kind := .copy [] 0 0, addr := 0, sec := 0, seq := 0, next := 0, counted := 0, net := 0, expected := 0, writeBack := none,
                owing := true })

/-- 4 × the save-plus-restore time in µs, rounded up, where it passes the floor in force (DESIGN CHOICE, log entry 18). -/
def Ringm.raiseFloor (r : Ringm) (cycles : Nat) : Ringm := { r with floor := max r.floor (ceilDiv (4 * cycles) Config.cyclesPerUs) }

/-- A core takes a saved state, from the record's bytes (R196), with the code as memory holds it now: a restore counts as the next dispatch
of R70 (DESIGN CHOICE, log entry 43). -/
def State.restoreCore (s : State) (die : Nat) (l : Lnch) (e : Ready) (t : Task) (a : Arch) (c : Nat) : State :=
  let r := l.runOf e ((s.tcbWord e.job e.tcb 0).field 0 32) s.cycle s.mem
  let (seed, lat) := s.seedOf e.job
  let n := s.epoch + 1
  let k0 := s.core c
  let a := a.reload r (Memory.slice s.mem t.savePa t.saveLen)
  let k : Core := { k0.vacate with run := some r, reserved := none, arch := a.restored k0 n seed l.slip lat, copies := a.owedCopies,
                                   resumed := some (die, t.ckptAt) }
  let s : State := { s.setCore c (k.trace s.cycle 7 0 0 (BitVec.ofNat 64 e.tcb)) with epoch := n }
  s.modTask e.job e.tcb fun t => { t with save := none, saveValid := false }

/-- The first word of a restored task ends the time that the floor measures (R198). -/
def State.firstWord (s : State) : State :=
  match s.cur.resumed with
  | none => s
  | some (die, at_) => (s.modCur fun k => { k with resumed := none }).modRing die (·.raiseFloor (s.cycle - at_))

/-- TASK_RESTORE on a die: the first fitting entry, where it resumes from its save record. -/
def State.taskRestore (s : State) (die : Nat) : State :=
  match s.nextEntry die with
  | none => s
  | some (e, _, n) => match s.launch e.job e.launch, s.task e.job e.tcb with
    | some l, some t => match t.save with
      | some a => if e.restore then (((s.takeEntry die e).writeRunning e n).restoreCore die l e t a n) else s
      | none => s
    | _, _ => s

def execTaskRestore (die : Fin 8) (s : State) : Host.Outcome State Fault Refusal := s.sealed (s.taskRestore die.val)

/-! ## Ageing and the spill list (R181, R184) -/

/-- An entry takes its place in its class queue, or in the spill list. -/
def Ringm.place (r : Ringm) (e : Ready) : Ringm :=
  if (r.ready.filter (·.qcls == e.qcls)).length < 4096 then { r with ready := insertBy readyLt e r.ready }
  else { r with spill := insertBy (fun a b => keyLt a.key b.key) e r.spill }

/-- TASK_AGEING: each entry that has waited for AGE_SLICE in a class above 0 moves one class up. -/
def State.taskAgeing (s : State) (die : Nat) : State :=
  let wait := Config.cyclesPerUs * (s.reg (mRing die + 0x30)).field 0 16
  let old (e : Ready) : Bool := e.qcls != 0 && decide (e.since + wait ≤ s.cycle)
  let r := s.ring die
  let up := (r.ready ++ r.spill).filter old
  let r := { r with ready := r.ready.filter fun e => !old e, spill := r.spill.filter fun e => !old e }
  let r := up.foldl (fun (r : Ringm) e => r.place { e with qcls := e.qcls - 1, since := s.cycle }) r
  let grown := decide ((s.ring die).spill.length < r.spill.length)
  let s := s.modRing die fun _ => r
  (if grown then s.writeSpill die 0 else s).settleDepth die

def execTaskAgeing (die : Fin 8) (s : State) : Host.Outcome State Fault Refusal := s.sealed (s.taskAgeing die.val)

/-- SPILL_LIST_MOVE: the first spilled entry of a class enters its queue when there is room. -/
def State.spillMove (s : State) (die cls : Nat) : State :=
  let r := s.ring die
  match r.spill.find? (·.qcls == cls) with
  | none => s
  | some e =>
    if (r.ready.filter (·.qcls == cls)).length < 4096 then
      s.modRing die fun r => { r with ready := insertBy readyLt e r.ready,
                                      spill := r.spill.filter fun x => !(x.job == e.job && x.tcb == e.tcb) }
    else s

def execSpillListMove (die : Fin 8) (cls : Fin 4) (s : State) : Host.Outcome State Fault Refusal :=
  s.sealed (s.spillMove die.val cls.val)

/-! ## Pre-emption (R189-R192) -/

/-- The policies in the order in which ties are decided. -/
inductive Policy where
  | drain | checkpoint | kill
  deriving DecidableEq, Repr

def Policy.rank : Policy → Nat
  | .drain => 0 | .checkpoint => 1 | .kill => 2

/-- The first applicable row of R190. -/
def policyOf (drain ckpt kill : Bool) (rm limit c p : Nat) : Option Policy :=
  if drain && decide (rm ≤ limit) then some .drain
  else if ckpt && decide (c < p) then some .checkpoint
  else if kill then some .kill
  else if ckpt then some .checkpoint
  else if drain then some .drain
  else none

/-- The policy for the task on a core, none where it is no candidate for a task of run class cls. -/
def State.victimPolicy (s : State) (die cls core : Nat) : Option (Nat × Policy) :=
  let k := s.core core
  match k.run with
  | none => none
  | some r => match s.task r.job r.tcb with
    | none => none
    | some t =>
      let floor := Config.cyclesPerUs * (s.ring (dieOf core)).floor
      if r.exch ∨ k.reserved.isSome ∨ k.ckpt.isSome ∨ k.arch.ended ∨ t.past4 ∨ t.cls ≤ cls ∨ s.cycle < r.since + floor then none
      else
        let w := s.tcbWord r.job r.tcb 32
        let p := (t.ran + (s.cycle - r.since)) / Config.cyclesPerUs
        let m := s.tcbPolicy r.job r.tcb
        (policyOf (m / 4 % 2 == 0) (s.ckptOk core) (m % 2 == 0) (w.field 0 32 - p) (s.reg (mRing die + 0x40)).toNat
          (w.field 32 32) p).map fun x => (t.cls, x)

/-- The victim of an entry: the greatest run class, then the policy, then the lowest core. -/
def State.victim (s : State) (die : Nat) (e : Ready) (b : Bind) : Option (Nat × Policy) :=
  let all := b.ids.filterMap fun c => (s.victimPolicy die e.cls c).map fun v => (c, v.1, v.2)
  let better (x y : Nat × Nat × Policy) : Bool :=
    decide (y.2.1 < x.2.1) || (x.2.1 == y.2.1 && decide (x.2.2.rank < y.2.2.rank))
  (all.foldl (fun (m : Option (Nat × Nat × Policy)) x => match m with
    | none => some x
    | some y => if better x y then some x else some y) none).map fun x => (x.1, x.2.2)

def Job.spend (j : Job) : Job := { j with tokens := j.tokens - 1 }

/-- PREEMPTION on a die: the first ready entry that may pre-empt takes a core (DESIGN CHOICE, log entry 28). The
request to kill or checkpoint arrives in a later cycle (R191). -/
def State.preempt (s : State) (die : Nat) : State :=
  let go := (s.ring die).scan.findSome? fun e => match s.bindingOf e, kfind s.jobs e.job with
    | some b, some j =>
      if b.nmus ∨ j.tokens = 0 ∨ !(s.freeTargets e b).isEmpty ∨
          (s.cores.any fun c => c.2.reserved == some (e.job, e.tcb)) then none
      else (s.victim die e b).map fun v => (e, v.1, v.2)
    | _, _ => none
  match go with
  | none => s
  | some (e, c, p) =>
    let s := s.modJob e.job (·.spend)
    let reserve (s : State) : State := s.modCore c fun k => { k with reserved := some (e.job, e.tcb) }
    match p with
    | .drain => (reserve s).bump (mRing (dieOf c) + 0x60) 1
    | .kill => (reserve s).modCore c fun k => { k with killAt := some s.cycle }
    | .checkpoint => reserve (s.startCkpt c none)

def execPreemption (die : Fin 8) (s : State) : Host.Outcome State Fault Refusal := s.sealed (s.preempt die.val)

/-! ## Time slices (R197) -/

/-- A ready task of the same run class waits for the core, and no target of its binding is free. -/
def State.waitsFor (s : State) (core cls : Nat) : Bool :=
  s.rings.any fun r => r.2.ready.any fun e => e.cls == cls && (match s.bindingOf e with
    | some b => !b.nmus && b.ids.contains core && (s.freeTargets e b).isEmpty
    | none => false)

/-- SLICE_EXPIRY. -/
def State.sliceExpiry (s : State) (core : Nat) : State :=
  let k := s.core core
  let die := dieOf core
  let slice := (s.reg (mRing die + 0x38)).toNat
  let floor := (s.ring die).floor
  match k.run with
  | none => s
  | some r => match s.task r.job r.tcb with
    | none => s
    | some t =>
      if slice = 0 ∨ r.exch ∨ s.cycle < r.since + Config.cyclesPerUs * max slice floor ∨ k.ckpt.isSome ∨ k.reserved.isSome ∨
          t.past4 ∨ !s.waitsFor core t.cls ∨ !s.ckptOk core then s
      else
        let s := if slice < floor then s.modArchOf core fun a => { a with sliceflr := true } else s
        s.startCkpt core none

def execSliceExpiry (core : Fin 1024) (s : State) : Host.Outcome State Fault Refusal := s.sealed (s.sliceExpiry core.val)

end Sys2Proof.Machine
end

