-- ==== Sys2Proof/Machine/VectorArith.lean ====
section
/-!
DEFINITION. The vector arithmetic words, class VA (spec/17 R403, R404, R412-R421, spec/16 R376, R379). SQ pushes; the VA
engine computes. Only these words set FPFLAGS (R399).
-/

namespace Sys2Proof.Machine

/-- A VA word: nothing is checked at the push beyond what every vector word is. -/
def vaWord (i : Instr) (act : VEntry → Arch → Arch) (s : State) : Host.Outcome State Fault Refusal :=
  s.vecWord .va i (fun _ k => k) fun e s => .ok (s.modArch (act e))

/-- A lane-wise result with flags (R398, R404). -/
def laneWrite (c : VCtl) (vd : VReg) (f : Nat → W32 × FFlags) (a : Arch) : Arch :=
  let qp := a.prd c.qp
  (a.vwr vd (lanesOf qp c.z (a.vrd vd) fun i => (f i).1)).orFlags (flagsOf qp fun i => (f i).2)

/-- A word of two lane operands. -/
def lane2 (i : Instr) (c : VCtl) (vd : VReg) (va vb : VSpec) (f : W32 → W32 → W32 × FFlags) (s : State) :
    Host.Outcome State Fault Refusal :=
  vaWord i (fun e a => laneWrite c vd (fun l => f (vopLane a e va l) (vopLane a e vb l)) a) s

/-- A word of one lane operand. -/
def lane1 (i : Instr) (c : VCtl) (vd : VReg) (va : VSpec) (f : W32 → W32 × FFlags) (s : State) :
    Host.Outcome State Fault Refusal :=
  vaWord i (fun e a => laneWrite c vd (fun l => f (vopLane a e va l)) a) s

/-! ## Lane-wise words (R403) -/

def execVadd (ty : Lane) (rm : RMode) (c : VCtl) (vd : VReg) (va vb : VSpec) (s : State) :=
  lane2 (.vadd ty rm c vd va vb) c vd va vb (laneAdd ty rm) s
def execVsub (ty : Lane) (rm : RMode) (c : VCtl) (vd : VReg) (va vb : VSpec) (s : State) :=
  lane2 (.vsub ty rm c vd va vb) c vd va vb (laneSub ty rm) s
def execVmul (ty : Lane) (rm : RMode) (c : VCtl) (vd : VReg) (va vb : VSpec) (s : State) :=
  lane2 (.vmul ty rm c vd va vb) c vd va vb (laneMul ty rm) s
def execVfma (ty : Lane) (rm : RMode) (c : VCtl) (vd : VReg) (va vb vc : VSpec) (s : State) :=
  vaWord (.vfma ty rm c vd va vb vc) (fun e a => laneWrite c vd
    (fun l => laneFma ty rm (vopLane a e va l) (vopLane a e vb l) (vopLane a e vc l)) a) s
def execVmin (ty : Lane) (c : VCtl) (vd : VReg) (va vb : VSpec) (s : State) :=
  lane2 (.vmin ty c vd va vb) c vd va vb (laneMin ty) s
def execVmax (ty : Lane) (c : VCtl) (vd : VReg) (va vb : VSpec) (s : State) :=
  lane2 (.vmax ty c vd va vb) c vd va vb (laneMax ty) s
def execVabs (ty : Lane) (c : VCtl) (vd : VReg) (va : VSpec) (s : State) :=
  lane1 (.vabs ty c vd va) c vd va (laneAbs ty) s
def execVand (ty : Lane) (c : VCtl) (vd : VReg) (va vb : VSpec) (s : State) :=
  lane2 (.vand ty c vd va vb) c vd va vb (fun x y => (x &&& y, 0)) s
def execVor (ty : Lane) (c : VCtl) (vd : VReg) (va vb : VSpec) (s : State) :=
  lane2 (.vor ty c vd va vb) c vd va vb (fun x y => (x ||| y, 0)) s
def execVxor (ty : Lane) (c : VCtl) (vd : VReg) (va vb : VSpec) (s : State) :=
  lane2 (.vxor ty c vd va vb) c vd va vb (fun x y => (x ^^^ y, 0)) s

/-- The shift count vb[4:0]. -/
def laneShift (y : W32) : Nat := y.toNat % 32

def execVshl (ty : Lane) (c : VCtl) (vd : VReg) (va vb : VSpec) (s : State) :=
  lane2 (.vshl ty c vd va vb) c vd va vb (fun x y => (x <<< laneShift y, 0)) s
def execVshr (ty : Lane) (c : VCtl) (vd : VReg) (va vb : VSpec) (s : State) :=
  lane2 (.vshr ty c vd va vb) c vd va vb (fun x y => (x >>> laneShift y, 0)) s
def execVsra (ty : Lane) (c : VCtl) (vd : VReg) (va vb : VSpec) (s : State) :=
  lane2 (.vsra ty c vd va vb) c vd va vb (fun x y => (x.sshiftRight (laneShift y), 0)) s
def execVmov (ty : Lane) (c : VCtl) (vd : VReg) (va : VSpec) (s : State) :=
  lane1 (.vmov ty c vd va) c vd va (fun x => (x, 0)) s
def execVdiv (c : VCtl) (vd : VReg) (va vb : VSpec) (s : State) := lane2 (.vdiv c vd va vb) c vd va vb fdiv s
def execVsqrt (c : VCtl) (vd : VReg) (va : VSpec) (s : State) := lane1 (.vsqrt c vd va) c vd va fsqrt s
def execVexp2 (c : VCtl) (vd : VReg) (va : VSpec) (s : State) := lane1 (.vexp2 c vd va) c vd va fexp2 s
def execVlog2 (c : VCtl) (vd : VReg) (va : VSpec) (s : State) := lane1 (.vlog2 c vd va) c vd va flog2 s

/-- VHASH (R416). -/
def execVhash (ty : Lane) (c : VCtl) (vd : VReg) (va vb vc : VSpec) (s : State) :=
  vaWord (.vhash ty c vd va vb vc) (fun e a => laneWrite c vd
    (fun l => (mix32 (vopLane a e va l) (vopLane a e vb l) (vopLane a e vc l), 0)) a) s

/-- VCVT (R413): the key of SR takes the SEED of the push. -/
def execVcvt (src dst : Fmt) (rm : RMode) (c : VCtl) (vd : VReg) (va vb vc : VSpec) (s : State) :=
  vaWord (.vcvt src dst rm c vd va vb vc) (fun e a => laneWrite c vd
    (fun l => convert src dst rm (mix32 e.seed (vopLane a e vb l) (vopLane a e vc l)) (vopLane a e va l)) a) s

/-! ## Selections and moves across lanes -/

/-- VSEL (R420). -/
def execVsel (ty : Lane) (c : VCtl) (vd : VReg) (ps : PReg) (va vb : VSpec) (s : State) :=
  vaWord (.vsel ty c vd ps va vb) (fun e a => laneWrite c vd
    (fun l => (if bitAt (a.prd ps) l then vopLane a e va l else vopLane a e vb l, 0)) a) s

/-- VPERM (R418). -/
def execVperm (ty : Lane) (c : VCtl) (vd : VReg) (va vb : VSpec) (s : State) :=
  vaWord (.vperm ty c vd va vb) (fun e a => laneWrite c vd
    (fun l => (let j := (vopLane a e vb l).toNat; if j < 64 then vopLane a e va j else 0, 0)) a) s

/-- Lane l of a slide (R421). -/
def slideLane (dn : Bool) (k : Nat) (x y : Nat → W32) (l : Nat) : W32 :=
  if dn then (if l + k < 64 then x (l + k) else y (l + k - 64))
  else (if k ≤ l then x (l - k) else y (64 - k + l))

def execVslide (dn : Bool) (ty : Lane) (c : VCtl) (vd : VReg) (va vb : VSpec) (k : Fin 64) (s : State) :=
  vaWord (.vslide dn ty c vd va vb k) (fun e a => laneWrite c vd
    (fun l => (slideLane dn k.val (vopLane a e va) (vopLane a e vb) l, 0)) a) s

/-- VIOTA (R417). -/
def execViota (ty : Lane) (c : VCtl) (vd : VReg) (va : VSpec) (step : BitVec 11) (s : State) :=
  vaWord (.viota ty c vd va step) (fun e a => laneWrite c vd
    (fun l => (vopLane a e va l + step.signExtend 32 * BitVec.ofNat 32 l, 0)) a) s

/-- VRED (R98, R419): the tree over 64 lanes, inactive ones as the identity; every lane of vd receives the result. -/
def execVred (ty : Lane) (op : RedOp) (rm : RMode) (c : VCtl) (vd : VReg) (va : VSpec) (s : State) :=
  vaWord (.vred ty op rm c vd va) (fun e a =>
    let qp := a.prd c.qp
    let xs := (List.range 64).map fun l => if bitAt qp l then vopLane a e va l else redIdentity op ty
    let (r, f) := redTree (redNode op ty rm) xs
    (a.vwr vd (laneTab fun _ => r)).orFlags f) s

/-! ## Predicates -/

/-- A write of a predicate, with its trace record (R258, kind 2); p0 discards it, and nothing changes. -/
def Core.setPred (k : Core) (cycle : Nat) (p : PReg) (v : Word) : Core :=
  if p = 0 then k else { k.trace cycle 2 2 p.val v with arch := k.arch.pwr p v }

/-- The new masks of an active lane (R412). -/
def combine (ct : CType) (c p1 p2 : Bool) : Bool × Bool :=
  match ct with
  | .new => (c, !c)
  | .all => (p1 && c, p2 || !c)
  | .any => (p1 || c, p2 && !c)
  | .par => (p1 != c, !(p1 != c))
  | .edge => (c && !p2, p2 || c)
  | .drop => (p1 && !c, p2 || (p1 && c))
  | .hist => (c, p1)
  | .split => (p2 && c, p2 && !c)

/-- VCMP (R412). -/
def execVcmp (ty : Lane) (cond : Cond) (ct : CType) (c : VCtl) (pd1 pd2 : PReg) (va vb : VSpec) (s : State) :
    Host.Outcome State Fault Refusal :=
  s.vecWord .va (.vcmp ty cond ct c pd1 pd2 va vb) (fun _ k => k) fun e s =>
    let a := s.arch
    let qp := a.prd c.qp
    let p1 := a.prd pd1
    let p2 := a.prd pd2
    let res (l : Nat) : Bool × FFlags := laneCmp ty cond (vopLane a e va l) (vopLane a e vb l)
    let new (l : Nat) : Bool × Bool :=
      if bitAt qp l then combine ct (res l).1 (bitAt p1 l) (bitAt p2 l)
      else if c.z then (false, false) else (bitAt p1 l, bitAt p2 l)
    let s := s.modArch (·.orFlags (flagsOf qp fun l => (res l).2))
    .ok (s.modCur fun k => (k.setPred s.cycle pd1 (bitTab fun l => (new l).1)).setPred s.cycle pd2
      (bitTab fun l => (new l).2))

/-- Op of PLOG (R376). -/
def plogBit (op : PlogOp) (x y : Bool) : Bool :=
  match op with
  | .and => x && y | .or => x || y | .xor => x != y | .andn => x && !y
  | .orn => x || !y | .nand => !(x && y) | .nor => !(x || y) | .xnor => x == y

/-- A predicate result (R376): active lanes of f, inactive ones by Z. -/
def State.predWord (s : State) (c : VCtl) (pd : PReg) (f : Nat → Bool) : Eng :=
  let a := s.arch
  let qp := a.prd c.qp
  let old := a.prd pd
  .ok (s.modCur fun k => k.setPred s.cycle pd
    (bitTab fun l => if bitAt qp l then f l else if c.z then false else bitAt old l))

def execPlog (op : PlogOp) (c : VCtl) (pd pa pb : PReg) (s : State) : Host.Outcome State Fault Refusal :=
  s.vecWord .va (.plog op c pd pa pb) (fun _ k => k) fun _ s =>
    s.predWord c pd fun l => plogBit op (bitAt (s.arch.prd pa) l) (bitAt (s.arch.prd pb) l)

/-- The source of PSET (R379). -/
def psetBit (e : VEntry) (src : PsetSrc) (l : Nat) : Bool :=
  match src with
  | .bits r => bitAt (e.scalar r) l
  | .firstReg r => decide (l < min (e.scalar r).toNat 64)
  | .firstImm n => decide (l < n.val)

def execPset (src : PsetSrc) (c : VCtl) (pd : PReg) (s : State) : Host.Outcome State Fault Refusal :=
  s.vecWord .va (.pset src c pd) (fun _ k => k) fun e s => s.predWord c pd (psetBit e src)

/-! ## VGET (R415) -/

/-- The value of VGET. -/
def vgetValue (a : Arch) (form : VGetForm) (qp : Word) : Word :=
  match form with
  | .lane va l ty =>
    let x : W32 := match va with | .v r => laneAt (a.vrd r) l.val | .s r => (a.rd r).setWidth 32
    if ty == .i32 then x.signExtend 64 else x.setWidth 64
  | .first => BitVec.ofNat 64 (((List.range 64).find? fun l => bitAt qp l).getD 64)
  | .count => BitVec.ofNat 64 (activeLanes qp).length

/-- VGET at SQ: it stalls until VA has retired every earlier entry, and sd is written. -/
def execVget (form : VGetForm) (c : VCtl) (sd : SReg) (s : State) : Host.Outcome State Fault Refusal :=
  let i : Instr := .vget form c sd
  let u := Machine.Instr.vuse i
  let a := (s.arch).payOwed 2
  let old := a.vl.any fun x => conflicts u (Machine.Instr.vuse x.instr)
  let hit (g : Nat) : Bool := u.vreads.any fun r => r.val == g / 64
  s.run (guard (!s.inHandler) cIllegalOp a.word
    (match s.undeclared u.vregs with
     | some r => .raise cIllegalOperand (BitVec.ofNat 64 r.val)
     | none =>
       waitFor (s.cur.free (sd :: u.scal)) .inFlight
        (waitFor (a.va.isEmpty && !old && a.slipOk) .interlock
         (waitFor ((kfind a.owed 2).isNone && a.tokReady (Chan.code c.pop)) .token
          (match s.fatalAt s.focus .vrf hit with
           | some g => .ok (s.lostReg .vrf g)
           | none =>
             let s := (s.correct s.focus .vrf hit 0).setArch { a with vnum := a.vnum + 1, seq := a.seq + 1 }
             let s := s.modCur fun k => (k.trace s.cycle 4 2 1 a.word).trace s.cycle 5 2 (a.sect % 2 ^ 24) a.word
             let s := s.modArch fun a =>
               let a := (a.popTok (Chan.code c.pop)).wr sd (vgetValue a form (a.prd c.qp))
               if a.tokRoom (Chan.code c.push) then a.pushTok (Chan.code c.push)
               else { a with owed := kset a.owed 2 (Chan.code c.push) }
             .ok s.done)))))

end Sys2Proof.Machine
end

