-- ==== Sys2Proof/Machine/Dispatch.lean ====
section
/-! DEFINITION. exec: the meaning of every row of spec/opcode_table.json, one arm per constructor. -/

namespace Sys2Proof.Machine

def exec (i : Instr) (s : State) : Host.Outcome State Fault Refusal :=
  match i with
  | .nop => Sys2Proof.Machine.execNop s
  | .add sd sa src => Sys2Proof.Machine.execAdd sd sa src s
  | .sub sd sa src => Sys2Proof.Machine.execSub sd sa src s
  | .mul sd sa src => Sys2Proof.Machine.execMul sd sa src s
  | .mulh v sd sa src => Sys2Proof.Machine.execMulh v sd sa src s
  | .div v sd sa src => Sys2Proof.Machine.execDiv v sd sa src s
  | .rem v sd sa src => Sys2Proof.Machine.execRem v sd sa src s
  | .and sd sa src => Sys2Proof.Machine.execAnd sd sa src s
  | .or sd sa src => Sys2Proof.Machine.execOr sd sa src s
  | .xor sd sa src => Sys2Proof.Machine.execXor sd sa src s
  | .andn sd sa src => Sys2Proof.Machine.execAndn sd sa src s
  | .shl sd sa src => Sys2Proof.Machine.execShl sd sa src s
  | .shr sd sa src => Sys2Proof.Machine.execShr sd sa src s
  | .sra sd sa src => Sys2Proof.Machine.execSra sd sa src s
  | .clz sd sa => Sys2Proof.Machine.execClz sd sa s
  | .popc sd sa => Sys2Proof.Machine.execPopc sd sa s
  | .min v sd sa src => Sys2Proof.Machine.execMin v sd sa src s
  | .max v sd sa src => Sys2Proof.Machine.execMax v sd sa src s
  | .sel sd sa src sc => Sys2Proof.Machine.execSel sd sa src sc s
  | .cmp c sd sa src => Sys2Proof.Machine.execCmp c sd sa src s
  | .ext v sd sa lo width => Sys2Proof.Machine.execExt v sd sa lo width s
  | .ins sd sa sc lo width => Sys2Proof.Machine.execIns sd sa sc lo width s
  | .hash sd sa sb sc => Sys2Proof.Machine.execHash sd sa sb sc s
  | .li sd v => Sys2Proof.Machine.execLi sd v s
  | .br c sa b off => Sys2Proof.Machine.execBr c sa b off s
  | .jmp t => Sys2Proof.Machine.execJmp t s
  | .call t => Sys2Proof.Machine.execCall t s
  | .loop sa off => Sys2Proof.Machine.execLoop sa off s
  | .sectionHeader h => Sys2Proof.Machine.execSectionHeader h s
  | .ld sz sx at_ sd sa off => Sys2Proof.Machine.execLd sz sx at_ sd sa off s
  | .st sz at_ sa off sd => Sys2Proof.Machine.execSt sz at_ sa off sd s
  | .amo op sz sx at_ sd sa off sb => Sys2Proof.Machine.execAmo op sz sx at_ sd sa off sb s
  | .cas sz sx at_ sd sa off sb => Sys2Proof.Machine.execCas sz sx at_ sd sa off sb s
  | .ldfe sx sd sa off => Sys2Proof.Machine.execLdfe sx sd sa off s
  | .ldff sx sd sa off => Sys2Proof.Machine.execLdff sx sd sa off s
  | .stef sa off sd => Sys2Proof.Machine.execStef sa off sd s
  | .stff sa off sd => Sys2Proof.Machine.execStff sa off sd s
  | .feclr sa off => Sys2Proof.Machine.execFeclr sa off s
  | .cpgo chan tpl sa sb => Sys2Proof.Machine.execCpgo chan tpl sa sb s
  | .splook sd sa off => Sys2Proof.Machine.execSplook sd sa off s
  | .spfill hint oc sa off sd => Sys2Proof.Machine.execSpfill hint oc sa off sd s
  | .spevictWb sa off => Sys2Proof.Machine.execSpevictWb sa off s
  | .spevictDrop sa off => Sys2Proof.Machine.execSpevictDrop sa off s
  | .sppin sa off => Sys2Proof.Machine.execSppin sa off s
  | .sppinUn sa off => Sys2Proof.Machine.execSppinUn sa off s
  | .wenq oc hint sa off sd sb => Sys2Proof.Machine.execWenq oc hint sa off sd sb s
  | .pref hint oc sa off => Sys2Proof.Machine.execPref hint oc sa off s
  | .vld e c vd sa off => Sys2Proof.Machine.execVld e c vd sa off s
  | .vlds e c vd sa off sb => Sys2Proof.Machine.execVlds e c vd sa off sb s
  | .vldx e c vd sa off vx => Sys2Proof.Machine.execVldx e c vd sa off vx s
  | .vldb e c vd sa off => Sys2Proof.Machine.execVldb e c vd sa off s
  | .vldt col q c vd sa off sb => Sys2Proof.Machine.execVldt col q c vd sa off sb s
  | .vaccr col tile c vd sa off => Sys2Proof.Machine.execVaccr col tile c vd sa off s
  | .vadd ty rm c vd va vb => Sys2Proof.Machine.execVadd ty rm c vd va vb s
  | .vsub ty rm c vd va vb => Sys2Proof.Machine.execVsub ty rm c vd va vb s
  | .vmul ty rm c vd va vb => Sys2Proof.Machine.execVmul ty rm c vd va vb s
  | .vfma ty rm c vd va vb vc => Sys2Proof.Machine.execVfma ty rm c vd va vb vc s
  | .vmin ty c vd va vb => Sys2Proof.Machine.execVmin ty c vd va vb s
  | .vmax ty c vd va vb => Sys2Proof.Machine.execVmax ty c vd va vb s
  | .vabs ty c vd va => Sys2Proof.Machine.execVabs ty c vd va s
  | .vand ty c vd va vb => Sys2Proof.Machine.execVand ty c vd va vb s
  | .vor ty c vd va vb => Sys2Proof.Machine.execVor ty c vd va vb s
  | .vxor ty c vd va vb => Sys2Proof.Machine.execVxor ty c vd va vb s
  | .vshl ty c vd va vb => Sys2Proof.Machine.execVshl ty c vd va vb s
  | .vshr ty c vd va vb => Sys2Proof.Machine.execVshr ty c vd va vb s
  | .vsra ty c vd va vb => Sys2Proof.Machine.execVsra ty c vd va vb s
  | .vcmp ty cond ct c pd1 pd2 va vb => Sys2Proof.Machine.execVcmp ty cond ct c pd1 pd2 va vb s
  | .vsel ty c vd ps va vb => Sys2Proof.Machine.execVsel ty c vd ps va vb s
  | .vmov ty c vd va => Sys2Proof.Machine.execVmov ty c vd va s
  | .vcvt src dst rm c vd va vb vc => Sys2Proof.Machine.execVcvt src dst rm c vd va vb vc s
  | .vred ty op rm c vd va => Sys2Proof.Machine.execVred ty op rm c vd va s
  | .vperm ty c vd va vb => Sys2Proof.Machine.execVperm ty c vd va vb s
  | .vslide dn ty c vd va vb k => Sys2Proof.Machine.execVslide dn ty c vd va vb k s
  | .viota ty c vd va step => Sys2Proof.Machine.execViota ty c vd va step s
  | .vdiv c vd va vb => Sys2Proof.Machine.execVdiv c vd va vb s
  | .vsqrt c vd va => Sys2Proof.Machine.execVsqrt c vd va s
  | .vexp2 c vd va => Sys2Proof.Machine.execVexp2 c vd va s
  | .vlog2 c vd va => Sys2Proof.Machine.execVlog2 c vd va s
  | .vget form c sd => Sys2Proof.Machine.execVget form c sd s
  | .plog op c pd pa pb => Sys2Proof.Machine.execPlog op c pd pa pb s
  | .pset src c pd => Sys2Proof.Machine.execPset src c pd s
  | .vhash ty c vd va vb vc => Sys2Proof.Machine.execVhash ty c vd va vb vc s
  | .vst e c vs sa off => Sys2Proof.Machine.execVst e c vs sa off s
  | .vsts e c vs sa off sb => Sys2Proof.Machine.execVsts e c vs sa off sb s
  | .vstx e c vs sa off vx => Sys2Proof.Machine.execVstx e c vs sa off vx s
  | .vaccw col tile c vs sa off => Sys2Proof.Machine.execVaccw col tile c vs sa off s
  | .vstc e c vs sa off => Sys2Proof.Machine.execVstc e c vs sa off s
  | .ecgo eng sd sa => Sys2Proof.Machine.execEcgo eng sd sa s
  | .mxw sa slot => Sys2Proof.Machine.execMxw sa slot s
  | .mxgo sd => Sys2Proof.Machine.execMxgo sd s
  | .cptpl tpl sa => Sys2Proof.Machine.execCptpl tpl sa s
  | .pubv sd region n final => Sys2Proof.Machine.execPubv sd region n final s
  | .refstop sd region => Sys2Proof.Machine.execRefstop sd region s
  | .verget sd region => Sys2Proof.Machine.execVerget sd region s
  | .trap imm => Sys2Proof.Machine.execTrap imm s
  | .eret => Sys2Proof.Machine.execEret s
  | .mfs sd reg => Sys2Proof.Machine.execMfs sd reg s
  | .mts reg sa => Sys2Proof.Machine.execMts reg sa s
  | .fence scope mask => Sys2Proof.Machine.execFence scope mask s
  | .waitc ld st cp mx => Sys2Proof.Machine.execWaitc ld st cp mx s
  | .evset m => Sys2Proof.Machine.execEvset m s
  | .evclr m => Sys2Proof.Machine.execEvclr m s
  | .evwait m => Sys2Proof.Machine.execEvwait m s
  | .spawn sd t => Sys2Proof.Machine.execSpawn sd t s
  | .depdec scope t => Sys2Proof.Machine.execDepdec scope t s
  | .tend => Sys2Proof.Machine.execTend s
  | .cancel sd level id => Sys2Proof.Machine.execCancel sd level id s
  | .xsync id => Sys2Proof.Machine.execXsync id s
  | .xmc sa off sb sc => Sys2Proof.Machine.execXmc sa off sb sc s
  | .idle => Sys2Proof.Machine.execIdle s
  | .trig => Sys2Proof.Machine.execTrig s
  | .stepBegin k => Sys2Proof.Machine.execStepBegin k s
  | .stepCommit k => Sys2Proof.Machine.execStepCommit k s
  | .stepAbort k => Sys2Proof.Machine.execStepAbort k s
  | .halt => Sys2Proof.Machine.execHalt s
  | .unpin sd n => Sys2Proof.Machine.execUnpin sd n s
  | .mma h m => Sys2Proof.Machine.execMma h m s
  | .drain h d => Sys2Proof.Machine.execDrain h d s
  | .zacc h tile => Sys2Proof.Machine.execZacc h tile s
  | .twfill h t => Sys2Proof.Machine.execTwfill h t s
  | .kat h k => Sys2Proof.Machine.execKat h k s
  | .nmatt h a => Sys2Proof.Machine.execNmatt h a s
  | .nmopt h o => Sys2Proof.Machine.execNmopt h o s
  | .nmxg h x => Sys2Proof.Machine.execNmxg h x s
  | .crs h c => Sys2Proof.Machine.execCrs h c s
  | .cag h c => Sys2Proof.Machine.execCag h c s
  | .car h c => Sys2Proof.Machine.execCar h c s
  | .nmuCompletion nmu => Sys2Proof.Machine.execNmuCompletion nmu s
  | .openRowAccess nmu write pa value => Sys2Proof.Machine.execOpenRowAccess nmu write pa value s
  | .collectiveStepAck tag => Sys2Proof.Machine.execCollectiveStepAck tag s
  | .collectiveStepTimeout tag => Sys2Proof.Machine.execCollectiveStepTimeout tag s
  | .safetyNetRelease core => Sys2Proof.Machine.execSafetyNetRelease core s
  | .xmcDelivery die index => Sys2Proof.Machine.execXmcDelivery die index s
  | .xsyncBarrier job => Sys2Proof.Machine.execXsyncBarrier job s
  | .globalLoadReturn core index => Sys2Proof.Machine.execGlobalLoadReturn core index s
  | .copySectorCounted core chan => Sys2Proof.Machine.execCopySectorCounted core chan s
  | .pageFillComplete core page => Sys2Proof.Machine.execPageFillComplete core page s
  | .tableWalk core va acc => Sys2Proof.Machine.execTableWalk core va acc s
  | .taskCommit core => Sys2Proof.Machine.execTaskCommit core s
  | .taskDispatch die => Sys2Proof.Machine.execTaskDispatch die s
  | .taskRestore die => Sys2Proof.Machine.execTaskRestore die s
  | .preemption die => Sys2Proof.Machine.execPreemption die s
  | .sliceExpiry core => Sys2Proof.Machine.execSliceExpiry core s
  | .taskAgeing die => Sys2Proof.Machine.execTaskAgeing die s
  | .spillListMove die cls => Sys2Proof.Machine.execSpillListMove die cls s
  | .launchRunning job launch => Sys2Proof.Machine.execLaunchRunning job launch s
  | .phaseBegin job => Sys2Proof.Machine.execPhaseBegin job s
  | .exchangeStart job => Sys2Proof.Machine.execExchangeStart job s
  | .exchangeHoldExpiry job => Sys2Proof.Machine.execExchangeHoldExpiry job s
  | .confirmationBarrier job => Sys2Proof.Machine.execConfirmationBarrier job s
  | .coreStrikeReport zone core t => Sys2Proof.Machine.execCoreStrikeReport zone core t s
  | .matrixStrikeReport core t => Sys2Proof.Machine.execMatrixStrikeReport core t s
  | .safetyNetStrike cluster t => Sys2Proof.Machine.execSafetyNetStrike cluster t s
  | .l2Strike slice t => Sys2Proof.Machine.execL2Strike slice t s
  | .nmuStrike nmu t => Sys2Proof.Machine.execNmuStrike nmu t s
  | .routerStrike port t => Sys2Proof.Machine.execRouterStrike port t s
  | .queueDeadlock core => Sys2Proof.Machine.execQueueDeadlock core s
  | .bankAgeLimit core bank => Sys2Proof.Machine.execBankAgeLimit core bank s
  | .mxWindowAgeOut core => Sys2Proof.Machine.execMxWindowAgeOut core s
  | .governorPromotion core => Sys2Proof.Machine.execGovernorPromotion core s
  | .scrubStep core ring => Sys2Proof.Machine.execScrubStep core ring s
  | .l2Scrub slice => Sys2Proof.Machine.execL2Scrub slice s
  | .hbmPatrol channel => Sys2Proof.Machine.execHbmPatrol channel s
  | .traceFreeze core => Sys2Proof.Machine.execTraceFreeze core s
  | .errlogRead core ring sd => Sys2Proof.Machine.execErrlogRead core ring sd s
  | .errlogClear core ring => Sys2Proof.Machine.execErrlogClear core ring s
  | .tracectlWrite core v => Sys2Proof.Machine.execTracectlWrite core v s
  | .retainWrite n word v => Sys2Proof.Machine.execRetainWrite n word v s
  | .counterClear off => Sys2Proof.Machine.execCounterClear off s
  | .degradedClear word v => Sys2Proof.Machine.execDegradedClear word v s
  | .tlbinvGo => Sys2Proof.Machine.execTlbinvGo s
  | .tlbinvDone => Sys2Proof.Machine.execTlbinvDone s
  | .resumeWrite die va => Sys2Proof.Machine.execResumeWrite die va s
  | .pfConsumerIndexWrite die v => Sys2Proof.Machine.execPfConsumerIndexWrite die v s
  | .mgmtRegisterWrite off v => Sys2Proof.Machine.execMgmtRegisterWrite off v s
  | .jobOpen seq desc => Sys2Proof.Machine.execJobOpen seq desc s
  | .launchSubmit seq job va => Sys2Proof.Machine.execLaunchSubmit seq job va s
  | .graphSubmit seq job va => Sys2Proof.Machine.execGraphSubmit seq job va s
  | .hostCancel seq job level id => Sys2Proof.Machine.execHostCancel seq job level id s
  | .hostRefstop seq job region => Sys2Proof.Machine.execHostRefstop seq job region s
  | .memoryWrite seq pa bytes => Sys2Proof.Machine.execMemoryWrite seq pa bytes s
  | .memoryRead seq pa n => Sys2Proof.Machine.execMemoryRead seq pa n s
  | .resynchroniseRequest seq dh => Sys2Proof.Machine.execResynchroniseRequest seq dh s
  | .attestationRequest seq nonce => Sys2Proof.Machine.execAttestationRequest seq nonce s
  | .unknownMessage seq type => Sys2Proof.Machine.execUnknownMessage seq type s
  | .flitReceive port bytes => Sys2Proof.Machine.execFlitReceive port bytes s
  | .linkReplayRequest port seq => Sys2Proof.Machine.execLinkReplayRequest port seq s
  | .linkSignalChange port signal => Sys2Proof.Machine.execLinkSignalChange port signal s
  | .linkTrainingComplete port => Sys2Proof.Machine.execLinkTrainingComplete port s
  | .deviceLost port => Sys2Proof.Machine.execDeviceLost port s
  | .lossNotice x y z => Sys2Proof.Machine.execLossNotice x y z s
  | .firmwareBoot img => Sys2Proof.Machine.execFirmwareBoot img s
  | .powerStateEntry => Sys2Proof.Machine.execPowerStateEntry s
  | .wake => Sys2Proof.Machine.execWake s
  | .governorBudgetRenewal die => Sys2Proof.Machine.execGovernorBudgetRenewal die s

end Sys2Proof.Machine
end

