-- ==== Sys2Proof/Machine/Turn.lean ====
section
/-!
DEFINITION. A turn of the schedule: SQ fetches, decodes and executes its next word (spec/03 R49-R54, spec/11 R253, R254, R259), an
engine takes the entry at its head (R56), or an event of the part happens (spec/95); what every turn settles after it; and the order of turns
within a cycle (R62, R258, spec/08 R199, spec/09 R202).
-/

namespace Sys2Proof.Machine

/-! ## SQ -/

/-- A word that a handler may not hold (R254), by its class and opcode. -/
def handlerBad (w : Nat) : Bool :=
  let c := w / 2 ^ 29 % 8
  let op := w / 2 ^ 21 % 256
  decide (2 ≤ c ∧ c ≤ 5) || c == 7 || (c == 1 && ((decide (0x09 ≤ op) && decide (op ≤ 0x0C)) || op == 0x0E)) ||
    (c == 6 && ((decide (0x09 ≤ op) && decide (op ≤ 0x0E)) || op == 0x11))

/-- The cause of a parcel that does not decode (R52, R289, R296); TRAPINFO as log entry 10 says (DESIGN CHOICE). -/
def decodeCause (a : Word) : DecErr → Nat × Word
  | .illegalOp => (cIllegalOp, a)
  | .illegalField b => (cIllegalField, BitVec.ofNat 64 b)
  | .illegalOperand v => (cIllegalOperand, BitVec.ofNat 64 v)
  | .header => (cStreamFault, a)

/-- The opcode of a word of class SM or SY for the handler's check; class VL, VA, VS and EC have none to check. -/
def State.raiseAt (s : State) (cause : Nat) (info : Word) : Host.Outcome State Fault Refusal :=
  s.run (.raise cause info)

/-- The item at a: its first n bytes, or the end of the task that the fetch brings (R49). -/
def State.fetched (s : State) (a : Word) (n : Nat) (f : State → Nat → Host.Outcome State Fault Refusal) :
    Host.Outcome State Fault Refusal :=
  if windowOf a ≠ .glob then s.raiseAt cWindowFault a
  else match s.fetchBytes (offsetOf a) n with
    | (s', .error e) => s.sealed (s'.finish (s'.xlFail 2 e))
    | (s', .ok bs) => f { s' with regs := s.regs } (leNat bs)

/-- The word at a is the one that TRACETRIG names (R259). -/
def Core.matchesTrig (k : Core) (a : Word) : Bool := k.tracetrig.field 0 48 = a.field 0 48

/-- The code words that are read with a turn are met first (spec/10 R232); then go on. -/
def State.meet (s : State) (hit : Nat → Bool) (go : State → Host.Outcome State Fault Refusal) : Host.Outcome State Fault Refusal :=
  match s.meetQueue s.focus hit with
  | (t, true) => go t
  | (t, false) => s.sealed t

/-- What SQ reads to take a word or header: the instruction buffer, and the section state where it waits or stands at a header. -/
def State.sqReads (s : State) (g : Nat) : Bool :=
  g / 128 == 10 || (g / 128 == 9 && (s.arch.atHeader || !s.arch.waits.isEmpty))

/-- What a word reads beside: the event register, the ECB build bank. -/
def Instr.reads : Instr → Nat → Bool
  | .evset _, g | .evclr _, g | .evwait _, g => g / 128 == 8
  | .mfs _ r, g | .mts r _, g => r.val == 0x030 && g / 128 == 8
  | .mxw .., g | .mxgo _, g => g / 128 == 11
  | _, _ => false

/-- A word of a body: its section's waits, the trace match, then decode and execute. BREAKPOINT, which R71 does not rank, comes before the
word is fetched, and so before every cause of its decoding and of its fetch (DESIGN CHOICE, log entry 48). -/
def State.wordTurn (s : State) : Host.Outcome State Fault Refusal :=
  let a := s.arch.word
  if !s.inHandler && !s.cur.waitsMet then s.run (.stall .secWait)
  else
    let s := (if s.inHandler then s else s.modArch fun x => { x with waits := [] }).firstWord
    let hit := s.cur.matchesTrig a
    let s := if hit && bitAt s.cur.tracectl 15 then s.setCur (s.cur.trigger s.cycle 1 a) else s
    if hit && bitAt s.cur.tracectl 11 then s.raiseAt cBreakpoint a
    else s.fetched a 4 fun s p =>
      if s.inHandler && handlerBad p then s.raiseAt cIllegalOp a
      else if p / 2 ^ 29 % 8 = 7 then s.raiseAt cStreamFault a
      else s.fetched a 12 fun s w =>
        match decode (leBytes 12 w) with
        | .ok (i, _) => s.meet (Machine.Instr.reads i) (exec i)
        | .error e => let (c, info) := decodeCause a e; s.raiseAt c info

/-- The header that must stand where a body ends, at entry, or at a transfer's target (R51, R52). -/
def State.headerTurn (s : State) : Host.Outcome State Fault Refusal :=
  let s := s.firstWord
  let a := s.arch.pc
  s.fetched a 4 fun s p =>
    if p / 2 ^ 29 % 8 = 7 then
      s.fetched a 8 fun s w =>
        match decode (leBytes 8 w) with
        | .ok (i, _) => exec i s
        | .error e => let (c, info) := decodeCause a e; s.raiseAt c info
    else s.raiseAt cStreamFault a

/-- A checkpoint request has arrived: SQ pushes nothing, and no engine starts another entry (R193). -/
def State.stopped (s : State) : Bool := match s.cur.ckpt with | some c => c.arrived s.cycle | none => false

/-- A turn of SQ. Nothing moves on an empty core, after TEND, or during a checkpoint, but for a word that has been performed in part. -/
def State.sqTurn (s : State) : Host.Outcome State Fault Refusal :=
  if s.cur.run.isNone || s.arch.ended || (s.stopped && !s.cur.begun 0) then .next s
  else s.meet s.sqReads fun s => if s.arch.atHeader && !s.inHandler then s.headerTurn else s.wordTurn

/-! ## Engines -/

/-- The token channels that an entry of a vector engine reads. -/
def Arch.vecReads (a : Arch) (q : Vq) (g : Nat) : Bool :=
  let own : List Nat := match a.vq q with
    | e :: _ => let c := Machine.Instr.vctl e.instr; [Chan.code c.pop, Chan.code c.push]
    | [] => []
  ((kfind a.owed (Vq.code q)).toList ++ own).any fun ch => ch != 0 && g == gQueue 7 ch

/-- A turn of a vector engine: the head of its queue, or a push that it owes. -/
def State.vecTurn (s : State) (q : Vq) : Host.Outcome State Fault Refusal :=
  if s.stopped && !s.cur.begun (Vq.code q) then .next s
  else s.meet (s.arch.vecReads q) fun s => match s.arch.vq q with
    | [] => .next (s.modArch (·.payOwed (Vq.code q)))
    | e :: _ => exec e.instr s

/-- What an engine reads with the head of its queue: the entry, the event register under its masks, MA. -/
def Ecb.reads (e : EcbEngine) (x : Ecb) (g : Nat) : Bool :=
  g == gQueue (ecbStructure e) 0 || (g == gQueue 8 0 && (ecbSlot x.slots 1 != 0 || ecbSlot x.slots 2 != 0)) ||
    (g == gQueue 7 6 && bitAt (ecbSlot x.slots 0) 23)

/-- A command whose fields are not those of its opcode (R110, R262, R331): what it waits for first, then ECB_ILLEGAL. -/
def State.ecbBad (s : State) (e : EcbEngine) (x : Ecb) (slot : Nat) : State :=
  match e with
  | .mx => s.mxUndecoded x slot
  | .nm => s.nmHead x fun s _ _ => s.abortCore s.focus cEcbIllegal (BitVec.ofNat 64 slot) .faulted
  | .cl =>
    if !maskMet s.arch (ecbSlot x.slots 1) then s.setStallOf 7 (some .event)
    else if s.cur.classBusy (ecbOc x) x.seq then s.setStallOf 7 (some .inFlight)
    else s.abortCore s.focus cEcbIllegal (BitVec.ofNat 64 slot) .faulted

/-- The engine of a queue takes its head, or goes on with it. -/
def State.ecbGo (s : State) (e : EcbEngine) : Host.Outcome State Fault Refusal :=
  match ecbQ s.arch e with
  | [] => .next s
  | x :: _ =>
    if x.net || (s.stopped && !x.started) then .next s
    else s.meet (x.reads e) fun s =>
      if x.owing then s.sealed s.mxOwed
      else match decodeEcb e x.slots with
        | .ok i => exec i s
        | .error n => s.sealed (s.ecbBad e x n)

/-- A head of MX or NM that waits for a bit of mask m could take its wait bits in this very cycle (R62). -/
def State.takesFirst (s : State) (e : EcbEngine) (m : Word) : Bool :=
  match ecbQ s.arch e with
  | x :: _ => !x.started && !x.owing && !x.net && (ecbSlot x.slots 1 &&& m) != 0 && (match ({ s with part := none } : State).ecbGo e with
    | .next t => (t.arch.events &&& ecbSlot x.slots 1) != (s.arch.events &&& ecbSlot x.slots 1)
    | _ => false)
  | [] => false

/-- A turn of MX, NM or CL. MX goes on with a replay first (R223). Of ECBs at the heads of different queues that can consume the same bit in one
cycle, that of the lower engine code does: NM waits for MX, CL for MX and NM (R62). -/
def State.ecbTurn (s : State) (e : EcbEngine) : Host.Outcome State Fault Refusal :=
  let m := match ecbQ s.arch e with | x :: _ => if x.started then 0 else ecbSlot x.slots 1 | [] => 0
  match e with
  | .mx => if s.cur.replay.isSome then s.sealed s.replayTurn else s.ecbGo .mx
  | .nm => if s.takesFirst .mx m then .next (s.setStallOf 6 (some .event)) else s.ecbGo .nm
  | .cl => if s.takesFirst .mx m || s.takesFirst .nm m then .next (s.setStallOf 7 (some .event)) else s.ecbGo .cl

/-- A turn of NMU n on its own account: the command of an NMU-bound task (R28), which focus names as 1,024 + n. -/
def State.nmuTurn (s : State) (n : Nat) : Host.Outcome State Fault Refusal :=
  let head : Option NmReq := match (s.nmu n).run, (s.nmu n).queue with
    | some y, _ => some y.req
    | none, q :: _ => some q
    | none, [] => none
  match head with
  | none => .next s
  | some r => match decodeEcb .nm r.slots with
    | .ok i => exec i s
    | .error k => if r.core.isNone then s.sealed (s.nmFail r cEcbIllegal (BitVec.ofNat 64 k)) else .next s

/-! ## What every turn settles -/

/-- What an agent's stall depends on: when it changes, every agent of the core looks again (R66). -/
def Core.print (k : Core) : List Nat × NSet × Word × KMap Nat × Bool :=
  ([k.arch.retired, k.arch.seq, k.pend.length, k.copies.length, k.windows.length, k.arch.nm.length, k.arch.cl.length],
    k.arch.full, k.arch.events, k.arch.tokens, k.ckpt.isSome)

/-- A stall on a token, an event, a class counter, a section wait, a full queue or a full/empty bit. -/
def Stall.counts : Stall → Bool
  | .inFlight | .done | .interlock => false
  | _ => true

/-- An engine with a non-empty queue is stalled so. -/
def Core.engStalled (k : Core) (empty : Bool) (eng : Nat) : Bool :=
  empty || (match kfind k.stalls eng with | some w => w.counts | none => false)

/-- An XMC that the occupant of core c has sent, or that is bound for the core, has not been delivered (R66). -/
def State.xmcNear (s : State) (c : Nat) (k : Core) : Bool :=
  s.xmcs.any fun x => x.targets.contains c || (match k.run with
    | some r => r.exch && x.job == r.job && x.launch == r.launch && x.die == dieOf c
    | none => false)

/-- SQ and every engine that has something to do are stalled, and nothing is in flight (R66). SQ at its TEND counts as
stalled while a queue is not empty. -/
def State.deadNow (s : State) (c : Nat) (k : Core) : Bool :=
  let a := k.arch
  k.run.isSome &&
    (if a.ended then !a.drained || !k.copies.isEmpty else match k.stallSq with | some w => w.counts | none => false) &&
    k.engStalled a.vl.isEmpty 1 && k.engStalled a.va.isEmpty 2 && k.engStalled a.vs.isEmpty 3 &&
    k.engStalled a.mx.isEmpty 4 && k.engStalled a.nm.isEmpty 6 && k.engStalled a.cl.isEmpty 7 &&
    k.pend.isEmpty && k.fills.isEmpty && k.replay.isNone && k.deliv.isEmpty && k.ckpt.isNone && k.reserved.isNone && k.killAt.isNone &&
    (k.copies.all fun x => match x.2.kind with | .copy .. => x.2.counted == x.2.expected | _ => false) &&
    !((a.nm ++ a.cl).any fun x => x.net || x.started) && !(s.net.any fun i => i.core == c) &&
    !s.xmcNear c k

/-- Keep the count of R66 for every core. -/
def State.settleDead (s0 s : State) : State :=
  { s with cores := s.cores.map fun c =>
      let k := c.2
      let k := if (s0.core c.1).print = k.print then k else { k with stallSq := none, stalls := [], deadSince := none }
      (c.1, if s.deadNow c.1 k then { k with deadSince := some (k.deadSince.getD s.cycle) }
            else { k with deadSince := none }) }

/-- After the last exchange stream's TEND the hold begins (R38). -/
def Job.holdNow (j : Job) (cycle : Nat) : Job :=
  match j.phase with
  | some p =>
    if p.part == .exchange && p.streams.all (·.ended) then { j with phase := some { p with part := .holding cycle } } else j
  | none => j

/-- An exchange stream has ended once it is past its TEND and its engines are empty (R38, R393). -/
def State.settleStreams (s : State) : State :=
  let t := s.cores.foldl (fun s c => match c.2.run with
    | some r =>
      if r.exch && c.2.arch.ended && c.2.arch.drained then
        s.modStreams r.job fun x => if x.core == c.1 && x.launch == r.launch then { x with ended := true } else x
      else s
    | none => s) s
  { t with jobs := t.jobs.map fun j => (j.1, j.2.holdNow t.cycle) }

/-- After a turn; s0 is the state before it. No register that software programs changes here. -/
def State.settle (s0 s : State) : State :=
  let t := (s.settleDev.settleCkpt).settleStreams
  { State.settleDead s0 t with regs := s.regs, atEngine := false, part := none, focus := if s.focus < 1024 then s.focus else s0.focus }

/-! ## A turn -/

/-- The core that a turn names. -/
def Who.core : Who → Nat
  | .sq c | .vl c | .va c | .vs c | .mx c | .nm c | .cl c => c
  | .nmu n => if n < 512 then 0 else 1024
  | .event _ => 0

def State.at_ (s : State) (c : Nat) (eng : Bool) : State := { s with focus := c, atEngine := eng }

/-- Who moves. A row of the table that is no event does not happen by itself. -/
def State.act (s : State) : Who → Host.Outcome State Fault Refusal
  | .sq c => (s.at_ c false).sqTurn
  | .vl c => (s.at_ c true).vecTurn .vl
  | .va c => (s.at_ c true).vecTurn .va
  | .vs c => (s.at_ c true).vecTurn .vs
  | .mx c => (s.at_ c true).ecbTurn .mx
  | .nm c => (s.at_ c true).ecbTurn .nm
  | .cl c => (s.at_ c true).ecbTurn .cl
  | .nmu n => (s.at_ (1024 + n) true).nmuTurn n
  | .event i => if i.isEvent then exec i s else .next s

/-! ### Wide writes of the scratchpad, word by word (R58, R158) -/

/-- The core that an agent writes in, and the key under which the words stand that its present entry has written ahead of the rest: its engine
code for VL, VS and MX, 0 for SQ, 16 + the channel, 64 + the page. -/
def Who.writer : Who → Option (Nat × Nat)
  | .sq c => some (c, 0) | .vl c => some (c, 1) | .vs c => some (c, 3) | .mx c => some (c, 4)
  | .event (.copySectorCounted c n) => some (c.val, 16 + n.val)
  | .event (.pageFillComplete c p) => some (c.val, 64 + p.val)
  | _ => none

/-- What an agent is at: it changes when the entry, sector or fill has been performed. -/
def Core.ident (k : Core) (key : Nat) : List Nat :=
  let a := k.arch
  if key = 0 then [a.retired]
  else if key = 1 then (match a.vl with | e :: _ => [e.seq] | [] => [])
  else if key = 3 then (match a.vs with | e :: _ => [e.seq] | [] => [])
  else if key = 4 then (match a.mx with | x :: _ => [x.seq, x.owing.toNat] | [] => [])
  else if key < 64 then (match kfind k.copies (key - 16) with | some c => [c.seq, c.next] | none => [])
  else [(k.fills.contains (key - 64)).toNat, match kfind a.pages (key - 64) with | some p => p.res.toNat | none => 2]

/-- A partial turn: of what the whole turn makes of s, which is t, the words p of the scratchpad come now and the rest later. -/
def State.keepEarly (s t : State) (c key : Nat) (p : NSet) : State :=
  if (t.core c).run ≠ (s.core c).run ∨ (t.core c).ident key = (s.core c).ident key then s
  else s.modCore c (·.takeEarly (t.core c) key p)

/-- The rest of an entry whose words have come in part: those that came early stand as they were, and what it had latched is used up. -/
def State.keepRest (s t : State) (c key : Nat) : State :=
  if !(s.core c).begun key ∨ (t.core c).run ≠ (s.core c).run ∨ (t.core c).ident key = (s.core c).ident key then t
  else t.modCore c fun k =>
    { k with
      arch := (kget (s.core c).early key []).foldl (fun (a : Arch) w => a.spRaw (4 * w) ((s.core c).arch.spWord w)) k.arch,
      early := kdel k.early key, latched := kdel k.latched key }

/-- VL reads the words p ahead of the rest of its head (R58): the head has its token, and no older entry has still to write what selects or
addresses its lanes. It need not be free to write its destination. -/
def State.vlEarly (s : State) (c : Nat) (p : NSet) : State :=
  let k := s.core c
  match k.arch.vl with
  | [] => s
  | e :: _ =>
    if (kfind k.arch.owed 1).isSome || !k.arch.tokReady (Chan.code (Machine.Instr.vctl e.instr).pop) || k.needs .vl e ||
        (s.at_ c true).stopped && !k.begun 1 then s
    else match s.touch c e.seq (p.map fun w => (4 * w, 4)) true false with
      | .ready s => s.modCore c (·.latchWords 1 p)
      | .wait s => s
      | .lost s d loc => s.lostWord c d loc

/-- MX in a partial turn, after which t stands and u were the whole of it: it has started its head; the words p that the command writes come now,
and those that it does not are read now. -/
def State.mxEarly (t u : State) (c : Nat) (p : NSet) : State :=
  let runs : Bool := match (t.core c).arch.mx with | x :: _ => x.started && !x.owing | [] => false
  let same (w : Nat) : Bool := (u.core c).arch.spWord w == (t.core c).arch.spWord w
  if !runs ∨ (u.core c).ident 4 = (t.core c).ident 4 then t
  else (t.keepEarly u c 4 p).modCore c (·.latchWords 4 (p.filter same))

/-- A copy in a partial turn: of a scratchpad-to-global sector the words are read now, of another written now (R58). -/
def State.copyEarly (s t : State) (c key : Nat) (p : NSet) : State :=
  match kfind (s.core c).copies (key - 16) with
  | some { kind := .copy u _ _, .. } =>
    if tplDir u = 1 then
      (if (t.core c).run ≠ (s.core c).run ∨ (t.core c).ident key = (s.core c).ident key then s else s.modCore c (·.latchWords key p))
    else s.keepEarly t c key p
  | _ => s.keepEarly t c key p

/-- The requesters of R64's table that an agent with key is. -/
def requestersOf (key : Nat) : List Nat :=
  if key = 0 then [0] else if key = 1 then [1] else if key = 3 then [6] else if key = 4 then [3, 7] else [2]

/-- Bank arbitration after a turn: an engine that has had its access was granted it (R65). -/
def State.arbitrated (s t : State) (c key dt : Nat) : State :=
  if (t.core c).run ≠ (s.core c).run ∨ (t.core c).ident key = (s.core c).ident key then t else t.granted s c (requestersOf key) dt

/-- After a turn of an NMU or a delivery, every core that results or words have reached. -/
def State.delivered (s t : State) (dt : Nat) : State :=
  (s.nmus.filterMap fun n => match n.2.run with | some y => y.req.core | none => none).foldl (fun (t : State) c =>
    if (t.nmWants c).length < (s.nmWants c).length then t.granted s c [4] dt else t)
    ((s.xmcs.flatMap (·.targets)).foldl (fun (t : State) c =>
      if (t.wants c 5).length < (s.wants c 5).length then t.granted s c [5] dt else t) t)

/-- What an agent's turn comes to where it reads or writes a scratchpad: all of it, or the words of a partial turn. MX performs the partial turn
in two steps, and SQ within its word. -/
def State.wide (s t : State) (x : Turn) : State :=
  match x.who.writer, x.part with
  | none, _ => s.delivered t x.dt
  | some (c, key), none => s.arbitrated (s.keepRest t c key) c key x.dt
  | some (c, key), some p =>
    if key = 0 then t
    else if key = 1 then s.vlEarly c p
    else if key = 4 then (match ({ t with part := none } : State).act (.mx c) with | .next u => t.mxEarly u c p | _ => t)
    else if key < 64 ∧ 16 ≤ key then s.copyEarly t c key p
    else s.keepEarly t c key p

/-- The part of a turn that its instruction sees: sectors of memory (R169, R172), or the words of SQ and MX. -/
def Turn.sectors (x : Turn) : Option NSet :=
  match x.who with
  | .sq _ | .mx _ => x.part
  | w => if w.writer.isSome then none else x.part

/-- An agent that loses the arbitration to a requester at AGE_LIMIT does not move (R65). -/
def State.losesTurn (s : State) (x : Turn) : Option State :=
  match x.who.writer with
  | some (c, key) => if s.yields c (requestersOf key) then some (s.loses c (requestersOf key) x.dt) else none
  | none => none

/-- One turn of the schedule. -/
def State.turn (s : State) (x : Turn) : Host.Outcome State Fault Refusal :=
  match s.losesTurn x with
  | some t => .next (State.settle s t)
  | none => match ({ s with part := x.sectors } : State).act x.who with
    | .next t => .next (State.settle s (s.wide t x))
    | .fault f => .fault f
    | .refused r => .refused r

/-! ## The order of the turns of one cycle -/

/-- The rank of an item of the Safety Net: CANCEL first (R199); PUBV, then REFSTOP, by die and core (R202). -/
def SnItem.rank (i : SnItem) : Nat :=
  match i.body with
  | .cancel .. => 0
  | .pubv .. => 2 * 1024 + i.core
  | .refstop .. => 3 * 1024 + i.core
  | _ => 5 * 1024

/-- The rank of an event among those of one cycle: CANCEL, strikes, publications, the host's REFSTOP, other answers, CP, the end of NM and CL
commands, launch faults at a TEND, pre-emption, the rest (R62, R199, R202, R212). -/
def State.eventRank (s : State) : Instr → Nat
  | .hostCancel .. => 0
  | .queueDeadlock .. | .scrubStep .. | .l2Scrub .. | .hbmPatrol .. => 1024
  | .coreStrikeReport .. | .matrixStrikeReport .. | .safetyNetStrike .. | .l2Strike .. | .nmuStrike .. | .routerStrike .. => 1024
  | .safetyNetRelease c => match s.firstItem c.val with | some i => i.rank | none => 5 * 1024
  | .hostRefstop .. => 4 * 1024
  | .globalLoadReturn .. | .xmcDelivery .. => 5 * 1024
  | .copySectorCounted .. | .pageFillComplete .. => 11 * 1024
  | .nmuCompletion .. | .collectiveStepAck .. | .collectiveStepTimeout .. => 14 * 1024
  | .taskCommit .. => 15 * 1024
  | .preemption .. | .sliceExpiry .. => rPreempt
  | _ => 18 * 1024

/-- The rank of a turn: SQ, then the engines in the order of their codes (R258), an NMU, the events at their places. -/
def State.rankOf (s : State) : Who → Nat
  | .sq _ => 6 * 1024
  | .vl _ => 7 * 1024
  | .va _ => 8 * 1024
  | .vs _ => 9 * 1024
  | .mx _ => 10 * 1024
  | .nm _ => 12 * 1024
  | .cl _ => 13 * 1024
  | .nmu _ => 14 * 1024
  | .event i => s.eventRank i

/-- An event that the spec puts in one cycle, or bounds by one: its last cycle, its rank, and the event. -/
structure Due where
  by_ : Nat
  rank : Nat
  event : Instr
  deriving DecidableEq, Repr

def Due.before (a b : Due) : Bool := decide (a.by_ < b.by_) || (a.by_ == b.by_ && decide (a.rank < b.rank))

/-- The release of the first item of every core, in its first cycle (R216). -/
def State.dueReleases (s : State) : List Due :=
  (s.net.foldl (fun (a : List Due × NSet) i =>
    if a.2.contains i.core then a
    else (if h : i.core < 1024 then a.1 ++ [{ by_ := i.entered + Config.window, rank := i.rank, event := .safetyNetRelease ⟨i.core, h⟩ }]
          else a.1, nins a.2 i.core)) ([], [])).1

/-- The deliveries of released XMCs: on the issuing die 64 cycles after the release, on another die within 512 cycles of that (R170, R427). -/
def State.dueXmcs (s : State) : List Due :=
  s.xmcs.zipIdx.flatMap fun x => (List.range 8).filterMap fun d =>
    if h : d < 8 then
      if x.1.targets.any fun c => dieOf c == d then
        some { by_ := x.1.released + 64 + (if d = x.1.die then 0 else 512), rank := 5 * 1024, event := .xmcDelivery ⟨d, h⟩ x.2 }
      else none
    else none

/-- Accesses that wait for an NMU's column step, at most 44 cycles (R272). -/
def State.dueRows (s : State) : List Due :=
  s.rowWaits.map fun w => { by_ := w.arrived + 44, rank := 18 * 1024, event := .openRowAccess w.nmu w.write w.pa w.value }

/-- The event that must come first. -/
def State.due (s : State) : Option Due :=
  (s.dueReleases ++ s.dueXmcs ++ s.dueRows).foldl (fun (m : Option Due) x => match m with
    | some y => if Due.before x y then some x else some y
    | none => some x) none

/-- The head of the schedule, and what is left of it; when it is empty, SQ of focus moves after one cycle. A turn that ranks before what this
cycle has seen belongs to the next one. -/
def State.planned (s : State) : Turn × List Turn :=
  match s.agenda with
  | [] => ({ dt := 1, who := .sq s.focus }, [])
  | t :: l => (if t.dt = 0 ∧ s.rankOf t.who < s.rank then { t with dt := 1 } else t, l)

/-- The turn that comes next: the schedule's, or an event that is due before it (R6; DESIGN CHOICE, log entry 1). -/
def State.nextTurn (s : State) : Turn × List Turn :=
  let (t, l) := s.planned
  match s.due with
  | none => (t, l)
  | some d =>
    if d.by_ < s.cycle + t.dt ∨ (d.by_ = s.cycle + t.dt ∧ d.rank ≤ s.rankOf t.who) then
      ({ dt := d.by_ - s.cycle, who := .event d.event }, { t with dt := t.dt - (d.by_ - s.cycle) } :: l)
    else (t, l)

end Sys2Proof.Machine
end

