-- ==== Sys2Proof/Machine/Step.lean ====
section
/-!
DEFINITION. One step of the machine: the next turn of the schedule. And withFetchWord, a state whose next step runs one
given instruction.
-/

namespace Sys2Proof.Machine

/-- The cycles before a turn pass. -/
def State.pass (s : State) (t : Turn) (l : List Turn) : State :=
  { s with agenda := l, cycle := s.cycle + t.dt, rank := if t.dt = 0 then max s.rank (s.rankOf t.who) else s.rankOf t.who }

/-- One step: the cycles before the next turn pass, then it is taken. -/
def step (s : State) : Host.Outcome State Fault Refusal :=
  let (t, l) := s.nextTurn
  if 1024 ≤ Who.core t.who then .fault .noSuchCore else (s.pass t l).turn t

/-! ## A state that runs one instruction next (DESIGN CHOICE, log entry 26)

A program reaches a core by JOB_OPEN, LAUNCH_SUBMIT, PHASE_BEGIN, LAUNCH_RUNNING and TASK_DISPATCH. withFetchWord stands for what they
leave: job 0, launch 0 with one task, its page tables, its code, and core 0 in the middle of it. -/

def fetchRoot : Nat := 0x10000
def fetchCode : Nat := 0x20000
def fetchTcb : Nat := 0x30000

/-- A 1 GiB leaf at VA 0 with every permission; A and D are set. -/
def fetchTables (m : List Host.Cell) : List Host.Cell :=
  Memory.writes (Memory.writes m fetchRoot (bytesOf 8 (0x11000 + 1))) 0x11000 (bytesOf 8 0x47F)

/-- One task with every resource declared. -/
def fetchLaunch : Lnch :=
  { job := 0, id := 0, record := 0x40000,
    words := [1, BitVec.ofNat 64 (2 ^ 32), BitVec.ofNat 64 fetchCode, BitVec.ofNat 64 fetchTcb, 0x41000,
              BitVec.ofNat 64 (1024 * 2 ^ 48 + 64 * 2 ^ 40 + 128 * 2 ^ 32 + 32 * 2 ^ 26 + 768 * 2 ^ 16 + 1), 0x42000, 0x43000, 64,
              0xFFFFFFFF, 0, 0, 0, 0, 0, 0],
    binds := [{ first := 0, count := 1, nmus := false, target := 0, targets := 1 }], status := stRunning, cause := 0,
    committed := 0, deps := 0, graph := none, hold := none, inputs := [], bufs := [], ranges := [], pubs := [] }

def fetchTask : Task :=
  { job := 0, launch := 0, index := 0, tcb := fetchTcb, key := [], cls := 0, home := 0, quar := [], held := [], save := none,
    saveValid := false, savePa := 0, saveLen := 0, ckptAt := 0, ran := 0, reads := [], writes := [], undo := [], groups := [], pubs := [],
    refire := none, refired := false, keepSnap := false, past4 := false, fault := none, heldFor := none }

def fetchJob : Job :=
  { id := 0, desc := [0, BitVec.ofNat 64 fetchRoot, 0, 0, 0, 0x44000, 0x54000, 0x54008], next := none, tokens := 0, confirmed := none,
    phase := none, step := none, done := 0, status := stRunning, cause := 0 }

/-- Core 0 in a body at the code, or at the header that must stand there. -/
def fetchCore (k : Core) (header : Bool) (mem : List Host.Cell) (cycle : Nat) : Core :=
  { k.vacate with
    tlb := k.tlb.filter (fun (t : TlbEntry) => t.job != 0),
    run := some { exch := false, job := 0, launch := 0, index := 0, tcb := fetchTcb, code := fetchCode, entry := 0, nvec := 768,
                  ntile := 32, npage := 128, slip := 64, since := cycle, icache := mem },
    arch := { k.arch with pc := BitVec.ofNat 64 fetchCode, bodyStart := BitVec.ofNat 64 fetchCode, bodyLen := 300, atHeader := header,
                          sv := false, waits := [], ended := false, owed := [], slip := 64, seq := 1, sect := 1 } }

def fetchEcb (slots : List Word) : Ecb :=
  { slots := slots, addr := 0, sec := 1, seq := 0, seed := 0, net := false, started := false }

/-- The turn that runs an ECB image. -/
def ecbWho : EcbEngine → Who
  | .mx => .mx 0 | .nm => .nm 0 | .cl => .cl 0

/-- s with the instruction whose bits are w where the next step fetches it; more than 96 bits are an ECB image. -/
def State.withFetchWord (s : State) (nbits w : Nat) : State :=
  let eng : Option EcbEngine :=
    if nbits ≤ 96 then none else ecbEngineOf ((ecbSlot (leSlots 16 w) 0).field 0 8)
  let mem := fetchTables s.mem
  let mem := if nbits ≤ 96 then Memory.writes mem fetchCode (bytesOf 12 w) else mem
  let k := fetchCore (s.core 0) (decide (nbits ≤ 96) && w / 2 ^ 29 % 8 == 7) mem s.cycle
  let k : Core := match eng with
    | some e => { k with arch := setEcbQ k.arch e [fetchEcb (leSlots 16 w)] }
    | none => k
  { s with
    agenda := (match eng with | some e => [{ dt := 1, who := ecbWho e }] | none => []), focus := 0, atEngine := false,
    mem := mem, cores := kset s.cores 0 k, jobs := kset s.jobs 0 fetchJob,
    launches := fetchLaunch :: s.launches.filter (fun (l : Lnch) => !(l.job == 0 && l.id == 0)),
    tasks := fetchTask :: s.tasks.filter (fun (t : Task) => !(t.job == 0 && t.tcb == fetchTcb)),
    dieTlbs := kset s.dieTlbs 0 ((kget s.dieTlbs 0 []).filter fun (t : TlbEntry) => t.job != 0) }

end Sys2Proof.Machine
end

