-- ==== Sys2Proof/Machine/Etas.lean ====
section
/-!
DEFINITION. The etas assembly language, one source line at a time (spec/14 R301-R306): tokens, expressions, operands, and the word that a
mnemonic with its modifiers and operands stands for. The assembler is a tool beside the machine: no step calls it. An etas error is `none`.
-/

namespace Sys2Proof.Etas

/-! ## Tokens (R301, R302) -/

inductive Tok where
  /-- A name, with its dots: a symbol, a register, a mnemonic with its modifiers, a directive. -/
  | ident (s : String)
  | num (v : Nat)
  | sym (s : String)
  deriving DecidableEq, Repr

/-- Upper case, for the names that are case-insensitive. -/
def up (s : String) : String := String.ofList (s.toList.map Char.toUpper)

def idStart (c : Char) : Bool := c.isAlpha || c == '_'
def idChar (c : Char) : Bool := c.isAlphanum || c == '_' || c == '.'

def digitOf (c : Char) : Nat :=
  if c.isDigit then c.toNat - 48 else if 97 ≤ c.toNat then c.toNat - 87 else c.toNat - 55

/-- The digits of a base as a number; underscores stand between digits only. -/
def digits (base : Nat) : Option Nat → List Char → Option Nat
  | acc, [] => acc
  | acc, c :: cs =>
    if c == '_' then (if acc.isSome && cs != [] then digits base acc cs else none)
    else if c.isAlphanum && decide (digitOf c < base) then digits base (some (acc.getD 0 * base + digitOf c)) cs
    else none

def number (cs : List Char) : Option Nat :=
  match cs with
  | '0' :: x :: rest =>
    if x == 'x' || x == 'X' then digits 16 none rest
    else if x == 'b' || x == 'B' then digits 2 none rest
    else digits 10 none cs
  | _ => digits 10 none cs

/-- The tokens of a line up to its comment. -/
def lexGo : Nat → List Char → Option (List Tok)
  | 0, _ => some []
  | _, [] => some []
  | n + 1, c :: cs =>
    if c == ';' then some []
    else if c.isWhitespace then lexGo n cs
    else if idStart c || (c == '.' && (cs.head?.map idStart).getD false) then
      (lexGo n (cs.dropWhile idChar)).map (.ident (String.ofList (c :: cs.takeWhile idChar)) :: ·)
    else if c.isDigit then
      (number (c :: cs.takeWhile idChar)).bind fun v => (lexGo n (cs.dropWhile idChar)).map (.num v :: ·)
    else if (c == '<' || c == '>') then
      (if cs.head? == some c then (lexGo n cs.tail).map (.sym (String.ofList [c, c]) :: ·) else none)
    else if "+-*/%&|^~()[],=:".toList.contains c then (lexGo n cs).map (.sym (String.ofList [c]) :: ·)
    else none

def lex (s : String) : Option (List Tok) := lexGo (s.toList.length + 1) s.toList

/-- A name cut at its dots. -/
def dotted : List Char → List (List Char)
  | [] => [[]]
  | c :: cs =>
    if c == '.' then [] :: dotted cs
    else match dotted cs with
      | [] => [[c]]
      | p :: ps => (c :: p) :: ps

def parts (s : String) : List String := (dotted s.toList).map fun p => up (String.ofList p)

/-- Tokens cut at the commas that stand outside parentheses and brackets. -/
def commas : Nat → List Tok → List (List Tok)
  | _, [] => [[]]
  | d, t :: ts =>
    if t = .sym "," ∧ d = 0 then [] :: commas 0 ts
    else
      let d' := if t = .sym "(" ∨ t = .sym "[" then d + 1 else if t = .sym ")" ∨ t = .sym "]" then d - 1 else d
      match commas d' ts with
      | [] => [[t]]
      | p :: ps => (t :: p) :: ps

def operandsOf (ts : List Tok) : List (List Tok) := if ts.isEmpty then [] else commas 0 ts

/-! ## Registers (R303) -/

/-- A register name: its letter and number. -/
def regName (s : String) : Option (Char × Nat) :=
  if up s = "TP" then some ('s', 61) else if up s = "LK" then some ('s', 62) else if up s = "SP" then some ('s', 63)
  else match s.toList with
    | c :: d :: ds =>
      let k := c.toLower
      let max := if k == 's' then 64 else if k == 'p' then 16 else if k == 'v' then 768 else if k == 'z' then 32 else if k == 'e' then 64 else 0
      if (d :: ds).all Char.isDigit && (d != '0' || ds.isEmpty) then
        (digits 10 none (d :: ds)).bind fun n => if n < max then some (k, n) else none
      else none
    | _ => none

def reg (k : Char) (ts : List Tok) : Option Nat :=
  match ts with
  | [.ident s] => (regName s).bind fun (c, n) => if c == k then some n else none
  | _ => none

/-- The names of R72. -/
def sysRegNames : List (String × Nat) :=
  [("STATUS", 0x000), ("TRAPVEC", 0x001), ("TRAPPC", 0x002), ("TRAPCAUSE", 0x003), ("TRAPINFO", 0x004), ("TRAPSAVE", 0x005),
   ("CORE_ID", 0x010), ("TASK_PTR", 0x011), ("LAUNCH_ID", 0x012), ("JOB_ID", 0x013), ("CYCLE", 0x020), ("RETIRED", 0x021),
   ("OUTSTANDING", 0x022), ("SECTIONS", 0x023), ("EVENTS", 0x030), ("SLIP", 0x031), ("AGE_LIMIT", 0x032), ("FPFLAGS", 0x033),
   ("SEED", 0x040), ("TRACECTL", 0x050), ("TRACETRIG", 0x051), ("TRACEPTR", 0x052), ("MIXCHK", 0x060), ("SCRUB_VRF", 0x070),
   ("SCRUB_ACC", 0x071), ("SCRUB_SP", 0x072), ("SCRUB_TWA", 0x073), ("SCRUB_QUEUE", 0x074), ("ERRLOG_VRF", 0x080),
   ("ERRLOG_ACC", 0x081), ("ERRLOG_SP", 0x082), ("ERRLOG_TWA", 0x083), ("ERRLOG_QUEUE", 0x084), ("LATTOL", 0x090), ("KATCOUNT", 0x0A0)]

/-! ## Relocations that a word or a block asks for (R318) -/

inductive RelType where
  | abs64 | pcrel32 | spoff19 | tplidx8 | event6 | ztile5
  deriving DecidableEq, Repr

/-- The codes of R318. -/
def RelType.code : RelType → Nat
  | .abs64 => 1 | .pcrel32 => 2 | .spoff19 => 3 | .tplidx8 => 4 | .event6 => 5 | .ztile5 => 6

/-- A relocation of an item: its container's offset from the item, lo, and the value. -/
structure RelReq where
  type : RelType
  at_ : Nat
  lo : Nat
  symbol : String
  add : Int
  deriving DecidableEq, Repr

/-- A field of a word: its lowest bit, its width and its value. -/
structure Put where
  lo : Nat
  width : Nat
  val : Nat
  deriving DecidableEq, Repr

/-- What an operand gives its word. -/
structure Enc where
  puts : List Put
  rels : List RelReq
  deriving DecidableEq, Repr

def Enc.put (lo width val : Nat) : Enc := { puts := [{ lo := lo, width := width, val := val }], rels := [] }
def Enc.append (a b : Enc) : Enc := { puts := a.puts ++ b.puts, rels := a.rels ++ b.rels }
def Enc.none : Enc := { puts := [], rels := [] }

def Enc.word (e : Enc) : Nat := e.puts.foldl (fun w p => w + p.val % 2 ^ p.width * 2 ^ p.lo) 0

/-! ## Kinds of operand (R305) -/

/-- The kinds of operand, each with the lowest bit of its field. -/
inductive Kind where
  | s (lo : Nat) | p (lo : Nat) | v (lo : Nat) | z
  /-- A vector operand: a vector register, or a scalar register that is broadcast (R296). -/
  | spec (lo : Nat)
  /-- A scalar register as a specifier (R379). -/
  | sspec (lo : Nat)
  /-- [base], [base+expr], [base-expr]: the base's field; the offset is W[95:64]. -/
  | mem (lo : Nat)
  /-- sb, or an immediate in imm32 with I = 1 (R300). -/
  | src2
  /-- sa, or an immediate in imm32 with I = 1 (R385, R340, R334). -/
  | srcA
  /-- sb, or a 6-bit immediate in [8:3] with I = 1 (R328). -/
  | br6
  | target
  /-- A target with I = 1, or sa (R333, R355). -/
  | jump
  | imm (lo width : Nat) (min max : Int)
  /-- A template index whose container is the doubleword at word + 4 (R338, R339). -/
  | tpl (lo : Nat)
  | event | engine | sysReg
  /-- A mask of ordering classes (R159). -/
  | mask
  | lit (s : String) (lo : Nat)
  deriving DecidableEq, Repr

/-! ## The table of mnemonics -/

/-- A field that modifiers set: its lowest bit, its spellings, and whether one must be given (R304). -/
structure ModF where
  lo : Nat
  sp : List (String × Nat)
  req : Bool
  deriving DecidableEq, Repr

/-- Where a class keeps the predicate guard and the channels: nowhere, as VL and VS, or as VA. -/
inductive Vec where
  | none | mem | arith
  deriving DecidableEq, Repr

/-- A form of a mnemonic: the bits that it fixes, its modifiers and its operands in order. -/
structure Form where
  name : String
  base : Nat
  mods : List ModF
  ops : List Kind
  vec : Vec
  deriving DecidableEq, Repr

def condM (lo : Nat) : ModF :=
  ⟨lo, [("EQ", 0), ("NE", 1), ("LT", 2), ("LE", 3), ("GT", 4), ("GE", 5), ("LTU", 6), ("LEU", 7), ("GTU", 8), ("GEU", 9)], true⟩
def variantM : ModF := ⟨36, [("S", 0), ("U", 1)], false⟩
def sizeM : ModF := ⟨32, [("B", 0), ("H", 1), ("W", 2), ("D", 3)], true⟩
def sxM : ModF := ⟨34, [("SX", 1)], false⟩
def ocM : ModF := ⟨35, [("OC0", 0), ("OC1", 1), ("OC2", 2), ("OC3", 3), ("OC4", 4), ("OC5", 5), ("OC6", 6), ("OC7", 7), ("OC8", 8),
  ("OC9", 9), ("OC10", 10), ("OC11", 11), ("OC12", 12), ("OC13", 13), ("OC14", 14), ("OC15", 15)], false⟩
def scopeNames : List (String × Nat) := [("ENG", 1), ("CORE", 2), ("CL", 3), ("DIE", 4), ("DEV", 5), ("SYS", 6), ("FAB", 7)]
def scopeM (req : Bool) : ModF := ⟨39, scopeNames, req⟩
def amoM : ModF := ⟨42, [("ADD", 0), ("AND", 1), ("OR", 2), ("XOR", 3), ("MIN", 4), ("MAX", 5), ("MINU", 6), ("MAXU", 7), ("SWAP", 8)], true⟩
def strongM : ModF := ⟨46, [("STRONG", 1)], false⟩
def hintM : ModF := ⟨47, [("EF", 1), ("NA", 2), ("BY", 3), ("RT", 4)], false⟩
def elemM (req : Bool) : ModF := ⟨49, [("B", 0), ("H", 1), ("W", 2)], req⟩
def twaDirM : ModF := ⟨57, [("TR", 0), ("TC", 1)], true⟩
def accDirM : ModF := ⟨57, [("AR", 2), ("AC", 3)], true⟩
def laneM (req : Bool) : ModF := ⟨2, [("F32", 0), ("I32", 1), ("U32", 2)], req⟩
def rndM : ModF := ⟨65, [("RNE", 0), ("RTZ", 1), ("RDN", 2), ("RUP", 3), ("RNA", 4), ("SR", 5)], false⟩
def zM (lo : Nat) : ModF := ⟨lo, [("Z", 1)], false⟩
def ctypeM : ModF := ⟨78, [("NEW", 0), ("ALL", 1), ("ANY", 2), ("PAR", 3), ("EDGE", 4), ("DROP", 5), ("HIST", 6), ("SPLIT", 7)], false⟩
def fmtM (lo : Nat) : ModF := ⟨lo, [("F32", 0), ("BF16", 1), ("F16", 2), ("E4M3", 3), ("E5M2", 4), ("E2M3", 5), ("E3M2", 6), ("E2M1", 7),
  ("MXI4", 8), ("MXI6", 9), ("MXI8", 10), ("I32", 11), ("U32", 12)], true⟩
def subM (lo : Nat) (sp : List (String × Nat)) (req : Bool) : ModF := ⟨lo, sp, req⟩

def word (cls op : Nat) : Nat := cls * 2 ^ 29 + op * 2 ^ 21

def saF (n : String) (op : Nat) (m : List ModF) (k : List Kind) : Form := ⟨n, word 0 op, m, k, .none⟩
def smF (n : String) (op : Nat) (m : List ModF) (k : List Kind) : Form := ⟨n, word 1 op, m, k, .none⟩
def vlF (n : String) (op : Nat) (m : List ModF) (k : List Kind) : Form := ⟨n, word 2 op, m ++ [zM 0], k, .mem⟩
def vaF (n : String) (op : Nat) (m : List ModF) (k : List Kind) : Form := ⟨n, word 3 op, m, k, .arith⟩
def vsF (n : String) (op : Nat) (m : List ModF) (k : List Kind) : Form := ⟨n, word 4 op, m, k, .mem⟩
def ecF (n : String) (op : Nat) (k : List Kind) : Form := ⟨n, word 5 op, [], k, .none⟩
def syF (n : String) (op : Nat) (m : List ModF) (k : List Kind) : Form := ⟨n, word 6 op, m, k, .none⟩

def alu : List Kind := [.s 15, .s 9, .src2]

/-- Classes SA and the aliases that are SA words (R300, R306). -/
def saForms : List Form :=
  [saF "NOP" 0x00 [] [], saF "ADD" 0x01 [] alu, saF "SUB" 0x02 [] alu, saF "MUL" 0x03 [] alu, saF "MULH" 0x04 [variantM] alu,
   saF "DIV" 0x05 [variantM] alu, saF "REM" 0x06 [variantM] alu, saF "AND" 0x07 [] alu, saF "OR" 0x08 [] alu, saF "XOR" 0x09 [] alu,
   saF "ANDN" 0x0A [] alu, saF "SHL" 0x0B [] alu, saF "SHR" 0x0C [] alu, saF "SRA" 0x0D [] alu, saF "CLZ" 0x0E [] [.s 15, .s 9],
   saF "POPC" 0x0F [] [.s 15, .s 9], saF "MIN" 0x10 [variantM] alu, saF "MAX" 0x11 [variantM] alu,
   saF "SEL" 0x12 [] (alu ++ [.s 40]), saF "CMP" 0x13 [condM 32] alu] ++
  [⟨"EXT", word 0 0x14 + 4, [variantM], [.s 15, .s 9, .imm 64 6 0 63, .imm 70 7 0 127], .none⟩,
   ⟨"INS", word 0 0x15 + 4, [], [.s 15, .s 9, .s 40, .imm 64 6 0 63, .imm 70 7 0 127], .none⟩,
   saF "HASH" 0x16 [] [.s 15, .s 9, .s 3, .s 40], saF "LI" 0x17 [] [.s 15, .imm 32 64 (-(2 ^ 63)) (2 ^ 63 - 1)],
   saF "BR" 0x20 [condM 32] [.s 9, .br6, .target], saF "JMP" 0x21 [] [.jump], saF "CALL" 0x22 [] [.jump],
   saF "LOOP" 0x23 [] [.s 9, .target]] ++
  [saF "MOV" 0x08 [] [.s 15, .s 9], saF "NEG" 0x02 [] [.s 15, .s 3],
   ⟨"NOT", word 0 0x09 + 4 + 0xFFFFFFFF * 2 ^ 64, [], [.s 15, .s 9], .none⟩,
   ⟨"LI32", word 0 0x01 + 4, [], [.s 15, .imm 64 32 (-(2 ^ 31)) (2 ^ 31 - 1)], .none⟩,
   ⟨"RET", word 0 0x21 + 62 * 2 ^ 9, [], [], .none⟩, ⟨"B", word 0 0x21 + 4, [], [.target], .none⟩]

def memMods : List ModF := [ocM, scopeM false, hintM, strongM]

/-- Class SM (R324, R335, R338, R350, R357-R360, R378, R387, R389, R424). -/
def smForms : List Form :=
  [smF "LD" 0x00 (sizeM :: sxM :: memMods) [.s 15, .mem 9], smF "ST" 0x01 (sizeM :: memMods) [.mem 9, .s 15],
   smF "AMO" 0x02 (amoM :: sizeM :: sxM :: memMods) [.s 15, .mem 9, .s 3], smF "CAS" 0x03 (sizeM :: sxM :: memMods) [.s 15, .mem 9, .s 3],
   smF "LDFE" 0x04 [sizeM, sxM] [.s 15, .mem 9], smF "LDFF" 0x05 [sizeM, sxM] [.s 15, .mem 9], smF "STEF" 0x06 [sizeM] [.mem 9, .s 15],
   smF "STFF" 0x07 [sizeM] [.mem 9, .s 15], smF "FECLR" 0x08 [sizeM] [.mem 9], smF "CPGO" 0x09 [] [.imm 72 3 0 7, .tpl 64, .s 9, .s 3],
   smF "SPLOOK" 0x0A [] [.s 15, .mem 9], smF "SPFILL" 0x0B [hintM, ocM] [.mem 9, .s 15],
   smF "SPEVICT" 0x0C [subM 42 [("WB", 0), ("DROP", 1)] true] [.mem 9], smF "SPPIN" 0x0D [subM 42 [("UN", 1)] false] [.mem 9],
   smF "WENQ" 0x0E [ocM, hintM] [.mem 9, .s 15, .s 3], smF "PREF" 0x0F [hintM, ocM] [.mem 9]]

/-- Classes VL and VS (R405, R409). -/
def memForms : List Form :=
  [vlF "VLD" 0x00 [elemM true] [.v 11, .mem 5], vlF "VLDS" 0x01 [elemM true] [.v 11, .mem 5, .s 43],
   vlF "VLDX" 0x02 [elemM true] [.v 11, .mem 5, .spec 32], vlF "VLDB" 0x03 [elemM true] [.v 11, .mem 5],
   vlF "VLDT" 0x04 [twaDirM, elemM false] [.v 11, .mem 5, .s 43, .imm 59 2 0 3],
   vlF "VACCR" 0x05 [elemM true, accDirM] [.v 11, .z, .mem 5],
   vsF "VST" 0x00 [elemM true] [.mem 5, .v 11], vsF "VSTS" 0x01 [elemM true] [.mem 5, .v 11, .s 43],
   vsF "VSTX" 0x02 [elemM true] [.mem 5, .v 11, .spec 32], vsF "VACCW" 0x03 [elemM true, accDirM] [.z, .mem 5, .v 11],
   vsF "VSTC" 0x04 [elemM true] [.mem 5, .v 11]]

def v1 : List Kind := [.v 11, .spec 32]
def v2 : List Kind := [.v 11, .spec 32, .spec 43]
def v3 : List Kind := [.v 11, .spec 32, .spec 43, .spec 54]
def laneZ : List ModF := [laneM true, zM 6]
def laneRZ : List ModF := [laneM true, rndM, zM 6]
/-- The words whose lane type has no effect write it or leave it out (DEDUCED, log entry 55). -/
def anyZ : List ModF := [laneM false, zM 6]

/-- Class VA (R376, R379, R403, R412-R421). -/
def vaForms : List Form :=
  [vaF "VADD" 0x00 laneRZ v2, vaF "VSUB" 0x01 laneRZ v2, vaF "VMUL" 0x02 laneRZ v2, vaF "VFMA" 0x03 laneRZ v3, vaF "VMIN" 0x04 laneZ v2,
   vaF "VMAX" 0x05 laneZ v2, vaF "VABS" 0x06 laneZ v1, vaF "VAND" 0x07 laneZ v2, vaF "VOR" 0x08 laneZ v2, vaF "VXOR" 0x09 laneZ v2,
   vaF "VSHL" 0x0A laneZ v2, vaF "VSHR" 0x0B laneZ v2, vaF "VSRA" 0x0C laneZ v2,
   vaF "VCMP" 0x0D [laneM true, condM 74, ctypeM, zM 6] [.p 11, .p 81, .spec 32, .spec 43],
   vaF "VSEL" 0x0E anyZ [.v 11, .p 81, .spec 32, .spec 43], vaF "VMOV" 0x0F laneZ v1,
   vaF "VCVT" 0x10 [fmtM 85, fmtM 89, rndM, zM 6] v1, vaF "VCVT" 0x10 [fmtM 85, fmtM 89, rndM, zM 6] v3,
   vaF "VRED" 0x11 [laneM true, subM 74 [("ADD", 0), ("MIN", 1), ("MAX", 2), ("MINU", 3), ("MAXU", 4), ("AND", 5), ("OR", 6), ("XOR", 7)] true,
     rndM] v1] ++
  [vaF "VPERM" 0x12 anyZ v2, vaF "VSLIDE" 0x13 [subM 74 [("UP", 0), ("DN", 1)] true, laneM false, zM 6] (v2 ++ [.imm 85 11 0 63]),
   ⟨"VIOTA", word 3 0x14 + 2 ^ 85, laneZ, v1, .arith⟩, vaF "VIOTA" 0x14 laneZ (v1 ++ [.imm 85 11 (-1024) 1023]),
   vaF "VDIV" 0x15 laneZ v2, vaF "VSQRT" 0x16 laneZ v1, vaF "VEXP2" 0x17 laneZ v1, vaF "VLOG2" 0x18 laneZ v1,
   vaF "VGET" 0x19 [laneM true, subM 74 [("LANE", 0)] false] [.s 11, .spec 32, .imm 85 11 0 63],
   vaF "VGET" 0x19 [subM 74 [("FIRST", 1), ("COUNT", 2)] true] [.s 11],
   vaF "PLOG" 0x1A [subM 74 [("AND", 0), ("OR", 1), ("XOR", 2), ("ANDN", 3), ("ORN", 4), ("NAND", 5), ("NOR", 6), ("XNOR", 7)] true, zM 6]
     [.p 11, .p 85, .p 89],
   vaF "PSET" 0x1B [zM 6] [.p 11, .sspec 32], vaF "PSET" 0x1B [subM 74 [("FIRST", 1)] true, zM 6] [.p 11, .sspec 32],
   vaF "PSET" 0x1B [subM 74 [("FIRST", 2)] true, zM 6] [.p 11, .imm 85 7 0 127], vaF "VHASH" 0x1C anyZ v3]

/-- Classes EC and SY and the aliases that are SY words. -/
def sysForms : List Form :=
  [ecF "ECGO" 0x00 [.s 0, .s 12, .engine], ecF "MXW" 0x01 [.s 12, .imm 32 4 0 15], ecF "MXGO" 0x02 [.s 0],
   ecF "CPTPL" 0x03 [.tpl 32, .s 12], ecF "PUBV" 0x04 [.s 0, .imm 32 12 0 4095, .imm 44 3 0 7],
   ecF "PUBV" 0x04 [.s 0, .imm 32 12 0 4095, .imm 44 3 0 7, .lit "FINAL" 47], ecF "REFSTOP" 0x05 [.s 0, .imm 32 64 0 4095],
   ecF "VERGET" 0x06 [.s 0, .imm 32 64 0 4095]] ++
  [syF "TRAP" 0x00 [] [.imm 64 32 (-(2 ^ 31)) (2 ^ 31 - 1)], syF "ERET" 0x01 [] [], syF "MFS" 0x02 [] [.s 15, .sysReg],
   syF "MTS" 0x03 [] [.sysReg, .s 9], syF "FENCE" 0x04 [scopeM true] [.mask],
   syF "WAITC" 0x05 [] [.imm 64 8 0 255, .imm 72 8 0 255, .imm 80 8 0 255, .imm 88 8 0 255], syF "EVSET" 0x06 [] [.event],
   syF "EVCLR" 0x07 [] [.event], syF "EVWAIT" 0x08 [] [.event], syF "SPAWN" 0x09 [] [.s 15, .srcA],
   syF "DEPDEC" 0x0A [scopeM true] [.srcA], syF "TEND" 0x0B [] [], syF "CANCEL" 0x0C [] [.s 15, .imm 32 4 0 15, .srcA],
   syF "XSYNC" 0x0D [] [.imm 64 32 (-(2 ^ 31)) (2 ^ 31 - 1)], syF "XMC" 0x0E [] [.mem 9, .s 3, .s 40], syF "IDLE" 0x0F [] [],
   syF "TRIG" 0x10 [] [], syF "STEP" 0x11 [subM 32 [("BEGIN", 0), ("COMMIT", 1), ("ABORT", 2)] true] [.imm 64 32 (-(2 ^ 31)) (2 ^ 32 - 1)],
   syF "HALT" 0x12 [] [], syF "UNPIN" 0x13 [] [.s 15, .imm 64 3 0 7], syF "WAITALL" 0x05 [] []]

def forms : List Form := saForms ++ smForms ++ memForms ++ vaForms ++ sysForms

/-! ## Symbols (R301) -/

/-- The names that no symbol may take (R301). -/
def reserved (n : String) : Bool :=
  (regName n).isSome || forms.any (fun f => f.name == up n) || scopeNames.any (fun p => p.1 == up n)

/-- A name that a symbol may have: an identifier, which begins with a letter or "_", and not a reserved name (R301). -/
def symbolName (n : String) : Bool := (n.toList.head?.map idStart).getD false && !reserved n

/-! ## Expressions (R302) -/

/-- What a symbol stands for. -/
inductive SymVal where
  | const (v : Int)
  | label (sec off : Nat)
  deriving DecidableEq, Repr

abbrev Env := List (String × SymVal)

def Env.find (e : Env) (n : String) : Option SymVal := (List.find? (fun p => p.1 == n) e).map (·.2)

/-- A value: a number, or a relocatable one, a symbol plus a number. -/
structure Val where
  base : Option String
  add : Int
  deriving DecidableEq, Repr

def fits64 (v : Int) : Option Val := if -(2 ^ 63) ≤ v ∧ v < 2 ^ 63 then some { base := none, add := v } else none

/-- A literal from 2^63 stands for its two's-complement value; one of 2^64 or more is an error. -/
def literal (n : Nat) : Option Val :=
  if n < 2 ^ 63 then some { base := none, add := n } else if n < 2 ^ 64 then some { base := none, add := (n : Int) - 2 ^ 64 } else none

/-- The 64-bit pattern of a value. -/
def pat (v : Int) : Nat := (v % 2 ^ 64).toNat

def ofPat (n : Nat) : Int := (BitVec.ofNat 64 n).toInt

/-- The value of a name: a label and a symbol not defined here are relocatable. -/
def symbolVal (e : Env) (n : String) : Val :=
  match e.find n with
  | some (.const v) => { base := none, add := v }
  | _ => { base := some n, add := 0 }

/-- An operation on two numbers. A shift by 64 or more, a left shift that loses bits and a division by 0 are errors (DEDUCED, log
entry 55). -/
def arith (op : String) (x y : Int) : Option Val :=
  if op = "*" then fits64 (x * y)
  else if op = "/" then (if y = 0 then none else fits64 (x.tdiv y))
  else if op = "%" then (if y = 0 then none else fits64 (x.tmod y))
  else if op = "+" then fits64 (x + y)
  else if op = "-" then fits64 (x - y)
  else if op = "<<" then (if 0 ≤ y ∧ y < 64 then fits64 (x * 2 ^ y.toNat) else none)
  else if op = ">>" then (if 0 ≤ y ∧ y < 64 then fits64 (ofPat (pat x / 2 ^ y.toNat)) else none)
  else if op = "&" then fits64 (ofPat (pat x &&& pat y))
  else if op = "^" then fits64 (ofPat (pat x ^^^ pat y))
  else if op = "|" then fits64 (ofPat (pat x ||| pat y))
  else none

/-- An operation. A relocatable value takes only the forms symbol, symbol + constant and symbol - constant; the difference of two labels
of one section is a number (DEDUCED, log entry 55). -/
def apply (e : Env) (op : String) (x y : Val) : Option Val :=
  match x.base, y.base with
  | none, none => arith op x.add y.add
  | some b, none =>
    if op = "+" then (fits64 (x.add + y.add)).map fun v => { v with base := some b }
    else if op = "-" then (fits64 (x.add - y.add)).map fun v => { v with base := some b }
    else none
  | some a, some b =>
    match op, e.find a, e.find b with
    | "-", some (.label s m), some (.label t n) => if s = t then fits64 ((m : Int) + x.add - (n + y.add)) else none
    | _, _, _ => none
  | none, some _ => none

/-- The level of a binary operator, the loosest 0. -/
def level (op : String) : Nat :=
  if op = "|" then 0 else if op = "^" then 1 else if op = "&" then 2 else if op = "<<" ∨ op = ">>" then 3
  else if op = "+" ∨ op = "-" then 4 else if op = "*" ∨ op = "/" ∨ op = "%" then 5 else 6

/-- A value of level lvl at the head of the tokens, or, after its left operand acc, the rest of one. -/
def exprGo (e : Env) : Nat → Nat → Option Val → List Tok → Option (Val × List Tok)
  | 0, _, _, _ => none
  | n + 1, lvl, none, ts =>
    if lvl < 6 then (exprGo e n (lvl + 1) none ts).bind fun (v, rest) => exprGo e n lvl (some v) rest
    else match ts with
      | .sym "-" :: rest => (exprGo e n 6 none rest).bind fun (v, rest) =>
          if v.base.isSome then none else (fits64 (-v.add)).map fun w => (w, rest)
      | .sym "~" :: rest => (exprGo e n 6 none rest).bind fun (v, rest) =>
          if v.base.isSome then none else (fits64 (-v.add - 1)).map fun w => (w, rest)
      | .sym "(" :: rest => (exprGo e n 0 none rest).bind fun (v, rest) =>
          match rest with
          | .sym ")" :: rest => some (v, rest)
          | _ => none
      | .num k :: rest => (literal k).map fun v => (v, rest)
      | .ident s :: rest => if symbolName s then some (symbolVal e s, rest) else none
      | _ => none
  | n + 1, lvl, some x, ts =>
    match ts with
    | .sym o :: rest =>
      if level o = lvl ∧ lvl < 6 then
        (exprGo e n (lvl + 1) none rest).bind fun (y, rest) => (apply e o x y).bind fun v => exprGo e n lvl (some v) rest
      else some (x, ts)
    | _ => some (x, ts)

/-- The value of a whole expression. -/
def expr (e : Env) (ts : List Tok) : Option Val :=
  match exprGo e (16 * (ts.length + 1)) 0 none ts with
  | some (v, []) => some v
  | _ => none

/-- An expression that is not relocatable, within limits. -/
def const (e : Env) (lo hi : Int) (ts : List Tok) : Option Int :=
  match expr e ts with
  | some ⟨none, v⟩ => if lo ≤ v ∧ v ≤ hi then some v else none
  | _ => none

/-! ## Operands (R305) -/

/-- A number in a field, as its pattern. -/
def immediate (e : Env) (lo width : Nat) (min max : Int) (ts : List Tok) : Option Enc :=
  (const e min max ts).map fun v => .put lo width (pat v)

/-- A number or a relocatable value in a field of R318; the container is the doubleword at word + at_. -/
def relocatable (e : Env) (lo width : Nat) (max : Int) (type : RelType) (at_ relLo : Nat) (ts : List Tok) : Option Enc :=
  match expr e ts with
  | some ⟨some b, a⟩ => some { puts := [], rels := [{ type := type, at_ := at_, lo := relLo, symbol := b, add := a }] }
  | _ => immediate e lo width 0 max ts

/-- A branch target: (target - word address) / 4, by etas where the target lies in this section, else as PCREL32. A target that is a number
is an error: a word's address is not known before placement (DEDUCED, log entry 55). -/
def branch (e : Env) (sec pc : Nat) (ts : List Tok) : Option Enc :=
  match expr e ts with
  | some ⟨some b, a⟩ =>
    match e.find b with
    | some (.label t off) =>
      if t = sec then
        let d : Int := (off : Int) + a - pc
        if d % 4 = 0 ∧ -(2 ^ 31) ≤ d / 4 ∧ d / 4 < 2 ^ 31 then some (.put 64 32 (pat (d / 4))) else none
      else some { puts := [], rels := [{ type := .pcrel32, at_ := 0, lo := 0, symbol := b, add := a }] }
    | _ => some { puts := [], rels := [{ type := .pcrel32, at_ := 0, lo := 0, symbol := b, add := a }] }
  | _ => none

/-- An immediate of imm32: 32 signed bits (R303). -/
def imm32 (e : Env) (ts : List Tok) : Option Enc := immediate e 64 32 (-(2 ^ 31)) (2 ^ 31 - 1) ts

/-- One operand. -/
def operand (e : Env) (sec pc : Nat) (k : Kind) (ts : List Tok) : Option Enc :=
  let i : Enc := .put 2 1 1
  match k with
  | .s lo => (reg 's' ts).map (.put lo 6)
  | .p lo => (reg 'p' ts).map (.put lo 4)
  | .v lo => (reg 'v' ts).map (.put lo 10)
  | .z => match reg 'z' ts with
    | some n => some (.put 59 5 n)
    | none => match expr e ts with
      | some ⟨some b, a⟩ => some { puts := [], rels := [{ type := .ztile5, at_ := 0, lo := 59, symbol := b, add := a }] }
      | _ => none
  | .spec lo => match reg 'v' ts with
    | some n => some (.put lo 11 n)
    | none => (reg 's' ts).map fun n => .put lo 11 (0x400 + n)
  | .sspec lo => (reg 's' ts).map fun n => .put lo 11 (0x400 + n)
  | .mem lo =>
    match ts with
    | .sym "[" :: b :: rest =>
      (reg 's' [b]).bind fun n =>
        if rest.getLast? = some (.sym "]") then
          let off := rest.dropLast
          let base : Enc := .put lo 6 n
          match off with
          | [] => some base
          | .sym "+" :: x => (imm32 e x).map base.append
          | .sym "-" :: x => (const e (-(2 ^ 31) + 1) (2 ^ 31) x).map fun v => base.append (.put 64 32 (pat (-v)))
          | _ => none
        else none
    | _ => none
  | .src2 => match reg 's' ts with
    | some n => some (.put 3 6 n)
    | none => (imm32 e ts).map i.append
  | .srcA => match reg 's' ts with
    | some n => some (.put 9 6 n)
    | none => (imm32 e ts).map i.append
  | .br6 => match reg 's' ts with
    | some n => some (.put 3 6 n)
    | none => (immediate e 3 6 (-32) 31 ts).map i.append
  | .target => branch e sec pc ts
  | .jump => match reg 's' ts with
    | some n => some (.put 9 6 n)
    | none => (branch e sec pc ts).map i.append
  | .imm lo width min max => immediate e lo width min max ts
  | .tpl lo => relocatable e lo 8 255 .tplidx8 4 (lo - 32) ts
  | .event => match reg 's' ts with
    | some n => some (.put 9 6 n)
    | none => match reg 'e' ts with
      | some n => some (i.append (.put 64 32 n))
      | none => (relocatable e 64 32 63 .event6 4 32 ts).map i.append
  | .engine => match ts with
    | [.ident s] => if up s = "MX" then some (.put 18 3 1) else if up s = "NM" then some (.put 18 3 3)
        else if up s = "CL" then some (.put 18 3 4) else none
    | _ => none
  | .sysReg => match ts with
    | [.ident s] => (List.find? (fun p => p.1 == up s) sysRegNames).map fun p => .put 64 32 p.2
    | _ => none
  | .mask => immediate e 64 16 0 0xFFFF ts
  | .lit s lo => if ts = [.ident s] ∨ ts.map (fun t => match t with | .ident x => up x | _ => "") = [s] then some (.put lo 1 1) else none

/-! ## A word -/

/-- Give one modifier to the first field that spells it and has no value yet. -/
def giveMod (m : String) : List (ModF × Option Nat) → Option (List (ModF × Option Nat))
  | [] => none
  | (f, x) :: rest =>
    match x, List.find? (fun p => p.1 == m) f.sp with
    | none, some p => some ((f, some p.2) :: rest)
    | _, _ => (giveMod m rest).map ((f, x) :: ·)

/-- The fields that the modifiers set; a repeated field, a modifier that the form does not use and a required one that is absent are
errors (R304). -/
def modPuts (fs : List ModF) (ms : List String) : Option (List Put) :=
  let rec go : List String → List (ModF × Option Nat) → Option (List (ModF × Option Nat))
    | [], st => some st
    | m :: ms, st => (giveMod m st).bind (go ms)
  (go ms (fs.map fun f => (f, none))).bind fun st =>
    if st.all fun p => p.2.isSome || !p.1.req then
      some (st.map fun p => { lo := p.1.lo, width := 16, val := p.2.getD 0 })
    else none

/-- The code of a channel name (R59). -/
def channel (s : String) : Option Nat :=
  (List.find? (fun p => p.1 == up s) [("LA", 1), ("AS", 2), ("SL", 3), ("AL", 4), ("CA", 5), ("MA", 6)]).map (·.2)

/-- A source word: its guard, mnemonic, modifiers, operands and channels. -/
structure Source where
  guard : Option Nat
  name : String
  mods : List String
  ops : List (List Tok)
  pop : Option Nat
  push : Option Nat
  deriving DecidableEq, Repr

/-- The fields of the guard and the channels; without a guard, qp is p0 (R305). -/
def vecPuts (v : Vec) (x : Source) : Option (List Put) :=
  match v with
  | .none => if x.guard.isSome || x.pop.isSome || x.push.isSome then none else some []
  | .mem => some [⟨1, 4, x.guard.getD 0⟩, ⟨51, 3, x.pop.getD 0⟩, ⟨54, 3, x.push.getD 0⟩]
  | .arith => some [⟨7, 4, x.guard.getD 0⟩, ⟨68, 3, x.pop.getD 0⟩, ⟨71, 3, x.push.getD 0⟩]

/-- The operands of a form. -/
def operands (e : Env) (sec pc : Nat) : List Kind → List (List Tok) → Option Enc
  | [], [] => some .none
  | k :: ks, o :: os => (operand e sec pc k o).bind fun a => (operands e sec pc ks os).map a.append
  | _, _ => none

def tryForm (e : Env) (sec pc : Nat) (x : Source) (f : Form) : Option Enc :=
  (modPuts f.mods x.mods).bind fun m => (vecPuts f.vec x).bind fun v => (operands e sec pc f.ops x.ops).map fun o =>
    { o with puts := { lo := 0, width := 96, val := f.base } :: m ++ v ++ o.puts }

/-- The list of ordering classes that FENCE takes in place of its mask (R159, R306). -/
def classList (os : List (List Tok)) : Option Nat :=
  os.foldl (fun acc o => match acc, o with
    | some m, [.ident s] => (List.find? (fun p => p.1 == up s) ocM.sp).map fun p => m ||| 2 ^ p.2
    | _, _ => none) (if os.isEmpty then none else some 0)

/-- The operands with a list of classes turned into its mask. -/
def Source.masked (x : Source) : Source :=
  if x.name = "FENCE" then match classList x.ops with
    | some m => { x with ops := [[.num m]] }
    | none => x
  else x

/-- The word of a source line at offset pc of section sec. etas checks what R303 to R305 name and no more: a word whose fields hold their
values but which SQ refuses at decode is emitted (DEDUCED, log entry 55). -/
def assemble (e : Env) (sec pc : Nat) (x : Source) : Option Enc :=
  let x := x.masked
  (forms.filter fun f => f.name == x.name).findSome? (tryForm e sec pc x)

/-! ## A line (R301) -/

/-- A line: its label, its guard, the mnemonic or directive, and the tokens after it. -/
structure Line where
  label : Option String
  guard : Option Nat
  head : Option String
  rest : List Tok
  deriving DecidableEq, Repr

def parse (s : String) : Option Line :=
  (lex s).bind fun ts =>
    let (lab, ts) : Option String × List Tok := match ts with
      | .ident l :: .sym ":" :: rest => (some l, rest)
      | _ => (none, ts)
    let g : Option (Option Nat × List Tok) := match ts with
      | .sym "(" :: p :: .sym ")" :: rest => (reg 'p' [p]).map fun n => (some n, rest)
      | _ => some (none, ts)
    g.bind fun (g, ts) => match ts with
      | [] => if g.isNone then some ⟨lab, g, none, []⟩ else none
      | .ident h :: rest => some ⟨lab, g, some h, rest⟩
      | _ => none

/-- The operands before pop= and push=, and the channels (R305). -/
def channels : List Tok → Option (List Tok × Option Nat × Option Nat)
  | .ident k :: .sym "=" :: .ident c :: rest =>
    (channel c).bind fun n => (channels rest).bind fun (ts, a, b) =>
      if !ts.isEmpty then none
      else if up k = "POP" ∧ a.isNone then some ([], some n, b)
      else if up k = "PUSH" ∧ b.isNone then some ([], a, some n) else none
  | t :: ts => (channels ts).map fun (us, a, b) => (t :: us, a, b)
  | [] => some ([], none, none)

/-- The source word of a line whose head is a mnemonic. -/
def Line.source (l : Line) : Option Source :=
  match l.head with
  | some h => match parts h with
    | n :: ms => (channels l.rest).map fun (ts, pop, push) => { guard := l.guard, name := n, mods := ms, ops := operandsOf ts, pop := pop, push := push }
    | [] => none
  | none => none

end Sys2Proof.Etas
end

