-- ==== Sys2Proof/Machine/Etbin.lean ====
section
/-!
DEFINITION. The Etbin object format and its relocations (spec/14 R313-R318), and etld, which links objects into an image (R317).
-/

namespace Sys2Proof.Etbin

open Sys2Proof.Etas

/-! ## An object or an image -/

/-- A section: its kind (0 text, 1 data, 2 rodata), log2 of its alignment, its bytes, and in an image its offset from the load VA (R314). -/
structure OSec where
  name : String
  kind : Nat
  align : Nat
  bytes : List Byte
  place : Nat
  deriving DecidableEq, Repr

/-- Section indexes that name no section (R315). -/
def secAbs : Nat := 0xFFFF
def secUndef : Nat := 0xFFFE

/-- A symbol (R315): kind 0 label, 1 task, 2 ecb, 3 tpl, 4 tcb, 5 launch, 6 equ; the value is a 64-bit pattern. -/
structure OSym where
  name : String
  sec : Nat
  kind : Nat
  glob : Bool
  value : Nat
  size : Nat
  deriving DecidableEq, Repr

/-- A relocation (R316); none for the symbol is the image's load VA. -/
structure ORel where
  sym : Option Nat
  sec : Nat
  lo : Nat
  type : RelType
  off : Nat
  add : Int
  deriving DecidableEq, Repr

structure Obj where
  image : Bool
  loadVa : Nat
  secs : List OSec
  syms : List OSym
  rels : List ORel
  deriving DecidableEq, Repr

/-! ## The file (R313-R316) -/

def nameBytes (s : String) : List Byte := s.toList.map (fun c => BitVec.ofNat 8 c.toNat) ++ [0]

/-- The string table, and the offset of each name in it: names end with a zero byte (DESIGN CHOICE, log entry 56). -/
def strings : List String → Nat → List Byte × List Nat
  | [], _ => ([], [])
  | s :: ss, at_ =>
    let bs := nameBytes s
    let (rest, offs) := strings ss (at_ + bs.length)
    (bs ++ rest, at_ :: offs)

def dword (hi lo : Nat) : List Byte := leBytes 4 lo ++ leBytes 4 hi

/-- The bytes of a file: the header, the three tables, the strings, then the contents (DESIGN CHOICE: their order, log entry 56). -/
def Obj.toBytes (o : Obj) : List Byte :=
  let nsec := o.secs.length
  let nsym := o.syms.length
  let nrel := o.rels.length
  let symAt := 64 + 32 * nsec
  let relAt := symAt + 24 * nsym
  let strAt := relAt + 24 * nrel
  let (strs, offs) := strings (o.secs.map OSec.name ++ o.syms.map OSym.name) 0
  let secName (i : Nat) : Nat := offs.getD i 0
  let head := leBytes 4 0x4E494245 ++ leBytes 2 1 ++ leBytes 2 o.image.toNat ++ dword nsec 64 ++ dword nsym symAt ++ dword nrel relAt ++
    dword strs.length strAt ++ leBytes 8 o.loadVa ++ leBytes 16 0
  let table := (o.secs.foldl (fun (a : List Byte × Nat × Nat) x =>
    (a.1 ++ leBytes 1 x.kind ++ leBytes 1 x.align ++ leBytes 2 0 ++ leBytes 4 (secName a.2.1) ++ leBytes 8 a.2.2 ++ leBytes 8 x.bytes.length ++
      leBytes 8 x.place, a.2.1 + 1, a.2.2 + x.bytes.length)) ([], 0, strAt + strs.length)).1
  let syms := (o.syms.foldl (fun (a : List Byte × Nat) x =>
    (a.1 ++ leBytes 1 x.glob.toNat ++ leBytes 1 x.kind ++ leBytes 2 x.sec ++ leBytes 4 (secName a.2) ++ leBytes 8 x.value ++
      leBytes 8 x.size, a.2 + 1)) ([], nsec)).1
  let rels := o.rels.flatMap fun x =>
    leBytes 1 x.type.code ++ leBytes 1 x.lo ++ leBytes 2 x.sec ++ leBytes 4 (x.sym.getD 0xFFFFFFFF) ++ leBytes 8 x.off ++ leBytes 8 (pat x.add)
  head ++ table ++ syms ++ rels ++ strs ++ o.secs.flatMap OSec.bytes

def relOfCode (n : Nat) : Option RelType :=
  [RelType.abs64, .pcrel32, .spoff19, .tplidx8, .event6, .ztile5].find? fun t => t.code == n

/-- n bytes of a file as a number. -/
def numAt (bs : List Byte) (off n : Nat) : Nat := leNat ((bs.drop off).take n)

def nameAt (bs : List Byte) (off : Nat) : String := String.ofList ((bs.drop off).takeWhile (· != 0) |>.map fun b => Char.ofNat b.toNat)

/-- Read a file; none where the header is not one of R313 or a relocation type is outside R318. -/
def Obj.ofBytes (bs : List Byte) : Option Obj :=
  let kind := numAt bs 6 2
  let strAt := numAt bs 32 4
  if numAt bs 0 4 ≠ 0x4E494245 ∨ numAt bs 4 2 ≠ 1 ∨ 1 < kind ∨ numAt bs 48 16 ≠ 0 then none
  else
    let secs := (List.range (numAt bs 12 4)).map fun i =>
      let p := numAt bs 8 4 + 32 * i
      ({ name := nameAt bs (strAt + numAt bs (p + 4) 4), kind := numAt bs p 1, align := numAt bs (p + 1) 1,
         bytes := (bs.drop (numAt bs (p + 8) 8)).take (numAt bs (p + 16) 8), place := numAt bs (p + 24) 8 } : OSec)
    let syms := (List.range (numAt bs 20 4)).map fun i =>
      let p := numAt bs 16 4 + 24 * i
      ({ name := nameAt bs (strAt + numAt bs (p + 4) 4), sec := numAt bs (p + 2) 2, kind := numAt bs (p + 1) 1, glob := numAt bs p 1 == 1,
         value := numAt bs (p + 8) 8, size := numAt bs (p + 16) 8 } : OSym)
    let rels := (List.range (numAt bs 28 4)).map fun i =>
      let p := numAt bs 24 4 + 24 * i
      let y := numAt bs (p + 4) 4
      (relOfCode (numAt bs p 1)).map fun t =>
        ({ sym := if y = 0xFFFFFFFF then none else some y, sec := numAt bs (p + 2) 2, lo := numAt bs (p + 1) 1, type := t, off := numAt bs (p + 8) 8,
           add := ofPat (numAt bs (p + 16) 8) } : ORel)
    if rels.all Option.isSome then
      some { image := kind == 1, loadVa := numAt bs 40 8, secs := secs, syms := syms, rels := rels.filterMap id }
    else none

/-! ## Relocations (R316, R318) -/

/-- The bytes of the container and the width of the field. -/
def containerOf : RelType → Nat
  | .pcrel32 => 12
  | _ => 8

def widthOf : RelType → Nat
  | .abs64 => 64 | .pcrel32 => 32 | .spoff19 => 19 | .tplidx8 => 8 | .event6 => 6 | .ztile5 => 5

/-- The lowest bit of the field within its container. -/
def ORel.bit (r : ORel) : Nat := match r.type with | .pcrel32 => 64 | _ => r.lo

/-- The pattern that a relocation writes, none where the value does not fit (R318). -/
def relValue (t : RelType) (s a p : Int) : Option Nat :=
  let within (max : Int) : Option Nat := if 0 ≤ s + a ∧ s + a ≤ max then some (s + a).toNat else none
  match t with
  | .abs64 => some (pat (s + a))
  | .pcrel32 =>
    let q := (s + a - p) / 4
    if (s + a - p) % 4 = 0 ∧ -(2 ^ 31) ≤ q ∧ q < 2 ^ 31 then some (q % 2 ^ 32).toNat else none
  | .spoff19 =>
    let v := pat (s + a)
    let v := if v / 2 ^ 48 = 0xFF00 then v % 2 ^ 48 else v
    if v ≤ 524287 then some v else none
  | .tplidx8 => within 255
  | .event6 => within 63
  | .ztile5 => within 31

/-- Write a pattern into the field of a container of a section's bytes. -/
def patch (r : ORel) (v : Nat) (bs : List Byte) : List Byte :=
  let n := containerOf r.type
  let w := numAt bs r.off n
  let old := w / 2 ^ r.bit % 2 ^ widthOf r.type
  bs.take r.off ++ leBytes n (w - old * 2 ^ r.bit + v * 2 ^ r.bit) ++ bs.drop (r.off + n)

def Obj.patchSec (o : Obj) (r : ORel) (v : Nat) : Obj :=
  { o with secs := o.secs.modify r.sec fun x => { x with bytes := patch r v x.bytes } }

/-- The image's alignment: the largest of its sections', at least 256 bytes (R313). -/
def Obj.alignment (o : Obj) : Nat := o.secs.foldl (fun a x => max a (2 ^ x.align)) 256

/-- Not malformed (R317). -/
def Obj.ok (o : Obj) : Bool :=
  (o.rels.all fun r => (match o.secs[r.sec]? with | some x => decide (r.off + containerOf r.type ≤ x.bytes.length) | none => false) &&
    decide (r.bit + widthOf r.type ≤ 8 * containerOf r.type) && r.off % 4 == 0) &&
    (!o.image || (o.loadVa % o.alignment == 0 && o.secs.all fun x => x.place % 2 ^ x.align == 0))

/-- The sites of a relocation lie in the 128 bytes of an ecb symbol. -/
def inEcb (y : OSym) (r : ORel) : Bool := y.kind == 2 && r.sec == y.sec && decide (y.value < r.off + 8) && decide (r.off < y.value + 128)

/-- Slot 15 of the image of an ecb symbol, formed again (R108, R319). -/
def Obj.sealEcb (o : Obj) (y : OSym) : Obj :=
  { o with secs := o.secs.modify y.sec fun x =>
      { x with bytes := x.bytes.take (y.value + 120) ++ leBytes 8 (crc32c ((x.bytes.drop y.value).take 120)).toNat ++ x.bytes.drop (y.value + 128) } }

/-- Write the values of relocations, then seal every ecb symbol that held a site. -/
def Obj.applyAll (o : Obj) (vs : List (ORel × Nat)) : Obj :=
  let o := vs.foldl (fun o x => o.patchSec x.1 x.2) o
  (o.syms.filter fun y => vs.any fun x => inEcb y x.1).foldl Obj.sealEcb o

/-! ## etld (R317) -/

/-- x up to a multiple of 2^k. -/
def alignUp (x k : Nat) : Nat := (x + 2 ^ k - 1) / 2 ^ k * 2 ^ k

/-- The sections of one kind in one, in the order of the objects, and where each piece lies (DESIGN CHOICE, log entry 56). -/
def mergeKind (os : List Obj) (kind : Nat) : OSec × List ((Nat × Nat) × Nat) :=
  let pieces : List ((Nat × Nat) × OSec) := (os.zipIdx.flatMap fun p => p.1.secs.zipIdx.map fun q => ((p.2, q.2), q.1)).filter (·.2.kind == kind)
  pieces.foldl (fun (a : OSec × List ((Nat × Nat) × Nat)) p =>
    let start := alignUp a.1.bytes.length p.2.align
    ({ a.1 with align := max a.1.align p.2.align, bytes := a.1.bytes ++ List.replicate (start - a.1.bytes.length) 0 ++ p.2.bytes },
      a.2 ++ [(p.1, start)])) ({ name := [".text", ".data", ".rodata"].getD kind "", kind := kind, align := 0, bytes := [], place := 0 }, [])

/-- Sections one after another, each at a multiple of its alignment, from an offset. -/
def placeAll : List OSec → Nat → List OSec
  | [], _ => []
  | x :: xs, at_ => { x with place := alignUp at_ x.align } :: placeAll xs (alignUp at_ x.align + x.bytes.length)

/-- What a relocation of an image still needs, or the value that the placement fixes. -/
inductive Fixed where
  | value (v : Nat)
  | keep (r : ORel)
  deriving DecidableEq, Repr

/-- One relocation against a symbol of the image (R317): against a section, PCREL32 is fixed and the rest goes against the load VA; against
an absolute symbol the value is fixed, but not of PCREL32, which is an error. -/
def settle (secs : List OSec) (r : ORel) (y : OSym) (idx : Nat) : Option Fixed :=
  let site : Int := ((secs[r.sec]?.map OSec.place).getD 0 : Nat) + r.off
  let goal : Int := ((secs[y.sec]?.map OSec.place).getD 0 : Nat) + y.value
  if y.sec = secUndef then some (.keep { r with sym := some idx })
  else if y.sec = secAbs then
    (if r.type = .pcrel32 then none else (relValue r.type (ofPat y.value) r.add 0).map .value)
  else if r.type = .pcrel32 then (relValue r.type goal r.add site).map .value
  else some (.keep { r with sym := none, add := goal + r.add })

/-- One relocation against the load VA (R316, R317): the placement fixes PCREL32, and the rest stays. -/
def settleBase (secs : List OSec) (r : ORel) : Option Fixed :=
  if r.type = .pcrel32 then (relValue r.type 0 r.add (((secs[r.sec]?.map OSec.place).getD 0 : Nat) + r.off)).map .value else some (.keep r)

/-- Link objects into an image at a load VA; none where an object is malformed, a global has two definitions or a value does not fit. ECB
images in which a site is fixed are sealed (DESIGN CHOICE, log entry 56). -/
def etld (os : List Obj) (va : Nat) : Option Obj :=
  let merged := [0, 1, 2].map (mergeKind os)
  let secs := placeAll (merged.map (·.1)) 0
  let spot (i j : Nat) : Option (Nat × Nat) :=
    merged.zipIdx.findSome? fun m => (List.find? (fun p => p.1 == (i, j)) m.1.2).map fun p => (m.2, p.2)
  let moved (i : Nat) (y : OSym) : OSym :=
    match spot i y.sec with
    | some (k, off) => { y with sec := k, value := y.value + off }
    | none => y
  let all : List ((Nat × Nat) × OSym) := os.zipIdx.flatMap fun p => p.1.syms.zipIdx.map fun q => ((p.2, q.2), moved p.2 q.1)
  let defined := all.filter fun p => p.2.sec != secUndef
  let globals := (defined.filter fun p => p.2.glob).map fun p => p.2.name
  let missing := ((all.filter fun p => p.2.sec == secUndef && !globals.contains p.2.name).map (·.2)).foldl
    (fun (a : List OSym) y => if a.any fun z => z.name == y.name then a else a ++ [y]) []
  let syms := defined.map (·.2) ++ missing
  let index (i n : Nat) : Option Nat :=
    match defined.findIdx? fun p => p.1 == (i, n) with
    | some k => some k
    | none => ((List.find? (fun p => p.1 == (i, n)) all).map fun p => p.2.name).bind fun name =>
        syms.findIdx? fun y => y.name == name && (y.glob || y.sec == secUndef)
  let rels : List (Option (ORel × Fixed)) := os.zipIdx.flatMap fun p => p.1.rels.map fun r =>
    (spot p.2 r.sec).bind fun (k, off) =>
      let r := { r with sec := k, off := r.off + off }
      match r.sym with
      | none => (settleBase secs r).map fun f => (r, f)
      | some n => (index p.2 n).bind fun idx => (syms[idx]?).bind fun y => (settle secs r y idx).map fun f => (r, f)
  if !(os.all Obj.ok) || globals.any (fun g => (globals.filter (· == g)).length != 1) || rels.any Option.isNone then none
  else
    let rs := rels.filterMap id
    let kept : List ORel := rs.filterMap fun p => (match p.2 with | .keep r => some r | .value _ => none)
    let o : Obj := { image := true, loadVa := va, secs := secs, syms := syms, rels := kept }
    let o := o.applyAll (rs.filterMap fun p => (match p.2 with | .value v => some (p.1, v) | .keep _ => none))
    if o.ok then some o else none

end Sys2Proof.Etbin
end

