-- ==== Sys2Proof/Machine/EtasFile.lean ====
section
/-!
DEFINITION. An etas source file (spec/14 R301, R307-R312): sections, data, tasks, ECB images, templates, TCBs and launch records, assembled
line by line into an object. The lines are read twice: once for the symbols and the section headers, once for the bytes.
-/

namespace Sys2Proof.Etas

open Sys2Proof.Etbin

/-! ## The assembler's state -/

structure Sec where
  bytes : List Byte
  /-- log2 of the alignment. -/
  align : Nat
  deriving DecidableEq, Repr

structure Sym where
  name : String
  kind : Nat
  size : Nat
  val : SymVal
  deriving DecidableEq, Repr

/-- A relocation against a name. -/
structure Rel where
  sec : Nat
  off : Nat
  lo : Nat
  type : RelType
  symbol : String
  add : Int
  deriving DecidableEq, Repr

inductive BlockKind where
  | ecb | tpl | launch
  deriving DecidableEq, Repr

/-- A block under way: its doublewords and its relocations, each at a doubleword, with its lowest bit. -/
structure Block where
  kind : BlockKind
  words : List Nat
  rels : List RelReq
  deriving DecidableEq, Repr

/-- The open section of a task: its header's offset, its waits VA, VL, VS, MX, CP, NM, and the words of its body. -/
structure Body where
  hdr : Nat
  waits : List Nat
  words : Nat
  deriving DecidableEq, Repr

/-- The task under way: how many sections it has opened, and the open one. -/
structure TaskSt where
  count : Nat
  body : Option Body
  deriving DecidableEq, Repr

structure Asm where
  secs : List Sec
  cur : Nat
  syms : List Sym
  rels : List Rel
  globals : List String
  /-- Names of the next item: name, kind, size. -/
  pend : List (String × Nat × Nat)
  task : Option TaskSt
  block : Option Block
  /-- The headers of the file: offset in .text and words of the body. -/
  heads : List (Nat × Nat)
  deriving DecidableEq, Repr

def Asm.start : Asm :=
  { secs := [⟨[], 0⟩, ⟨[], 0⟩, ⟨[], 0⟩], cur := 0, syms := [], rels := [], globals := [], pend := [], task := none, block := none, heads := [] }

/-- What the first reading found. -/
structure Tab where
  env : Env
  heads : List (Nat × Nat)
  deriving DecidableEq, Repr

def Asm.here (a : Asm) : Nat := ((a.secs[a.cur]?).map fun x => x.bytes.length).getD 0
def Asm.env (a : Asm) : Env := a.syms.map fun y => (y.name, y.val)

def Asm.emit (a : Asm) (bs : List Byte) : Asm := { a with secs := a.secs.modify a.cur fun x => { x with bytes := x.bytes ++ bs } }

/-- Pad to a multiple of 2^k and raise the section's alignment (R307). -/
def Asm.pad (a : Asm) (k : Nat) : Asm :=
  let n := alignUp a.here k - a.here
  { a with secs := a.secs.modify a.cur fun x => { bytes := x.bytes ++ List.replicate n 0, align := max x.align k } }

/-- Define a symbol; two definitions of a name, and a name that no symbol may have, are errors (R301). -/
def Asm.define (a : Asm) (y : Sym) : Option Asm :=
  if !symbolName y.name || a.syms.any (fun z => z.name == y.name) then none else some { a with syms := a.syms ++ [y] }

/-- The names that wait get the present place. -/
def Asm.place (a : Asm) : Option Asm :=
  a.pend.foldl (fun (r : Option Asm) p => r.bind fun a => a.define ⟨p.1, p.2.1, p.2.2, .label a.cur a.here⟩) (some { a with pend := [] })

def Asm.name (a : Asm) (n : String) (kind size : Nat) : Asm := { a with pend := a.pend ++ [(n, kind, size)] }

/-- Relocations of an item at offset off of the present section. -/
def Asm.relocate (a : Asm) (off : Nat) (rs : List RelReq) : Asm :=
  { a with rels := a.rels ++ rs.map fun r => { sec := a.cur, off := off + r.at_, lo := r.lo, type := r.type, symbol := r.symbol, add := r.add } }

/-! ## Data (R307) -/

/-- One value of a data directive: it fits signed or unsigned; a relocatable one only as a doubleword. -/
def dataItem (e : Env) (n : Nat) (ts : List Tok) : Option (List Byte × List RelReq) :=
  match expr e ts with
  | some ⟨some b, x⟩ => if n = 8 then some (leBytes 8 0, [⟨.abs64, 0, 0, b, x⟩]) else none
  | some ⟨none, v⟩ => if -(2 ^ (8 * n - 1)) ≤ v ∧ v < 2 ^ (8 * n) then some (leBytes n (pat v), []) else none
  | none => none

def Asm.data (t : Option Tab) (n : Nat) (ops : List (List Tok)) (a : Asm) : Option Asm :=
  a.place.bind fun a => ops.foldl (fun (r : Option Asm) ts => r.bind fun a =>
    match t with
    | none => some (a.emit (leBytes n 0))
    | some t => (dataItem t.env n ts).map fun (bs, rs) => (a.relocate a.here rs).emit bs) (some a)

/-- The log2 of a power of two up to 4,096. -/
def log2Of (v : Int) : Option Nat := (List.range 13).find? fun k => (2 : Int) ^ k == v

/-- .fill count, size, value. -/
def Asm.fill (t : Option Tab) (ops : List (List Tok)) (a : Asm) : Option Asm :=
  match ops with
  | [c, s, v] =>
    (const a.env 0 (2 ^ 63 - 1) c).bind fun n => (const a.env 1 8 s).bind fun size =>
      if !([1, 2, 4, 8].contains size) then none
      else a.place.bind fun a => match t with
        | none => some (a.emit (List.replicate (n.toNat * size.toNat) 0))
        | some t => match dataItem t.env size.toNat v with
          | some (bs, []) => some (a.emit (List.replicate n.toNat bs).flatten)
          | _ => none
  | _ => none

/-! ## Tasks (R308) -/

/-- The fields of a section header and its bytes; the number is the section's ordinal modulo 16 (R50, R308). -/
def headerBytes (b : Body) (ordinal : Nat) : List Byte :=
  let w (i : Nat) : BitVec 8 := BitVec.ofNat 8 (b.waits.getD i 0)
  leBytes 8 (encodeHeader
    { dVA := w 0, dVL := w 1, dVS := w 2, dMX := w 3, dCP := w 4, dNM := w 5, num := BitVec.ofNat 4 ordinal,
      len := BitVec.ofNat 9 (3 * b.words) })

/-- Close the open section: a body of 0 words or of more than 170 is an error. -/
def Asm.closeSect (a : Asm) : Option Asm :=
  match a.task with
  | some ⟨n, some b⟩ =>
    if b.words = 0 ∨ 170 < b.words then none
    else some { a with
      secs := a.secs.modify 0 fun x => { x with bytes := x.bytes.take b.hdr ++ headerBytes b n ++ x.bytes.drop (b.hdr + 8) },
      heads := a.heads ++ [(b.hdr, b.words)], task := some ⟨n, none⟩ }
  | _ => some a

/-- The waits of .sect, each key at most once. -/
def waitKeys (e : Env) (ops : List (List Tok)) : Option (List Nat) :=
  let keys := ["VA", "VL", "VS", "MX", "CP", "NM"]
  (ops.foldl (fun (r : Option (List (String × Nat))) o => r.bind fun done => match o with
    | .ident k :: .sym "=" :: ts =>
      if !keys.contains (up k) || done.any (fun p => p.1 == up k) then none
      else (const e 0 255 ts).map fun v => done ++ [(up k, v.toNat)]
    | _ => none) (some [])).map fun done => keys.map fun k => ((List.find? (fun p => p.1 == k) done).map (·.2)).getD 0

def Asm.sect (ops : List (List Tok)) (a : Asm) : Option Asm :=
  match a.task with
  | none => none
  | some _ => a.closeSect.bind fun a => a.place.bind fun a => (waitKeys a.env ops).bind fun ws => match a.task with
    | some ⟨n, _⟩ => some { a.emit (leBytes 8 0) with task := some ⟨n + 1, some ⟨a.here, ws, 0⟩⟩ }
    | none => none

/-- The section offset that a word of the stream may transfer to, by the word's own offset. -/
def targetOf (pc : Nat) : Instr → Option Int
  | .br _ _ _ off => some (pc + 4 * off.toInt)
  | .loop _ off => some (pc + 4 * off.toInt)
  | .jmp (.off off) => some (pc + 4 * off.toInt)
  | .call (.off off) => some (pc + 4 * off.toInt)
  | _ => none

/-- A target within a task: a header, or a word of the current body (R308, R52). -/
def targetOk (heads : List (Nat × Nat)) (hdr : Nat) (t : Int) : Bool :=
  heads.any (fun h => (h.1 : Int) == t) ||
    heads.any fun h => h.1 == hdr && decide ((hdr : Int) + 8 ≤ t) && decide (t < hdr + 8 + 12 * h.2) && (t - hdr - 8) % 12 == 0

/-- A word: in .text, within a section of a task, or outside any task as a handler word (R254, R308). -/
def Asm.instr (t : Option Tab) (x : Source) (a : Asm) : Option Asm :=
  if a.cur ≠ 0 then none
  else a.place.bind fun a =>
    let body := a.task.bind TaskSt.body
    let a1 : Option Asm := match a.task, body with
      | some k, some b => some { a with task := some { k with body := some { b with words := b.words + 1 } } }
      | some _, none => none
      | none, _ => some a
    a1.bind fun a1 => match t with
      | none => some (a1.emit (leBytes 12 0))
      | some t => (assemble t.env 0 a.here x).bind fun w =>
          let ok : Bool := match body, decodeWord w.word with
            | none, _ => !Machine.handlerBad w.word
            | some b, .ok i => !w.rels.isEmpty || ((targetOf a.here i).map (targetOk t.heads b.hdr)).getD true
            | some _, .error _ => true
          if ok then some ((a1.relocate a.here w.rels).emit (leBytes 12 w.word)) else none

/-! ## Blocks: .ecb, .tpl, .launch (R309, R310, R312) -/

def setBits (w lo n v : Nat) : Nat := w - w / 2 ^ lo % 2 ^ n * 2 ^ lo + v % 2 ^ n * 2 ^ lo

/-- Set bits [lo + n − 1 : lo] of a doubleword; a later setting replaces an earlier one. -/
def Block.set (b : Block) (i lo n v : Nat) : Block :=
  { b with words := b.words.modify i fun w => setBits w lo n v,
           rels := b.rels.filter fun r => !(r.at_ == 8 * i && decide (lo < r.lo + widthOf r.type) && decide (r.lo < lo + n)) }

/-- The fields of a block that take a relocatable value, each a doubleword and its lowest bit (R309, R318): the 19-bit scratchpad addresses
and the tile of a command (R107, R263), the counter offset and the event bit of a template (R133). -/
def relFields (b : Block) : List ((Nat × Nat) × RelType) :=
  let sp (l : List (Nat × Nat)) : List ((Nat × Nat) × RelType) := l.map fun x => (x, .spoff19)
  let tile : (Nat × Nat) × RelType := ((5, 0), .ztile5)
  match b.kind, b.words.getD 0 0 % 256 with
  | .ecb, 0x01 => tile :: sp [(3, 0), (3, 24), (12, 0)]
  | .ecb, 0x02 => tile :: sp [(5, 13), (13, 0)]
  | .ecb, 0x03 => [tile]
  | .ecb, 0x04 => sp [(3, 0), (3, 24)]
  | .ecb, 0x05 => sp [(13, 0)]
  | .ecb, 0x21 => sp [(5, 0)]
  | .tpl, _ => ((5, 24), .event6) :: sp [(6, 0)]
  | _, _ => []

/-- The relocation type of n bits of a block from bit lo of doubleword i: none where the field takes no relocatable value. -/
def Block.fieldType (b : Block) (i lo n : Nat) : Option RelType :=
  (List.find? (fun p => p.1 == (i, lo) && widthOf p.2 == n) (relFields b)).map (·.2)

/-- .slot n, expr and .field n, hi, lo, expr. -/
def Block.bits (e : Env) (last : Nat) (whole : Bool) (ops : List (List Tok)) (b : Block) : Option Block :=
  let parts : Option (Int × Int × Int × List Tok) := match whole, ops with
    | true, [i, x] => (const e 0 last i).map fun i => (i, 63, 0, x)
    | false, [i, hi, lo, x] => (const e 0 last i).bind fun i => (const e 0 63 hi).bind fun hi => (const e 0 63 lo).map fun lo => (i, hi, lo, x)
    | _, _ => none
  parts.bind fun (i, hi, lo, x) =>
    if hi < lo then none
    else
      let n := (hi - lo + 1).toNat
      match expr e x with
      | some ⟨none, v⟩ =>
        if n = 64 ∨ (0 ≤ v ∧ v < 2 ^ n) ∨ (v < 0 ∧ -(2 ^ (n - 1)) ≤ v) then some (b.set i.toNat lo.toNat n (pat v)) else none
      | some ⟨some s, d⟩ => (b.fieldType i.toNat lo.toNat n).map fun ty =>
          let b := b.set i.toNat lo.toNat n 0
          { b with rels := b.rels ++ [⟨ty, 8 * i.toNat, lo.toNat, s, d⟩] }
      | none => none

/-- The eleven commands (R299). -/
def commands : List (String × Nat) :=
  [("MMA", 0x01), ("DRAIN", 0x02), ("ZACC", 0x03), ("TWFILL", 0x04), ("KAT", 0x05), ("NMATT", 0x21), ("NMOPT", 0x22), ("NMXG", 0x23),
   ("CRS", 0x41), ("CAG", 0x42), ("CAR", 0x43)]

/-- An ECB block with the opcode and the engine set. -/
def ecbBlock (op : Nat) : Block :=
  { kind := .ecb, words := (op + ((ecbEngineOf op).map EcbEngine.code).getD 0 * 256) :: List.replicate 15 0, rels := [] }

/-- A block with every bit of a relocated field set. -/
def Block.filled (b : Block) (r : RelReq) : Block := b.set (r.at_ / 8) r.lo (widthOf r.type) (2 ^ widthOf r.type - 1)

/-- The bits that an MX command may set, those of its relocated fields among them (R309). -/
def mxBitsOk (b : Block) : Bool :=
  let op := b.words.getD 0 0 % 256
  decide (5 < op) || match ecbMasks op with
    | some ms => (badSlot 0 (((b.rels.foldl Block.filled b).words.take 15).map (BitVec.ofNat 64)) ms).isNone
    | none => false

/-- The doublewords of a block that closes, none where a check fails. -/
def Block.close (b : Block) : Option (List Nat) :=
  match b.kind with
  | .ecb => if mxBitsOk b then some (b.words.take 15 ++ [(ecbCrc (b.words.map (BitVec.ofNat 64))).toNat]) else none
  | .tpl => if Machine.tplOk (b.words.map (BitVec.ofNat 64)) then some b.words else none
  | .launch => some b.words

def Asm.openBlock (k : Nat) (b : Block) (a : Asm) : Option Asm := (a.pad k).place.map fun a => { a with block := some b }

def Asm.closeBlock (t : Option Tab) (k : BlockKind) (a : Asm) : Option Asm :=
  match a.block with
  | some b =>
    if b.kind ≠ k then none
    else
      let a := { a with block := none }
      match t with
      | none => some (a.emit (leBytes (8 * b.words.length) 0))
      | some _ => b.close.map fun ws => (a.relocate a.here b.rels).emit (ws.flatMap (leBytes 8))
  | none => none

/-! ## Keys (R311, R312) -/

/-- What a key sets: a field of a doubleword within limits, a pointer with its alignment, or the parcels from the start of .text to a
label. -/
inductive Field where
  | num (i lo width : Nat) (min max : Int)
  | ptr (i align : Nat)
  | entry (i : Nat)
  deriving DecidableEq, Repr

def u32 (i lo : Nat) : Field := .num i lo 32 0 (2 ^ 32 - 1)

def tcbKeys : List (String × Field) :=
  [("policy", .num 0 56 8 0 31), ("class", .num 0 48 8 0 3), ("inherit", .num 0 45 1 0 1), ("versioned", .num 0 44 1 0 1), ("entry", .entry 0),
   ("arg", .ptr 1 1), ("minver", .num 2 32 16 0 7), ("counter", u32 2 0), ("succ", .ptr 3 4), ("ckpt", u32 4 32), ("remain", u32 4 0),
   ("hint", .num 5 8 16 0 0xFFFF), ("state", .num 5 0 8 0 9), ("index", u32 6 32), ("launch", u32 6 0)]

def launchKeys : List (String × Field) :=
  [("id", u32 0 32), ("pass", .num 0 17 1 0 1), ("step", .num 0 16 1 0 1), ("tasks", .num 1 32 32 1 1048576), ("job", u32 1 0),
   ("code", .ptr 2 256), ("tcbs", .ptr 3 64), ("bind", .ptr 4 16), ("quota", .num 5 48 16 1 1024), ("slip", .num 5 40 7 1 64),
   ("pages", .num 5 32 8 0 128), ("tiles", .num 5 26 6 0 32), ("vregs", .num 5 16 10 0 768), ("bindings", .num 5 0 16 1 1024),
   ("done", .ptr 6 8), ("report", .ptr 7 64), ("attempts", .num 8 48 8 0 255), ("threshold", .num 8 32 16 0 1024),
   ("reportsize", .num 8 0 32 64 65536), ("phase", u32 9 32), ("exchange", .entry 9), ("deps", .num 10 32 32 0 65535), ("graph", u32 10 0),
   ("succ", .ptr 11 1)]

/-- Set a field. -/
def Block.field (e : Env) (f : Field) (ts : List Tok) (b : Block) : Option Block :=
  match f, expr e ts with
  | .num i lo n min max, some ⟨none, v⟩ => if min ≤ v ∧ v ≤ max then some (b.set i lo n (pat v)) else none
  | .ptr i al, some ⟨none, v⟩ => if pat v % al = 0 then some (b.set i 0 64 (pat v)) else none
  | .ptr i _, some ⟨some s, d⟩ => some { b.set i 0 64 0 with rels := b.rels ++ [⟨.abs64, 8 * i, 0, s, d⟩] }
  | .entry i, some ⟨some s, d⟩ =>
    match e.find s with
    | some (.label 0 off) =>
      if ((off : Int) + d) % 4 = 0 ∧ 0 ≤ (off : Int) + d ∧ ((off : Int) + d) / 4 < 2 ^ 32 then some (b.set i 0 32 (((off : Int) + d) / 4).toNat) else none
    | _ => none
  | _, _ => none

/-- One pair of a .tcb: the policy may not be the reserved one, the state is WAITING or DORMANT (R175, R176). -/
def tcbPair (e : Env) (o : List Tok) (b : Block) : Option Block :=
  match o with
  | .ident k :: .sym "=" :: ts =>
    match List.find? (fun p => p.1 == k) tcbKeys with
    | some (_, f) => (b.field e f ts).bind fun b =>
        if b.words.getD 0 0 / 2 ^ 59 % 4 = 3 ∨ !([0, 9].contains (b.words.getD 5 0 % 256)) then none else some b
    | none => none
  | _ => none

/-- One pair of a .launch; exchange also sets EXCH, and range k takes (hint, base, pages) (R312, R30). -/
def launchPair (e : Env) (o : List Tok) (b : Block) : Option Block :=
  match o with
  | .ident "range" :: .num k :: .sym "=" :: .sym "(" :: ts =>
    if ts.getLast? = some (.sym ")") then range k (commas 0 ts.dropLast) b else none
  | .ident k :: .sym "=" :: ts =>
    match List.find? (fun p => p.1 == k) launchKeys with
    | some (_, f) => (b.field e f ts).map fun b => if k = "exchange" then b.set 0 18 1 1 else b
    | none => none
  | _ => none
where
  range (k : Nat) (vs : List (List Tok)) (b : Block) : Option Block :=
    match vs with
    | [h, p, n] => (const e 0 3 h).bind fun h => (const e 0 (2 ^ 48 - 1) p).bind fun p => (const e 0 (2 ^ 26 - 1) n).bind fun n =>
        if 15 < k ∨ p % 4096 ≠ 0 then none else some (b.set (16 + k) 0 64 (h.toNat * 2 ^ 62 + n.toNat * 2 ^ 36 + p.toNat / 4096))
    | _ => none

def pairs (f : List Tok → Block → Option Block) (ops : List (List Tok)) (b : Block) : Option Block :=
  ops.foldl (fun (r : Option Block) o => r.bind (f o)) (some b)

def tcbBlock : Block := { kind := .launch, words := List.replicate 5 0 ++ [0x00FFFF00, 0, 0], rels := [] }
def launchBlock : Block := { kind := .launch, words := 1 :: List.replicate 8 0 ++ [0xFFFFFFFF] ++ List.replicate 22 0, rels := [] }

/-! ## A line of a file -/

/-- The name of a block: its first operand, or the label of its line (DEDUCED, log entry 55). -/
def Asm.blockName (l : Line) (ops : List (List Tok)) (kind size : Nat) (a : Asm) : Asm × List (List Tok) :=
  match ops with
  | [.ident n] :: rest => ((match l.label with | some x => (a.name x 0 0).name n kind size | none => a.name n kind size), rest)
  | _ => ((match l.label with | some x => a.name x kind size | none => a), ops)

/-- A line outside every block. -/
def Asm.item (t : Option Tab) (l : Line) (d : String) (a : Asm) : Option Asm :=
  let ops := operandsOf l.rest
  let own := [".ECB", ".TPL", ".TCB", ".LAUNCH"].contains d
  let a0 := match l.label with | some x => if own then a else a.name x 0 0 | none => a
  let dataOk := a.task.isNone
  if l.guard.isSome ∧ d.toList.head? = some '.' then none
  else match d, ops with
    | ".TEXT", [] => if dataOk then a0.place.map fun a => { a with cur := 0 } else none
    | ".DATA", [] => if dataOk then a0.place.map fun a => { a with cur := 1 } else none
    | ".RODATA", [] => if dataOk then a0.place.map fun a => { a with cur := 2 } else none
    | ".ALIGN", [x] => if dataOk then ((const a.env 1 4096 x).bind log2Of).map fun k => a0.pad k else none
    | ".BYTE", _ => if dataOk then a0.data t 1 ops else none
    | ".HALF", _ => if dataOk then a0.data t 2 ops else none
    | ".WORD", _ => if dataOk then a0.data t 4 ops else none
    | ".DWORD", _ => if dataOk then a0.data t 8 ops else none
    | ".FILL", _ => if dataOk then a0.fill t ops else none
    | ".EQU", [[.ident n], x] => (const a.env (-(2 ^ 63)) (2 ^ 63 - 1) x).bind fun v => a0.define ⟨n, 6, 0, .const v⟩
    | ".GLOBAL", [[.ident n]] => if symbolName n then some { a0 with globals := a0.globals ++ [n] } else none
    | ".TASK", [[.ident n]] => if a.cur = 0 ∧ dataOk then some { a0.name n 1 0 with task := some ⟨0, none⟩ } else none
    | ".SECT", _ => a0.sect ops
    | ".ENDTASK", [] => match a.task with
      | some ⟨n, _⟩ => if n = 0 then none else a0.closeSect.map fun a => { a with task := none }
      | none => none
    | ".ECB", _ =>
      let (a, ops) := a.blockName l ops 2 128
      match ops with
      | [[.ident c]] => if a.cur = 0 then none else (List.find? (fun p => p.1 == up c) commands).bind fun p => a.openBlock 6 (ecbBlock p.2)
      | _ => none
    | ".TPL", _ =>
      let (a, ops) := a.blockName l ops 3 64
      if a.cur = 0 ∨ ops ≠ [] then none else a.openBlock 6 { kind := .tpl, words := List.replicate 8 0, rels := [] }
    | ".TCB", _ =>
      let (a, ops) := a.blockName l ops 4 64
      if !dataOk then none
      else (a.openBlock 6 tcbBlock).bind fun a => match t with
        | none => a.closeBlock t .launch
        | some tab => a.block.bind fun b => (pairs (tcbPair tab.env) ops b).bind fun b => ({ a with block := some b } : Asm).closeBlock t .launch
    | ".LAUNCH", _ =>
      let (a, ops) := a.blockName l ops 5 256
      if !dataOk ∨ ops ≠ [] then none else a.openBlock 8 launchBlock
    | _, _ => if d.toList.head? = some '.' then none else l.source.bind fun x => a0.instr t x

/-- A line within a block. -/
def Asm.inBlock (t : Option Tab) (l : Line) (b : Block) (a : Asm) : Option Asm :=
  let d := (l.head.map up).getD ""
  let ops := operandsOf l.rest
  let put (f : Env → Option Block) : Option Asm := match t with
    | none => some a
    | some t => (f t.env).map fun b => { a with block := some b }
  if l.label.isSome ∨ l.guard.isSome then none
  else match b.kind, d with
    | .ecb, ".ENDECB" => if ops = [] then a.closeBlock t .ecb else none
    | .tpl, ".ENDTPL" => if ops = [] then a.closeBlock t .tpl else none
    | .launch, ".ENDLAUNCH" => if ops = [] then a.closeBlock t .launch else none
    | .ecb, ".SLOT" => put fun e => b.bits e 14 true ops
    | .ecb, ".FIELD" => put fun e => b.bits e 14 false ops
    | .tpl, ".SLOT" => put fun e => b.bits e 7 true ops
    | .tpl, ".FIELD" => put fun e => b.bits e 7 false ops
    | .launch, _ => match l.head with
      | some h => put fun e => pairs (launchPair e) (operandsOf (.ident h :: l.rest)) b
      | none => none
    | _, _ => none

def Asm.line (t : Option Tab) (s : String) (a : Asm) : Option Asm :=
  (parse s).bind fun l => match l.head, a.block with
    | none, none => some (match l.label with | some x => a.name x 0 0 | none => a)
    | none, some _ => if l.label.isNone then some a else none
    | some _, some b => a.inBlock t l b
    | some h, none => a.item t l (up h)

/-- A file, read once. -/
def pass (t : Option Tab) (lines : List String) : Option Asm :=
  (lines.foldl (fun (r : Option Asm) s => r.bind (Asm.line t s)) (some Asm.start)).bind fun a =>
    if a.task.isSome || a.block.isSome then none else a.place

/-! ## The object -/

def secNames : List String := [".text", ".data", ".rodata"]

/-- The object of an assembled file: its symbols, then the names that it does not define. -/
def Asm.object (a : Asm) : Obj :=
  let own : List OSym := a.syms.map fun y => match y.val with
    | .const v => ⟨y.name, secAbs, y.kind, a.globals.contains y.name, pat v, 0⟩
    | .label s o => ⟨y.name, s, y.kind, a.globals.contains y.name, o, y.size⟩
  let names := ((a.rels.map Rel.symbol ++ a.globals).filter fun n => !a.syms.any fun y => y.name == n).foldl
    (fun (r : List String) n => if r.contains n then r else r ++ [n]) []
  let syms := own ++ names.map fun n => ⟨n, secUndef, 0, true, 0, 0⟩
  ⟨false, 0, a.secs.zipIdx.map fun p => ⟨secNames.getD p.2 "", p.2, p.1.align, p.1.bytes, 0⟩, syms,
    a.rels.map fun r => ⟨syms.findIdx? fun y => y.name == r.symbol, r.sec, r.lo, r.type, r.off, r.add⟩⟩

/-- Assemble a source file. A relocation whose container does not lie at a multiple of 4 has no entry (R316): it is an error. -/
def etas (lines : List String) : Option Obj :=
  (pass none lines).bind fun a => (pass (some ⟨a.env, a.heads⟩) lines).bind fun a =>
    if a.rels.all fun r => r.off % 4 == 0 then some a.object else none

end Sys2Proof.Etas
end

