-- ==== Sys2Proof/Machine/Loader.lean ====
section
/-!
DEFINITION. The loader (spec/14 R317, R319, spec/02 R32): it evaluates every relocation of an image, then either writes the image and submits
its launch, or refuses it with LOAD_RANGE and writes nothing of it. The loader runs on the host: no step of the machine calls it, and its
writes are host writes (spec/18 R431).
-/

namespace Sys2Proof.Etbin

open Sys2Proof.Etas

/-! ## Values (R318) -/

/-- The address of a symbol in an image at a VA: none for an undefined one to which the loader gives no value. -/
def Obj.symbolAt (o : Obj) (va : Nat) (given : List (String × Int)) (y : OSym) : Option Int :=
  if y.sec = secUndef then (List.find? (fun p => p.1 == y.name) given).map (·.2)
  else if y.sec = secAbs then some (ofPat y.value)
  else (o.secs[y.sec]?).map fun x => (va + x.place + y.value : Nat)

/-- The value of a relocation of an image at a VA. -/
def Obj.evaluate (o : Obj) (va : Nat) (given : List (String × Int)) (r : ORel) : Option Nat :=
  let s : Option Int := match r.sym with
    | none => some va
    | some n => (o.syms[n]?).bind (o.symbolAt va given)
  let p : Int := (va + ((o.secs[r.sec]?).map OSec.place).getD 0 + r.off : Nat)
  s.bind fun s => relValue r.type s r.add p

/-- The index of the first relocation that does not fit, and its symbol's name. -/
def Obj.failing (o : Obj) (va : Nat) (given : List (String × Int)) : Option (Nat × String) :=
  (o.rels.zipIdx.find? fun p => (o.evaluate va given p.1).isNone).map fun p =>
    (p.2, ((p.1.sym.bind fun n => o.syms[n]?).map OSym.name).getD "")

/-- The image with every relocation that fits applied, and its ECB images sealed. -/
def Obj.relocated (o : Obj) (va : Nat) (given : List (String × Int)) : Obj :=
  o.applyAll (o.rels.filterMap fun r => (o.evaluate va given r).map fun v => (r, v))

end Sys2Proof.Etbin

namespace Sys2Proof.Machine

open Sys2Proof.Etas Sys2Proof.Etbin

/-! ## Memory through a job's address space -/

/-- The physical address of a VA for a host write through a job's address space: its leaf has R and W. -/
def State.loadPa (s : State) (job va : Nat) : Option Nat :=
  match walk s.mem (va % 2 ^ 48) 4 (s.rootOf job) with
  | .ok (e, level, _) =>
    let pa := ptePa e + va % 2 ^ 48 % leafSize level
    if permits e .write && inMem pa then some pa else none
  | .error _ => none

/-- Every page of n bytes at va translates for writing. -/
def State.loadable (s : State) (job va n : Nat) : Bool :=
  n == 0 || (List.range ((va + n - 1) / 4096 - va / 4096 + 1)).all fun i => (s.loadPa job (max va ((va / 4096 + i) * 4096))).isSome

/-- Write bytes at va, page by page; fuel bounds the pages. -/
def State.loadPut (s : State) (job : Nat) : Nat → Nat → List Byte → State
  | 0, _, _ => s
  | n + 1, va, bs =>
    if bs.isEmpty then s
    else
      let k := 4096 - va % 4096
      match s.loadPa job va with
      | some pa => ({ s.store pa (bs.take k) (hostHint pa) with regs := s.regs } : State).loadPut job n (va + k) (bs.drop k)
      | none => s

def State.loadBytes (s : State) (job va : Nat) (bs : List Byte) : State := s.loadPut job (bs.length / 4096 + 2) va bs

/-! ## The load (R317, R319) -/

/-- What the loader tells its caller. -/
inductive Loaded where
  /-- The image stands in memory and its launch record, at this VA, is ready for LAUNCH_SUBMIT. -/
  | submit (record : Nat)
  /-- A value does not fit: the index of the first such relocation and its symbol's name. -/
  | refused (index : Nat) (symbol : String)
  /-- A malformed image, a VA that is not a multiple of its alignment, a record that is no launch symbol, or pages that do not translate
  (DESIGN CHOICE, log entry 56). -/
  | rejected
  deriving DecidableEq, Repr

/-- The words of a refused launch: LOAD_RANGE in the completion word, and the first 64 bytes of the report (R150). -/
def loadRangeWord : Word := cwWord stRefused cLoadRange 0

def loadRangeReport (id : Nat) : List Word := [BitVec.ofNat 64 (id * 2 ^ 32), loadRangeWord, 0, 0, 0, 0, 0, 0]

/-- The refusal's two writes, at the pointers as the loader computed them; where one is 0, misaligned, or does not translate for writing,
nothing is written (DEDUCED, log entry 55). -/
def State.loadRefuse (s : State) (job : Nat) (record : List Byte) : State :=
  let id := numAt record 4 4
  let done := numAt record 48 8
  let report := numAt record 56 8
  if done = 0 ∨ done % 8 ≠ 0 ∨ report = 0 ∨ report % 64 ≠ 0 ∨ !s.loadable job done 8 ∨ !s.loadable job report 64 then s
  else (s.loadBytes job report ((loadRangeReport id).flatMap fun w => leBytes 8 w.toNat)).loadBytes job done (leBytes 8 loadRangeWord.toNat)

/-- Load an image at a VA for a job, with values for its undefined symbols; launch is the index of its launch symbol. -/
def State.loadImage (s : State) (job va : Nat) (o : Obj) (given : List (String × Int)) (launch : Nat) : State × Loaded :=
  match o.syms[launch]? with
  | none => (s, .rejected)
  | some y =>
    if !o.image ∨ !o.ok ∨ va % o.alignment ≠ 0 ∨ y.kind ≠ 5 then (s, .rejected)
    else
      let m := o.relocated va given
      let at_ := ((m.secs[y.sec]?).map OSec.place).getD 0 + y.value
      match o.failing va given with
      | some (i, name) => (s.loadRefuse job ((((m.secs[y.sec]?).map OSec.bytes).getD [] |>.drop y.value).take 256), .refused i name)
      | none =>
        if m.secs.all fun x => s.loadable job (va + x.place) x.bytes.length then
          (m.secs.foldl (fun s x => s.loadBytes job (va + x.place) x.bytes) s, .submit (va + at_))
        else (s, .rejected)

end Sys2Proof.Machine
end

