-- ==== Sys2Proof/Safety.lean ====
section
/-!
DEFINITION. What a safe run is, and the vocabulary of the statements: what an instruction may change and what it leaves alone, in
terms of reads of memory and of the core in focus.
-/

namespace Sys2Proof.Machine

/-! ## The registers that software programs (spec/06 R145, spec/08 R174, spec/10 R238, spec/12 R267, spec/13 R274) -/

/-- Every programmed word is one that exists, within the limits of its fields. -/
def regsLegal (regs : KMap Word) : Bool := regs.all fun r => regKnown r.1 && regLegal r.1 r.2

/-- The quotas of the enabled retention registers are at most 64 MiB together (R145), and every register is legal. -/
def State.Inv (s : State) : Prop := retTotal s.regs ≤ 1024 ∧ regsLegal s.regs = true

/-! ## Frames -/

/-- Every byte of physical memory reads as before. -/
def SameMemory (s t : State) : Prop := ∀ a, Memory.read t.mem a = Memory.read s.mem a

/-- t is s but for core c, which is k: every byte of memory, every other core and everything outside the cores is as before. -/
def OnlyCore (s t : State) (c : Nat) (k : Core) : Prop :=
  SameMemory s t ∧ { t with cores := s.cores } = s ∧ (∀ d, d ≠ c → t.core d = s.core d) ∧ t.core c = k

/-- i answers a next state in which only the core in focus has changed, to k. -/
def Answers (i : Instr) (s : State) (k : Core) : Prop := ∃ t, exec i s = .next t ∧ OnlyCore s t s.focus k

/-- A core whose SQ has completed a word that leaves architectural state a: SQ goes on after the word, one more word has retired, and
nothing else of the core has changed. -/
def Core.completed (k : Core) (a : Arch) : Core := { k with arch := a.advance.retire, stallSq := none }

/-- i completes at SQ with architectural state a. -/
def Completes (i : Instr) (s : State) (a : Arch) : Prop := Answers i s (s.cur.completed a)

/-- a is b but for the scalar register sd, which reads v; s0 goes on reading 0 (R295). -/
def ScalarIs (b a : Arch) (sd : SReg) (v : Word) : Prop :=
  (∀ r, a.rd r = if r = sd ∧ r ≠ 0 then v else b.rd r) ∧ { a with sregs := b.sregs } = b

/-- i completes at SQ, and all it changes beside the position and RETIRED is sd, which reads v. -/
def WritesOnly (i : Instr) (s : State) (sd : SReg) (v : Word) : Prop := ∃ a, ScalarIs s.arch a sd v ∧ Completes i s a

/-- i completes at SQ as a local read that can order what follows (spec/07 R165, R167): sd reads v, and the core notes the cycle (the model's
own mark, log entry 49). -/
def LoadsOnly (i : Instr) (s : State) (sd : SReg) (v : Word) : Prop :=
  ∃ a, ScalarIs s.arch a sd v ∧ Answers i s { s.cur.completed a with acquired := s.cycle }

/-- i completes at SQ with architectural state a, and in this cycle only turns from rank r on follow it (spec/03 R62; the model's own mark, log
entry 1). -/
def CompletesAt (i : Instr) (s : State) (a : Arch) (r : Nat) : Prop :=
  ∃ t, exec i s = .next t ∧ OnlyCore s { t with rank := s.rank } s.focus (s.cur.completed a) ∧ t.rank = max s.rank r

/-- SQ may process a word outside a handler that names the registers rs. -/
def SqReady (s : State) (rs : List SReg) : Prop := s.cur.free rs = true ∧ s.inHandler = false

/-- i stops SQ with a cause that the handler takes (R253): the saved registers, the mode and the entry; nothing else changes. -/
def EntersHandler (i : Instr) (s : State) (cause : Nat) (info : Word) : Prop :=
  let entry := if s.arch.trapvec ≠ 0 then s.arch.trapvec else s.reg mSupvec
  Answers i s { s.cur with
    stallSq := none,
    arch := { s.arch with trappc := s.arch.word, trapcause := BitVec.ofNat 64 cause, trapinfo := info, sv := true, nest := true,
                          hpc := entry, hentry := entry } }

/-- A handler exists, and none is running (R253, R73). -/
def HandlerThere (s : State) : Prop := s.arch.nest = false ∧ (s.arch.trapvec ≠ 0 ∨ s.reg mSupvec ≠ 0)

/-- Bytes [o, o + n) of the scratchpad lie in the declared pages, and nothing stands in the way of an access: no page of them is absent
or being moved, none is write-locked, and no latent error is known to the core. -/
def SpClear (s : State) (o n : Nat) : Prop :=
  o + n ≤ 2 ^ 19 ∧ s.inPages o n = true ∧ s.cur.flaws = [] ∧ s.arch.absentPage o n = none ∧
    s.cur.pageBusy s.arch.seq o n = false ∧ s.cur.locked o n = false

/-! ## Engines -/

/-- Engine q may take e, which holds the word i: e stands at the head, owes nothing, follows everything it depends on, and its token
is there (R56, R57, R60). -/
def AtHead (s : State) (q : Vq) (i : Instr) (e : VEntry) : Prop :=
  s.atEngine = true ∧ (s.arch.vq q).head? = some e ∧ e.instr = i ∧ kfind s.arch.owed (Vq.code q) = none ∧
    s.cur.blocked q e = false ∧ s.arch.tokReady (Chan.code (Machine.Instr.vctl i).pop) = true ∧ s.cur.flaws = []

/-- The core after engine q has retired e with architectural state a: e leaves its queue, its token is popped and its push paid or owed
(R59, R60), RETIRED counts it, and the trace has its record where it is on. -/
def Core.entryDone (k : Core) (cycle : Nat) (q : Vq) (e : VEntry) (a : Arch) : Core :=
  { k.trace cycle 5 (Vq.code q) (e.sec % 2 ^ 24) e.addr with
    arch := a.retireHead q (Chan.code (Machine.Instr.vctl e.instr).push), stalls := kdel k.stalls (Vq.code q) }

/-- The lanes of v: r in the active lanes of the control field's predicate, and 0 or the old value in the others (R398, R404). -/
def LanesAre (a : Arch) (c : VCtl) (old : Vec) (v : Vec) (r : Nat → W32) : Prop :=
  ∀ l, l < 64 → laneAt v l = if bitAt (a.prd c.qp) l then r l else if c.z then 0 else laneAt old l

/-- i, at the head of engine q, writes vd: r in its active lanes; and ORs f into FPFLAGS. -/
def WritesLanes (i : Instr) (s : State) (q : Vq) (e : VEntry) (vd : VReg) (r : Nat → W32) (f : FFlags) : Prop :=
  let c := Machine.Instr.vctl i
  ∃ v, LanesAre s.arch c (s.arch.vrd vd) v r ∧
    Answers i s (s.cur.entryDone s.cycle q e (((s.arch.popTok (Chan.code c.pop)).vwr vd v).orFlags f))

/-! ## Events -/

/-- i answers exactly t. -/
def Gives (i : Instr) (s t : State) : Prop := exec i s = .next t

/-- i changes core c alone, to k. -/
def CoreGets (i : Instr) (s : State) (c : Nat) (k : Core) : Prop := ∃ t, exec i s = .next t ∧ OnlyCore s t c k

end Sys2Proof.Machine
end

