-- ==== Sys2Proof/Certificates/Slice0/Obligations.lean ====
section
/-!
DEFINITION. The statements for the provers, from the numbered rules of spec/. A statement about an instruction says, for hypotheses on
the state and the operands alone, that exec answers a next state, and what that state is.
-/

open Sys2Proof Sys2Proof.Machine

/-! ## The scalar words, class SA -/

/-- What src2 is (R320): sb, or the 32-bit immediate with its sign. -/
def Sys2Proof.Vocab.second (s : State) : Src2 → Word
  | .reg sb => s.arch.rd sb
  | .imm v => BitVec.signExtend 64 v

/-- R374: NOP completes and changes nothing but RETIRED and the position; the all-zero word is NOP, a word of opcode 0 with any other
bit set in class SA is refused, and a word of zero parcels with another class is not NOP. -/
def Obligations.NopChangesNothingButRetired : Prop :=
  (∀ s : State, Completes .nop s s.arch) ∧
  (∀ s t : State, exec .nop s = .next t → t.arch.retired = s.arch.retired + 1 ∧ SameMemory s t ∧
    (∀ r, t.arch.rd r = s.arch.rd r)) ∧
  decode (List.replicate 12 0) = .ok (.nop, 12) ∧
  (∀ w : Nat, 0 < w → w < 2 ^ 96 → w / 2 ^ 21 % 2 ^ 11 = 0 → ∃ b, decode (leBytes 12 w) = .error (.illegalField b)) ∧
  (∀ c : Nat, 0 < c → c < 8 → ∀ n, decode (leBytes 12 (c * 2 ^ 29)) ≠ .ok (.nop, n))

/-- R323, R392, R369, R327, R375, R384: the two-source words of class SA complete for every operand, and write their result. -/
def Sys2Proof.Parts.IntegerWordsWriteTheirResults : Prop :=
  ∀ (s : State) (sd sa : SReg) (src : Src2), s.cur.free (sd :: sa :: src2Regs src) = true →
    let x := s.arch.rd sa
    let y := Vocab.second s src
    WritesOnly (.add sd sa src) s sd (BitVec.ofNat 64 (x.toNat + y.toNat)) ∧
    WritesOnly (.sub sd sa src) s sd (BitVec.ofInt 64 (x.toInt - y.toInt)) ∧
    WritesOnly (.mul sd sa src) s sd (BitVec.ofNat 64 (x.toNat * y.toNat)) ∧
    WritesOnly (.and sd sa src) s sd (x &&& y) ∧
    WritesOnly (.or sd sa src) s sd (x ||| y) ∧
    WritesOnly (.xor sd sa src) s sd (x ^^^ y) ∧
    WritesOnly (.andn sd sa src) s sd (x &&& ~~~y) ∧
    WritesOnly (.shl sd sa src) s sd (x <<< (y.toNat % 64)) ∧
    WritesOnly (.shr sd sa src) s sd (x >>> (y.toNat % 64)) ∧
    WritesOnly (.sra sd sa src) s sd (x.sshiftRight (y.toNat % 64))

/-- R369, R342, R382: the high half of the exact product, the quotient that truncates toward zero and the remainder of the
dividend's sign, each with its corners. -/
def Sys2Proof.Parts.HighProductQuotientAndRemainder : Prop :=
  ∀ (s : State) (sd sa : SReg) (src : Src2), s.cur.free (sd :: sa :: src2Regs src) = true →
    let x := s.arch.rd sa
    let y := Vocab.second s src
    WritesOnly (.mulh .s sd sa src) s sd (BitVec.ofInt 64 (x.toInt * y.toInt / 2 ^ 64)) ∧
    WritesOnly (.mulh .u sd sa src) s sd (BitVec.ofNat 64 (x.toNat * y.toNat / 2 ^ 64)) ∧
    WritesOnly (.div .s sd sa src) s sd (if y = 0 then BitVec.ofInt 64 (-1) else BitVec.ofInt 64 (x.toInt.tdiv y.toInt)) ∧
    WritesOnly (.div .u sd sa src) s sd (if y = 0 then BitVec.ofNat 64 (2 ^ 64 - 1) else BitVec.ofNat 64 (x.toNat / y.toNat)) ∧
    WritesOnly (.rem .s sd sa src) s sd (if y = 0 then x else BitVec.ofInt 64 (x.toInt.tmod y.toInt)) ∧
    WritesOnly (.rem .u sd sa src) s sd (if y = 0 then x else BitVec.ofNat 64 (x.toNat % y.toNat))

/-- R336, R349, R354: leading zeros, field extraction and field insertion, bit by bit. -/
def Sys2Proof.Parts.BitFieldWordsBitByBit : Prop :=
  ∀ (s : State) (sd sa sc : SReg), s.cur.free [sd, sa, sc] = true →
    let x := s.arch.rd sa
    let y := s.arch.rd sc
    (∃ n, n ≤ 64 ∧ (∀ i, i < n → x.getLsbD (63 - i) = false) ∧ (n < 64 → x.getLsbD (63 - n) = true) ∧
      WritesOnly (.clz sd sa) s sd (BitVec.ofNat 64 n)) ∧
    (∀ (v : Sgn) (lo : Fin 64) (w : Fin 128), 1 ≤ w.val → lo.val + w.val ≤ 64 →
      (∃ r : Word, (∀ i, i < 64 → r.getLsbD i = if i < w.val then x.getLsbD (lo.val + i)
          else (v == .s && x.getLsbD (lo.val + w.val - 1))) ∧ WritesOnly (.ext v sd sa lo w) s sd r) ∧
      (∃ r : Word, (∀ i, i < 64 → r.getLsbD i = if lo.val ≤ i ∧ i < lo.val + w.val then y.getLsbD (i - lo.val)
          else x.getLsbD i) ∧ WritesOnly (.ins sd sa sc lo w) s sd r))

/-- R320, R323, R327, R375, R384, R392, R369, R342, R382, R336, R349, R354: the integer words of SQ, products, quotients, remainders, leading zeros and bit fields. -/
def Obligations.IntegerWordsAndBitFields : Prop :=
  Parts.IntegerWordsWriteTheirResults ∧ Parts.HighProductQuotientAndRemainder ∧ Parts.BitFieldWordsBitByBit

/-- R377: POPC has class SA and opcode 0x0F with sd and sa, and writes the number of set bits of sa, from 0 to 64. -/
def Obligations.PopcCountsSetBits : Prop :=
  (∀ (sd sa : SReg), decode (leBytes 12 (0x0F * 2 ^ 21 + sd.val * 2 ^ 15 + sa.val * 2 ^ 9)) = .ok (.popc sd sa, 12)) ∧
  (∀ (s : State) (sd sa : SReg), s.cur.free [sd, sa] = true →
    ∃ n, n ≤ 64 ∧ n = ((List.range 64).countP fun i => (s.arch.rd sa).getLsbD i) ∧
      WritesOnly (.popc sd sa) s sd (BitVec.ofNat 64 n))

/-- Cond (R328): x against y, as signed or unsigned 64-bit values. -/
def Sys2Proof.Vocab.holds (c : Cond) (x y : Word) : Bool :=
  match c with
  | .eq => decide (x = y) | .ne => decide (x ≠ y)
  | .lt => decide (x.toInt < y.toInt) | .le => decide (x.toInt ≤ y.toInt)
  | .gt => decide (y.toInt < x.toInt) | .ge => decide (y.toInt ≤ x.toInt)
  | .ltu => decide (x.toNat < y.toNat) | .leu => decide (x.toNat ≤ y.toNat)
  | .gtu => decide (y.toNat < x.toNat) | .geu => decide (y.toNat ≤ x.toNat)

/-- R364, R383, R337, R352, R362: the words that choose, compare, mix and load a constant. -/
def Obligations.SelectingWordsWriteTheirResults : Prop :=
  ∀ (s : State) (sd sa sb sc : SReg) (src : Src2) (c : Cond) (k : Word),
    s.cur.free (sd :: sa :: sb :: sc :: src2Regs src) = true →
    let x := s.arch.rd sa
    let y := Vocab.second s src
    WritesOnly (.min .s sd sa src) s sd (if x.toInt ≤ y.toInt then x else y) ∧
    WritesOnly (.max .s sd sa src) s sd (if y.toInt ≤ x.toInt then x else y) ∧
    WritesOnly (.min .u sd sa src) s sd (if x.toNat ≤ y.toNat then x else y) ∧
    WritesOnly (.max .u sd sa src) s sd (if y.toNat ≤ x.toNat then x else y) ∧
    WritesOnly (.sel sd sa src sc) s sd (if s.arch.rd sc = 0 then y else x) ∧
    WritesOnly (.cmp c sd sa src) s sd (if Vocab.holds c x y then 1 else 0) ∧
    WritesOnly (.hash sd sa sb sc) s sd
      ((mix32 (x.setWidth 32) ((s.arch.rd sb).setWidth 32) ((s.arch.rd sc).setWidth 32)).setWidth 64) ∧
    WritesOnly (.li sd k) s sd k

/-! ## Control transfer -/

/-- SQ stands at a word of a body outside a handler, and T, at a parcel offset from it, is a word of the same body (R49, R290, R321). -/
def Sys2Proof.Vocab.inBody (s : State) (off : W32) (t : Word) : Prop :=
  s.arch.sv = false ∧ t = s.arch.pc + BitVec.signExtend 64 off * 4 ∧ t.toNat % 4 = 0 ∧
    (t - s.arch.bodyStart).toNat < 4 * s.arch.bodyLen ∧ (t - s.arch.bodyStart).toNat % 12 = 0

/-- The core after a transfer within the body: the next word is at T, RETIRED counts the word, the trace has its record, and a is the
register file it leaves. -/
def Sys2Proof.Vocab.gone (s : State) (t : Word) (a : Arch) : Core :=
  { s.cur.trace s.cycle 1 0 (s.arch.sect % 2 ^ 24) t with
    stallSq := none, arch := { a with pc := t, atHeader := false, retired := s.arch.retired + 1 } }

/-- R328, R355, R333, R363 within a body (R321): the taken branch, the jump, the call that leaves the next word's address in lk, the
loop that counts down; the branch not taken and the loop that ends go on after the word. -/
def Obligations.TransfersWithinTheBody : Prop :=
  ∀ (s : State) (sa sb : SReg) (off : W32) (t : Word), Vocab.inBody s off t → s.cur.free [sa, sb, SReg.lk] = true →
    Answers (.jmp (.off off)) s (Vocab.gone s t s.arch) ∧
    (s.arch.rd sa = t → Answers (.jmp (.reg sa)) s (Vocab.gone s t s.arch)) ∧
    (∃ a, ScalarIs s.arch a SReg.lk (s.arch.pc + 12) ∧ Answers (.call (.off off)) s (Vocab.gone s t a)) ∧
    (s.arch.rd sa = t → ∃ a, ScalarIs s.arch a SReg.lk (s.arch.pc + 12) ∧ Answers (.call (.reg sa)) s (Vocab.gone s t a)) ∧
    (∀ c, if Vocab.holds c (s.arch.rd sa) (s.arch.rd sb) then Answers (.br c sa (.reg sb) off) s (Vocab.gone s t s.arch)
      else Completes (.br c sa (.reg sb) off) s s.arch) ∧
    (∀ c v, if Vocab.holds c (s.arch.rd sa) (BitVec.signExtend 64 v)
      then Answers (.br c sa (.imm6 v) off) s (Vocab.gone s t s.arch) else Completes (.br c sa (.imm6 v) off) s s.arch) ∧
    (1 < (s.arch.rd sa).toNat →
      ∃ a, ScalarIs s.arch a sa (s.arch.rd sa - 1) ∧ Answers (.loop sa off) s (Vocab.gone s t a)) ∧
    ((s.arch.rd sa).toNat ≤ 1 → WritesOnly (.loop sa off) s sa 0)

/-- R51, R52, R53: a header of a positive length in whole words opens a section: the next number by fall-through, the next that ends in
the header's four bits by a transfer; its body starts 8 bytes on, and its deltas wait to be met. -/
def Obligations.HeaderOpensItsSection : Prop :=
  ∀ (s : State) (h : Header) (n : Nat), s.inHandler = false → 0 < h.len.toNat → h.len.toNat % 3 = 0 → n < 2 ^ 32 →
    n % 16 = h.num.toNat → s.arch.sect < n →
    (s.arch.jumped = false → n = s.arch.sect + 1) → (s.arch.jumped = true → n ≤ s.arch.sect + 16) →
    Answers (.sectionHeader h) s { s.cur with
      stallSq := none,
      arch := { s.arch with
        pc := s.arch.pc + 8, bodyStart := s.arch.pc + 8, bodyLen := h.len.toNat, atHeader := false, jumped := false, sect := n,
        waits := [h.dVA.toNat, h.dVL.toNat, h.dVS.toNat, h.dMX.toNat, h.dCP.toNat, h.dNM.toNat] } }

/-! ## Traps, the handler, system registers -/

/-- R253, R255, R394, R351, R365: TRAP enters the handler with cause TRAP and its immediate; ERET and HALT outside a handler, a write of
a supervisor's register and a read of an error log there enter it with PRIVILEGE. The saved pc is the trapped word's. -/
def Sys2Proof.Parts.TrapsEnterTheHandler : Prop :=
  ∀ (s : State) (imm : W32) (reg : Fin 4096) (sd sa : SReg), HandlerThere s → s.cur.free [sd, sa] = true →
    EntersHandler (.trap imm) s cTrapInsn (imm.setWidth 64) ∧
    (s.arch.sv = false → EntersHandler .eret s cPrivilege s.arch.word ∧ EntersHandler .halt s cPrivilege s.arch.word ∧
      (reg.val ∈ [0x001, 0x002, 0x003, 0x004, 0x070, 0x071, 0x072, 0x073, 0x074, 0x080, 0x081, 0x082, 0x083, 0x084, 0x090, 0x0A0] →
        EntersHandler (.mts reg sa) s cPrivilege (BitVec.ofNat 64 reg.val)) ∧
      (0x080 ≤ reg.val ∧ reg.val ≤ 0x084 → EntersHandler (.mfs sd reg) s cPrivilege (BitVec.ofNat 64 reg.val)))

/-- R254, R347: ERET leaves the handler for the trapped word, or for the next one, with SV and NEST clear; a TRAPPC that is neither
raises STREAM_FAULT, which aborts the task while NEST is set (R73). -/
def Sys2Proof.Parts.EretReturnsFromTheHandler : Prop :=
  ∀ s : State, s.arch.sv = true →
    (s.arch.trappc = s.arch.pc →
      Answers .eret s { s.cur with
        stallSq := none, arch := { s.arch with sv := false, nest := false, retired := s.arch.retired + 1 } }) ∧
    (s.arch.trappc = s.arch.pc + 12 → s.arch.atHeader = false →
      Answers .eret s { s.cur with
        stallSq := none,
        arch := { s.arch with sv := false, nest := false, retired := s.arch.retired + 1, pc := s.arch.pc + 12, jumped := false,
                              atHeader := (s.arch.pc + 12 == s.arch.bodyStart + BitVec.ofNat 64 (4 * s.arch.bodyLen)) } }) ∧
    (s.arch.trappc ≠ s.arch.pc → s.arch.trappc ≠ s.arch.pc + 12 →
      exec .eret s = .next { s.raiseCause cStreamFault s.arch.trappc with regs := s.regs })

/-- R351: HALT ends the task with the cause that was trapped, as one of disposition L: in a task, the launch faults. -/
def Sys2Proof.Parts.HaltEndsTheTask : Prop :=
  ∀ s : State, s.arch.sv = true → (s.arch.trapcause.field 0 8 ≠ 0) →
    exec .halt s = .next
      { s.abortCore s.focus (s.arch.trapcause.field 0 8) s.arch.trapinfo .faulted with regs := s.regs }

/-- R253, R254, R255, R394, R347, R351, R365, R73: the handler is entered, left, and ends its task. -/
def Obligations.TrapsEnterAndLeaveTheHandler : Prop :=
  Parts.TrapsEnterTheHandler ∧ Parts.EretReturnsFromTheHandler ∧ Parts.HaltEndsTheTask

/-- w holds the fields: low bit, width, value. -/
def Sys2Proof.Vocab.Fields (w : Word) (fs : List (Nat × Nat × Nat)) : Prop := ∀ f ∈ fs, w.toNat / 2 ^ f.1 % 2 ^ f.2.1 = f.2.2

/-- R72, R73, R365, R63, R234, R257: MFS writes to sd the value of each register of the table, every field of it, reserved bits 0; FPFLAGS once
VA is empty; an error log's oldest entry in the handler, which removes it. TASK_PTR of an exchange stream is free (log entry 16). -/
def Sys2Proof.Parts.SystemRegistersRead : Prop :=
  ∀ (s : State) (sd : SReg) (ring : Ring5) (scrub log : Fin 4096), s.cur.free [sd] = true →
    scrub.val = 0x070 + Ring5.code ring → log.val = 0x080 + Ring5.code ring →
    let k := s.cur
    let a := s.arch
    let reads (reg : Fin 4096) (v : Word) : Prop := WritesOnly (.mfs sd reg) s sd v
    let holds (reg : Fin 4096) (fs : List (Nat × Nat × Nat)) : Prop := ∃ w, Vocab.Fields w fs ∧ reads reg w
    holds 0x000 [(0, 1, a.sv.toNat), (1, 1, a.nest.toNat), (2, 1, 0), (3, 1, a.sliceflr.toNat), (4, 1, k.degraded.toNat),
      (5, 1, k.tfrozen.toNat), (6, 58, 0)] ∧
    reads 0x001 a.trapvec ∧ reads 0x002 a.trappc ∧ reads 0x003 a.trapcause ∧ reads 0x004 a.trapinfo ∧ reads 0x005 a.trapsave ∧
    reads 0x010 (BitVec.ofNat 64 s.focus) ∧
    (∀ r, k.run = some r → r.exch = false → reads 0x011 (BitVec.ofNat 64 r.tcb)) ∧
    (∀ r, k.run = some r → reads 0x012 (BitVec.ofNat 64 (r.launch % 2 ^ 32)) ∧ reads 0x013 (BitVec.ofNat 64 (r.job % 2 ^ 32))) ∧
    reads 0x020 (BitVec.ofNat 64 s.cycle) ∧ reads 0x021 (BitVec.ofNat 64 a.retired) ∧
    holds 0x022 [(0, 16, k.ldCount % 2 ^ 16), (16, 16, s.stCount s.focus % 2 ^ 16), (32, 16, k.cpCount % 2 ^ 16),
      (48, 16, k.mxCount % 2 ^ 16)] ∧
    holds 0x023 [(0, 8, a.sect % 256), (8, 8, k.retiredSec 1 % 256), (16, 8, k.retiredSec 0 % 256), (24, 8, k.retiredSec 2 % 256),
      (32, 8, k.retiredSec 3 % 256), (40, 8, k.retiredSec 4 % 256), (48, 8, k.retiredSec 5 % 256), (56, 8, 0)] ∧
    reads 0x030 a.events ∧ reads 0x031 (BitVec.ofNat 64 a.slip) ∧ reads 0x032 (BitVec.ofNat 64 k.ageLimit) ∧
    (a.va = [] → reads 0x033 (a.fpflags.setWidth 64)) ∧
    (a.va ≠ [] → Answers (.mfs sd 0x033) s { k with stallSq := some .interlock }) ∧
    reads 0x040 (a.seed.setWidth 64) ∧ reads 0x050 k.tracectl ∧ reads 0x051 k.tracetrig ∧
    (k.traceIdx < 2048 → holds 0x052 [(0, 1, 0), (1, 11, k.traceIdx), (12, 1, k.traceWrapped.toNat), (13, 51, 0)]) ∧
    reads 0x060 (if k.mixchk then 1 else 0) ∧
    ((k.scrub (Ring5.code ring)).interval < 2 ^ 32 →
      holds scrub [(0, 32, (k.scrub (Ring5.code ring)).interval), (32, 1, (k.scrub (Ring5.code ring)).pass.toNat), (33, 31, 0)]) ∧
    (a.sv = true → ∃ b m, ScalarIs a b sd ((kget k.errlogs (Ring5.code ring) []).headD 0) ∧
      (kwf k.errlogs = true → kget m (Ring5.code ring) [] = (kget k.errlogs (Ring5.code ring) []).tail) ∧
      Answers (.mfs sd log) s ({ k with errlogs := m }.completed b)) ∧
    reads 0x090 a.lattol ∧ reads 0x0A0 k.katcount

/-- R72, R73, R365, R366, R234, R257: MTS writes each register that software may write, in the mode that may write it, and nothing else; of
STATUS it clears SLICEFLR alone. A value outside a field's limits enters the handler with ILLEGAL_FIELD, the register's number and the lowest
bit of the field, and the register keeps its value. -/
def Sys2Proof.Parts.SystemRegistersWritten : Prop :=
  ∀ (s : State) (sa : SReg) (ring : Ring5) (scrub log : Fin 4096), s.cur.free [sa] = true →
    scrub.val = 0x070 + Ring5.code ring → log.val = 0x080 + Ring5.code ring →
    let v := s.arch.rd sa
    let n := v.toNat
    let k := s.cur
    let a := s.arch
    let sets (reg : Fin 4096) (k' : Core) : Prop := Answers (.mts reg sa) s (k'.completed k'.arch)
    let arch (reg : Fin 4096) (b : Arch) : Prop := Completes (.mts reg sa) s b
    let bad (reg : Fin 4096) (bit : Nat) : Prop :=
      EntersHandler (.mts reg sa) s cIllegalField (BitVec.ofNat 64 (2 ^ 63 + 256 * reg.val + bit))
    (n < 64 → n / 4 % 2 = 0 → arch 0x000 { a with sliceflr := a.sliceflr && decide (n / 8 % 2 = 1) }) ∧
    arch 0x005 { a with trapsave := v } ∧
    CompletesAt (.mts 0x030 sa) s { a with events := v } (if v = 0 then 0 else rSets) ∧
    (1 ≤ n → n ≤ s.runD.slip → arch 0x031 { a with slip := n }) ∧
    (8 ≤ n → n ≤ 1024 → sets 0x032 { k with ageLimit := n }) ∧
    (n < 32 → a.va = [] → arch 0x033 { a with fpflags := v.setWidth 5 }) ∧
    (n < 2 ^ 32 → arch 0x040 { a with seed := v.setWidth 32 }) ∧
    (n / 4 % 2 = 0 → n / 2 ^ 10 % 2 = 0 → n / 2 ^ 16 % 2 ^ 32 = 0 → n / 2 ^ 48 ≤ 2047 →
      sets 0x050 { k with tracectl := v, traceIdx := 0, traceWrapped := false, traceLeft := none, tfrozen := false }) ∧
    (n < 2 ^ 48 → n % 4 = 0 → sets 0x051 { k with tracetrig := v }) ∧
    (n < 2 → sets 0x060 { k with mixchk := decide (n = 1) }) ∧
    (a.sv = true →
      (n % 4 = 0 → arch 0x001 { a with trapvec := v }) ∧ arch 0x002 { a with trappc := v } ∧
      (n < 256 → arch 0x003 { a with trapcause := v }) ∧ arch 0x004 { a with trapinfo := v } ∧
      (n % 2 ^ 32 = 0 ∨ 64 ≤ n % 2 ^ 32 → sets scrub
        { k with scrubs := kset k.scrubs (Ring5.code ring) { k.scrub (Ring5.code ring) with interval := n % 2 ^ 32 } }) ∧
      (n = 0 → ∃ m, (kwf k.errlogs = true → kget m (Ring5.code ring) [] = []) ∧ sets log { k with errlogs := m }) ∧
      arch 0x090 { a with lattol := v } ∧ sets 0x0A0 { k with katcount := v }) ∧
    (HandlerThere s →
      (n / 4 % 2 = 1 → bad 0x000 2) ∧ (n / 4 % 2 = 0 → 64 ≤ n → bad 0x000 6) ∧
      (n = 0 ∨ s.runD.slip < n → bad 0x031 0) ∧ (n < 8 ∨ 1024 < n → bad 0x032 0) ∧ (32 ≤ n → a.va = [] → bad 0x033 5) ∧
      (2 ^ 32 ≤ n → bad 0x040 32) ∧ (n / 4 % 2 = 1 → bad 0x050 2) ∧ (n % 4 ≠ 0 → bad 0x051 0) ∧ (n % 4 = 0 → 2 ^ 48 ≤ n → bad 0x051 48) ∧
      (2 ≤ n → bad 0x060 1)) ∧
    (let traps (reg : Fin 4096) (bit : Nat) : Prop := exec (.mts reg sa) s =
       .next { s.raiseCause cIllegalField (BitVec.ofNat 64 (2 ^ 63 + 256 * reg.val + bit)) with regs := s.regs }
     a.sv = true → (n % 4 ≠ 0 → traps 0x001 0) ∧ (256 ≤ n → traps 0x003 8) ∧ (1 ≤ n % 2 ^ 32 → n % 2 ^ 32 < 64 → traps scrub 0) ∧
       (n ≠ 0 → traps log 0))

/-- R72, R73, R365, R366: MFS and MTS of every system register. -/
def Obligations.SystemRegistersMove : Prop :=
  Parts.SystemRegistersRead ∧ Parts.SystemRegistersWritten

/-! ## Waits and events -/

/-- R348: EVSET ORs the mask into the event register, EVCLR clears it, EVWAIT completes once every bit of it is set and clears none. -/
def Sys2Proof.Parts.EventWordsSetClearAndWait : Prop :=
  ∀ (s : State) (m : EvMask), s.cur.free (evRegs m) = true →
    let w : Word := match m with | .reg sa => s.arch.rd sa | .bit n => 1#64 <<< n.val
    CompletesAt (.evset m) s { s.arch with events := s.arch.events ||| w } rSets ∧
    Completes (.evclr m) s { s.arch with events := s.arch.events &&& ~~~w } ∧
    (s.arch.events &&& w = w → Completes (.evwait m) s s.arch) ∧
    (s.arch.events &&& w ≠ w → Answers (.evwait m) s { s.cur with stallSq := some .event })

/-- R353, R422, R159: IDLE, WAITC and FENCE complete once what they wait for has happened, and change nothing else; until then SQ
stalls on a class counter. -/
def Sys2Proof.Parts.WaitingWordsComplete : Prop :=
  ∀ (s : State) (scope : Fin 8) (mask : BitVec 16) (ld st cp mx : BitVec 8),
    (s.arch.vl = [] ∧ s.arch.va = [] ∧ s.arch.vs = [] ∧ s.arch.mx = [] ∧ s.arch.nm = [] ∧ s.arch.cl = [] ∧
      (∀ c ∈ s.cur.copies, c.2.owing = true) → Completes .idle s s.arch) ∧
    (s.arch.va ≠ [] ∨ (∃ c ∈ s.cur.copies, c.2.owing = false) → Answers .idle s { s.cur with stallSq := some .counter }) ∧
    (s.cur.ldCount ≤ ld.toNat → s.stCount s.focus ≤ st.toNat → s.cur.cpCount ≤ cp.toNat → s.cur.mxCount ≤ mx.toNat →
      Completes (.waitc ld st cp mx) s s.arch) ∧
    (ld.toNat < s.cur.ldCount ∨ st.toNat < s.stCount s.focus ∨ cp.toNat < s.cur.cpCount ∨ mx.toNat < s.cur.mxCount →
      Answers (.waitc ld st cp mx) s { s.cur with stallSq := some .counter }) ∧
    (s.fenceMet scope.val mask = true → Completes (.fence scope mask) s s.arch) ∧
    (s.fenceMet scope.val mask = false → Answers (.fence scope mask) s { s.cur with stallSq := some .counter }) ∧
    (s.fenceMet scope.val 0 = true) ∧
    (s.cur.pend = [] → s.cur.copies = [] → s.net = [] → s.arch.nm = [] → s.arch.cl = [] → s.fenceMet scope.val mask = true)

/-- R395, R259: TRIG records its trigger where the trace takes it, and completes. -/
def Sys2Proof.Parts.TrigCompletes : Prop :=
  ∀ s : State, Answers .trig s ((s.cur.trigger s.cycle 0 s.arch.word).completed s.arch) ∧
    (bitAt s.cur.tracectl 0 = false → Completes .trig s s.arch)

/-- R348, R353, R422, R159, R395, R259: the event words, the words that wait, and TRIG. -/
def Obligations.WaitsAndEventsComplete : Prop :=
  Parts.EventWordsSetClearAndWait ∧ Parts.WaitingWordsComplete ∧ Parts.TrigCompletes

/-! ## The scalar memory words, class SM -/

/-- The address [sa + off] (R291). -/
def Sys2Proof.Vocab.ea (s : State) (sa : SReg) (off : W32) : Word := s.arch.rd sa + BitVec.signExtend 64 off

/-- n bytes as a 64-bit value, with their sign or with zeros (R358). -/
def Sys2Proof.Vocab.widen (sx : Bool) (n v : Nat) : Word :=
  if sx then BitVec.signExtend 64 (BitVec.ofNat (8 * n) v) else BitVec.ofNat 64 v

/-- Bytes [o, o + n) as the agent with key reads them: those that its entry has read already, in a partial turn, as they stood then (R58), the
others as they stand. -/
def Sys2Proof.Vocab.sees (k : Core) (key o n : Nat) : List Byte :=
  (List.range n).map fun i => match kfind (kget k.latched key []) (o + i) with | some b => b | none => k.arch.spByte (o + i)

/-- R69, R70, R358, R58: LD of the scratchpad, the accumulator view and the slot store gives the little-endian value of its bytes, of every
size, with either extension. A read of the accumulator view is noted by the commands that wrote the tile, and bars their replay (R222). -/
def Obligations.LocalLoadsReadTheirBytes : Prop :=
  ∀ (s : State) (sz : MSize) (sx : Bool) (at_ : MemAttr) (sd sa : SReg) (off : W32), s.cur.free [sd, sa] = true →
    let a := Vocab.ea s sa off
    let o := a.toNat % 2 ^ 48
    let n := MSize.bytes sz
    s.cur.flaws = [] → (at_.strong = true → a.toNat % n = 0) →
    (a.toNat / 2 ^ 48 = 0xFF00 → SpClear s o n → s.part = none →
      LoadsOnly (.ld sz sx at_ sd sa off) s sd (Vocab.widen sx n (leNat (Vocab.sees s.cur 0 o n))) ∧
      (kfind s.cur.latched 0 = none → Vocab.sees s.cur 0 o n = s.arch.spBytes o n)) ∧
    (a.toNat / 2 ^ 48 = 0xFF02 → o + n ≤ 2 ^ 18 →
      WritesOnly (.ld sz sx at_ sd sa off) s sd
        (Vocab.widen sx n (leNat ((List.range n).map fun i => s.arch.slotByte (o + i))))) ∧
    (a.toNat / 2 ^ 48 = 0xFF01 → o + n ≤ 2 ^ 19 → o + n ≤ 16384 * s.runD.ntile → ∃ b,
      ScalarIs s.arch b sd (Vocab.widen sx n (leNat ((List.range n).map fun i => s.arch.accByte (o + i)))) ∧
      Answers (.ld sz sx at_ sd sa off) s (((s.cur.readTile (o / 16384)).readTile ((o + n - 1) / 16384)).completed b))

/-- k is k0 after the bytes bs have been stored at offset o of its scratchpad (R122): those bytes read back, every other byte of the
scratchpad is as before, and the backed pages have the dirty sectors; beside the notes of pages in motion nothing else changes. -/
def Sys2Proof.Vocab.SpStored (k0 k : Core) (o : Nat) (bs : List Byte) : Prop :=
  (∀ b, k.arch.spByte b = if o ≤ b ∧ b < o + bs.length then bs.getD (b - o) 0 else k0.arch.spByte b) ∧
    k.arch.pages = (k0.arch.pages.map fun p => (p.1, p.2.mark o bs.length p.1)) ∧
    { k.arch with sp := k0.arch.sp, pages := k0.arch.pages } = k0.arch ∧
    { k with arch := k0.arch, copies := k0.copies } = k0

/-- The occupant is a task. -/
def Sys2Proof.Vocab.IsTask (s : State) : Prop := ∃ r, s.cur.run = some r ∧ r.exch = false

/-- R389, R39: ST to the scratchpad stores the low bytes of sd, at once in a task and provisionally in an exchange stream. -/
def Sys2Proof.Parts.ScratchpadStoresTheirBytes : Prop :=
  ∀ (s : State) (sz : MSize) (at_ : MemAttr) (sd sa : SReg) (off : W32), s.cur.free [sa, sd] = true →
    let a := Vocab.ea s sa off
    let o := a.toNat % 2 ^ 48
    let bs := bytesOf (MSize.bytes sz) (s.arch.rd sd).toNat
    a.toNat / 2 ^ 48 = 0xFF00 → SpClear s o (MSize.bytes sz) → (at_.strong = true → a.toNat % MSize.bytes sz = 0) →
    s.part = none →
    (Vocab.IsTask s → ∃ k, Vocab.SpStored s.cur k o bs ∧ Answers (.st sz at_ sa off sd) s (k.completed k.arch)) ∧
    (s.isExch = true → s.cur.pendingDeliv o bs.length = [] →
      Answers (.st sz at_ sa off sd) s ((s.cur.provPut s.runD.job s.runD.launch s.arch.seq (.bytes o bs)).completed s.arch))

/-- What an AMO writes (R324), on w bits. -/
def Sys2Proof.Vocab.amo {w : Nat} (op : AmoOp) (x y : BitVec w) : BitVec w :=
  match op with
  | .add => x + y | .and => x &&& y | .or => x ||| y | .xor => x ^^^ y | .swap => y
  | .min => if x.toInt ≤ y.toInt then x else y
  | .max => if y.toInt ≤ x.toInt then x else y
  | .minu => if x.toNat ≤ y.toNat then x else y
  | .maxu => if y.toNat ≤ x.toNat then x else y

/-- R324, R335: AMO and CAS of the scratchpad store the result of their operation and give the old value in sd; a CAS that does not
match stores nothing. -/
def Sys2Proof.Parts.ScratchpadAtomics : Prop :=
  ∀ (s : State) (op : AmoOp) (sz : MSize) (sx : Bool) (at_ : MemAttr) (sd sa sb : SReg) (off : W32),
    s.cur.free [sd, sa, sb] = true → Vocab.IsTask s →
    let a := Vocab.ea s sa off
    let o := a.toNat % 2 ^ 48
    let n := MSize.bytes sz
    let old : BitVec (8 * n) := BitVec.ofNat (8 * n) (leNat (s.arch.spBytes o n))
    let x : BitVec (8 * n) := (s.arch.rd sb).setWidth (8 * n)
    let y : BitVec (8 * n) := (s.arch.rd sd).setWidth (8 * n)
    a.toNat / 2 ^ 48 = 0xFF00 → SpClear s o n → a.toNat % n = 0 →
    (∃ k b, Vocab.SpStored s.cur k o (bytesOf n (Vocab.amo op old x).toNat) ∧
      ScalarIs k.arch b sd (Vocab.widen sx n old.toNat) ∧ Answers (.amo op sz sx at_ sd sa off sb) s (k.completed b)) ∧
    (old = x → ∃ k b, Vocab.SpStored s.cur k o (bytesOf n y.toNat) ∧
      ScalarIs k.arch b sd (Vocab.widen sx n old.toNat) ∧ Answers (.cas sz sx at_ sd sa off sb) s (k.completed b)) ∧
    (old ≠ x → WritesOnly (.cas sz sx at_ sd sa off sb) s sd (Vocab.widen sx n old.toNat))

/-- R389, R324, R335, R19: stores and atomics of the scratchpad. -/
def Obligations.ScratchpadStoresAndAtomics : Prop :=
  Parts.ScratchpadStoresTheirBytes ∧ Parts.ScratchpadAtomics

/-- R130, R360, R350: the full/empty words of a task. LDFE and LDFF wait for a full word and read it, LDFE leaves it empty; STEF waits
for an empty word, STFF for none, and both store and fill it; FECLR empties it. -/
def Obligations.FullEmptyWords : Prop :=
  ∀ (s : State) (sx : Bool) (sd sa : SReg) (off : W32), s.cur.free [sd, sa] = true → Vocab.IsTask s →
    let a := Vocab.ea s sa off
    let o := a.toNat % 2 ^ 48
    let v := Vocab.widen sx 4 (leNat (s.arch.spBytes o 4))
    let bs := bytesOf 4 ((s.arch.rd sd).toNat % 2 ^ 32)
    a.toNat / 2 ^ 48 = 0xFF00 → SpClear s o 4 → a.toNat % 4 = 0 →
    (o / 4 ∈ s.arch.full →
      LoadsOnly (.ldff sx sd sa off) s sd v ∧
      (∃ b, ScalarIs { s.arch with full := ndel s.arch.full (o / 4) } b sd v ∧
        Answers (.ldfe sx sd sa off) s { s.cur.completed b with acquired := s.cycle }) ∧
      Answers (.stef sa off sd) s { s.cur with stallSq := some .fullEmpty }) ∧
    (o / 4 ∉ s.arch.full →
      Answers (.ldff sx sd sa off) s { s.cur with stallSq := some .fullEmpty } ∧
      Answers (.ldfe sx sd sa off) s { s.cur with stallSq := some .fullEmpty } ∧
      (∃ k, Vocab.SpStored s.cur k o bs ∧
        Answers (.stef sa off sd) s (k.completed { k.arch with full := nins k.arch.full (o / 4) }))) ∧
    (∃ k, Vocab.SpStored s.cur k o bs ∧
      Answers (.stff sa off sd) s (k.completed { k.arch with full := nins k.arch.full (o / 4) })) ∧
    Completes (.feclr sa off) s { s.arch with full := ndel s.arch.full (o / 4) }

/-- R70, R164, R291: where a scalar access of the scratchpad leaves the declared pages it enters the handler with WINDOW_FAULT, and where
a strong one is not aligned with MISALIGNED; nothing is read or written. -/
def Obligations.BadLocalAccessesTrap : Prop :=
  ∀ (s : State) (sz : MSize) (sx : Bool) (at_ : MemAttr) (sd sa : SReg) (off : W32), s.cur.free [sd, sa] = true →
    HandlerThere s →
    let a := Vocab.ea s sa off
    let o := a.toNat % 2 ^ 48
    let n := MSize.bytes sz
    a.toNat / 2 ^ 48 = 0xFF00 →
    (4096 * s.runD.npage < o + n →
      EntersHandler (.ld sz sx at_ sd sa off) s cWindowFault a ∧ EntersHandler (.st sz at_ sa off sd) s cWindowFault a) ∧
    (o + n ≤ 4096 * s.runD.npage → o + n ≤ 2 ^ 19 → at_.strong = true → a.toNat % n ≠ 0 →
      EntersHandler (.ld sz sx at_ sd sa off) s cMisaligned a ∧ EntersHandler (.st sz at_ sa off sd) s cMisaligned a)

/-- The copy that a store of template t to a channel starts (R132, R137). -/
def Sys2Proof.Vocab.copyOf (s : State) (t : List Word) (gbase sbase : Nat) : Copy :=
  { kind := .copy t gbase sbase, addr := s.arch.word, sec := s.arch.sect, seq := s.arch.seq, next := 0, counted := 0, net := 0,
    expected := expectedCount t gbase, writeBack := none, since := s.cycle }

/-- R132, R135, R338, R389: CPGO and a store to the aperture start the copy of a loaded template on a free channel, at the template's base
plus 32 bytes times the signed offset; the word completes, and one access is counted in program order. -/
def Obligations.CopiesStartOnTheirChannel : Prop :=
  ∀ (s : State) (chan : Fin 8) (tpl : Fin 256) (sa sb sd : SReg) (at_ : MemAttr) (off : W32) (t : List Word) (goff : Int) (sbase : Nat),
    s.cur.free [sa, sb, sd] = true → s.inHandler = false → s.isExch = false → kfind s.arch.tpls tpl.val = some t →
    kfind s.cur.copies chan.val = none →
    let gbase := (((tplBase t : Int) + 32 * goff) % (2 ^ 48 : Int)).toNat
    copyOk t gbase sbase s.runD.npage = true → 0 < expectedCount t gbase →
    let k : Core := { (s.cur.trace s.cycle 3 0 (16 * tplOc t + tplScope t) (BitVec.ofNat 64 gbase)).trace s.cycle 4 5
        (s.cur.copies.length + 1) s.arch.word with
      copies := kset s.cur.copies chan.val (Vocab.copyOf s t gbase sbase), stallSq := none, arch := s.arch.tick.advance.retire }
    ((s.arch.rd sa).toNat = sbase → sbase < 2 ^ 19 → (s.arch.rd sb).toInt = goff → -(2 ^ 36) ≤ goff → goff < 2 ^ 36 →
      Answers (.cpgo chan tpl sa sb) s k) ∧
    ((Vocab.ea s sa off).toNat = 0xFF03 * 2 ^ 48 + 8 * chan.val → (s.arch.rd sd).toNat % 256 = tpl.val →
      (s.arch.rd sd).toNat / 256 % 2 ^ 19 = sbase → (s.arch.rd sd).toInt / 2 ^ 27 = goff →
      Answers (.st .d at_ sa off sd) s k)

/-- R126, R387, R388: SPLOOK gives the scratchpad address of the page that maps a global address, or all ones; SPPIN and SPPIN.UN set
and clear PIN of a backed page and do nothing to a scratch page. -/
def Sys2Proof.Parts.PageLookupAndPins : Prop :=
  ∀ (s : State) (sd sa : SReg) (off : W32), s.cur.free [sd, sa] = true →
    let g := Vocab.ea s sa off
    let o := g.toNat % 2 ^ 48
    (s.inHandler = false → g.toNat / 2 ^ 48 = 0 → ∀ p, s.arch.pageOf o = some p →
      WritesOnly (.splook sd sa off) s sd (BitVec.ofNat 64 (0xFF00 * 2 ^ 48 + 4096 * p + o % 4096))) ∧
    (s.inHandler = false → (g.toNat / 2 ^ 48 = 0 → s.arch.pageOf o = none) →
      WritesOnly (.splook sd sa off) s sd (BitVec.ofNat 64 (2 ^ 64 - 1))) ∧
    (g.toNat / 2 ^ 48 = 0xFF00 → o % 4096 = 0 → o < 4096 * s.runD.npage → o < 2 ^ 19 →
      (∀ pg, kfind s.arch.pages (o / 4096) = some pg →
        Completes (.sppin sa off) s { s.arch with pages := kset s.arch.pages (o / 4096) { pg with pin := true } } ∧
        Completes (.sppinUn sa off) s { s.arch with pages := kset s.arch.pages (o / 4096) { pg with pin := false } }) ∧
      (kfind s.arch.pages (o / 4096) = none → Completes (.sppin sa off) s s.arch ∧ Completes (.sppinUn sa off) s s.arch))

/-- The place that a page word takes on a channel (R127). -/
def Sys2Proof.Vocab.pageCopy (s : State) (kind : CopyKind) (expected : Nat) (wb : Option Page) : Copy :=
  { kind := kind, addr := s.arch.word, sec := s.arch.sect, seq := s.arch.seq, next := 0, counted := 0, net := 0, expected := expected,
    writeBack := wb, since := s.cycle }

/-- R126, R127, R387, R388: SPFILL of a range that no page maps takes the lowest free channel, and its page is pinned, backed and not yet
resident; of the range that the page maps already it pins it and moves nothing; of one that another page maps it ends the task with
PROTECTION. SPEVICT.WB and SPEVICT.DROP make their page scratch, and the first keeps its tag for the write-back. -/
def Sys2Proof.Parts.PageWordsTakeTheirChannel : Prop :=
  ∀ (s : State) (hint : Hint) (oc : Fin 16) (sa sd : SReg) (off : W32) (ch page : Nat), s.cur.free [sa, sd] = true →
    s.inHandler = false → s.isExch = false → s.cur.freeChan = some ch → page < 128 → page < s.runD.npage →
    ((s.arch.rd sd).toNat = 0xFF00 * 2 ^ 48 + 4096 * page → (Vocab.ea s sa off).toNat < 2 ^ 48 →
      (Vocab.ea s sa off).toNat % 4096 = 0 → s.arch.pageOf (Vocab.ea s sa off).toNat = none →
      Answers (.spfill hint oc sa off sd) s { (s.cur.trace s.cycle 3 0 (16 * oc.val) (Vocab.ea s sa off)).trace s.cycle 4 5
          (s.cur.copies.length + 1) s.arch.word with
        copies := kset s.cur.copies ch (Vocab.pageCopy s (.fill page) 1 (kfind s.arch.pages page)), stallSq := none,
        arch := { s.arch.tick.advance.retire with
          pages := kset s.arch.pages page { range := (Vocab.ea s sa off).toNat / 4096, res := false, pin := true, dirty := [],
                                            hint := hint } } }) ∧
    ((s.arch.rd sd).toNat = 0xFF00 * 2 ^ 48 + 4096 * page → (Vocab.ea s sa off).toNat < 2 ^ 48 →
      (Vocab.ea s sa off).toNat % 4096 = 0 →
      (∀ pg, s.arch.pageOf (Vocab.ea s sa off).toNat = some page → kfind s.arch.pages page = some pg →
        Answers (.spfill hint oc sa off sd) s { (s.cur.trace s.cycle 3 0 (16 * oc.val) (Vocab.ea s sa off)).trace s.cycle 4 5
            (s.cur.copies.length + 1) s.arch.word with
          copies := kset s.cur.copies ch (Vocab.pageCopy s (.fill page) 0 none), stallSq := none,
          arch := { s.arch.tick.advance.retire with pages := kset s.arch.pages page { pg with pin := true } } }) ∧
      (∀ q, s.arch.pageOf (Vocab.ea s sa off).toNat = some q → q ≠ page → exec (.spfill hint oc sa off sd) s =
        .next { s.abortCore s.focus cProtection (Vocab.ea s sa off) .faulted with regs := s.regs })) ∧
    ((Vocab.ea s sa off).toNat = 0xFF00 * 2 ^ 48 + 4096 * page →
      Answers (.spevictWb sa off) s { s.cur.trace s.cycle 4 5 (s.cur.copies.length + 1) s.arch.word with
        copies := kset s.cur.copies ch (Vocab.pageCopy s (.evict page) 1 (kfind s.arch.pages page)), stallSq := none,
        arch := { s.arch.tick.advance.retire with pages := kdel s.arch.pages page } } ∧
      Answers (.spevictDrop sa off) s { s.cur.trace s.cycle 4 5 (s.cur.copies.length + 1) s.arch.word with
        copies := kset s.cur.copies ch (Vocab.pageCopy s (.evict page) 2 none), stallSq := none,
        arch := { s.arch.tick.advance.retire with pages := kdel s.arch.pages page } })

/-- R126, R127, R387, R388: the page words. -/
def Obligations.PageWordsExecute : Prop :=
  Parts.PageLookupAndPins ∧ Parts.PageWordsTakeTheirChannel

/-! ## Global accesses -/

/-- The access translates: u is the state after it (TLBs and the A and D bits alone differ), x where its bytes lie. -/
def Sys2Proof.Vocab.Maps (s : State) (va n : Nat) (acc : Access) (u : State) (x : Xl) : Prop :=
  va + n ≤ 2 ^ 48 ∧ s.isExch = false ∧
    s.translateRange (some s.focus) (dieOf s.focus) s.runD.job va n acc = (u, .ok x) ∧ inMgmt x.pa = false

/-- The outstanding word that an access of SQ leaves behind. -/
def Sys2Proof.Vocab.pending (u : State) (kind : PendKind) (sd : SReg) (va : Nat) (x : Xl) (n : Nat) (sx : Bool) (at_ : MemAttr) : Pend :=
  { kind := kind, seq := u.arch.seq, sd := sd, va := va, pa := x.pa, pa2 := x.pa2, n := n, sx := sx, oc := at_.oc.val,
    scope := at_.scope.val, hint := at_.hint, addr := u.arch.word, unc := x.uncached, unc2 := x.uncached2 }

/-- t is u but for core c and the Safety Net, which has one more item: with its sender, its class, its place in program order and the
bytes of its payload (R215). -/
def Sys2Proof.Vocab.Sends (u t : State) (c : Nat) (k : Core) (oc payload : Nat) (body : SnBody) : Prop :=
  SameMemory u t ∧ { t with cores := u.cores, net := u.net } = u ∧ (∀ d, d ≠ c → t.core d = u.core d) ∧ t.core c = k ∧
    ∃ r i, u.cur.run = some r ∧ t.net = u.net ++ [i] ∧ i.core = u.focus ∧ i.job = r.job ∧ i.launch = r.launch ∧ i.tcb = r.tcb ∧
      i.exch = r.exch ∧ i.entered = u.cycle ∧ i.size = 16 + 16 * ((payload + 15) / 16) ∧ i.oc = oc ∧ i.seq = u.arch.seq ∧
      i.intact = true ∧ i.body = body

/-- R358, R57, R157: LD of the global window leaves: the word completes, and its result is outstanding until it returns. -/
def Sys2Proof.Parts.GlobalLoadsLeave : Prop :=
  ∀ (s u : State) (sz : MSize) (sx : Bool) (at_ : MemAttr) (sd sa : SReg) (off : W32) (x : Xl), s.cur.free [sd, sa] = true →
    let va := (Vocab.ea s sa off).toNat
    let n := MSize.bytes sz
    va < 2 ^ 48 → Vocab.Maps s va n .read u x → (at_.strong = true → va % n = 0) → u.cur.pend.length < 512 →
    ∃ t, exec (.ld sz sx at_ sd sa off) s = .next t ∧ OnlyCore { u with regs := s.regs } t s.focus
      { u.cur.trace u.cycle 3 0 (16 * at_.oc.val + at_.scope.val) (BitVec.ofNat 64 va) with
        pend := u.cur.pend ++ [Vocab.pending u (.load at_.strong) sd va x n sx at_], stallSq := none,
        arch := u.arch.tick.advance.retire }

/-- R324, R325, R335, R215: AMO and CAS of the global window leave through the Safety Net, and their results are outstanding. -/
def Sys2Proof.Parts.GlobalAtomicsLeave : Prop :=
  ∀ (s u : State) (op : AmoOp) (sz : MSize) (sx : Bool) (at_ : MemAttr) (sd sa sb : SReg) (off : W32) (x : Xl),
    s.cur.free [sd, sa, sb] = true →
    let va := (Vocab.ea s sa off).toNat
    let n := MSize.bytes sz
    va < 2 ^ 48 → va % n = 0 → Vocab.Maps s va n .write u x → u.focus = s.focus → u.cur.run.isSome = true →
    u.netFits u.focus n = true → u.cur.pend.length < 512 → u.cur.storeWaits at_.oc.val va x.pa n true false = false →
    let k (kind : PendKind) : Core := { u.cur.trace u.cycle 3 0 (16 * at_.oc.val + at_.scope.val) (BitVec.ofNat 64 va) with
      pend := u.cur.pend ++ [Vocab.pending u kind sd va x n sx at_], stallSq := none, arch := u.arch.tick.advance.retire }
    (∃ t, exec (.amo op sz sx at_ sd sa off sb) s = .next t ∧
      Vocab.Sends { u with regs := s.regs } t s.focus (k (.amo op (s.arch.rd sb))) at_.oc.val n .atomic) ∧
    (∃ t, exec (.cas sz sx at_ sd sa off sb) s = .next t ∧
      Vocab.Sends { u with regs := s.regs } t s.focus (k (.cas (s.arch.rd sb) (s.arch.rd sd))) at_.oc.val n .atomic)

/-- R358, R324, R335, R160: loads and atomics of the global window. -/
def Obligations.GlobalLoadsAndAtomicsLeave : Prop :=
  Parts.GlobalLoadsLeave ∧ Parts.GlobalAtomicsLeave

/-- R389, R25, R160: ST of the global window within a page puts its bytes into the task's quarantine and into the Safety Net; memory
itself keeps what it holds until the task commits. -/
def Sys2Proof.Parts.GlobalStoresAreQuarantined : Prop :=
  ∀ (s u : State) (sz : MSize) (at_ : MemAttr) (sd sa : SReg) (off : W32) (x : Xl) (tk : Task) (r : Run), s.cur.free [sa, sd] = true →
    let va := (Vocab.ea s sa off).toNat
    let n := MSize.bytes sz
    let bs := bytesOf n (s.arch.rd sd).toNat
    let e : QEntry := { va := va, pa := x.pa, bytes := bs, hint := x.hint at_.hint, strong := at_.strong, wenq := false, seq := u.arch.seq,
                        oc := at_.oc.val }
    va < 2 ^ 48 → (at_.strong = true → va % n = 0) → at_.scope.val ≠ 3 → x.pa % 4096 + n ≤ 4096 →
    Vocab.Maps s va n .write u x → u.focus = s.focus → u.cur.run = some r → s.runD = r → u.task r.job r.tcb = some tk →
    u.netFits u.focus n = true → u.cur.storeWaits at_.oc.val va x.pa n false false = false →
    ({ tk with quar := tk.quar ++ [e] } : Task).lines ≤ 32 * (match u.launch r.job r.launch with | some l => l.quota | none => 0) →
    ∃ t, exec (.st sz at_ sa off sd) s = .next t ∧ SameMemory u t ∧
      (∃ tk', t.task r.job r.tcb = some tk' ∧ tk'.quar = tk.quar ++ [e] ∧ tk'.held = tk.held) ∧
      t.arch = u.arch.tick.advance.retire ∧ (∃ i, t.net = u.net ++ [i] ∧ i.body = .store ∧ i.tcb = r.tcb)

/-- R423, R424: WENQ of a well-formed queue holds the payload's enqueue in the task's quarantine: the slot's bytes, the new tail, and the
enqueue itself for step 4 of the TEND; nothing becomes visible. The descriptor is read with one request, after the core's own AMO and CAS on
it, and its bytes from +40 on are 0. -/
def Sys2Proof.Parts.WenqIsHeldUntilTheCommit : Prop :=
  ∀ (s u v : State) (oc : Fin 16) (hint : Hint) (sa sd sb : SReg) (off : W32) (x : Xl) (o : Nat), SqReady s [sa, sd, sb] →
    let va := (Vocab.ea s sa off).toNat
    let n := (s.arch.rd sb).toNat
    let r := u.runD
    let word (i : Nat) : Word := BitVec.ofNat 64 (leNat (u.viewBytes u.focus r.job r.tcb (fun j => x.pa + 8 * i + j) 8 false).1)
    let base := (word 2).toNat % 2 ^ 48
    let count := (word 3).toNat / 2 ^ 32
    let size := (word 3).toNat % 2 ^ 16
    let bs := u.arch.spBytes o n
    let slot := base + size * ((word 0).toNat % count)
    let p := u.provXl r.job slot
    va < 2 ^ 48 → va % 64 = 0 → o % 16 = 0 → spOffset (s.arch.rd sd) = some o → o + n ≤ 4096 * s.runD.npage → o + n ≤ 2 ^ 19 →
    Vocab.Maps s va 64 .write u x → (∀ q ∈ u.cur.pend, q.kind.counted = true → q.hits va x.pa 64 = false) → u.poisoned x.pa 64 = false →
    queueOk word n = true → p.inRegion n = false → SpClear u o n → u.netFits u.focus n = true →
    u.cur.storeWaits oc.val va x.pa 8 false false = false → u.cur.storeWaits oc.val slot p.pa n false false = false →
    ((u.request r.job r.launch va x 64 false hint).noteReads r.job r.tcb x 64).quarPut r.job r.launch r.tcb
      (quarEntries u.arch.seq oc.val slot p bs hint false true ++
        quarEntries u.arch.seq oc.val va x (bytesOf 8 (((word 0).toNat + 1) % 2 ^ 64)) hint false true) [.wenq va bs hint] = some v →
    (word 5 = 0 ∧ word 6 = 0 ∧ word 7 = 0) ∧
    ∃ t, exec (.wenq oc hint sa off sd sb) s = .next t ∧ SameMemory v t ∧ t.arch = v.arch.tick.advance.retire ∧
      (∀ tk, v.task r.job r.tcb = some tk → ∃ tk', t.task r.job r.tcb = some tk' ∧ tk'.quar = tk.quar ∧ tk'.held = tk.held)

/-- R389, R25, R160, R423, R424: stores and enqueues of a task wait in its quarantine. -/
def Obligations.GlobalStoresAreHeldUntilTheCommit : Prop :=
  Parts.GlobalStoresAreQuarantined ∧ Parts.WenqIsHeldUntilTheCommit

/-- R378, R242: PREF completes, whatever its address: no register, byte of the scratchpad, task or item changes. Where the address is global,
its hint allocates and it translates, its line is read into the L2 with the trace record of an access; where it would fault, or its hint
allocates nothing, it only completes. In an exchange stream it raises PROTECTION (R39). -/
def Sys2Proof.Parts.PrefetchOnlyPrefetches : Prop :=
  ∀ (s : State) (hint : Hint) (oc : Fin 16) (sa : SReg) (off : W32), s.cur.free [sa] = true →
    let a := Vocab.ea s sa off
    let va := a.toNat % 2 ^ 48
    let r := s.runD
    let x := s.translate (some s.focus) (dieOf s.focus) r.job va .read
    (s.isExch = false →
      (∃ t, exec (.pref hint oc sa off) s = .next t ∧ t.arch = s.arch.advance.retire ∧ t.cur.run = s.cur.run ∧
        t.cur.pend = s.cur.pend ∧ t.cur.stallSq = none ∧ t.tasks = s.tasks ∧ t.net = s.net ∧ t.regs = s.regs ∧
        (∀ d, d ≠ s.focus → t.core d = s.core d)) ∧
      (a.toNat / 2 ^ 48 ≠ 0 ∨ hint = .noAllocate ∨ hint = .bypass ∨ (∃ e, x.2 = .error e) ∨ (∃ y, x.2 = .ok y ∧ inMgmt y.pa = true) →
        Completes (.pref hint oc sa off) s s.arch) ∧
      (∀ y, a.toNat / 2 ^ 48 = 0 → hint ≠ .noAllocate → hint ≠ .bypass → x.2 = .ok y → inMgmt y.pa = false →
        exec (.pref hint oc sa off) s = .next { ((x.1.request r.job r.launch va y 1 false hint).modCur fun k =>
          k.trace x.1.cycle 3 0 (16 * oc.val) (BitVec.ofNat 64 va)).done with regs := s.regs })) ∧
    (s.isExch = true → exec (.pref hint oc sa off) s = .next { s.raiseCause cProtection a with regs := s.regs })

/-- R240, R243: a translation writes no byte of memory but those of leaf entries, in which it sets only A and, for a write, D; it leaves
every core's registers, scratchpad and position alone. -/
def Sys2Proof.Parts.TranslationSetsAccessedAndDirty : Prop :=
  ∀ (s u : State) (core : Option Nat) (die job va : Nat) (acc : Access) (r : Except XlFail Xl),
    Memory.wf s.mem = true → s.translate core die job va acc = (u, r) →
    (∃ pte, (∀ a, a < pte ∨ pte + 8 ≤ a → Memory.read u.mem a = Memory.read s.mem a) ∧
      (u.rdWord pte = s.rdWord pte ∨ u.rdWord pte = s.rdWord pte ||| 0x20 ∨ u.rdWord pte = s.rdWord pte ||| 0x60)) ∧
    (∀ c, (u.core c).arch = (s.core c).arch ∧ (u.core c).pend = (s.core c).pend ∧ (u.core c).run = (s.core c).run) ∧
    u.tasks = s.tasks ∧ u.regs = s.regs ∧ u.focus = s.focus

/-- R378, R240, R243: what PREF and a translation may change. -/
def Obligations.PrefetchAndTranslationChangeNoRegister : Prop :=
  Parts.PrefetchOnlyPrefetches ∧ Parts.TranslationSetsAccessedAndDirty

/-! ## Engine words and words that leave through the Safety Net -/

/-- R380, R385, R401, R215: PUBV, REFSTOP and UNPIN leave through the Safety Net and answer in sd later. -/
def Sys2Proof.Parts.AnsweringWordsLeave : Prop :=
  ∀ (s : State) (sd : SReg) (region : Fin 4096) (n : Fin 8) (final : Bool), s.cur.free [sd] = true → s.isExch = false →
    s.cur.run.isSome = true → s.netFits s.focus 8 = true →
    let p (oc : Nat) : Pend := { kind := .verb, seq := s.arch.seq, sd := sd, va := 0, pa := 0, pa2 := 0, n := 8, sx := false, oc := oc,
                                 scope := 0, hint := .normal, addr := s.arch.word }
    let k (oc : Nat) : Core := { s.cur with pend := s.cur.pend ++ [p oc], stallSq := none, arch := s.arch.tick.advance.retire }
    (s.inHandler = false →
      (∃ t, exec (.pubv sd region n final) s = .next t ∧ Vocab.Sends s t s.focus (k 0) 0 8 (.pubv sd region.val n.val final)) ∧
      (∃ t, exec (.refstop sd region) s = .next t ∧ Vocab.Sends s t s.focus (k 0) 0 8 (.refstop sd region.val))) ∧
    (∃ t, exec (.unpin sd n) s = .next t ∧ Vocab.Sends s t s.focus (k noClass) noClass 8 (.unpin sd n.val))

/-- The TCB address that a word names: a register, or an index of the issuing launch's TCB array (R385, R340). -/
def Sys2Proof.Vocab.tcbNamed (s : State) (t : RegImm) (va : Nat) : Prop :=
  match t with
  | .reg sa => va = (s.arch.rd sa).toNat
  | .imm v => ∃ l, s.launch s.runD.job s.runD.launch = some l ∧ v.toNat < l.count ∧ va = l.tcbs + 64 * v.toNat

/-- R385, R340: SPAWN and DEPDEC of a TCB that translates leave through the Safety Net; DEPDEC gives no answer. -/
def Sys2Proof.Parts.SpawnAndDepdecLeave : Prop :=
  ∀ (s u : State) (sd : SReg) (scope : Fin 8) (t : RegImm) (va : Nat) (x : Xl), SqReady s (sd :: regImmRegs t) →
    Vocab.tcbNamed s t va → va < 2 ^ 48 → va % 64 = 0 → Vocab.Maps s va 64 .write u x → u.focus = s.focus → u.runD = s.runD →
    u.cur.run.isSome = true → u.netFits u.focus 8 = true →
    let p : Pend := { kind := .verb, seq := u.arch.seq, sd := sd, va := 0, pa := 0, pa2 := 0, n := 8, sx := false, oc := noClass,
                      scope := 0, hint := .normal, addr := u.arch.word }
    (∃ w, exec (.depdec scope t) s = .next w ∧ Vocab.Sends { u with regs := s.regs } w s.focus
      { u.cur with stallSq := none, arch := u.arch.tick.advance.retire } noClass 8 (.depdec va)) ∧
    ((u.spawnClass u.runD.job va).2 ∉ (u.ring (u.spawnClass u.runD.job va).1).overflow →
      ∃ w, exec (.spawn sd t) s = .next w ∧ Vocab.Sends { u with regs := s.regs } w s.focus
        { u.cur with pend := u.cur.pend ++ [p], stallSq := none, arch := u.arch.tick.advance.retire } noClass 8 (.spawn sd va))

/-- R390, R334, R426: STEP in its three forms and XMC leave through the Safety Net and complete; CANCEL leaves, and SQ waits at it. -/
def Sys2Proof.Parts.HeldWordsLeave : Prop :=
  ∀ (s : State) (k : W32) (sa sb sc sd : SReg) (off : W32) (level : Fin 16), SqReady s [sd, sa, sb, sc] → s.cur.run.isSome = true →
    let done : Core := { s.cur with stallSq := none, arch := s.arch.tick.advance.retire }
    (s.isExch = false → s.netFits s.focus 8 = true →
      (∃ t, exec (.stepBegin k) s = .next t ∧ Vocab.Sends s t s.focus done noClass 8 (.step 0 k.toNat)) ∧
      (∃ t, exec (.stepCommit k) s = .next t ∧ Vocab.Sends s t s.focus done noClass 8 (.step 1 k.toNat)) ∧
      (∃ t, exec (.stepAbort k) s = .next t ∧ Vocab.Sends s t s.focus done noClass 8 (.step 2 k.toNat)) ∧
      ((∀ i ∈ s.net, i.core ≠ s.focus) → ∀ id, id = RegImm.imm k ∨ (id = RegImm.reg sa ∧ k = (s.arch.rd sa).setWidth 32) →
        ∃ t, exec (.cancel sd level id) s = .next t ∧
          Vocab.Sends s t s.focus { s.cur with stallSq := some .inFlight } noClass 8 (.cancel sd level.val k.toNat))) ∧
    (s.isExch = true → s.netFits s.focus 4 = true →
      let o := Vocab.ea s sa off
      let g := (s.arch.rd sc).toNat
      let stride := if g / 2 ^ 21 % 2 ^ 10 = 0 then 1 else g / 2 ^ 21 % 2 ^ 10
      let count := g / 2 ^ 10 % 2 ^ 11
      let first := g % 2 ^ 10
      o.toNat % 4 = 0 → o.toNat < 524288 → g < 2 ^ 31 → count ≤ 1024 → first + stride * (count - 1) < 1024 →
      ∃ t, exec (.xmc sa off sb sc) s = .next t ∧
        Vocab.Sends s t s.focus done noClass 4 (.xmc o.toNat ((s.arch.rd sb).setWidth 32) first stride count))

/-- R380, R385, R401, R340, R390, R334, R426, R215: the words that leave through the Safety Net. -/
def Obligations.WordsLeaveThroughTheSafetyNet : Prop :=
  Parts.AnsweringWordsLeave ∧ Parts.SpawnAndDepdecLeave ∧ Parts.HeldWordsLeave

/-- R393, R428, R414: TEND ends the stream of words; XSYNC marks its stream and waits; VERGET reads a region's version and FINAL bit, all
ones for a region of size 0, and acquires (R167); u is the state after the region's entry has been read. -/
def Obligations.TendXsyncAndVerget : Prop :=
  ∀ s : State, s.inHandler = false →
    Completes .tend s { s.arch with ended := true } ∧
    (∀ id : W32, s.isExch = true → ∃ t, exec (.xsync id) s = .next t ∧ SameMemory s t ∧
      (∀ d, d ≠ s.focus → t.core d = s.core d) ∧ t.cur = { s.cur with stallSq := some .inFlight } ∧
      { t with cores := s.cores, jobs := s.jobs } = s ∧
      (∀ j p x, kfind t.jobs s.runD.job = some j → j.phase = some p → x ∈ p.streams → x.core = s.focus → x.launch = s.runD.launch →
        x.sync = some id.toNat)) ∧
    (∀ (sd : SReg) (region : Fin 4096), s.isExch = false → s.cur.free [sd] = true →
      ∀ u, s.regionRead s.runD.job region.val = (u, none) → u.focus = s.focus → ∃ b t, ScalarIs u.arch b sd
          (if u.regionSize s.runD.job region.val = 0 then BitVec.ofNat 64 (2 ^ 64 - 1)
            else BitVec.ofNat 64 (u.regionNibble s.runD.job region.val)) ∧
        exec (.verget sd region) s = .next t ∧ OnlyCore { u with regs := s.regs } t s.focus { u.cur.completed b with acquired := u.cycle })

/-- R370, R371: MXW writes its slot of the build bank and no other; MXGO pushes the bank's image with its CRC in slot 15. -/
def Sys2Proof.Parts.BuildBankWords : Prop :=
  ∀ (s : State) (sa sd : SReg) (slot : Fin 16), SqReady s [sa, sd] → s.isExch = false →
    Completes (.mxw sa slot) s { s.arch with bank := kset s.arch.bank slot.val (s.arch.rd sa) } ∧
    (let slots := (List.range 15).map s.arch.bankSlot
     let image := slots ++ [(ecbCrc slots).setWidth 64]
     (s.arch.bankSlot 0).toNat / 2 ^ 8 % 2 ^ 3 = 1 → ecbEngineOf ((s.arch.bankSlot 0).toNat % 256) = some .mx → s.arch.mx.length < 16 →
     ∃ b, ScalarIs s.arch b sd (BitVec.ofNat 64 ((s.arch.bankSlot 0).toNat / 2 ^ 32 % 2 ^ 16)) ∧
       Answers (.mxgo sd) s { s.cur.trace s.cycle 4 4 (s.arch.mx.length + 1) s.arch.word with
         stallSq := none,
         arch := { b.tick.advance with
           mx := s.arch.mx ++ [{ slots := image, addr := s.arch.word, sec := s.arch.sect, seq := s.arch.seq, seed := s.arch.seed,
                                 net := false, started := false }] } })

/-- R345, R365, R215: ECGO reads 128 bytes of the scratchpad; an image whose CRC is right and whose opcode is one of the engine's enters
that engine's queue, and sd receives the tag. A command of NM or CL leaves through the Safety Net, under its ordering class. -/
def Obligations.EcgoPushesACheckedImage : Prop :=
  ∀ (s : State) (eng : EcbEngine) (sd sa : SReg), SqReady s [sd, sa] → s.isExch = false →
    let o := (s.arch.rd sa).toNat
    let image := (List.range 16).map fun i => BitVec.ofNat 64 (leNat (s.arch.spBytes (o + 8 * i) 8))
    let s0 := ecbSlot image 0
    let x (net : Bool) : Ecb := { slots := image, addr := s.arch.word, sec := s.arch.sect, seq := s.arch.seq, seed := s.arch.seed,
                                  net := net, started := false }
    let k (b : Arch) : Core := { s.cur.trace s.cycle 4 (ecbTrace eng) ((ecbQ s.arch eng).length + 1) s.arch.word with
      stallSq := none, arch := setEcbQ b.tick.advance eng (ecbQ s.arch eng ++ [x (eng != .mx)]) }
    o < 2 ^ 19 → o % 64 = 0 → SpClear s o 128 → (ecbCrc image).toNat = (ecbSlot image 15).toNat % 2 ^ 32 →
    s0.toNat / 2 ^ 8 % 2 ^ 3 = EcbEngine.code eng → ecbEngineOf (s0.toNat % 256) = some eng →
    (ecbQ s.arch eng).length < (match eng with | .mx => 16 | .nm => 8 | .cl => 4) →
    ∃ b, ScalarIs s.arch b sd (BitVec.ofNat 64 (s0.toNat / 2 ^ 32 % 2 ^ 16)) ∧
      (eng = .mx → Answers (.ecgo eng sd sa) s (k b)) ∧
      (eng ≠ .mx → s.netFits s.focus 128 = true → s.cur.run.isSome = true →
        ∃ t, exec (.ecgo eng sd sa) s = .next t ∧ Vocab.Sends s t s.focus (k b) (s0.toNat / 2 ^ 16 % 2 ^ 4) 128 (.ecb eng))

/-- R339, R134: CPTPL loads 64 bytes of the scratchpad as a template where they pass the checks, and enters the handler with
TEMPLATE_FAULT where they do not.
That it is legal in an exchange stream, where a copy is not, and that TEMPLATE_FAULT is then its cause, is the model's reading (log entries 14
and 46). -/
def Sys2Proof.Parts.CptplLoadsACheckedTemplate : Prop :=
  ∀ (s : State) (tpl : Fin 256) (sa : SReg), SqReady s [sa] →
    let o := (s.arch.rd sa).toNat
    let t := (List.range 8).map fun i => BitVec.ofNat 64 (leNat (s.arch.spBytes (o + 8 * i) 8))
    o < 2 ^ 19 → o % 64 = 0 → SpClear s o 64 →
    (tplOk t = true → Completes (.cptpl tpl sa) s { s.arch with tpls := kset s.arch.tpls tpl.val t }) ∧
    (tplOk t = false → HandlerThere s → EntersHandler (.cptpl tpl sa) s cTemplateFault (BitVec.ofNat 64 tpl.val))

/-- R370, R371, R339, R134: the build bank and the templates. -/
def Obligations.BankAndTemplateWords : Prop :=
  Parts.BuildBankWords ∧ Parts.CptplLoadsACheckedTemplate

/-! ## Vector words -/

/-- The words that SQ pushes to VA with no check of their own: all of the engine's words but VGET, which SQ executes. -/
def Sys2Proof.Vocab.vaWord : Instr → Bool
  | .vadd .. | .vsub .. | .vmul .. | .vfma .. | .vmin .. | .vmax .. | .vabs .. | .vand .. | .vor .. | .vxor .. | .vshl .. | .vshr ..
  | .vsra .. | .vcmp .. | .vsel .. | .vmov .. | .vcvt .. | .vred .. | .vperm .. | .vslide .. | .viota .. | .vdiv .. | .vsqrt ..
  | .vexp2 .. | .vlog2 .. | .plog .. | .pset .. | .vhash .. => true
  | _ => false

/-- What SQ checks of a word of VL or VS with affine addresses at its push (R405, R406, R409, R410): the queue, the addresses, which are those of
all 64 lanes whatever the predicate, or the one of a broadcast or indexed form, and the size of an element. -/
def Sys2Proof.Vocab.lanes (s : State) : Instr → Option (Vq × List Word × Nat)
  | .vld sz _ _ sa off => some (.vl, (List.range 64).map fun l => Vocab.ea s sa off + BitVec.ofNat 64 (ESize.bytes sz * l), ESize.bytes sz)
  | .vlds sz _ _ sa off sb => some (.vl, (List.range 64).map fun l => Vocab.ea s sa off + s.arch.rd sb * BitVec.ofNat 64 l, ESize.bytes sz)
  | .vldx sz _ _ sa off _ | .vldb sz _ _ sa off => some (.vl, [Vocab.ea s sa off], ESize.bytes sz)
  | .vst sz _ _ sa off | .vstc sz _ _ sa off =>
    some (.vs, (List.range 64).map fun l => Vocab.ea s sa off + BitVec.ofNat 64 (ESize.bytes sz * l), ESize.bytes sz)
  | .vsts sz _ _ sa off sb => some (.vs, (List.range 64).map fun l => Vocab.ea s sa off + s.arch.rd sb * BitVec.ofNat 64 l, ESize.bytes sz)
  | .vstx sz _ _ sa off _ => some (.vs, [Vocab.ea s sa off], ESize.bytes sz)
  | _ => none

/-- An element of n bytes at a lies in the scratchpad window within the declared pages (R70, R33). -/
def Sys2Proof.Vocab.fits (s : State) (n : Nat) (a : Word) : Prop :=
  a.toNat / 2 ^ 48 = 0xFF00 ∧ a.toNat % 2 ^ 48 + n ≤ 2 ^ 19 ∧ a.toNat % 2 ^ 48 + n ≤ 4096 * s.runD.npage

/-- SQ pushes i to queue q: it takes the next vector number and the next place in program order, with the scalars as they stand; SQ goes on,
and nothing else changes. -/
def Sys2Proof.Vocab.Pushed (s : State) (q : Vq) (i : Instr) : Prop :=
  ∃ e : VEntry, e.instr = i ∧ e.num = s.arch.vnum ∧ e.seq = s.arch.seq ∧ e.addr = s.arch.word ∧ e.sec = s.arch.sect ∧
    e.seed = s.arch.seed ∧ (∀ r ∈ (Machine.Instr.vuse i).scal, e.scalar r = s.arch.rd r) ∧
    Answers i s { s.cur.trace s.cycle 4 (match q with | .vl => 1 | .va => 2 | .vs => 3) ((s.arch.vq q).length + 1) s.arch.word with
      stallSq := none,
      arch := { s.arch.advance with
        vl := if q = .vl then s.arch.vl ++ [e] else s.arch.vl, va := if q = .va then s.arch.va ++ [e] else s.arch.va,
        vs := if q = .vs then s.arch.vs ++ [e] else s.arch.vs, seq := s.arch.seq + 1, vnum := s.arch.vnum + 1 } }

/-- R54, R55, R57, R405-R411: SQ pushes a vector word whose registers are declared, whose queue has room, within the slip limit. A word of VL or
VS is first checked: an address outside the declared pages enters the handler with WINDOW_FAULT, else one that is not a multiple of the element's
size with MISALIGNED, each with the first such address; VLDT's width, window and slot, and the index and the tile of VACCR and VACCW likewise.
A register that is not declared enters it with ILLEGAL_OPERAND. -/
def Obligations.VectorWordsAreQueued : Prop :=
  ∀ (s : State) (i : Instr) (q : Vq), s.atEngine = false → s.inHandler = false →
    let use := Machine.Instr.vuse i
    let ready : Prop := s.cur.free use.scal = true ∧ (s.arch.vq q).length < 64 ∧ s.arch.slipOk = true
    (Vocab.vaWord i = true → q = .va → s.undeclared use.vregs = none → ready → Vocab.Pushed s q i) ∧
    (∀ as n, Vocab.lanes s i = some (q, as, n) → s.undeclared use.vregs = none →
      (ready → (∀ a ∈ as, Vocab.fits s n a ∧ a.toNat % n = 0) → Vocab.Pushed s q i) ∧
      (HandlerThere s → s.cur.free use.scal = true → ∀ k a, as[k]? = some a →
        (¬ Vocab.fits s n a → (∀ j b, j < k → as[j]? = some b → Vocab.fits s n b) → EntersHandler i s cWindowFault a) ∧
        (a.toNat % n ≠ 0 → (∀ b ∈ as, Vocab.fits s n b) → (∀ (j : Nat) (b : Word), j < k → as[j]? = some b → b.toNat % n = 0) →
          EntersHandler i s cMisaligned a))) ∧
    (∀ r, (Vocab.vaWord i = true ∨ (Vocab.lanes s i).isSome = true) → HandlerThere s → s.undeclared use.vregs = some r →
      EntersHandler i s cIllegalOperand (BitVec.ofNat 64 r.val)) ∧
    (∀ (col : Bool) (g : Fin 4) (c : VCtl) (vd : VReg) (sa sb : SReg) (off : W32), i = .vldt col g c vd sa off sb →
      s.undeclared use.vregs = none → s.cur.free use.scal = true →
      let a := Vocab.ea s sa off
      let w := (s.arch.rd sb).toNat
      let wide : Prop := w = 4 ∨ w = 6 ∨ w = 8 ∨ w = 16
      let view : Prop := a.toNat / 2 ^ 48 = 0xFF02 ∧ a.toNat % 2 ^ 48 < 2 ^ 18
      let slot : Prop := a.toNat % 256 = 0 ∧ (w = 16 → a.toNat % 512 = 0)
      (wide → view → slot → q = .vl → ready → Vocab.Pushed s q i) ∧
      (HandlerThere s → (¬ wide → EntersHandler i s cIllegalOperand (BitVec.ofNat 64 sb.val)) ∧
        (wide → ¬ view → EntersHandler i s cWindowFault a) ∧ (wide → view → ¬ slot → EntersHandler i s cMisaligned a))) ∧
    (∀ (col : Bool) (tile : Fin 32) (c : VCtl) (v : VReg) (sa : SReg) (off : W32),
      (q = .vl ∧ i = .vaccr col tile c v sa off) ∨ (q = .vs ∧ i = .vaccw col tile c v sa off) →
      s.undeclared use.vregs = none → s.cur.free use.scal = true →
      let a := Vocab.ea s sa off
      (a.toNat < 64 → tile.val < s.runD.ntile → ready → Vocab.Pushed s q i) ∧
      (HandlerThere s → 64 ≤ a.toNat ∨ s.runD.ntile ≤ tile.val → EntersHandler i s cWindowFault a))

/-- Lane l of an operand: a register's lane, or the low half of a scalar as the entry took it (R296, R398). -/
def Sys2Proof.Vocab.lane (s : State) (e : VEntry) (v : VSpec) (l : Nat) : W32 :=
  match v with
  | .v r => laneAt (s.arch.vrd r) l
  | .s r => BitVec.setWidth 32 (kget e.scal r.val 0)

/-- R403, R404, R398, R417: the integer words of two and three operands, lane by lane; active lanes get the result, and no flag is set. -/
def Sys2Proof.Parts.IntegerLaneWordsWriteTheirLanes : Prop :=
  ∀ (s : State) (ty : Lane) (rm : RMode) (c : VCtl) (vd : VReg) (va vb vc : VSpec) (e : VEntry) (st : BitVec 11),
    let x := Vocab.lane s e va
    let y := Vocab.lane s e vb
    let z := Vocab.lane s e vc
    (ty ≠ .f32 →
      (AtHead s .va (.vadd ty rm c vd va vb) e → WritesLanes (.vadd ty rm c vd va vb) s .va e vd (fun l => x l + y l) 0) ∧
      (AtHead s .va (.vsub ty rm c vd va vb) e → WritesLanes (.vsub ty rm c vd va vb) s .va e vd (fun l => x l - y l) 0) ∧
      (AtHead s .va (.vmul ty rm c vd va vb) e → WritesLanes (.vmul ty rm c vd va vb) s .va e vd (fun l => x l * y l) 0) ∧
      (AtHead s .va (.vfma ty rm c vd va vb vc) e →
        WritesLanes (.vfma ty rm c vd va vb vc) s .va e vd (fun l => x l * y l + z l) 0)) ∧
    (AtHead s .va (.vmin .i32 c vd va vb) e →
      WritesLanes (.vmin .i32 c vd va vb) s .va e vd (fun l => if (x l).toInt ≤ (y l).toInt then x l else y l) 0) ∧
    (AtHead s .va (.vmax .i32 c vd va vb) e →
      WritesLanes (.vmax .i32 c vd va vb) s .va e vd (fun l => if (y l).toInt ≤ (x l).toInt then x l else y l) 0) ∧
    (AtHead s .va (.vmin .u32 c vd va vb) e →
      WritesLanes (.vmin .u32 c vd va vb) s .va e vd (fun l => if (x l).toNat ≤ (y l).toNat then x l else y l) 0) ∧
    (AtHead s .va (.vmax .u32 c vd va vb) e →
      WritesLanes (.vmax .u32 c vd va vb) s .va e vd (fun l => if (y l).toNat ≤ (x l).toNat then x l else y l) 0) ∧
    (AtHead s .va (.vabs .i32 c vd va) e →
      WritesLanes (.vabs .i32 c vd va) s .va e vd (fun l => BitVec.ofNat 32 (x l).toInt.natAbs) 0) ∧
    (AtHead s .va (.viota ty c vd va st) e →
      WritesLanes (.viota ty c vd va st) s .va e vd (fun l => x l + BitVec.ofInt 32 (st.toInt * l)) 0)

/-- R403, R404, R398: the bit words, shifts by the low five bits, and moves. -/
def Sys2Proof.Parts.BitLaneWordsWriteTheirLanes : Prop :=
  ∀ (s : State) (ty : Lane) (c : VCtl) (vd : VReg) (va vb vc : VSpec) (e : VEntry),
    let x := Vocab.lane s e va
    let y := Vocab.lane s e vb
    let z := Vocab.lane s e vc
    (AtHead s .va (.vand ty c vd va vb) e → WritesLanes (.vand ty c vd va vb) s .va e vd (fun l => x l &&& y l) 0) ∧
    (AtHead s .va (.vor ty c vd va vb) e → WritesLanes (.vor ty c vd va vb) s .va e vd (fun l => x l ||| y l) 0) ∧
    (AtHead s .va (.vxor ty c vd va vb) e → WritesLanes (.vxor ty c vd va vb) s .va e vd (fun l => x l ^^^ y l) 0) ∧
    (AtHead s .va (.vshl ty c vd va vb) e →
      WritesLanes (.vshl ty c vd va vb) s .va e vd (fun l => x l <<< ((y l).toNat % 32)) 0) ∧
    (AtHead s .va (.vshr ty c vd va vb) e →
      WritesLanes (.vshr ty c vd va vb) s .va e vd (fun l => x l >>> ((y l).toNat % 32)) 0) ∧
    (AtHead s .va (.vsra ty c vd va vb) e →
      WritesLanes (.vsra ty c vd va vb) s .va e vd (fun l => (x l).sshiftRight ((y l).toNat % 32)) 0) ∧
    (AtHead s .va (.vmov ty c vd va) e → WritesLanes (.vmov ty c vd va) s .va e vd x 0) ∧
    (AtHead s .va (.vhash ty c vd va vb vc) e →
      WritesLanes (.vhash ty c vd va vb vc) s .va e vd (fun l => mix32 (x l) (y l) (z l)) 0)

/-- R418, R420, R421: words across lanes: VSEL takes va where its predicate is set, VPERM the lane that vb names or 0, VSLIDE shifts by k
and takes what runs out from vb. -/
def Sys2Proof.Parts.CrossLaneWordsWriteTheirLanes : Prop :=
  ∀ (s : State) (ty : Lane) (c : VCtl) (vd : VReg) (ps : PReg) (va vb : VSpec) (e : VEntry) (k : Fin 64),
    let x := Vocab.lane s e va
    let y := Vocab.lane s e vb
    (AtHead s .va (.vsel ty c vd ps va vb) e →
      WritesLanes (.vsel ty c vd ps va vb) s .va e vd (fun l => if bitAt (s.arch.prd ps) l then x l else y l) 0) ∧
    (AtHead s .va (.vperm ty c vd va vb) e →
      WritesLanes (.vperm ty c vd va vb) s .va e vd (fun l => if (y l).toNat < 64 then x (y l).toNat else 0) 0) ∧
    (AtHead s .va (.vslide false ty c vd va vb k) e →
      WritesLanes (.vslide false ty c vd va vb k) s .va e vd (fun l => if k.val ≤ l then x (l - k.val) else y (64 - k.val + l)) 0) ∧
    (AtHead s .va (.vslide true ty c vd va vb k) e →
      WritesLanes (.vslide true ty c vd va vb k) s .va e vd (fun l => if l + k.val < 64 then x (l + k.val) else y (l + k.val - 64)) 0)

/-- R403, R404, R398, R417, R418, R420, R421: the words of VA on integer lanes, bits and across lanes. -/
def Obligations.LaneWordsWriteTheirLanes : Prop :=
  Parts.IntegerLaneWordsWriteTheirLanes ∧ Parts.BitLaneWordsWriteTheirLanes ∧ Parts.CrossLaneWordsWriteTheirLanes

/-- The flags that the active lanes raise (R95, R399). -/
def Sys2Proof.Vocab.flags (s : State) (c : VCtl) (f : Nat → FFlags) : FFlags :=
  (List.range 64).foldl (fun a l => if bitAt (s.arch.prd c.qp) l then a ||| f l else a) 0

/-- R403, R404, R95, R413: the FP32 words and VCVT write each active lane's result and OR the flags of the active lanes into FPFLAGS.
VEXP2 and VLOG2 are those of log entry 8. -/
def Obligations.FloatLaneWordsWriteTheirLanes : Prop :=
  ∀ (s : State) (rm : RMode) (src dst : Fmt) (c : VCtl) (vd : VReg) (va vb vc : VSpec) (e : VEntry),
    let x := Vocab.lane s e va
    let y := Vocab.lane s e vb
    let z := Vocab.lane s e vc
    let writes (i : Instr) (f : Nat → W32 × FFlags) : Prop :=
      AtHead s .va i e → WritesLanes i s .va e vd (fun l => (f l).1) (Vocab.flags s c fun l => (f l).2)
    writes (.vadd .f32 rm c vd va vb) (fun l => fadd rm (x l) (y l)) ∧
    writes (.vsub .f32 rm c vd va vb) (fun l => fsub rm (x l) (y l)) ∧
    writes (.vmul .f32 rm c vd va vb) (fun l => fmul rm (x l) (y l)) ∧
    writes (.vfma .f32 rm c vd va vb vc) (fun l => ffma rm (x l) (y l) (z l)) ∧
    writes (.vmin .f32 c vd va vb) (fun l => fminmax false (x l) (y l)) ∧
    writes (.vmax .f32 c vd va vb) (fun l => fminmax true (x l) (y l)) ∧
    writes (.vabs .f32 c vd va) (fun l => (x l &&& 0x7FFFFFFF, 0)) ∧
    writes (.vdiv c vd va vb) (fun l => fdiv (x l) (y l)) ∧
    writes (.vsqrt c vd va) (fun l => fsqrt (x l)) ∧
    writes (.vexp2 c vd va) (fun l => fexp2 (x l)) ∧
    writes (.vlog2 c vd va) (fun l => flog2 (x l)) ∧
    writes (.vcvt src dst rm c vd va vb vc) (fun l => convert src dst rm (mix32 e.seed (y l) (z l)) (x l))

/-! ## Rounded results -/

/-- R75, R77: exponent bits, mantissa bits, and the exponent of the smallest step of a format over 2^-149. -/
def Sys2Proof.Vocab.layout : Fmt → Nat × Nat × Nat
  | .fp32 => (8, 23, 0) | .bf16 => (8, 7, 16) | .fp16 => (5, 10, 125) | .e4m3 => (4, 3, 140) | .e5m2 => (5, 2, 133)
  | .e2m3 => (2, 3, 146) | .e3m2 => (3, 2, 145) | .e2m1 => (2, 1, 148)
  | .int4 => (0, 3, 147) | .int6 => (0, 5, 145) | .int8 => (0, 7, 143) | .i32 => (0, 31, 149) | .u32 => (0, 32, 149)

/-- A format with an exponent field. -/
def Sys2Proof.Vocab.floats (f : Fmt) : Bool := decide ((Vocab.layout f).1 ≠ 0)

/-- The value of a finite code, times 2^149 (R75, R77); E2M1's 0b1000 and the reserved integer codes read as 0. none: NaN or an infinity. -/
def Sys2Proof.Vocab.val (f : Fmt) (c : Nat) : Option Int :=
  let (x, m, u) := Vocab.layout f
  if f = .u32 then some (c * 2 ^ 149)
  else if x = 0 then
    some (if f ≠ .i32 ∧ c = 2 ^ m then 0 else if c < 2 ^ m then c * 2 ^ u else (c - 2 * 2 ^ m : Int) * 2 ^ u)
  else
    let e := c / 2 ^ m % 2 ^ x
    let g := c % 2 ^ m
    if (e = 2 ^ x - 1 ∧ (f = .fp32 ∨ f = .bf16 ∨ f = .fp16 ∨ f = .e5m2)) ∨ (f = .e4m3 ∧ c % 128 = 127) then none
    else if f = .e2m1 ∧ c = 8 then some 0
    else
      let k : Int := ((if e = 0 then g else (2 ^ m + g) * 2 ^ (e - 1)) * 2 ^ u : Nat)
      some (if c / 2 ^ (x + m) % 2 = 1 then -k else k)

/-- The code of the largest magnitude on one side of 0 (R75, R77). -/
def Sys2Proof.Vocab.most (f : Fmt) (neg : Bool) : Nat :=
  match f with
  | .fp32 => if neg then 0xFF7FFFFF else 0x7F7FFFFF | .bf16 => if neg then 0xFF7F else 0x7F7F | .fp16 => if neg then 0xFBFF else 0x7BFF
  | .e4m3 => if neg then 0xFE else 0x7E | .e5m2 => if neg then 0xFB else 0x7B
  | .e2m3 | .e3m2 => if neg then 0x3F else 0x1F | .e2m1 => if neg then 0xF else 7
  | .int4 => if neg then 9 else 7 | .int6 => if neg then 33 else 31 | .int8 => if neg then 129 else 127
  | .i32 => if neg then 0x80000000 else 0x7FFFFFFF | .u32 => if neg then 0 else 0xFFFFFFFF

/-- The largest magnitude on that side. -/
def Sys2Proof.Vocab.limit (f : Fmt) (neg : Bool) : Nat := ((Vocab.val f (Vocab.most f neg)).getD 0).natAbs

/-- c is the code of f of that sign and magnitude (R87): a zero keeps its sign but in E2M1 and the integer formats. -/
def Sys2Proof.Vocab.Encodes (f : Fmt) (neg : Bool) (k c : Nat) : Prop :=
  c < 2 ^ f.width ∧ Vocab.val f c = some (if neg then -(k : Int) else k) ∧
    (k = 0 → c = if neg ∧ Vocab.floats f ∧ f ≠ .e2m1 then 2 ^ (f.width - 1) else 0)

/-- The quantum of the magnitude n / d in f, over 2^-149 (R84). -/
def Sys2Proof.Vocab.quantum (f : Fmt) (n d : Nat) : Nat :=
  let (x, m, u) := Vocab.layout f
  if x = 0 then 2 ^ u else 2 ^ max (Nat.log2 (n / d) - m) u

/-- The positions of the significand window of n / d below the quantum, at most 24 (R85): 24 positions from the leading bit on, or, for a wide
integer source, those down to 2^0. -/
def Sys2Proof.Vocab.window (f : Fmt) (n d : Nat) (wide : Bool) : Nat :=
  let lead := Nat.log2 (n / d)
  let q := Nat.log2 (Vocab.quantum f n d)
  min 24 (min q (lead + 1) + (if wide then 0 else 23) - (if wide then 149 else lead))

/-- R84, R85: the magnitude n / d rounded to a multiple of its quantum, over 2^-149: the lower neighbour, or the upper one as the mode says. -/
def Sys2Proof.Vocab.round (f : Fmt) (rm : RMode) (neg : Bool) (n d : Nat) (r : W32) (wide : Bool) : Nat :=
  let q := Vocab.quantum f n d
  let k := n / (q * d)
  let rest := n % (q * d)
  let w := Vocab.window f n d wide
  let up : Bool := match rm with
    | .rne => decide (q * d < 2 * rest ∨ (q * d = 2 * rest ∧ k % 2 = 1))
    | .rtz => false
    | .rdn => neg
    | .rup => !neg
    | .rna => decide (q * d ≤ 2 * rest)
    | .sr => decide (2 ^ w ≤ rest * 2 ^ w / (q * d) + r.toNat / 2 ^ (32 - w))
  q * (k + if rest ≠ 0 ∧ up = true then 1 else 0)

/-- What an FP32 operation delivers for the exact result n / d over 2^-149, of that sign (R84, R94, R95): the rounded value, NX where it is not
exact, UF beside it where the delivered value is below 2^-126 (log entry 44); beyond the largest finite value ±∞ or ±Max by the mode, with OF
and NX. -/
def Sys2Proof.Vocab.Delivers (rm : RMode) (neg : Bool) (n d : Nat) (r : W32 × FFlags) : Prop :=
  let k := Vocab.round .fp32 rm neg n d 0 false
  let inf : Bool := match rm with | .rne | .rna => true | .rdn => neg | .rup => !neg | _ => false
  if Vocab.limit .fp32 neg < k then
    r = (BitVec.ofNat 32 ((if inf then 0x7F800000 else 0x7F7FFFFF) + if neg then 2 ^ 31 else 0), 5)
  else Vocab.Encodes .fp32 neg k r.1.toNat ∧ r.2 = if k * d = n then 0 else if k < 2 ^ 23 then 3 else 1

/-- The sign of a sum of two finite values of these signs: that of the sum, of both where both are zeros of one sign, and of an exact zero
otherwise as the mode says (R93). -/
def Sys2Proof.Vocab.sumSign (rm : RMode) (sum : Int) (x y : Bool) : Bool :=
  if sum ≠ 0 then decide (sum < 0) else if x = y then x else decide (rm = .rdn)

/-- R84, R93, R94, R95, R96: FP32 addition, subtraction, multiplication, the fused multiply-add and division of finite operands round the exact
result once; the square root is the nearest value; infinities and divisions by zero give the values and the flags of their rows. -/
def Sys2Proof.Parts.FloatOperationsRoundOnce : Prop :=
  ∀ (rm : RMode) (a b c : W32), rm ≠ .sr →
    let val (w : W32) : Option Int := Vocab.val .fp32 w.toNat
    let isInf (w : W32) : Prop := w.toNat % 2 ^ 31 = 0x7F800000
    let neg (w : W32) : Bool := w.getLsbD 31
    let inf (s : Bool) : W32 := if s then 0xFF800000 else 0x7F800000
    let zero (s : Bool) : W32 := if s then 0x80000000 else 0
    let s := neg a != neg b
    let nan : W32 := 0x7FC00000
    (∀ x y, val a = some x → val b = some y →
      Vocab.Delivers rm (Vocab.sumSign rm (x + y) (neg a) (neg b)) (x + y).natAbs 1 (fadd rm a b) ∧
      Vocab.Delivers rm (Vocab.sumSign rm (x - y) (neg a) (!neg b)) (x - y).natAbs 1 (fsub rm a b) ∧
      Vocab.Delivers rm s (x * y).natAbs (2 ^ 149) (fmul rm a b) ∧
      (y ≠ 0 → Vocab.Delivers .rne s (x.natAbs * 2 ^ 149) y.natAbs (fdiv a b)) ∧
      (y = 0 → fdiv a b = if x = 0 then (nan, 16) else (inf s, 8)) ∧
      (∀ z, val c = some z → Vocab.Delivers rm (Vocab.sumSign rm (x * y + z * 2 ^ 149) s (neg c)) (x * y + z * 2 ^ 149).natAbs (2 ^ 149)
        (ffma rm a b c)) ∧
      (isInf c → ffma rm a b c = (c, 0))) ∧
    (isInf a → ∀ y, val b = some y →
      fadd rm a b = (a, 0) ∧ fadd rm b a = (a, 0) ∧ fsub rm a b = (a, 0) ∧ fsub rm b a = (inf (!neg a), 0) ∧
      fmul rm a b = (if y = 0 then (nan, 16) else (inf s, 0)) ∧ fmul rm b a = (if y = 0 then (nan, 16) else (inf s, 0)) ∧
      fdiv a b = (inf s, 0) ∧ fdiv b a = (zero s, 0)) ∧
    (isInf a → isInf b →
      fadd rm a b = (if neg a = neg b then (a, 0) else (nan, 16)) ∧ fsub rm a b = (if neg a = neg b then (nan, 16) else (a, 0)) ∧
      fmul rm a b = (inf s, 0) ∧ fdiv a b = (nan, 16)) ∧
    (isInf a → (isInf b ∨ ∃ y, val b = some y ∧ y ≠ 0) →
      ((val c).isSome → ffma rm a b c = (inf s, 0) ∧ ffma rm b a c = (inf s, 0)) ∧
      (isInf c → ffma rm a b c = (if neg c = s then (c, 0) else (nan, 16)) ∧ ffma rm b a c = if neg c = s then (c, 0) else (nan, 16))) ∧
    (∀ x, val a = some x → (x = 0 → fsqrt a = (a, 0)) ∧ (x < 0 → fsqrt a = (nan, 16)) ∧
      (0 < x → ∃ r, val (fsqrt a).1 = some r ∧ 0 < r ∧ (fsqrt a).2 = (if r * r = x * 2 ^ 149 then 0 else 1) ∧
        ∀ w v, val w = some v → 0 ≤ v →
          (r < v → 4 * (x * 2 ^ 149) ≤ (r + v) * (r + v)) ∧ (v < r → (r + v) * (r + v) ≤ 4 * (x * 2 ^ 149)))) ∧
    (isInf a → fsqrt a = if neg a then (nan, 16) else (a, 0))

/-- R96, R93, R412: the special rows of VEXP2 and VLOG2, the order of minimumNumber and maximumNumber, which set −0 below +0, and the
comparisons of FP32, in which a NaN is unordered. -/
def Sys2Proof.Parts.FloatSpecialsAndOrders : Prop :=
  ∀ (a b : W32) (m : Bool),
    let val (w : W32) : Option Int := Vocab.val .fp32 w.toNat
    let mag (w : W32) : Int := w.toNat % 2 ^ 31
    let isNan (w : W32) : Prop := 0x7F800000 < mag w
    let sig (w : W32) : FFlags := if 0x7F800000 < mag w ∧ mag w < 0x7FC00000 then 16 else 0
    let place (w : W32) : Int := if w.getLsbD 31 then -1 - mag w else mag w
    let key (w : W32) : Int := if w.getLsbD 31 then -mag w else mag w
    (∀ x, val a = some x →
      (x = 0 → fexp2 a = (0x3F800000, 0)) ∧ (128 * 2 ^ 149 ≤ x → fexp2 a = (0x7F800000, 5)) ∧ (x ≤ -150 * 2 ^ 149 → fexp2 a = (0, 3)) ∧
      (∀ n : Int, -149 ≤ n → n ≤ 127 → x = n * 2 ^ 149 → val (fexp2 a).1 = some (2 ^ (n + 149).toNat) ∧ (fexp2 a).2 = 0) ∧
      (x = 0 → flog2 a = (0xFF800000, 8)) ∧ (x < 0 → flog2 a = (0x7FC00000, 16)) ∧
      (∀ n : Nat, x = 2 ^ n → val (flog2 a).1 = some (((n : Int) - 149) * 2 ^ 149) ∧ (n = 149 → (flog2 a).1 = 0) ∧ (flog2 a).2 = 0)) ∧
    fexp2 0x7F800000 = (0x7F800000, 0) ∧ fexp2 0xFF800000 = (0, 0) ∧ flog2 0x7F800000 = (0x7F800000, 0) ∧
    flog2 0xFF800000 = (0x7FC00000, 16) ∧
    (¬ isNan a → ¬ isNan b →
      fminmax m a b = (if (place a ≤ place b) = (m = false) then a else b, 0) ∧
      fcompare .eq a b = (decide (key a = key b), 0) ∧ fcompare .ne a b = (decide (key a ≠ key b), 0) ∧
      fcompare .lt a b = (decide (key a < key b), 0) ∧ fcompare .le a b = (decide (key a ≤ key b), 0) ∧
      fcompare .gt a b = (decide (key b < key a), 0) ∧ fcompare .ge a b = (decide (key b ≤ key a), 0)) ∧
    (isNan a ∨ isNan b →
      fcompare .eq a b = (false, sig a ||| sig b) ∧ fcompare .ne a b = (true, sig a ||| sig b) ∧
      ∀ cond, cond = .lt ∨ cond = .le ∨ cond = .gt ∨ cond = .ge → fcompare cond a b = (false, 16))

/-- R75, R83-R85, R92-R97: FP32 arithmetic rounds once; its special values, minima, maxima and orders. -/
def Obligations.FloatOperationsRound : Prop :=
  Parts.FloatOperationsRoundOnce ∧ Parts.FloatSpecialsAndOrders

/-- R93, R75: an FP32 operation with a NaN operand gives the canonical NaN, and sets NV where an operand is signalling, VFMA also where its product
is 0 × ∞; VMIN and VMAX give the other operand. -/
def Obligations.NanOperandsGiveTheCanonicalNan : Prop :=
  ∀ (rm : RMode) (a b c : W32),
    let isNan (w : W32) : Prop := 0x7F800000 < w.toNat % 2 ^ 31
    let sig (w : W32) : FFlags := if 0x7F800000 < w.toNat % 2 ^ 31 ∧ w.toNat % 2 ^ 31 < 0x7FC00000 then 16 else 0
    let bad : Prop := (a.toNat % 2 ^ 31 = 0 ∧ b.toNat % 2 ^ 31 = 0x7F800000) ∨ (a.toNat % 2 ^ 31 = 0x7F800000 ∧ b.toNat % 2 ^ 31 = 0)
    (isNan a ∨ isNan b →
      fadd rm a b = (0x7FC00000, sig a ||| sig b) ∧ fsub rm a b = (0x7FC00000, sig a ||| sig b) ∧
      fmul rm a b = (0x7FC00000, sig a ||| sig b) ∧ fdiv a b = (0x7FC00000, sig a ||| sig b)) ∧
    (isNan a ∨ isNan b ∨ isNan c ∨ bad → ffma rm a b c = (0x7FC00000, sig a ||| sig b ||| sig c ||| if bad then 16 else 0)) ∧
    (isNan a → fsqrt a = (0x7FC00000, sig a) ∧ fexp2 a = (0x7FC00000, sig a) ∧ flog2 a = (0x7FC00000, sig a)) ∧
    (isNan a → ¬ isNan b → ∀ m, fminmax m a b = (b, sig a) ∧ fminmax m b a = (b, sig a)) ∧
    (isNan a → isNan b → ∀ m, fminmax m a b = (0x7FC00000, sig a ||| sig b))

/-- R97, R84, R85, R95: VCVT rounds a finite source once, from its exact value, and saturates beyond the destination's largest finite value, with OF
and NX, and NV for an integer destination; a NaN or an infinite source gives the NaN or the infinity of a destination that has one, and
otherwise 0 with NV, or the largest value with OF (no NX: log entry 58). -/
def Sys2Proof.Parts.ConversionsRoundAndSaturate : Prop :=
  ∀ (src dst : Fmt) (rm : RMode) (r lane : W32),
    let code := lane.toNat % 2 ^ src.width
    let out := convert src dst rm r lane
    let int : Bool := decide (dst = .i32 ∨ dst = .u32)
    (∀ x, Vocab.val src code = some x →
      let neg : Bool := decide (x < 0) || (decide (x = 0) && Vocab.floats src && decide (src ≠ .e2m1) && decide (2 ^ (src.width - 1) ≤ code))
      let wide : Bool := decide ((src = .i32 ∨ src = .u32) ∧ ∀ k < 32, (x.natAbs / 2 ^ 149) % 2 ^ k = 0 → 2 ^ 24 ≤ x.natAbs / 2 ^ 149 / 2 ^ k)
      let k := Vocab.round dst rm neg x.natAbs 1 r wide
      let tiny : Bool := Vocab.floats dst && decide (k < 2 ^ ((Vocab.layout dst).2.1 + (Vocab.layout dst).2.2))
      if Vocab.limit dst neg < k then out = (BitVec.ofNat 32 (Vocab.most dst neg), if int then 21 else 5)
      else Vocab.Encodes dst neg k out.1.toNat ∧ out.2 = if k = x.natAbs then 0 else if tiny then 3 else 1) ∧
    (Vocab.val src code = none →
      let (x, m, _) := Vocab.layout src
      let neg : Bool := decide (2 ^ (src.width - 1) ≤ code)
      let sig : FFlags := if src ≠ .e4m3 ∧ code % 2 ^ m < 2 ^ (m - 1) then 16 else 0
      let inf (f : Fmt) : Nat := match f with | .fp32 => 0x7F800000 | .bf16 => 0x7F80 | .fp16 => 0x7C00 | .e5m2 => 0x7C | _ => 0
      let nan (f : Fmt) : Nat := match f with | .fp32 => 0x7FC00000 | .bf16 => 0x7FC0 | .fp16 => 0x7E00 | .e4m3 | .e5m2 => 0x7F | _ => 0
      if code % 2 ^ m = 0 ∧ src ≠ .e4m3 then
        out = (if inf dst ≠ 0 then (BitVec.ofNat 32 (inf dst + if neg then 2 ^ (dst.width - 1) else 0), 0)
          else (BitVec.ofNat 32 (Vocab.most dst neg), if int then 20 else 4)) ∧ x ≠ 0
      else out = if nan dst ≠ 0 then (BitVec.ofNat 32 (nan dst), sig) else (0, 16))

/-- The signed value m × 2^e of a model value, over 2^-E, where E is large enough. -/
def Sys2Proof.Vocab.over (E : Nat) : Val → Option Int
  | .num s m e => if 0 ≤ e + E then some ((if s then -1 else 1) * (m * 2 ^ (e + E).toNat : Nat)) else none
  | _ => none

/-- R88, R89: a DRAIN element is rounded to its format at its block's scale and saturates; what counts as an overflow and as a NaN; the scale of a
block brings its largest finite magnitude to the format's top binade. -/
def Sys2Proof.Parts.DrainsRoundAndSaturate : Prop :=
  ∀ (x : W32) (f : Fmt) (rm : RMode) (S : Nat) (r : W32) (xs : List W32), f.isDrain = true → S ≤ 254 →
    let neg : Bool := x.getLsbD 31
    let emax : Int := match f with | .e4m3 => 8 | .e5m2 => 15 | .e2m3 => 2 | .e3m2 => 4 | .e2m1 => 2 | _ => 0
    let mag (w : W32) : Nat := ((Vocab.val .fp32 w.toNat).getD 0).natAbs
    (∀ v, Vocab.val .fp32 x.toNat = some v →
      let k := Vocab.round f rm neg (v.natAbs * 2 ^ 127) (2 ^ S) r false
      if Vocab.limit f neg < k then drainElem x f rm S r = (Vocab.most f neg, false, decide (f.isMX = false ∨ S = 254))
      else ∃ c, drainElem x f rm S r = (c, false, false) ∧ Vocab.Encodes f neg k c) ∧
    (x.toNat % 2 ^ 31 = 0x7F800000 → drainElem x f rm S r = (Vocab.most f neg, false, true)) ∧
    (0x7F800000 < x.toNat % 2 ^ 31 → drainElem x f rm S r =
      ((match f with | .fp32 => 0x7FC00000 | .bf16 => 0x7FC0 | .e4m3 | .e5m2 => 0x7F | _ => 0), true, false)) ∧
    ((∀ w ∈ xs, mag w = 0) → blockScale f xs = 127) ∧
    (∀ y ∈ xs, mag y ≠ 0 → (∀ w ∈ xs, mag w ≤ mag y) →
      (blockScale f xs : Int) = max 0 (min 254 ((Nat.log2 (mag y) : Int) - 149 - emax + 127)))

/-- R81, R82, R83: an operand element is exact; the sum of a chunk is exact, of a BF16 pair's products truncated 60 places below the largest;
its special values; and it is rounded to FP32 once before the accumulator takes it. -/
def Sys2Proof.Parts.ChunkSumsAreExact : Prop :=
  (∀ (f : Fmt) (code scale xv : Nat) (v : Int), f.isMatrix = true → code < 2 ^ f.width → scale ≤ 254 → Vocab.val f code = some v →
    ¬ (f = .e2m1 ∧ code = 8) → (f = .bf16 → scale = 127) →
    Vocab.over 276 (decodeElem f code scale xv) = some (v * 2 ^ scale)) ∧
  (∀ (scale xv : Nat), scale ≤ 254 → xv < 64 → Vocab.over 276 (decodeElem .e2m1 8 scale xv) =
    some ((if xv / 32 = 1 then (-1 : Int) else 1) * (if xv / 2 % 16 = 0 then 0 else (2 + xv % 2) * 2 ^ (xv / 2 % 16 + 141)) * 2 ^ scale)) ∧
  (∀ (f : Fmt) (code xv : Nat), f.isMX = true → decodeElem f code 255 xv = .nan) ∧
  (∀ (bf : Bool) (ps : List Val),
    (.nan ∈ ps ∨ (.inf false ∈ ps ∧ .inf true ∈ ps) → chunkSum bf ps = .nan) ∧
    (.nan ∉ ps → ∀ s, .inf s ∈ ps → .inf (!s) ∉ ps → chunkSum bf ps = .inf s) ∧
    (∀ (E : Nat) (vs : List Int), ps.map (Vocab.over E) = vs.map some →
      (bf = false ∨ (∀ v ∈ vs, v = 0) → Vocab.over E (chunkSum bf ps) = some vs.sum) ∧
      (∀ top : Nat, bf = true → 60 ≤ top → (∀ v ∈ vs, v.natAbs < 2 * 2 ^ top) → (∃ v ∈ vs, 2 ^ top ≤ v.natAbs) →
        Vocab.over E (chunkSum bf ps) = some (vs.map fun v => v.tdiv (2 ^ (top - 60)) * 2 ^ (top - 60)).sum) ∧
      (vs.sum = 0 → bf = false → ∃ e, chunkSum bf ps = .num (ps.all fun p => match p with | .num s m _ => s && m == 0 | _ => false) 0 e))) ∧
  (∀ (rm : RMode) (s : Bool) (m : Nat) (e : Int), rm ≠ .sr →
    Vocab.Delivers rm s (m * 2 ^ (e + 149).toNat) (2 ^ (-149 - e : Int).toNat) (toF32 rm (.num s m e))) ∧
  (∀ (acc : W32) (v : Val), accumulate acc v = (fadd .rne acc (toF32 .rne v).1).1)

/-- R81, R83-R91, R97: what VCVT, DRAIN and a chunk of an MMA deliver. -/
def Obligations.ConversionsDrainsAndChunksRound : Prop :=
  Parts.ConversionsRoundAndSaturate ∧ Parts.DrainsRoundAndSaturate ∧ Parts.ChunkSumsAreExact

/-- The neighbours of a list combined, level by level (R98). -/
def Sys2Proof.Vocab.tree {α : Type} (f : α → α → α) : Nat → List α → List α
  | 0, l => l
  | n + 1, l => Vocab.tree f n ((List.range (l.length / 2)).filterMap fun i =>
      match l[2 * i]?, l[2 * i + 1]? with | some x, some y => some (f x y) | _, _ => none)

/-- R98, R419: VRED of the integer and bit operations combines neighbours over six levels, an inactive lane standing as the identity, and
every lane of vd gets the result. -/
def Sys2Proof.Parts.ReductionsCombineNeighbours : Prop :=
  ∀ (s : State) (rm : RMode) (c : VCtl) (vd : VReg) (va : VSpec) (e : VEntry) (ty : Lane) (op : RedOp) (f : W32 → W32 → W32) (one : W32),
    ((ty ≠ .f32 ∧ op = .add ∧ f = (· + ·) ∧ one = 0) ∨ (op = .and ∧ f = (· &&& ·) ∧ one = 0xFFFFFFFF ∧ ty ≠ .f32) ∨
      (op = .or ∧ f = (· ||| ·) ∧ one = 0 ∧ ty ≠ .f32) ∨ (op = .xor ∧ f = (· ^^^ ·) ∧ one = 0 ∧ ty ≠ .f32) ∨
      (ty = .u32 ∧ op = .maxu ∧ f = (fun x y => if x.toNat < y.toNat then y else x) ∧ one = 0) ∨
      (ty = .u32 ∧ op = .minu ∧ f = (fun x y => if y.toNat < x.toNat then y else x) ∧ one = 0xFFFFFFFF) ∨
      (ty = .i32 ∧ op = .max ∧ f = (fun x y => if x.toInt < y.toInt then y else x) ∧ one = 0x80000000) ∨
      (ty = .i32 ∧ op = .min ∧ f = (fun x y => if y.toInt < x.toInt then y else x) ∧ one = 0x7FFFFFFF)) →
    AtHead s .va (.vred ty op rm c vd va) e →
    ∃ v r, Vocab.tree f 6 ((List.range 64).map fun l => if bitAt (s.arch.prd c.qp) l then Vocab.lane s e va l else one) = [r] ∧
      (∀ l, l < 64 → laneAt v l = r) ∧
      Answers (.vred ty op rm c vd va) s
        (s.cur.entryDone s.cycle .va e (((s.arch.popTok (Chan.code c.pop)).vwr vd v).orFlags 0))

/-- R98, R419, R95: VRED of FP32 values rounds at every node, from −0, +∞ or −∞ for an inactive lane, and ORs the flags of all nodes. -/
def Sys2Proof.Parts.FloatReductionsCombineNeighbours : Prop :=
  ∀ (s : State) (rm : RMode) (c : VCtl) (vd : VReg) (va : VSpec) (e : VEntry) (op : RedOp) (f : W32 → W32 → W32 × FFlags) (one : W32),
    ((op = .add ∧ f = fadd rm ∧ one = 0x80000000) ∨ (op = .min ∧ f = fminmax false ∧ one = 0x7F800000) ∨
      (op = .max ∧ f = fminmax true ∧ one = 0xFF800000)) →
    AtHead s .va (.vred .f32 op rm c vd va) e →
    ∃ v r g, Vocab.tree (fun x y => ((f x.1 y.1).1, x.2 ||| y.2 ||| (f x.1 y.1).2)) 6 ((List.range 64).map fun l =>
        (if bitAt (s.arch.prd c.qp) l then Vocab.lane s e va l else one, (0 : FFlags))) = [(r, g)] ∧
      (∀ l, l < 64 → laneAt v l = r) ∧
      Answers (.vred .f32 op rm c vd va) s
        (s.cur.entryDone s.cycle .va e (((s.arch.popTok (Chan.code c.pop)).vwr vd v).orFlags g))

/-- R98, R419, R95: VRED of every lane type. -/
def Obligations.ReductionsCombineTheirLanes : Prop :=
  Parts.ReductionsCombineNeighbours ∧ Parts.FloatReductionsCombineNeighbours

/-- a has the predicate p reading v, and is b in everything else; p0 goes on reading all ones (R295). -/
def Sys2Proof.Vocab.PredIs (b a : Arch) (p : PReg) (v : Nat → Bool) : Prop :=
  (∀ q, q ≠ p ∨ q = 0 → a.prd q = b.prd q) ∧ (p ≠ 0 → ∀ l, l < 64 → bitAt (a.prd p) l = v l) ∧ { a with pregs := b.pregs } = b

/-- t is s but for the core in focus, where the entry e of VA has retired with architectural state a and the trace has its records. -/
def Sys2Proof.Vocab.PredDone (i : Instr) (s : State) (e : VEntry) (a : Arch) : Prop :=
  ∃ t k, exec i s = .next t ∧ OnlyCore s t s.focus k ∧
    k.arch = a.retireHead .va (Chan.code (Machine.Instr.vctl i).push) ∧ k.stalls = kdel s.cur.stalls 2 ∧ k.run = s.cur.run ∧
    k.pend = s.cur.pend ∧ k.copies = s.cur.copies ∧ k.windows = s.cur.windows ∧ e.instr = i

/-- R376, R379: PLOG and PSET write their predicate in the active lanes, and clear or keep the others. -/
def Sys2Proof.Parts.PredicateWordsWriteTheirBits : Prop :=
  ∀ (s : State) (op : PlogOp) (src : PsetSrc) (c : VCtl) (pd pa pb : PReg) (e : VEntry),
    let old (l : Nat) : Bool := if c.z then false else bitAt (s.arch.prd pd) l
    let x (l : Nat) : Bool := bitAt (s.arch.prd pa) l
    let y (l : Nat) : Bool := bitAt (s.arch.prd pb) l
    let popped := s.arch.popTok (Chan.code c.pop)
    (AtHead s .va (.plog op c pd pa pb) e → ∃ a, Vocab.PredIs popped a pd (fun l => if bitAt (s.arch.prd c.qp) l then (match op with
        | .and => x l && y l | .or => x l || y l | .xor => x l ^^ y l | .andn => x l && !y l | .orn => x l || !y l
        | .nand => !(x l && y l) | .nor => !(x l || y l) | .xnor => !(x l ^^ y l)) else old l) ∧
      Vocab.PredDone (.plog op c pd pa pb) s e a) ∧
    (AtHead s .va (.pset src c pd) e → ∃ a, Vocab.PredIs popped a pd (fun l => if bitAt (s.arch.prd c.qp) l then (match src with
        | .bits r => bitAt (if r = 0 then 0 else kget e.scal r.val 0) l
        | .firstReg r => decide (l < (if r = 0 then 0 else kget e.scal r.val 0).toNat)
        | .firstImm n => decide (l < n.val)) else old l) ∧ Vocab.PredDone (.pset src c pd) s e a)

/-- R412: VCMP compares the lanes and combines the result with the old masks by its type; the second predicate is written last. -/
def Sys2Proof.Parts.CompareWordsCombineTheMasks : Prop :=
  ∀ (s : State) (ty : Lane) (cond : Cond) (ct : CType) (c : VCtl) (pd1 pd2 : PReg) (va vb : VSpec) (e : VEntry),
    AtHead s .va (.vcmp ty cond ct c pd1 pd2 va vb) e → pd1 ≠ pd2 →
    let x := Vocab.lane s e va
    let y := Vocab.lane s e vb
    let res (l : Nat) : Bool × FFlags := if ty = .f32 then fcompare cond (x l) (y l) else (match cond with
      | .eq => decide (x l = y l) | .ne => decide (x l ≠ y l)
      | .lt => decide ((x l).toInt < (y l).toInt) | .le => decide ((x l).toInt ≤ (y l).toInt)
      | .gt => decide ((y l).toInt < (x l).toInt) | .ge => decide ((y l).toInt ≤ (x l).toInt)
      | .ltu => decide ((x l).toNat < (y l).toNat) | .leu => decide ((x l).toNat ≤ (y l).toNat)
      | .gtu => decide ((y l).toNat < (x l).toNat) | .geu => decide ((y l).toNat ≤ (x l).toNat), 0)
    let p1 (l : Nat) : Bool := bitAt (s.arch.prd pd1) l
    let p2 (l : Nat) : Bool := bitAt (s.arch.prd pd2) l
    let new (l : Nat) : Bool × Bool := if bitAt (s.arch.prd c.qp) l then (let b := (res l).1
      match ct with
      | .new => (b, !b) | .all => (p1 l && b, p2 l || !b) | .any => (p1 l || b, p2 l && !b) | .par => (p1 l ^^ b, !(p1 l ^^ b))
      | .edge => (b && !p2 l, p2 l || b) | .drop => (p1 l && !b, p2 l || (p1 l && b)) | .hist => (b, p1 l)
      | .split => (p2 l && b, p2 l && !b)) else if c.z then (false, false) else (p1 l, p2 l)
    let popped := (s.arch.popTok (Chan.code c.pop)).orFlags (Vocab.flags s c fun l => (res l).2)
    ∃ a b, Vocab.PredIs popped a pd1 (fun l => (new l).1) ∧ Vocab.PredIs a b pd2 (fun l => (new l).2) ∧
      Vocab.PredDone (.vcmp ty cond ct c pd1 pd2 va vb) s e b

/-- R415: VGET, once VA has retired every earlier entry, gives a lane, the first active lane or 64, or the number of active lanes. -/
def Sys2Proof.Parts.VgetReadsLanesAndPredicates : Prop :=
  ∀ (s : State) (c : VCtl) (sd sa : SReg) (va : VReg) (l : Fin 64) (ty : Lane), s.cur.free [sd, sa] = true → s.inHandler = false →
    va.val < s.runD.nvec → s.cur.flaws = [] → s.arch.va = [] → s.arch.vl = [] → s.arch.slipOk = true → kfind s.arch.owed 2 = none →
    s.arch.tokReady (Chan.code c.pop) = true →
    let gets (form : VGetForm) (v : Word) : Prop := ∃ t, exec (.vget form c sd) s = .next t ∧ SameMemory s t ∧
      (∀ d, d ≠ s.focus → t.core d = s.core d) ∧ { t with cores := s.cores } = s ∧
      ∃ a, ScalarIs { s.arch.popTok (Chan.code c.pop) with vnum := s.arch.vnum + 1, seq := s.arch.seq + 1 } a sd v ∧
        t.arch = (if a.tokRoom (Chan.code c.push) then a.pushTok (Chan.code c.push)
          else { a with owed := kset a.owed 2 (Chan.code c.push) }).advance.retire
    let wide (x : W32) : Word := if ty = .i32 then BitVec.signExtend 64 x else BitVec.setWidth 64 x
    gets (.lane (.v va) l ty) (wide (laneAt (s.arch.vrd va) l.val)) ∧
    gets (.lane (.s sa) l ty) (wide (BitVec.setWidth 32 (s.arch.rd sa))) ∧
    (∃ n, n ≤ 64 ∧ (∀ j, j < n → bitAt (s.arch.prd c.qp) j = false) ∧ (n < 64 → bitAt (s.arch.prd c.qp) n = true) ∧
      gets .first (BitVec.ofNat 64 n)) ∧
    gets .count (BitVec.ofNat 64 ((List.range 64).countP fun j => bitAt (s.arch.prd c.qp) j))

/-- R376, R379, R412, R415: predicates, and what VGET reads. -/
def Obligations.PredicatesAreWrittenAndRead : Prop :=
  Parts.PredicateWordsWriteTheirBits ∧ Parts.CompareWordsCombineTheMasks ∧ Parts.VgetReadsLanesAndPredicates

/-- The bytes of a list of ranges lie where an engine's access meets nothing. -/
def Sys2Proof.Vocab.LanesClear (s : State) (e : VEntry) (rs : List (Nat × Nat)) : Prop :=
  ∀ r ∈ rs, s.cur.pageBusy e.seq r.1 r.2 = false ∧ s.arch.absentPage r.1 r.2 = none ∧ s.cur.locked r.1 r.2 = false

/-- The ranges that the active lanes access. -/
def Sys2Proof.Vocab.ranges (s : State) (c : VCtl) (n : Nat) (off : Nat → Nat) : List (Nat × Nat) :=
  ((List.range 64).filter fun l => bitAt (s.arch.prd c.qp) l).map fun l => (off l, n)

/-- [sa + off] of an entry, with the scalar it took at the push (R54). -/
def Sys2Proof.Vocab.base (e : VEntry) (sa : SReg) (off : W32) : Word := e.scalar sa + BitVec.signExtend 64 off

/-- R405-R407, R58: the vector loads of the scratchpad read n bytes for each active lane, zero-extended: contiguous, strided, one address for
all, or base + n × index. Words that a partial turn of the engine has read already stand as it read them. -/
def Sys2Proof.Parts.VectorLoadsReadTheirLanes : Prop :=
  ∀ (s : State) (sz : ESize) (c : VCtl) (vd : VReg) (sa sb : SReg) (off : W32) (vx : VSpec) (e : VEntry),
    let n := ESize.bytes sz
    let a := Vocab.base e sa off
    let loads (i : Instr) (at_ : Nat → Nat) : Prop :=
      AtHead s .vl i e → Vocab.LanesClear s e (Vocab.ranges s c n at_) →
        WritesLanes i s .vl e vd (fun l => BitVec.ofNat 32 (leNat (Vocab.sees s.cur 1 (at_ l) n))) 0
    let idx (l : Nat) : Word := a + BitVec.ofNat 64 (n * (Vocab.lane s e vx l).toNat)
    loads (.vld sz c vd sa off) (fun l => (a + BitVec.ofNat 64 (n * l)).toNat % 2 ^ 48) ∧
    loads (.vlds sz c vd sa off sb) (fun l => (a + e.scalar sb * BitVec.ofNat 64 l).toNat % 2 ^ 48) ∧
    loads (.vldb sz c vd sa off) (fun _ => a.toNat % 2 ^ 48) ∧
    ((∀ l, l < 64 → bitAt (s.arch.prd c.qp) l = true → s.laneIn (idx l) n = true) →
      loads (.vldx sz c vd sa off vx) (fun l => (idx l).toNat % 2 ^ 48))

/-- R407, R408: VLDT reads raw element codes of a TWA block, VACCR a row or column of a tile; the commands that wrote the tile note the read (R222). -/
def Sys2Proof.Parts.TileLoadsReadTheirLanes : Prop :=
  ∀ (s : State) (col : Bool) (q : Fin 4) (tile : Fin 32) (c : VCtl) (vd : VReg) (sa sb : SReg) (off : W32) (e : VEntry),
    (AtHead s .vl (.vldt col q c vd sa off sb) e →
      let w := (e.scalar sb).toNat
      let slot := (Vocab.base e sa off).toNat % 2 ^ 48 / 256
      let pos (l : Nat) : Nat := let g := 4 * q.val + l / 16
        if col then w * (16 * (l % 16) + g) else w * (16 * g + l % 16)
      WritesLanes (.vldt col q c vd sa off sb) s .vl e vd (fun l => BitVec.ofNat 32
        (leNat ((List.range 4).map fun i => s.arch.slotByte (256 * slot + pos l / 8 + i)) / 2 ^ (pos l % 8) % 2 ^ w)) 0) ∧
    (AtHead s .vl (.vaccr col tile c vd sa off) e →
      let j := (Vocab.base e sa off).toNat
      ∃ v, LanesAre s.arch c (s.arch.vrd vd) v (fun l => if col then (s.arch.tile tile.val).at_ l j else (s.arch.tile tile.val).at_ j l) ∧
        Answers (.vaccr col tile c vd sa off) s
          { s.cur.entryDone s.cycle .vl e ((s.arch.popTok (Chan.code c.pop)).vwr vd v) with
            windows := (s.cur.readTile tile.val).windows, unprot := (s.cur.readTile tile.val).unprot })

/-- The bytes of a scratchpad after the active lanes have stored, in ascending order. -/
def Sys2Proof.Vocab.stored (old : Nat → Byte) : List (Nat × List Byte) → Nat → Byte
  | [] => old
  | (o, bs) :: t => Vocab.stored (fun b => if o ≤ b ∧ b < o + bs.length then bs.getD (b - o) 0 else old b) t

/-- R409-R411: the vector stores of a task store the low bytes of each active lane, in ascending order: contiguous, strided, indexed, or
packed (VSTC). Registers, other bytes of the scratchpad and every byte of memory stay. -/
def Sys2Proof.Parts.VectorStoresStoreTheirLanes : Prop :=
  ∀ (s : State) (sz : ESize) (c : VCtl) (vs : VReg) (sa sb : SReg) (off : W32) (vx : VSpec) (e : VEntry), Vocab.IsTask s →
    let n := ESize.bytes sz
    let a := Vocab.base e sa off
    let act := (List.range 64).filter fun l => bitAt (s.arch.prd c.qp) l
    let stores (i : Instr) (at_ : List Nat) : Prop :=
      let ws := (at_.zip act).map fun p => (p.1, bytesOf n (laneAt (s.arch.vrd vs) p.2).toNat)
      AtHead s .vs i e → Vocab.LanesClear s e (at_.map fun o => (o, n)) →
        ∃ t, exec i s = .next t ∧ SameMemory s t ∧ (∀ d, d ≠ s.focus → t.core d = s.core d) ∧ { t with cores := s.cores } = s ∧
          (∀ b, t.arch.spByte b = Vocab.stored s.arch.spByte ws b) ∧
          { t.arch with sp := s.arch.sp, pages := s.arch.pages } =
            (s.arch.popTok (Chan.code c.pop)).retireHead .vs (Chan.code c.push)
    let idx (l : Nat) : Word := a + BitVec.ofNat 64 (n * (Vocab.lane s e vx l).toNat)
    stores (.vst sz c vs sa off) (act.map fun l => (a + BitVec.ofNat 64 (n * l)).toNat % 2 ^ 48) ∧
    stores (.vsts sz c vs sa off sb) (act.map fun l => (a + e.scalar sb * BitVec.ofNat 64 l).toNat % 2 ^ 48) ∧
    stores (.vstc sz c vs sa off) ((List.range act.length).map fun j => (a + BitVec.ofNat 64 (n * j)).toNat % 2 ^ 48) ∧
    ((∀ l, l < 64 → bitAt (s.arch.prd c.qp) l = true → s.laneIn (idx l) n = true) →
      stores (.vstx sz c vs sa off vx) (act.map fun l => (idx l).toNat % 2 ^ 48))

/-- R411: VACCW writes one row or column of a tile in its active lanes; its status stays, and a retained window that wrote the tile is no
longer one (R221). -/
def Sys2Proof.Parts.VaccwWritesItsLine : Prop :=
  ∀ (s : State) (col : Bool) (tile : Fin 32) (c : VCtl) (vs : VReg) (sa : SReg) (off : W32) (e : VEntry),
    AtHead s .vs (.vaccw col tile c vs sa off) e → (Vocab.base e sa off).toNat < 64 →
    (s.arch.tile tile.val).data.length = 4096 →
    let j := (Vocab.base e sa off).toNat
    ∃ z : Tile, z.count = (s.arch.tile tile.val).count ∧ z.clip = (s.arch.tile tile.val).clip ∧
      (∀ x y, x < 64 → y < 64 → z.at_ x y =
        if (if col then y = j ∧ bitAt (s.arch.prd c.qp) x else x = j ∧ bitAt (s.arch.prd c.qp) y)
        then laneAt (s.arch.vrd vs) (if col then x else y) else (s.arch.tile tile.val).at_ x y) ∧
      Answers (.vaccw col tile c vs sa off) s
        (let k := s.cur.unprotectTile tile.val
         { s.cur.entryDone s.cycle .vs e ((s.arch.popTok (Chan.code c.pop)).setTile tile.val z) with
           windows := k.windows, unprotected := k.unprotected, unprot := k.unprot })


/-- R405-R411: the loads of VL and the stores of VS. -/
def Obligations.VectorAndTileAccesses : Prop :=
  Parts.VectorLoadsReadTheirLanes ∧ Parts.TileLoadsReadTheirLanes ∧ Parts.VectorStoresStoreTheirLanes ∧ Parts.VaccwWritesItsLine

/-! ## Matrix commands -/

/-- MX may start i, which stands at its head as x before rest: no replay is under way (R223), its wait mask is met (R61), its fields and ranges
pass (R110, R113), nothing older, retained, locked or absent is in its way (R57, R221, R224), no latent error is known, no part of it has been
done ahead of the rest (R58), the governor covers all of its steps (R121), and its MA token has room (R60). -/
def Sys2Proof.Vocab.MxReady (s : State) (i : Instr) (x : Ecb) (rest : List Ecb) : Prop :=
  let u := s.modCur (·.ageOut s.cycle)
  let h0 := ecbSlot x.slots 0
  let p := mxPlan s.arch i
  s.part = none ∧ s.cur.replay = none ∧ kget s.cur.latched 4 [] = [] ∧
    s.arch.mx = x :: rest ∧ decodeEcb .mx x.slots = .ok i ∧ x.started = false ∧ x.owing = false ∧ 16 ≤ s.cur.toggle ∧ maskMet s.arch (ecbSlot x.slots 1) = true ∧
    mxBad s.runD s.arch i = none ∧ mxRagged s.arch i = none ∧ u.cur.tileWait x p = false ∧
    u.cur.bufferFree (opensWindow i) = true ∧ u.cur.twaHeld p = false ∧ u.mxTouch x p = .ready u ∧ s.cur.flaws = [] ∧
    u.ahead u.focus h0 + p.steps * stepCost h0 u.cur.toggle ≤ u.budgetOf (dieOf u.focus) ∧ (bitAt h0 23 = true → s.arch.tokRoom 6 = true)

/-- x, the head of MX, has executed and retired: a is the architectural state after its effect, kat the KATCOUNT. The entry leaves MX,
its wait bits are cleared and its signal bits set (R61), RETIRED counts it, its MA token is pushed where slot 0 [23] says so (R60), and
the die's budget is charged for its steps (R121). Memory, the other cores and everything else of the device stay. rank is the model's own
mark of R62's order within a cycle (log entry 1). -/
def Sys2Proof.Vocab.MxDone (s : State) (i : Instr) (x : Ecb) (rest : List Ecb) (a : Arch) (kat : Word) : Prop :=
  let h0 := ecbSlot x.slots 0
  ∃ t, exec i s = .next t ∧ SameMemory s t ∧ (∀ d, d ≠ s.focus → t.core d = s.core d) ∧
    { t with cores := s.cores, budget := s.budget, rank := s.rank } = s ∧
    t.rank = (if ecbSlot x.slots 2 = 0 then s.rank else max s.rank rSets) ∧
    t.budgetOf (dieOf s.focus) = s.budgetOf (dieOf s.focus) - (mxPlan s.arch i).steps * stepCost h0 s.cur.toggle ∧
    { t.arch with bypassLive := a.bypassLive } = { a with
      mx := rest, events := (s.arch.events &&& ~~~ ecbSlot x.slots 1) ||| ecbSlot x.slots 2, retired := s.arch.retired + 1,
      tokens := (if bitAt h0 23 then s.arch.pushTok 6 else s.arch).tokens } ∧
    t.cur.katcount = kat ∧ t.cur.pend = s.cur.pend ∧ t.cur.run = s.cur.run

/-- R116, R429, R367, R396, R110: ZACC, MMA and TWFILL at the head of MX execute and retire. ZACC sets every element of its tile to +0 and
clears its count and flag; MMA changes tiles alone, and TWFILL slots, scales and directory entries alone.
That a command executes with the last of its steps, and that a ZACC or a TWFILL is charged as one, are the model's choices (log entries 6, 62). -/
def Sys2Proof.Parts.MatrixCommandsExecuteAndRetire : Prop :=
  ∀ (s : State) (h : EcbHead) (z : Fin 32) (m : MmaCmd) (t : TwfillCmd) (x : Ecb) (rest : List Ecb),
    (Vocab.MxReady s (.zacc h z) x rest → Vocab.MxDone s (.zacc h z) x rest
      (s.arch.setTile z.val { data := List.replicate 4096 0, count := 0, clip := false }) s.cur.katcount) ∧
    (Vocab.MxReady s (.mma h m) x rest →
      Vocab.MxDone s (.mma h m) x rest { s.arch with tiles := (mmaRun m s.arch).tiles } s.cur.katcount) ∧
    (Vocab.MxReady s (.twfill h t) x rest → Vocab.MxDone s (.twfill h t) x rest { s.arch with
      slots := (twfillRun t s.arch).slots, scales := (twfillRun t s.arch).scales, dirs := (twfillRun t s.arch).dirs } s.cur.katcount)

/-- R343, R90, R91, R114, R118, R119: DRAIN writes its rows, scales and status word to the scratchpad, or its operand to the bypass, and
leaves its tile; KAT writes its signature, or compares it and counts the match. Each retires.
A DRAIN is charged as one step and a KAT as four (log entry 62); the KAT signature is of the constants of the image that booted (log entry 4). -/
def Sys2Proof.Parts.DrainAndKatExecuteAndRetire : Prop :=
  ∀ (s : State) (h : EcbHead) (d : DrainCmd) (k : KatCmd) (x : Ecb) (rest : List Ecb),
    (Vocab.MxReady s (.drain h d) x rest →
      let out := drainOut s.arch h.tag x.seed d
      ∃ a, (∀ b, a.spByte b = Vocab.stored s.arch.spByte out.1 b) ∧
        { a with sp := s.arch.sp, pages := s.arch.pages } = { s.arch with bypass := out.2 } ∧
        Vocab.MxDone s (.drain h d) x rest a s.cur.katcount) ∧
    (Vocab.MxReady s (.kat h k) x rest → h.katCmp = true → katFold s.plat.image k = k.expect →
      Vocab.MxDone s (.kat h k) x rest s.arch (s.cur.katcount + 1)) ∧
    (Vocab.MxReady s (.kat h k) x rest → h.katCmp = false →
      ∃ a, (∀ b, a.spByte b = Vocab.stored s.arch.spByte [(k.sigAddr.toNat, bytesOf 8 (katFold s.plat.image k).toNat)] b) ∧
        { a with sp := s.arch.sp, pages := s.arch.pages } = s.arch ∧ Vocab.MxDone s (.kat h k) x rest a s.cur.katcount)

/-- R110-R119: the commands of MX execute and retire. -/
def Obligations.MatrixCommandsExecute : Prop :=
  Parts.MatrixCommandsExecuteAndRetire ∧ Parts.DrainAndKatExecuteAndRetire

/-- R111, R82, R101, R113: one step of an MMA changes one tile, the one its C pointer names: in the rows of its group each element is the
old one, or −0 at the first K step of an overwriting command, with the chunk's sum; other rows and tiles stay. -/
def Sys2Proof.Parts.MmaStepsAccumulateTheirChunk : Prop :=
  ∀ (m : MmaCmd) (a : Arch) (t : Nat) (fresh : Bool) (i j : Nat), i < 64 → j < 64 →
    let is := indices (levels m) t
    let z := tileAt m is
    let r := stepRows a m is
    let b := mmaStep m a t fresh
    (∀ y, y ≠ z → b.tile y = a.tile y) ∧ { b with tiles := a.tiles } = a ∧
    (b.tile z).at_ i j = (if r.1 ≤ i ∧ i < r.2.1 then
      chunkElem a m is i j (if m.overwrite ∧ firstK (levels m) is = true then 0x80000000 else (a.tile z).at_ i j)
      else (a.tile z).at_ i j) ∧
    (raggedLevel m = none → r = (0, 64, false)) ∧ (m.l0.count = 0 → m.l1.count = 0 → m.l2.count = 0 → m.l3.count = 0 →
      m.l4.count = 0 → m.l5.count = 0 → (mmaRun m a).tile m.tile.val = (mmaStep m a 0 true).tile m.tile.val)

/-- R117: after a legal TWFILL the entry of a zero block is ZERO, and the entry of block j that is not elided names its slot, which holds
the block's image. -/
def Sys2Proof.Parts.TwfillFillsItsBlocks : Prop :=
  ∀ (r : Run) (h : EcbHead) (t : TwfillCmd) (a : Arch) (j : Nat), twfillBad r h t = none → j < t.blocks.toNat →
    let b := twfillRun t a
    let f := fillFmt t
    let n := slotsOf f * ((List.range j).countP fun i => !bitAt t.zeroMask i)
    (bitAt t.zeroMask j = true → b.dir (t.firstDir.toNat + j) = 0x8000) ∧
    (bitAt t.zeroMask j = false → b.dir (t.firstDir.toNat + j) = BitVec.ofNat 16 (t.firstSlot.toNat + n) ∧
      (∀ k, k < imageSize f → b.slotByte (256 * (t.firstSlot.toNat + n) + k) = a.spByte (t.src.toNat + imageSize f * j + k)) ∧
      (f.isMX = true → b.scaleByte (t.firstSlot.toNat + n) = a.spByte (t.scaleSrc.toNat + j)))

/-- R111, R82, R101, R113, R117: a step of an MMA, and the blocks of a TWFILL. -/
def Obligations.MmaStepsAndFills : Prop :=
  Parts.MmaStepsAccumulateTheirChunk ∧ Parts.TwfillFillsItsBlocks

/-! ## Near-memory commands -/

/-- The unit that owns a command has it at the head of its queue, and takes it from core s.focus: w is the state in which its wait bits are
cleared, its checks have passed (R262), its reads are written back (R172) and it runs, with its pages as checked. -/
def Sys2Proof.Vocab.NmTaken (s : State) (i : Instr) (x : Ecb) (w : State) : Prop :=
  let r := s.nmReqOf x
  let n := s.nmOwner r.job r.slots
  let u := s.nmArrive r
  let u1 := (u.modArch fun a => { a.clearEvents (ecbSlot x.slots 1) with
    nm := match a.nm with | y :: t => { y with started := true } :: t | [] => [] }).setStallOf 6 none
  s.focus < 1024 ∧ w.focus = s.focus ∧ w.part = none ∧ w.isExch = false ∧ s.arch.nm.head? = some x ∧ x.net = false ∧ x.started = false ∧
    decodeEcb .nm x.slots = .ok i ∧
    maskMet u.arch (ecbSlot x.slots 1) = true ∧ u.cur.classBusy (ecbOc x) x.seq = false ∧ (u.nmu n).run = none ∧
    (∃ q l, (u.nmu n).queue = q :: l ∧ q.same r = true) ∧
    ∃ v rs pages, u1.nmCheck n r.job false u1.runD.npage i = (v, .ok (rs, pages)) ∧
      let c := (rs.filter (·.reads)).foldl (fun s y => s.nmClean pages y) v
      rs.any (c.nmPoisoned pages) = false ∧
      let d := rs.foldl (fun s y => s.nmMeet pages y) c
      w = d.modNmu n fun u => { u with queue := u.queue.filter (fun q => !q.same r),
                                       run := some { req := r, waiting := true, lastWrite := d.cycle, undo := [], pages := pages,
                                                     parts := (d.nmMem [] pages).parts n i } }

/-- Unit n of t has written, and waits for its window (R227). -/
def Sys2Proof.Vocab.NmRan (t : State) (n : Nat) (r : NmReq) (us : List Undo) : Prop :=
  ∃ y, (t.nmu n).run = some y ∧ y.req = r ∧ y.waiting = false ∧ y.lastWrite = t.cycle ∧ y.undo = us

/-- Global memory as the command of unit n sees it. -/
def Sys2Proof.Vocab.nmSees (w : State) (n : Nat) : NmMem :=
  match (w.nmu n).run with
  | some y => w.nmMem [] y.pages
  | none => w.nmMem [] []

/-- R261, R263, R264, R372: NMATT of a task to its scratchpad stores its d + 2 result words there and fills their full bits; memory keeps
its bytes. To global memory the words enter the task's quarantine, in the command's class.
That its words come in this one turn where no partial turn has come before is the model's choice (log entry 11). -/
def Sys2Proof.Parts.NmattDeliversItsResults : Prop :=
  ∀ (s w : State) (h : EcbHead) (a : NmattCmd) (x : Ecb), Vocab.NmTaken s (.nmatt h a) x w →
    let r := s.nmReqOf x
    let n := s.nmOwner r.job r.slots
    let m := Vocab.nmSees w n
    let p := pageXl m.pages a.dest.toNat
    let bs := (m.attend a).flatMap fun v => bytesOf 4 v.toNat
    (a.toGlobal = false → w.touch s.focus x.seq [(a.dest.toNat, bs.length)] false false = .ready w →
      ∃ t, exec (.nmatt h a) s = .next t ∧ SameMemory w t ∧ Vocab.NmRan t n r [] ∧
        (∀ b, t.arch.spByte b = Vocab.stored w.arch.spByte [(a.dest.toNat, bs)] b) ∧
        (∀ k, k ∈ t.arch.full ↔ k ∈ w.arch.full ∨ (a.dest.toNat / 4 ≤ k ∧ k < a.dest.toNat / 4 + (m.attend a).length)) ∧
        t.arch.sregs = w.arch.sregs ∧ t.arch.vregs = w.arch.vregs ∧ t.arch.tiles = w.arch.tiles) ∧
    (a.toGlobal = true → ∀ v, w.quarPut r.job r.launch r.tcb (quarEntries x.seq ((ecbSlot x.slots 0).field 16 4) a.dest.toNat p bs .normal false false) []
        = some v →
      ∃ t, exec (.nmatt h a) s = .next t ∧ SameMemory v t ∧ Vocab.NmRan t n r [] ∧ t.arch = v.arch ∧
        t.tasks = ((v.noteWrites r.job r.tcb p.pa).noteWrites r.job r.tcb (spanPa p.pa p.pa2 (bs.length - 1))).tasks)

/-- R264: NMATT scales each token's score, folds it into the running maximum, sum and outputs, and divides at the end; a NaN or infinite
element, or a sum of 0, makes every output the canonical NaN.
EXP2 is that of log entry 8. -/
def Sys2Proof.Parts.NmattFoldsItsTokens : Prop :=
  (∀ (q ks vs : List Nat) (sigma : W32) (a : AttState), (a.bad = true → (attToken q sigma a ks vs).bad = true) ∧
    (∀ c ∈ ks ++ vs, c / 128 % 256 = 255 → (attToken q sigma a ks vs).bad = true) ∧
    (let s := nmul sigma ((q.zip ks).foldl (fun s p => (ffma .rne (bf16to32 p.1) (bf16to32 p.2) s).1) 0)
     let m1 := nmax a.m s
     (attToken q sigma a ks vs).m = m1 ∧ (m1 = 0xFF800000 → (attToken q sigma a ks vs).l = nadd (nmul a.l 0x3F800000) 0) ∧
      (m1 ≠ 0xFF800000 → (attToken q sigma a ks vs).l =
        nadd (nmul a.l (nexp2 (nmul (nsub a.m m1) 0x3FB8AA3B))) (nexp2 (nmul (nsub s m1) 0x3FB8AA3B))))) ∧
  (∀ (m : NmMem) (a : NmattCmd), (m.attend a).length = a.dim.toNat + 2)

/-- R261, R263, R264, R372: NMATT. -/
def Obligations.NmattFoldsAndDelivers : Prop :=
  Parts.NmattDeliversItsResults ∧ Parts.NmattFoldsItsTokens

/-- R265, R266, R268, R270, R373: NMOPT whose arrival word has reached its target updates its arrays in place, each granule kept before it
first changes; NMXG of a core's task keeps its group's writes for the task's TEND, channel by channel with its class and place, and stores nothing
yet. That each runs in one turn of its unit where no partial turn has come before is the model's choice (log entry 11). -/
def Sys2Proof.Parts.NmoptAndNmxgExecute : Prop :=
  ∀ (s w : State) (h : EcbHead) (o : NmoptCmd) (g : NmxgCmd) (x : Ecb),
    let r := s.nmReqOf x
    let n := s.nmOwner r.job r.slots
    let m := Vocab.nmSees w n
    (Vocab.NmTaken s (.nmopt h o) x w → o.target.toNat ≤ m.nat o.arrive.toNat 8 → ∀ y, (w.nmu n).run = some y →
      let a := w.nmOptimise y h.tag o
      a.full = false →
      ∃ t, exec (.nmopt h o) s = .next t ∧ t.mem = a.s.mem ∧ Vocab.NmRan t n r a.undo ∧ t.arch = a.s.arch) ∧
    (Vocab.NmTaken s (.nmopt h o) x w → m.nat o.arrive.toNat 8 < o.target.toNat →
      exec (.nmopt h o) s = .next { w with regs := s.regs }) ∧
    (Vocab.NmTaken s (.nmxg h g) x w → ∀ tk, w.task r.job r.tcb = some tk →
      ∃ t, exec (.nmxg h g) s = .next t ∧ SameMemory w t ∧ Vocab.NmRan t n r [] ∧
        (∃ tk', t.task r.job r.tcb = some tk' ∧ tk'.groups = tk.groups ++ (channelsOf (m.group g)).map fun c =>
          { chan := c.1, bytes := c.2, oc := (ecbSlot x.slots 0).field 16 4, seq := x.seq }) ∧ t.arch = w.arch)

/-- R268: a write of a near-memory command keeps, for each granule that it has not changed before, the 64 bytes as they stood. -/
def Sys2Proof.Parts.NearMemoryWritesKeepTheirGranules : Prop :=
  ∀ (job launch tcb : Nat) (a : NmAcc) (pa : Nat) (bs : List Byte), a.full = false →
    let b := a.put job launch tcb pa bs
    b.full = false →
    (a.s.loggedStep job launch = none → Memory.wf a.s.mem = true →
      (∀ q, Memory.read b.s.mem q = if pa ≤ q ∧ q < pa + bs.length then bs.getD (q - pa) 0 else Memory.read a.s.mem q) ∧
      (∀ u ∈ b.undo, u ∈ a.undo ∨ (u.pa ∉ a.seen ∧ u.old = Memory.reads a.s.mem u.pa 64))) ∧
    (∀ u ∈ a.undo, u ∈ b.undo) ∧ (∀ g ∈ a.seen, g ∈ b.seen) ∧
    (∀ i, i < bs.length → 64 * ((pa + i) / 64) ∈ b.seen)

/-- R265, R266, R268, R270, R373: NMOPT and NMXG, and the granules their writes keep. -/
def Obligations.NmoptAndNmxgWriteTheirArrays : Prop :=
  Parts.NmoptAndNmxgExecute ∧ Parts.NearMemoryWritesKeepTheirGranules

/-- R227, R272, R373, R28: 2,048 cycles after its last write, and never earlier, the unit's command completes: the core's entry retires
with its signal bits, and the task keeps the undo records; before that nothing changes. A write to a channel in the middle of a
command, which first waits for the column step, ends as the stored value, and changes no other byte.
When a unit's command works on which of its sectors is the model's choice (log entry 11). -/
def Obligations.NearMemoryCompletesAfterItsWindow : Prop :=
  ∀ (s : State) (n : Fin 512) (y : NmRun) (c : Nat) (x : Ecb) (rest : List Ecb) (write : Bool) (pa : Nat) (value : Byte),
    (s.nmu n.val).run = some y →
    (y.waiting = true ∨ s.cycle < y.lastWrite + 2048 → Gives (.nmuCompletion n) s s) ∧
    (y.waiting = false → y.lastWrite + 2048 ≤ s.cycle → y.req.core = some c → (s.core c).arch.nm = x :: rest → x.seq = y.req.seq →
      x.started = true → ∃ t, exec (.nmuCompletion n) s = .next t ∧ SameMemory s t ∧ (t.nmu n.val).run = none ∧
        (∀ d, d ≠ c → t.core d = s.core d) ∧
        (t.core c).arch = { (s.core c).arch with nm := rest, retired := (s.core c).arch.retired + 1,
                                                 events := (s.core c).arch.events ||| ecbSlot x.slots 2 } ∧
        (∀ tk, s.task y.req.job y.req.tcb = some tk → ∃ tk', t.task y.req.job y.req.tcb = some tk' ∧ tk'.undo = y.undo ++ tk.undo)) ∧
    (let mine (w : RowWait) : Prop := w.nmu = n ∧ w.write = write ∧ w.pa = pa ∧ w.value = value
     ((∀ w ∈ s.rowWaits, ¬ mine w) → Gives (.openRowAccess n write pa value) s (if inHbm pa ∧ nmuOf pa = n.val ∧ (s.nmu n.val).run ≠ none then
        { s with rowWaits := s.rowWaits ++ [{ nmu := n, write := write, pa := pa, value := value, arrived := s.cycle }] } else s)) ∧
     (∀ w before after, s.rowWaits = before ++ w :: after → (∀ v ∈ before, ¬ mine v) → mine w →
       ∃ t, exec (.openRowAccess n write pa value) s = .next t ∧ { t with mem := s.mem, rowWaits := s.rowWaits } = s ∧
         t.rowWaits = before ++ after ∧ (∀ a, a ≠ pa → Memory.wf s.mem = true → Memory.read t.mem a = Memory.read s.mem a) ∧
         (write = true → Memory.wf s.mem = true → Memory.read t.mem pa = value) ∧ (write = false → t.mem = s.mem)))

/-! ## Collectives -/

/-- CL takes i, at its head as x: v is the state in which the command has started and its ranges have translated (R331), k the command as it
joins its collective, and nothing stands against it: no result is held for it, no command of the device has its tag, and its source is sound. -/
def Sys2Proof.Vocab.ClTaken (s v : State) (k : Coll) (i : Instr) (op : Nat) (h : EcbHead) (c : CollCmd) (x : Ecb) (rest : List Ecb) : Prop :=
  let u := (s.modArch fun a => { a.clearEvents (ecbSlot x.slots 1) with
    cl := match a.cl with | y :: t => { y with started := true } :: t | [] => [] }).setStallOf 7 none
  let r := u.runD
  s.part = none ∧ v.part = none ∧ v.focus = s.focus ∧ s.arch.cl = x :: rest ∧ x.net = false ∧ x.started = false ∧
    decodeEcb .cl x.slots = .ok i ∧
    maskMet s.arch (ecbSlot x.slots 1) = true ∧ s.cur.classBusy (ecbOc x) x.seq = false ∧ collFields op h c = none ∧
    collOverlap op c = false ∧ u.nmTranslate (64 * dieOf u.focus) r.job (collRanges op c) = (v, k.pages, none) ∧
    k = { attached := true, old := v.collSource r.job r.tcb (v.surely s.focus (ecbOc x) x.seq) k.pages c, core := s.focus, job := r.job,
          launch := r.launch, tcb := r.tcb, tag := h.tag.toNat, op := op, cmd := c, steps := 0, retries := 0, since := v.cycle, stamp := v.cycle,
          pages := k.pages } ∧
    (∀ y ∈ v.kept, ¬ (y.job = r.job ∧ y.tcb = r.tcb ∧ y.tag = h.tag.toNat)) ∧
    (∀ y ∈ u.colls ++ v.colls, y.tag ≠ h.tag.toNat) ∧
    v.nmPoisoned k.pages { va := c.src.toNat, n := 4 * c.e.toNat, write := false, place := .any } = false

/-- R276-R278, R280, R332, R447: a collective of one member copies its source to its destination and retires: CRS, CAG and CAR. The source is what
the task sees of it: each sector as it stood at the start without, or as it stands with, unreleased stores of other classes. A CAR's result is
held for the task; CRS adds one to its arrival word.
What is held of a collective is the model's form (log entry 20). -/
def Sys2Proof.Parts.CollectivesOfOneMemberComplete : Prop :=
  ∀ (s v : State) (k : Coll) (h : EcbHead) (c : CollCmd) (x : Ecb) (rest : List Ecb), c.m = 1 →
    (∀ m ∈ v.members, m.tag ≠ h.tag.toNat) → (c.arr = false → c.b = 0 ∧ c.w = c.bigW) →
    let job := s.runD.job
    let data := mixSource k.tag 0 k.old (v.collSource job s.runD.tcb (fun e => e.oc != ecbOc x || decide (e.seq < x.seq)) k.pages c)
    let u := v.storeVa k (fun _ => true) c.dst.toNat (data.flatMap fun w => bytesOf 4 w.toNat)
    let done (i : Instr) (w : State) : Prop := ∃ t, exec i s = .next t ∧ SameMemory w t ∧ t.arch.cl = rest ∧
      t.arch.events = (s.arch.events &&& ~~~ ecbSlot x.slots 1) ||| ecbSlot x.slots 2 ∧ t.arch.retired = s.arch.retired + 1 ∧
      t.arch.sregs = s.arch.sregs ∧ (∀ k ∈ t.colls, k.tag ≠ h.tag.toNat)
    (Vocab.ClTaken s v k (.crs h c) 0x41 h c x rest → done (.crs h c)
      (let p := pagePa k.pages c.arrive.toNat
       if c.arrive ≠ 0 ∧ rangeInHbm k.pages c.dst.toNat (collDstBytes 0x41 c) = true then u.store p (bytesOf 8 ((u.rdNat p 8 + 1) % 2 ^ 64)) .normal else u)) ∧
    (Vocab.ClTaken s v k (.cag h c) 0x42 h c x rest → c.arr = false → done (.cag h c) u) ∧
    (Vocab.ClTaken s v k (.car h c) 0x43 h c x rest → done (.car h c) u ∧ ∀ t, exec (.car h c) s = .next t →
      ∃ y ∈ t.kept, y.job = job ∧ y.tcb = s.runD.tcb ∧ y.tag = h.tag.toNat ∧ y.data = data)

/-- R228, R229, R279, R331: an acknowledged step of a collective whose members agree starts the next one, which reads its sectors and sends its
flits, or, after the last, stores the result; where the members do not agree it ends with ECB_ILLEGAL; a step that waits past the timeout is
retried from the sources, or after COLL_RETRY retries of it faults the launch.
The other members are input, and the number of steps is free (log entry 20). -/
def Sys2Proof.Parts.CollectiveStepsAdvanceOrFail : Prop :=
  ∀ (s : State) (tag : BitVec 16) (k : Coll), s.part = none → s.alone k = false →
    let now := s.collNow k
    (s.colls.find? (fun k => k.tag == tag.toNat && k.attached) = some k →
      let ms := s.arrived k
      (ms.length < k.cmd.m.toNat → Gives (.collectiveStepAck tag) s s) ∧
      (k.cmd.m.toNat < ms.length ∨ (ms.length = k.cmd.m.toNat ∧ agree ms = false) →
        exec (.collectiveStepAck tag) s = .next { s.abortCore k.core cEcbIllegal 7 .faulted with regs := s.regs }) ∧
      (ms.length = k.cmd.m.toNat → agree ms = true → ∃ t, exec (.collectiveStepAck tag) s = .next t ∧
        (k.steps < Config.collSteps tag.toNat k.cmd.m.toNat →
          let next := ({ k with steps := k.steps + 1 } : Coll).take now
          { t with colls := s.colls, ports := s.ports } = s ∧ t.ports = (s.sendStep next).ports ∧
          (s.colls = [k] → t.colls = [{ next with acked := k.acked ++ [s.cycle], since := s.cycle, stamp := s.cycle }])) ∧
        (Config.collSteps tag.toNat k.cmd.m.toNat ≤ k.steps → k.op ≠ 0x41 →
          t.mem = (s.storeVa k (fun i => !k.did.contains i) k.cmd.dst.toNat
            ((k.result.getD (collResult ms k.tag k.op k.retries k.cmd)).flatMap fun w => bytesOf 4 w.toNat)).mem ∧
          (s.colls = [k] → t.colls = [])))) ∧
    (s.colls.find? (fun k => k.tag == tag.toNat && k.attached && !s.alone k &&
        decide (k.since + 1100 * (s.reg 0x5208).toNat ≤ s.cycle)) = some k →
      ∃ t, exec (.collectiveStepTimeout tag) s = .next t ∧ ((s.reg 0x3010).toNat ≤ kget k.fails k.steps 0 →
          t = { (s.devLog 3 (logEntry 2 6 0 0 s.cycle) (BitVec.ofNat 64 k.tcb)).collFatal k cCollFail k.tag with regs := s.regs }) ∧
        (kget k.fails k.steps 0 < (s.reg 0x3010).toNat → SameMemory s t ∧ (∀ d, (t.core d).arch = (s.core d).arch) ∧
          (s.colls = [k] → t.colls = [{ ({ k with retries := k.retries + 1, src := [] } : Coll).take now with
            fails := kset k.fails k.steps (kget k.fails k.steps 0 + 1), acked := k.acked.take k.steps, did := [], result := none,
            since := s.cycle, stamp := s.cycle }])))

/-- R276-R280, R228, R229, R332, R447: collectives and their steps. -/
def Obligations.CollectivesCompleteOrFail : Prop :=
  Parts.CollectivesOfOneMemberComplete ∧ Parts.CollectiveStepsAdvanceOrFail

/-! ## The Safety Net and what returns to a core -/

/-- R216, R217, R232, R358, R324, R335, R401: the first item of a core stays for 2,048 cycles. Then a store only leaves, its bytes already in
the quarantine, and a latent error of the item is corrected and counted; an atomic that races with no other strong access performs, the old
value reaches sd and the result memory; an item that is not intact never performs, and its task is aborted.
Where it races, the bytes are R165's free ones (log entry 49). -/
def Sys2Proof.Parts.FirstItemsLeaveAfterTheirWindow : Prop :=
  ∀ (s : State) (core : Fin 1024) (i : SnItem), s.firstItem core.val = some i →
    let e : Instr := .safetyNetRelease core
    (s.cycle < i.entered + 2048 → Gives e s s) ∧
    (i.entered + 2048 ≤ s.cycle → i.intact = false → Gives e s { (s.takeItem core.val i).rejectItem i with regs := s.regs }) ∧
    (i.entered + 2048 ≤ s.cycle → i.intact = true →
      (i.body = .store → ∃ t, exec e s = .next t ∧ { t with net := s.net, gone := s.gone, stat := s.stat } = s ∧
        t.net.length + 1 = s.net.length ∧ t.stat = if i.flawed then (s.bump 0x3020 1).stat else s.stat) ∧
      (∀ p, i.body = .atomic → s.pendOf i = some p → s.poisoned p.pa p.n = false → s.mixHit core.val p.pa p.n = false →
        (∀ a, s.racesAt core.val p.pa p.n a = none) → p.pa % 4096 + p.n ≤ 4096 →
        s.sentBy i = true → ∃ t, exec e s = .next t ∧ t.net.length + 1 = s.net.length ∧
          (t.core core.val).arch = (s.core core.val).arch.wr p.sd (extend p.sx p.n (s.rdNat p.pa p.n)) ∧
          (∀ q, Memory.wf s.mem = true → Memory.read t.mem q = (match atomicResult p.kind p.n (s.rdNat p.pa p.n) with
            | some v => if p.pa ≤ q ∧ q < p.pa + p.n then (bytesOf p.n v).getD (q - p.pa) 0 else Memory.read s.mem q
            | none => Memory.read s.mem q))))

/-- Bytes with quarantine entries laid over them in their order. -/
def Sys2Proof.Vocab.laid (old : Nat → Byte) (es : List QEntry) : Nat → Byte :=
  es.foldl (fun f e b => if e.pa ≤ b ∧ b < e.pa + e.bytes.length then e.bytes.getD (b - e.pa) 0 else f b) old

/-- R334, R401, R402, R340, R390, R203, R205, R204: what an intact word does once its window has passed. CANCEL gives its result in sd and lets SQ
go on; UNPIN frees the lines of its retention register, sets its quota to 0 and leaves its enable, and answers with their number; DEPDEC and
STEP take their place in the task's quarantine; a PUBV of an unused, a final or an equal version answers 3, 2 or 1, a REFSTOP of an unused or a
final region 3 or 1, and no byte of memory changes but what reading the region's entry changes; a PUBV of a newer version of a region without
consumers answers 0, applies the task's earlier bytes of the region, where no strong one races in their order, and sets its version and FINAL.
An answer orders what follows (log entry 49). -/
def Sys2Proof.Parts.ReleasedWordsPerform : Prop :=
  ∀ (s : State) (core : Fin 1024) (i : SnItem), s.firstItem core.val = some i → i.entered + 2048 ≤ s.cycle → i.intact = true →
    let e : Instr := .safetyNetRelease core
    let u := s.takeItem core.val i
    let answered (u : State) (sd : SReg) (v : Nat) : Core := { u.core core.val with
      pend := (u.core core.val).pend.filter (·.seq != i.seq), arch := (u.core core.val).arch.wr sd (BitVec.ofNat 64 v),
      acquired := s.cycle }
    let answers (u : State) (sd : SReg) (v : Nat) : Prop := ∃ t, exec e s = .next t ∧ SameMemory u t ∧ t.core core.val = answered u sd v
    (∀ sd level id, i.body = .cancel sd level id → (u.cancel i.job (some i.launch) level id).1.sentBy i = true →
      Gives e s { (u.cancel i.job (some i.launch) level id).1.modCore core.val (fun k => { k with
        arch := ((k.arch.wr sd (BitVec.ofNat 64 (u.cancel i.job (some i.launch) level id).2)).advance).retire, stallSq := none }) with
        regs := s.regs }) ∧
    (∀ sd n, i.body = .unpin sd n → s.sentBy i = true → ∃ t, exec e s = .next t ∧ SameMemory s t ∧ t.regs = regUnpin s.regs n ∧
      (∀ l ∈ t.l2, l.2.retained ≠ some n) ∧ t.l2.length = s.l2.length ∧
      t.core core.val = answered s sd (s.l2.countP fun l => l.2.retained == some n)) ∧
    (∀ tk h, ((∃ tcb, i.body = .depdec tcb ∧ h = .depdec tcb) ∨ (∃ f k, i.body = .step f k ∧ h = .step f k)) →
      s.task i.job i.tcb = some tk →
      ({ tk with held := tk.held ++ [h] } : Task).lines ≤ 32 * (match s.launch i.job i.launch with | some l => l.quota | none => 0) →
      ∃ t, exec e s = .next t ∧ SameMemory s t ∧ t.cores = s.cores ∧
        ∃ tk', t.task i.job i.tcb = some tk' ∧ tk'.held = tk.held ++ [h] ∧ tk'.quar = tk.quar) ∧
    (∀ sd r n final v, i.body = .pubv sd r n final → u.regionRead i.job r = (v, none) → v.sentBy i = true →
      (v.regionSize i.job r = 0 → answers v sd 3) ∧ (v.regionSize i.job r ≠ 0 → 8 ≤ v.regionNibble i.job r → answers v sd 2) ∧
      (v.regionSize i.job r ≠ 0 → v.regionNibble i.job r < 8 → n ≤ v.regionNibble i.job r → answers v sd 1) ∧
      (∀ tk, v.regionSize i.job r ≠ 0 → v.regionNibble i.job r < n → n < 8 → v.task i.job i.tcb = some tk →
        let lo := v.regionBase i.job r
        let hi := lo + 64 * v.regionSize i.job r
        let w := v.takeRegion i.job i.tcb i.seq lo hi
        let x := (w.1.applyEntries (some core.val) i.job tk.launch w.2).1
        let y := x.setRegion i.job r n final
        (∀ q ∈ tk.quar, q.wenq = false → q.seq ≤ i.seq → lo ≤ q.va → q.va + q.bytes.length ≤ hi → q.bytes ≠ [] → q ∈ w.2) ∧
        (∀ q ∈ w.2, q.wenq = false ∧ q.seq ≤ i.seq ∧ lo ≤ q.va ∧ q.va + q.bytes.length ≤ hi) ∧
        (Memory.wf v.mem = true → (∀ q ∈ w.2, q.strong = false) → ∀ a, Memory.read x.mem a = Vocab.laid (Memory.read v.mem) w.2 a) ∧
        ((y.regionHi i.job r).field 0 36 = 0 → y.sentBy i = true → answers y sd 0))) ∧
    (∀ sd r v, i.body = .refstop sd r → u.regionRead i.job r = (v, none) → v.sentBy i = true →
      (v.regionSize i.job r = 0 → answers v sd 3) ∧ (v.regionSize i.job r ≠ 0 → 8 ≤ v.regionNibble i.job r → answers v sd 1))

/-- R216, R217, R324, R334, R335, R340, R380, R390, R401: the Safety Net releases its items, and what they do. -/
def Obligations.SafetyNetReleasesItsFirstItem : Prop :=
  Parts.FirstItemsLeaveAfterTheirWindow ∧ Parts.ReleasedWordsPerform

/-- R427, R40, R428: an XMC is delivered on its own die 64 cycles after its release, provisionally, to each target there on whose word
nothing waits and on which the step has met no conflict; the streams of a phase that all stand at one XSYNC or at their TEND go on together, and none goes on
before. -/
def Obligations.DeliveriesAndExchangeBarriers : Prop :=
  (∀ (s : State) (die : Fin 8) (index : Nat) (x : XmcOut), s.xmcs[index]? = some x → x.die = die.val →
    let here := x.targets.filter fun c => dieOf c == die.val
    let word := x.off / 4
    (s.cycle < x.released + 64 → Gives (.xmcDelivery die index) s s) ∧
    (x.released + 64 ≤ s.cycle → here.Nodup → here ≠ [] →
      (∀ c ∈ here, (∀ d ∈ (s.core c).deliv, d.word ≠ word) ∧ (s.core c).prov = [] ∧ x.job ∉ (s.core c).clash) →
      ∃ t, exec (.xmcDelivery die index) s = .next t ∧ SameMemory s t ∧
        (∀ c, c ∉ here → t.core c = s.core c) ∧
        (∀ c ∈ here, t.core c = { s.core c with
          deliv := (s.core c).deliv ++ [{ word := word, value := x.value, job := x.job, launch := x.launch }] }))) ∧
  (∀ (s : State) (job : W32) (j : Job) (p : Phase) (n : Nat), kfind s.jobs job.toNat = some j → j.phase = some p →
    ((∃ x ∈ p.streams, s.atTend job.toNat x = false ∧ x.sync = none) → Gives (.xsyncBarrier job) s s) ∧
    ((p.streams.map (·.core)).Nodup → (∀ x ∈ p.streams, x.sync = some n ∨ x.sync = none ∧ s.atTend job.toNat x = true) →
      (∃ x ∈ p.streams, x.ended = false ∧ x.sync = some n) →
      ∃ t, exec (.xsyncBarrier job) s = .next t ∧ SameMemory s t ∧
        (∀ x ∈ p.streams, x.ended = false → x.sync = some n → t.core x.core =
          { s.core x.core with arch := (s.core x.core).arch.advance.retire, stallSq := none }) ∧
        (∀ c, (∀ x ∈ p.streams, x.ended = false → x.sync = some n → x.core ≠ c) → t.core c = s.core c)))

/-- R358, R138, R123, R240: an outstanding load returns the bytes of its view to sd, with its extension, once nothing older holds it; a
sector of a copy into the scratchpad lands there and is counted, and the copy retires with its last; a page's fill makes it resident with the
bytes of its range; SPFILL waits for older copies on its page, but for the first-touch fill that they wait for, and for a locked page, then fills
and retires, and one of a page that was resident retires at once; a walk changes what translate changes. -/
def Sys2Proof.Parts.MemoryEventsReachTheirCore : Prop :=
  ∀ (s : State) (core : Fin 1024) (r : Run), (s.core core.val).run = some r →
    (∀ (index : Nat) (p : Pend) (strong : Bool), (s.core core.val).pend[index]? = some p → p.kind = .load strong →
      (s.loadWaits core.val p = true → Gives (.globalLoadReturn core index) s s) ∧
      (s.loadWaits core.val p = false → p.xl.inRegion p.n = false →
        s.spanPoisoned p.xl p.n = false → (strong && s.mixHit core.val p.pa p.n) = false →
        (strong = true → ∀ a, s.racesAt core.val p.pa p.n a = none) →
        ∃ t, exec (.globalLoadReturn core index) s = .next t ∧ SameMemory s t ∧ t.core core.val = { s.core core.val with
          pend := (s.core core.val).pend.filter (· != p),
          acquired := s.cycle,
          arch := (s.core core.val).arch.wr p.sd (extend p.sx p.n
            (leNat (s.viewBytes core.val r.job r.tcb (spanPa p.pa p.pa2) p.n (p.scope == 3)).1)) })) ∧
    (∀ (chan : Fin 8) (c : Copy) (t : List Word) (gb sb : Nat) (u : State) (x : Xl), kfind (s.core core.val).copies chan.val = some c →
      (s.core core.val).flaws = [] → c.kind = .copy t gb sb → c.owing = false →
      (c.counted = c.expected → Gives (.copySectorCounted core chan) s (s.modCore core.val (·.retireCopy s.cycle chan.val))) ∧
      (c.counted ≠ c.expected → c.next ≠ c.expected → tplDir t ≠ 1 →
        let g := (sectorSpan t gb sb c.next).1
        let l := (sectorSpan t gb sb c.next).2.1
        let n := (sectorSpan t gb sb c.next).2.2.1
        (s.core core.val).copyWaits c t g l n = false →
        s.translateRange (some core.val) (dieOf core.val) r.job g n .read = (u, .ok x) → inMgmt x.pa = false →
        u.poisoned x.pa n = false → u.copyTouch core.val c t l n false true = .ready u → tplCounterOn t = false →
        let v := u.request r.job r.launch g x (sectorSpan t gb sb c.next).2.2.2 false (tplHint t)
        ∃ w, exec (.copySectorCounted core chan) s = .next w ∧ SameMemory u w ∧
          (∀ b, (w.core core.val).arch.spByte b = Vocab.stored (u.core core.val).arch.spByte
            [(l, (v.viewBytes core.val r.job r.tcb (fun i => x.pa + i) n false).1)] b) ∧
          (c.counted + 1 ≠ c.expected →
            ∃ c', kfind (w.core core.val).copies chan.val = some c' ∧ c'.counted = c.counted + 1 ∧ c'.next = c.next + 1) ∧
          (c.counted + 1 = c.expected → (w.core core.val).arch.retired = (u.core core.val).arch.retired + 1))) ∧
    (∀ (page : Fin 128), (s.core core.val).locked (4096 * page.val) 4096 = false → (s.core core.val).fillOn page.val = none →
      ((s.core core.val).fills.contains page.val = true → Gives (.pageFillComplete core page)
        s { (s.fillPage core.val 0 page.val .normal).1 with regs := s.regs }) ∧
      ((s.core core.val).fills.contains page.val = false → Gives (.pageFillComplete core page) s s)) ∧
    (∀ (page : Fin 128) (chan : Nat) (c : Copy), (s.core core.val).fillOn page.val = some (chan, c) → (s.core core.val).flaws = [] →
      let e : Instr := .pageFillComplete core page
      let older := (s.core core.val).olderCopyOn c.seq page.val
      let locked := (s.core core.val).locked (4096 * page.val) 4096
      (c.expected = 0 → Gives e s (s.modCore core.val (·.retireCopy s.cycle chan))) ∧
      (c.expected ≠ 0 → older = true → Gives e s (if (s.core core.val).fills.contains page.val && !locked then
        { (s.fillPage core.val 0 page.val .normal).1 with regs := s.regs } else s)) ∧
      (c.expected ≠ 0 → older = false → locked = true → Gives e s s) ∧
      (∀ u, c.expected ≠ 0 → older = false → locked = false → c.writeBack = none →
        s.fillPage core.val (c.seq + 1) page.val (match (s.core core.val).tagFrom (c.seq + 1) page.val with | some p => p.hint | none => .normal)
          = (u, true) →
        Gives e s { u.modCore core.val (·.retireCopy u.cycle chan) with regs := s.regs })) ∧
    (∀ (va : BitVec 48) (acc : Access) (u : State) (x : Xl),
      s.translate (some core.val) (dieOf core.val) r.job va.toNat acc = (u, .ok x) →
      Gives (.tableWalk core va acc) s { u with regs := s.regs })

/-- R123, R122, R225: a page fill leaves its page resident, with the bytes of its global range as the task sees them, and an absent page
clean; the dirty sectors of a page that was resident, which is filled again after an error, stay as they are, and so does its hint (log
entry 58). -/
def Sys2Proof.Parts.PageFillsMakeTheirPageResident : Prop :=
  ∀ (s u : State) (core : Nat) (page : Fin 128) (hint : Hint) (r : Run) (pg : Page) (x : Xl), (s.core core).run = some r →
    (s.core core).tagFrom 0 page.val = some pg →
    s.translate (some core) (dieOf core) r.job (4096 * pg.range) .read = (u, .ok x) → inMgmt x.pa = false → u.poisoned x.pa 4096 = false →
    let later := if pg.res then pg.hint else hint
    let v := (u.modCore core fun k => k.trace u.cycle 3 5 0 (BitVec.ofNat 64 (4096 * pg.range))).request r.job r.launch (4096 * pg.range)
      x 4096 false later
    let bs := (v.viewBytes core r.job r.tcb (fun i => x.pa + i) 4096 false).1
    ∃ t, s.fillPage core 0 page.val hint = (t, true) ∧ SameMemory u t ∧
      (t.core core).tagFrom 0 page.val = some { pg with dirty := if pg.res then pg.dirty else [], res := true, hint := later } ∧
      (∀ b, (t.core core).arch.spByte b =
        if 4096 * page.val ≤ b ∧ b < 4096 * page.val + 4096 ∧ pg.stale ((b - 4096 * page.val) / 32) = true then bs.getD (b - 4096 * page.val) 0
        else (u.core core).arch.spByte b)

/-- R358, R138, R122, R123, R240: what returns from memory. -/
def Obligations.MemoryEventsAndPageFills : Prop :=
  Parts.MemoryEventsReachTheirCore ∧ Parts.PageFillsMakeTheirPageResident

/-! ## Tasks -/

/-- R26, R163, R393: TASK_COMMIT does nothing before every engine is idle; a task without bonds whose pages are clean and whose items have
left the Safety Net commits alone; past step 4 its TEND goes on. Step 4 makes its quarantine visible: without WENQ and DEPDEC its stores, in their order, where no strong one
races with another core's (R165). -/
def Obligations.TasksCommitWhole : Prop :=
  (∀ (s : State) (core : Fin 1024) (r : Run) (tk : Task), (s.core core.val).run = some r → r.exch = false →
    s.task r.job r.tcb = some tk →
    (tk.past4 = true → Gives (.taskCommit core) s { s.tendEnd core r.job r.tcb with regs := s.regs }) ∧
    (tk.past4 = false → s.tendIdle core.val = false → Gives (.taskCommit core) s s) ∧
    (tk.past4 = false → s.tendIdle core.val = true → (s.core core.val).dirtyPages = false → s.bonds = [] → s.readyToCommit r.job r.tcb = true →
      Gives (.taskCommit core) s { s.commitTasks core.val [(s.coreOf r.job r.tcb, tk)] with regs := s.regs }) ∧
    (tk.past4 = false → s.tendIdle core.val = true → (s.core core.val).dirtyPages = false → s.bonds = [] → s.readyToCommit r.job r.tcb = false →
      Gives (.taskCommit core) s s)) ∧
  (∀ (s t : State) (core : Option Nat) (tk : Task) (mix : Option Nat), tk.held = [] → Memory.wf s.mem = true →
    (∀ c e a, core = some c → e ∈ tk.quar → e.strong = true → s.racesAt c e.pa e.bytes.length a = none) →
    s.applyQuarantine core tk [] = (t, mix) →
    ∀ a, Memory.read t.mem a = Vocab.laid (Memory.read s.mem) (tk.quar.filter fun e => !e.wenq) a)

/-- R68, R175, R183: a die with no entry that fits dispatches and restores nothing; a dispatch puts the entry's task on its target, which
starts at the entry word with s61 its TCB, s62 0, s63 the end of its scratchpad, no events, no tokens, empty queues and no mode bit
set; a restore (R195, R196) puts the state there that the record's bytes hold, beside which the model keeps the content of the queues and the
header (log entry 15), with no page resident; the bytes of a record give its scalar and predicate registers back.
What a restore does not bring back is free (log entries 3, 28). -/
def Sys2Proof.Parts.DispatchAndRestoreEnterACore : Prop :=
  ∀ (s : State) (die : Fin 8),
    (s.nextEntry die.val = none → Gives (.taskDispatch die) s s ∧ Gives (.taskRestore die) s s) ∧
    (∀ (e : Ready) (n : Nat) (l : Lnch) (b : Bind), s.nextEntry die.val = some (e, false, n) → s.launch e.job e.launch = some l →
      s.bindingOf e = some b → e.restore = false →
      ∃ t, exec (.taskDispatch die) s = .next t ∧
        let w := ((s.takeEntry die.val e).writeRunning e n).writeAttempt l e
        let k := t.core n
        (∃ r, k.run = some r ∧ r.exch = false ∧ r.job = l.job ∧ r.launch = l.id ∧ r.tcb = e.tcb ∧ r.nvec = l.vregs ∧ r.ntile = l.tiles ∧
          r.npage = l.pages ∧ k.arch.pc = BitVec.ofNat 64 (l.code + 4 * (w.tcbWord e.job e.tcb 0).field 0 32)) ∧
        k.arch.atHeader = true ∧ k.arch.rd 61 = BitVec.ofNat 64 e.tcb ∧ k.arch.rd 62 = 0 ∧
        k.arch.rd 63 = BitVec.ofNat 64 (0xFF00 * 2 ^ 48 + 4096 * l.pages) ∧ k.arch.events = 0 ∧ k.arch.tokens = [] ∧
        k.arch.vl = [] ∧ k.arch.va = [] ∧ k.arch.vs = [] ∧ k.arch.mx = [] ∧ k.arch.nm = [] ∧ k.arch.cl = [] ∧ k.arch.full = [] ∧
        k.arch.sv = false ∧ k.arch.nest = false ∧ k.pend = [] ∧ k.copies = [] ∧ t.mem = w.mem) ∧
    (∀ (e : Ready) (nm : Bool) (n : Nat) (l : Lnch) (tk : Task) (a : Arch), s.nextEntry die.val = some (e, nm, n) →
      s.launch e.job e.launch = some l → s.task e.job e.tcb = some tk → tk.save = some a → e.restore = true →
      ∃ t, exec (.taskRestore die) s = .next t ∧
        let w := (s.takeEntry die.val e).writeRunning e n
        ∃ r, (t.core n).run = some r ∧ r.exch = false ∧ r.tcb = e.tcb ∧ r.launch = l.id ∧ t.mem = w.mem ∧
          let b := a.reload r (Memory.slice w.mem tk.savePa tk.saveLen)
          let c := (t.core n).arch
          { c with seed := b.seed, slip := b.slip, lattol := b.lattol, delivered := b.delivered, bypass := b.bypass, pages := b.pages,
                   owed := b.owed, mx := b.mx } = b ∧
          c.pages = (b.pages.map fun p => (p.1, { p.2 with res := false, dirty := [], lock := false })) ∧
          (b.owed = [] → c.owed = [] ∧ c.mx = b.mx)) ∧
    (∀ (cycle : Nat) (r : Run) (a : Arch) (i : SReg) (p : PReg),
      (a.reload r (saveRecord cycle r a)).rd i = a.rd i ∧ (a.reload r (saveRecord cycle r a)).prd p = a.prd p)

/-- R189-R193, R197: the first entry of a die's scan (log entry 28: it alone may pre-empt) takes a token of its job and reserves its victim's
core, which is drained, checkpointed, or killed when the request arrives; a slice that has run out with a task waiting starts a checkpoint, and sets SLICEFLR where the
floor is longer; before that nothing changes.
The floor's computation is log entry 18. -/
def Obligations.PreemptionAndSlices : Prop :=
  (∀ (s : State) (die : Fin 8) (e : Ready) (l : List Ready) (b : Bind) (j : Job) (c : Nat) (p : Policy),
    (s.ring die.val).scan = e :: l → s.bindingOf e = some b → kfind s.jobs e.job = some j → b.nmus = false → j.tokens ≠ 0 →
    s.freeTargets e b = [] → (∀ k ∈ s.cores, k.2.reserved ≠ some (e.job, e.tcb)) → s.victim die.val e b = some (c, p) →
    ∃ t, exec (.preemption die) s = .next t ∧ (t.core c).reserved = some (e.job, e.tcb) ∧
      (p = .drain → kfind t.jobs e.job = some { j with tokens := j.tokens - 1 } ∧
        t.core c = { s.core c with reserved := some (e.job, e.tcb) } ∧ SameMemory s t) ∧
      (p = .checkpoint → kfind t.jobs e.job = some { j with tokens := j.tokens - 1 } ∧ SameMemory s t ∧
        t.core c = { s.core c with reserved := some (e.job, e.tcb), ckpt := some { held := none, since := s.cycle } }) ∧
      (p = .kill → kfind t.jobs e.job = some { j with tokens := j.tokens - 1 } ∧ SameMemory s t ∧
        t.core c = { s.core c with reserved := some (e.job, e.tcb), killAt := some s.cycle })) ∧
  (∀ (s : State) (die : Fin 8), (s.ring die.val).ready = [] → Gives (.preemption die) s s) ∧
  (∀ (s : State) (core : Fin 1024) (r : Run) (tk : Task), (s.core core.val).run = some r → s.task r.job r.tcb = some tk →
    let slice := (s.reg (mRing (dieOf core.val) + 0x38)).toNat
    let floor := (s.ring (dieOf core.val)).floor
    (slice = 0 ∨ s.cycle < r.since + 1100 * max slice floor → Gives (.sliceExpiry core) s s) ∧
    (slice ≠ 0 → r.since + 1100 * max slice floor ≤ s.cycle → r.exch = false → (s.core core.val).ckpt = none →
      (s.core core.val).reserved = none → tk.past4 = false → s.waitsFor core.val tk.cls = true → s.ckptOk core.val = true →
      ∃ t, exec (.sliceExpiry core) s = .next t ∧ SameMemory s t ∧ (∀ d, d ≠ core.val → t.core d = s.core d) ∧
        t.core core.val = { s.core core.val with
          ckpt := some { held := none, since := s.cycle },
          arch := { (s.core core.val).arch with sliceflr := (s.core core.val).arch.sliceflr || decide (slice < floor) } })) ∧
  (∀ (drain ckpt kill : Bool) (rm limit c p : Nat),
    (policyOf drain ckpt kill rm limit c p = none ↔ drain = false ∧ ckpt = false ∧ kill = false) ∧
    (drain = true → rm ≤ limit → policyOf drain ckpt kill rm limit c p = some .drain) ∧
    ((drain = false ∨ limit < rm) → ckpt = true → c < p → policyOf drain ckpt kill rm limit c p = some .checkpoint) ∧
    ((drain = false ∨ limit < rm) → (ckpt = false ∨ p ≤ c) → kill = true → policyOf drain ckpt kill rm limit c p = some .kill))

/-- R181, R184: an entry that has waited for AGE_SLICE in a class above 0 moves one class up, and every other entry keeps its class, with memory as it is
unless the spill list grows; a spilled entry enters its class queue where there is room, and stays where there is none.
The cycle of each event is the schedule's (log entry 1). -/
def Sys2Proof.Parts.EntriesAgeAndLeaveTheSpillList : Prop :=
  (∀ (s : State) (die : Fin 8),
    let old (e : Ready) : Bool := e.qcls != 0 && decide (e.since + 1100 * (s.reg (mRing die.val + 0x30)).field 0 16 ≤ s.cycle)
    (∀ k ∈ s.tasks, k.heldFor = none) →
    ∃ t, exec (.taskAgeing die) s = .next t ∧
      (∀ e ∈ (s.ring die.val).ready ++ (s.ring die.val).spill,
        (if old e then { e with qcls := e.qcls - 1, since := s.cycle } else e) ∈ (t.ring die.val).ready ++ (t.ring die.val).spill) ∧
      ((t.ring die.val).ready ++ (t.ring die.val).spill).length = ((s.ring die.val).ready ++ (s.ring die.val).spill).length ∧
      t.cores = s.cores ∧ t.tasks = s.tasks ∧
      ((t.ring die.val).spill.length ≤ (s.ring die.val).spill.length → t.mem = s.mem)) ∧
  (∀ (s : State) (die : Fin 8) (cls : Fin 4) (e : Ready), (s.ring die.val).spill.find? (·.qcls == cls.val) = some e →
    (4096 ≤ ((s.ring die.val).ready.filter (·.qcls == cls.val)).length → Gives (.spillListMove die cls) s s) ∧
    (((s.ring die.val).ready.filter (·.qcls == cls.val)).length < 4096 → ∃ t, exec (.spillListMove die cls) s = .next t ∧
      e ∈ (t.ring die.val).ready ∧ (t.ring die.val).ready.length = (s.ring die.val).ready.length + 1 ∧
      (∀ x ∈ (s.ring die.val).ready, x ∈ (t.ring die.val).ready) ∧ e ∉ (t.ring die.val).spill ∧ { t with rings := s.rings } = s))

/-- R68, R175, R183, R181, R184: entries of the ready lists. -/
def Obligations.EntriesDispatchAgeAndSpill : Prop :=
  Parts.DispatchAndRestoreEnterACore ∧ Parts.EntriesAgeAndLeaveTheSpillList

/-! ## Launches and phases -/

/-- R34, R178, R180, R201: a launch that is not PENDING, is held, still depends on another, or whose phase has not begun does not change. A
PENDING one whose TCBs and inputs are legal becomes RUNNING: its word is written, and its waiting tasks with count 0 are released in order. -/
def Sys2Proof.Parts.LaunchesBecomeRunning : Prop :=
  ∀ (s : State) (job id : W32) (l : Lnch), s.launch job.toNat id.toNat = some l →
    (l.status ≠ stPending ∨ l.hold.isSome = true ∨ l.deps ≠ 0 ∨ s.phaseOpen job.toNat l.phase = false →
      Gives (.launchRunning job id) s s) ∧
    (∀ u v w ins, l.status = stPending → l.hold = none → l.deps = 0 → s.phaseOpen job.toNat l.phase = true →
      s.jobWrites job.toNat l.tcbs (64 * l.count) = (u, none) → u.jobLines job.toNat l.tcbs (64 * l.count) = (v, false) →
      (List.range l.count).all (v.tcbOk l) = true → v.inputsOf l = (w, some ins) →
      let l' := { l with status := stRunning, inputs := ins }
      let x := (List.range l.count).foldl (fun s i => s.firstRead l' i) ((w.modLaunch job.toNat id.toNat fun _ => l').writeCw job.toNat id.toNat)
      Gives (.launchRunning job id) s { (List.range l.count).foldl (fun s i =>
        if s.tcbState job.toNat (l'.tcbs + 64 * i) = tWaiting ∧ s.tcbCount job.toNat (l'.tcbs + 64 * i) = 0 ∧ s.versionsMet l' i = true
        then s.release l' i (launchKey s.cycle l'.id i) false else s) x with regs := s.regs })

/-- s with job number n as j. -/
def Sys2Proof.Vocab.withJob (s : State) (n : Nat) (j : Job) : State := { s with jobs := kset s.jobs n j }

/-- R38, R42, R43, R459: a job's lowest phase above the last confirmed one begins with its compute step; the exchange step follows it with the
streams of its launches; it is held for 2,048 cycles, and then the barrier may confirm it. -/
def Sys2Proof.Parts.PhasesFollowTheirSteps : Prop :=
  ∀ (s : State) (job : W32) (j : Job), kfind s.jobs job.toNat = some j →
    (∀ p, j.phase = some p → Gives (.phaseBegin job) s (Vocab.withJob s job.toNat j)) ∧
    (∀ l, j.phase = none → l ∈ s.launches →
      let ok (x : Lnch) : Prop := x.job = job.toNat ∧ x.accepted = true ∧ x.live = true ∧ ∀ c, j.confirmed = some c → c < x.phase
      ok l → (∀ x ∈ s.launches, ok x → l.phase ≤ x.phase ∧ (x.phase = l.phase → x.pass = l.pass)) →
      Gives (.phaseBegin job) s (Vocab.withJob s job.toNat
        { j with phase := some { num := l.phase, pass := l.pass, part := .compute, streams := [] } })) ∧
    (∀ p, j.phase = some p →
      (p.part = .compute → (s.ofPhase job.toNat p.num).any (·.live) = true → Gives (.exchangeStart job) s s) ∧
      (p.part = .compute → p.cancelled = false → (s.ofPhase job.toNat p.num).any (·.live) = false → s.streamsOf job.toNat p.num ≠ [] →
        let xs := s.streamsOf job.toNat p.num
        Gives (.exchangeStart job) s { xs.foldl (fun s x => s.startStream job.toNat x)
          (Vocab.withJob s job.toNat { j with phase := some { p with part := .exchange, streams := xs } }) with regs := s.regs }) ∧
      (∀ since, p.part = .holding since →
        (s.cycle < since + 2048 → Gives (.exchangeHoldExpiry job) s (Vocab.withJob s job.toNat j)) ∧
        (since + 2048 ≤ s.cycle → Gives (.exchangeHoldExpiry job) s (Vocab.withJob s job.toNat
          { j with phase := some { p with part := .confirm } }))) ∧
      (p.part = .confirm → (s.net.any fun i => i.exch && i.job == job.toNat) = false → (s.xmcs.any fun x => x.job == job.toNat) = false →
        Gives (.confirmationBarrier job) s { s.confirmPhase job.toNat p with regs := s.regs }) ∧
      (p.part = .confirm → (s.net.any fun i => i.exch && i.job == job.toNat) = true → Gives (.confirmationBarrier job) s s))

/-- R38, R39, R41, R68: a stream that may start finds its core free, names its core in s1, and starts at the exchange entry, with the scratchpad
as it stood (log entry 32). At the barrier
the delivered words of a core without an exchange stream are full, its scratchpad holds them and then what its streams wrote, in order, and the
other words keep their bits. -/
def Sys2Proof.Parts.ExchangeStreamsAndTheirBarrier : Prop :=
  (∀ (s : State) (job : Nat) (x : Stream) (l : Lnch), s.launch job x.launch = some l → x.started = false → x.parked = false →
    x.ended = false → (s.core x.core).run = none → (s.core x.core).scrubUntil ≤ s.cycle →
    let t := s.startStream job x
    (∃ r, (t.core x.core).run = some r ∧ r.exch = true ∧ r.job = job ∧ r.launch = l.id ∧ r.npage = l.pages) ∧
      (t.core x.core).arch.rd 1 = BitVec.ofNat 64 x.core ∧
      (t.core x.core).arch.pc = BitVec.ofNat 64 (l.code + 4 * l.exchEntry) ∧ (t.core x.core).arch.sp = (s.core x.core).arch.sp ∧
      (∀ c, c ≠ x.core → t.core c = s.core c) ∧ t.mem = s.mem) ∧
  (∀ (k : Core) (job : Nat), k.run = none → (∀ d ∈ k.deliv, d.job = job) → (∀ p ∈ k.prov, p.job = job ∧ ∃ off bs, p.write = .bytes off bs) →
    let t := k.confirm job
    t.deliv = [] ∧ t.prov = [] ∧
    (∀ b, t.arch.spByte b = Vocab.stored k.arch.spByte ((k.deliv.map fun d => (4 * d.word, bytesOf 4 d.value.toNat)) ++
      k.prov.map fun p => match p.write with | .bytes off bs => (off, bs) | .bit .. => (0, [])) b) ∧
    (∀ w, w ∈ t.arch.full ↔ w ∈ k.arch.full ∨ ∃ d ∈ k.deliv, d.word = w) ∧ t.arch.sregs = k.arch.sregs ∧ t.tlb = k.tlb)

/-- R34, R178, R180, R201, R37-R43: launches, phases and exchange streams. -/
def Obligations.LaunchesAndPhasesAdvance : Prop :=
  Parts.LaunchesBecomeRunning ∧ Parts.PhasesFollowTheirSteps ∧ Parts.ExchangeStreamsAndTheirBarrier

/-! ## Strikes -/

/-- R213, R214, R218, R222, R223, R226-R228, R236: a report comes within 1,900 cycles of its strike; one
that affects nothing is logged at rung 0 and changes nothing else; one for a zone of a core whose task ran at the cycle aborts it at rung 4, and zone D is then scrubbed for 8,192 cycles; one for MX replays the window of the
oldest affected command where it can. The rung of a unit's report is in device log ring 2.
What a report names beside its zone and cycle is the model's reading (log entries 21, 29). -/
def Sys2Proof.Parts.StrikeReportsClimbTheLadder : Prop :=
  (∀ (s : State) (zone : CoreZone) (core : Fin 1024) (cluster : Fin 256) (slice : Fin 128) (nmu : Fin 512) (port : Fin 6) (t : Nat),
    (s.cycle < t ∨ t + 1932 < s.cycle) → Gives (.coreStrikeReport zone core t) s s ∧ Gives (.matrixStrikeReport core t) s s ∧
      Gives (.safetyNetStrike cluster t) s s ∧ Gives (.l2Strike slice t) s s ∧ Gives (.nmuStrike nmu t) s s ∧
      Gives (.routerStrike port t) s s) ∧
  (∀ (s : State) (zone : CoreZone) (core : Fin 1024) (t : Nat), t ≤ s.cycle → s.cycle ≤ t + 1932 → s.departed core.val t = [] →
    s.exchangeAt core.val (t + 32) = [] →
    let note (rung : Nat) : State := s.modCore core.val fun k => k.noteStrike s.cycle (CoreZone.code zone) rung t
    ((s.core core.val).run = none → Gives (.coreStrikeReport zone core t) s (note 0)) ∧
    (∀ r, (s.core core.val).run = some r → r.exch = false → (t + 32 < r.since ∨ (s.task r.job r.tcb).all (!·.past4) = false) → Gives (.coreStrikeReport zone core t) s (note 0)) ∧
    (∀ r, (s.core core.val).run = some r → r.exch = false → r.since ≤ t + 32 → (s.task r.job r.tcb).all (!·.past4) = true →
      let u := (note 4).abortCore core.val cStrike 0 .counted
      Gives (.coreStrikeReport zone core t) s { (if zone = .d then u.scrubZoneD core.val else u) with regs := s.regs } ∧
        ((u.scrubZoneD core.val).core core.val).scrubUntil = s.cycle + 8192)) ∧
  (∀ (s : State) (core : Fin 1024) (t : Nat), t ≤ s.cycle → s.cycle ≤ t + 1932 → s.departed core.val t = [] →
    s.exchangeAt core.val (t + 32) = [] → (s.core core.val).flaws = [] →
    let k := s.core core.val
    let hit := k.affected t ++ k.affectedFree t
    let note (rung : Nat) : State := s.modCore core.val fun k => k.noteStrike s.cycle 2 rung t
    (hit = [] → Gives (.matrixStrikeReport core t) s (note 0)) ∧
    (k.affected t = [] → k.affectedFree t ≠ [] →
      Gives (.matrixStrikeReport core t) s { (note 4).abortCore core.val cStrike 0 .counted with regs := s.regs }) ∧
    (∀ q w, minOf (hit.map fun c => c.ecb.seq) = some q →
      (k.windows.find? fun w => w.cmds.any fun c => c.ecb.seq == q && k.hitBy t c) = some w →
      Gives (.matrixStrikeReport core t) s { (if k.canReplay w hit then (note 2).replay core.val 2 w
        else (note 4).abortCore core.val cStrike 0 .counted) with regs := s.regs })) ∧
  (∀ (s : State) (cluster : Fin 256) (slice : Fin 128) (nmu : Fin 512) (port : Fin 6) (t : Nat), t ≤ s.cycle → s.cycle ≤ t + 1932 →
    (s.gone = [] → (∀ c, clusterOf c = cluster.val → s.exchangeAt c (t + 32) = []) →
      (s.net = [] → Gives (.safetyNetStrike cluster t) s { s.logUnit 4 0 t cluster.val with regs := s.regs }) ∧
      (∀ i, s.net = [i] → clusterOf i.core = cluster.val → i.exch = false → Gives (.safetyNetStrike cluster t) s
        { (s.logUnit 4 4 t cluster.val).strikeTask i.job i.tcb with regs := s.regs })) ∧
    (s.tasks = [] → s.l2 = [] → s.commits = [] → Gives (.l2Strike slice t) s { s.logUnit 5 0 t slice.val with regs := s.regs }) ∧
    (s.nmus = [] → Gives (.nmuStrike nmu t) s { s.logUnit 6 0 t nmu.val with regs := s.regs }) ∧
    (∀ u y, s.nmus = [(nmu.val, u)] → u.run = some y → nmu.val ∈ y.parts → u.past = [] → Gives (.nmuStrike nmu t) s
      { (s.logUnit 6 4 t nmu.val).strikeTask y.req.job y.req.tcb with regs := s.regs }) ∧
    (∀ u job tcb c, s.nmus = [(nmu.val, u)] → u.run = none → u.past = [(job, tcb, c)] → Gives (.nmuStrike nmu t) s
      { (if t < c then (s.logUnit 6 4 t nmu.val).strikeTask job tcb else s.logUnit 6 0 t nmu.val) with regs := s.regs }) ∧
    ((∀ k ∈ s.colls, k.attached = false ∨ s.alone k = true ∨ k.struckSteps port.val t = []) → Gives (.routerStrike port t) s
      { s.logUnit 7 0 t port.val with regs := s.regs }) ∧
    (∀ k, s.colls = [k] → k.attached = true → s.alone k = false → k.struckSteps port.val t ≠ [] → Gives (.routerStrike port t) s
      { (s.logUnit 7 6 t port.val).stepsFail k (k.struckSteps port.val t) with regs := s.regs }) ∧
    (∀ (k : Coll) (i : Nat), i ∈ k.struckSteps port.val t ↔
      i ≤ k.steps ∧ Config.stepPort k.tag i % 6 = port.val ∧ (∀ c, k.acked[i]? = some c → t ≤ c)))

/-- R226: an L2 strike poisons the dirty sectors that the slice filled or wrote from the cycle on, and those that a task's bytes have reached
through it since, wherever they stand; it invalidates the clean ones, and leaves every other slice's lines as they are; the bytes of memory
stay. -/
def Sys2Proof.Parts.L2StrikesPoisonDirtySectors : Prop :=
  ∀ (s : State) (slice : Fin 128) (t : Nat), t ≤ s.cycle → s.cycle ≤ t + 1932 →
    (∀ k ∈ s.tasks, k.past4 = true ∨ (kfind k.reads slice.val = none ∧ kfind k.writes slice.val = none)) →
    ∃ u, exec (.l2Strike slice t) s = .next u ∧ SameMemory s u ∧ u.cores = s.cores ∧ u.tasks = s.tasks ∧
      u.l2.length = s.l2.length ∧ (∀ c ∈ s.commits, homeSlice (32 * c.1) = slice.val → t ≤ c.2 → c.1 ∈ u.poison) ∧
      (∀ (n : Nat) (l : Nat × Line), s.l2[n]? = some l →
        ∃ m, u.l2[n]? = some (l.1, m) ∧ (homeSlice (128 * l.1) ≠ slice.val → m = l.2) ∧
          (homeSlice (128 * l.1) = slice.val → ∀ i x, l.2.sectors[i]? = some x →
            (x.valid = true → x.dirty = true → t ≤ x.stamp → (4 * l.1 + i) ∈ u.poison ∧ m.sectors[i]? = some x) ∧
            (x.valid = true → x.dirty = false → t ≤ x.stamp → m.sectors[i]? = some { x with valid := false }) ∧
            (x.stamp < t → m.sectors[i]? = some x)))

/-- R213, R214, R218, R222, R223, R226-R228, R236: strikes climb the ladder. -/
def Obligations.StrikesAreReported : Prop :=
  Parts.StrikeReportsClimbTheLadder ∧ Parts.L2StrikesPoisonDirtySectors

/-! ## Clocks, logs and scrubbing -/

/-- R65, R221, R224, R121, R259: of the requesters of a bank that have reached AGE_LIMIT the oldest starts anew and the others go on counting; windows of 2,048 cycles leave the retention buffer; a
command refused for more than 4 µs is promoted; a die's budget is renewed once in a microsecond; a trace whose countdown has ended, or whose buffer is full
without WRAP, freezes. Each event changes that one core or budget.
The address of the budget register is the model's (log entry 5). -/
def Sys2Proof.Parts.ClocksOfACore : Prop :=
  ∀ (s : State) (core : Fin 1024) (bank : Fin 16) (die : Fin 8),
    let k := s.core core.val
    (kwf k.ages = true → CoreGets (.bankAgeLimit core bank) s core.val (k.grantAged bank.val) ∧
      (let age (x : Core) (q : Nat) : Nat := kget x.ages (8 * bank.val + q) 0
       ((∀ q, q < 8 → age k q < k.ageLimit) → k.grantAged bank.val = k) ∧
       (∀ q, q < 8 → k.ageLimit ≤ age k q → ∃ b, b < 8 ∧ k.ageLimit ≤ age k b ∧ (∀ q, q < 8 → age k q ≤ age k b) ∧
         age (k.grantAged bank.val) b = 0 ∧
         ∀ q, q < 8 → q ≠ b → age (k.grantAged bank.val) q = if age k q = 0 then 0 else age k q + 1))) ∧
    (CoreGets (.mxWindowAgeOut core) s core.val (k.ageOut s.cycle) ∧
      ∀ w, w ∈ (k.ageOut s.cycle).windows ↔ w ∈ k.windows ∧ (s.cycle < w.youngest + 2048 ∨ k.runsIn w = true)) ∧
    (k.refused = none → CoreGets (.governorPromotion core) s core.val k) ∧
    (∀ c, k.refused = some c → CoreGets (.governorPromotion core) s core.val
      { k with promoted := k.promoted || decide (c + 4 * 1100 < s.cycle) }) ∧
    (s.cycle < kget s.renewed die.val 0 + 1100 → Gives (.governorBudgetRenewal die) s s) ∧
    (kget s.renewed die.val 0 + 1100 ≤ s.cycle → ∃ t, exec (.governorBudgetRenewal die) s = .next t ∧
      { t with budget := s.budget, renewed := s.renewed } = s ∧ kget t.renewed die.val 0 = s.cycle ∧
      t.budgetOf die.val = (s.reg mBudget).toNat ∧ ∀ d, d ≠ die.val → t.budgetOf d = s.budgetOf d) ∧
    ((k.traceLeft = some 0 ∨ (k.traceWrapped = true ∧ bitAt k.tracectl 1 = false)) →
      CoreGets (.traceFreeze core) s core.val { k with traceLeft := none, tfrozen := true }) ∧
    (k.traceLeft ≠ some 0 → (k.traceWrapped = false ∨ bitAt k.tracectl 1 = true) → CoreGets (.traceFreeze core) s core.val k)

/-- R66, R260: before DEADLOCK_LIMIT cycles nothing happens; then the stalled task is aborted with a fault report that names every head.
The address of DEADLOCK_LIMIT is the model's (log entry 5). -/
def Sys2Proof.Parts.DeadlockedTasksAreAborted : Prop :=
  ∀ (s : State) (core : Fin 1024) (r : Run) (d : Nat), (s.core core.val).run = some r → (s.core core.val).deadSince = some d →
    (s.cycle < d + (s.reg mDeadlock).toNat → Gives (.queueDeadlock core) s s) ∧
    (d + (s.reg mDeadlock).toNat ≤ s.cycle → r.exch = false → Gives (.queueDeadlock core) s
      { ((s.modCore core.val fun k => k.fault s.cycle cQueueDeadlock 0 k.arch.word k.heads).abort r.job r.tcb cQueueDeadlock .counted)
        with regs := s.regs }) ∧
    (∀ (k : Core) (l : List (Nat × Nat × Word)), (∀ e, e ∈ k.heads → e.1 < 8) ∧ (k.heads.length ≤ 8) ∧
      (k.arch.mx ≠ [] → ∃ e ∈ k.heads, e.1 = 4) ∧ (k.arch.vl ≠ [] → ∃ e ∈ k.heads, e.1 = 1) ∧ (bitAt k.tracectl 0 = false →
        k.fault s.cycle cQueueDeadlock 0 k.arch.word l = k))

/-- R234, R235, R238: a scrubber of interval 0 does nothing; else it takes the next place of its pass, and PASS changes where a pass ends;
where no latent error lies there, nothing else changes. The L2 and HBM4E scrubbers likewise, on their own positions. -/
def Sys2Proof.Parts.ScrubbersTakeTheirNextPlace : Prop :=
  ∀ (s : State) (core : Fin 1024) (ring : Ring5) (slice : Fin 128) (chan : Fin 512),
    let k := s.core core.val
    let x := k.scrub (Ring5.code ring)
    (x.interval = 0 → Gives (.scrubStep core ring) s s) ∧
    (x.interval ≠ 0 → k.flaws = [] → CoreGets (.scrubStep core ring) s core.val { k with
      scrubs := kset k.scrubs (Ring5.code ring) { x with
        pos := if x.pos + 1 < scrubCount ring then x.pos + 1 else 0,
        pass := if x.pos + 1 < scrubCount ring then x.pass else !x.pass } }) ∧
    ((s.reg 0x3000).toNat = 0 → Gives (.l2Scrub slice) s s) ∧
    ((s.reg 0x3000).toNat ≠ 0 → s.memFlaws = [] → Gives (.l2Scrub slice) s
      { s with l2Pos := kset s.l2Pos slice.val ((kget s.l2Pos slice.val 0 + 1) % 16384) }) ∧
    ((s.reg 0x3008).toNat = 0 → Gives (.hbmPatrol chan) s s) ∧
    ((s.reg 0x3008).toNat ≠ 0 → s.memFlaws = [] → Gives (.hbmPatrol chan) s
      { s with hbmPos := kset s.hbmPos chan.val ((kget s.hbmPos chan.val 0 + 1) % (0xC000000000 / 512 / 64)) })

/-- R65, R66, R121, R221, R224, R234, R235, R238, R259, R260: the clocks of a core, its scrubbers, and its deadlock. -/
def Obligations.ClocksScrubbersAndDeadlock : Prop :=
  Parts.ClocksOfACore ∧ Parts.DeadlockedTasksAreAborted ∧ Parts.ScrubbersTakeTheirNextPlace

/-- R236, R257, R73: in supervisor mode a read of an error log gives its oldest entry, or 0, and removes it, and a clear empties the log;
outside it neither does anything. A legal TRACECTL value restarts the trace. -/
def Sys2Proof.Parts.ErrorLogsAndTheTraceControl : Prop :=
  ∀ (s : State) (core : Fin 1024) (ring : Ring5) (sd : SReg) (v : Word),
    let k := s.core core.val
    let log := kget k.errlogs (Ring5.code ring) []
    (k.arch.sv = false → Gives (.errlogRead core ring sd) s s ∧ Gives (.errlogClear core ring) s s) ∧
    (k.arch.sv = true → kwf k.errlogs = true →
      (∃ m, CoreGets (.errlogRead core ring sd) s core.val { k with errlogs := m, arch := k.arch.wr sd (log.headD 0) } ∧
        kget m (Ring5.code ring) [] = log.tail ∧ ∀ n, n ≠ Ring5.code ring → kget m n [] = kget k.errlogs n []) ∧
      (∃ m, CoreGets (.errlogClear core ring) s core.val { k with errlogs := m } ∧
        kget m (Ring5.code ring) [] = [] ∧ ∀ n, n ≠ Ring5.code ring → kget m n [] = kget k.errlogs n [])) ∧
    (sysRefused 0x050 1 v = none → CoreGets (.tracectlWrite core v) s core.val
      { k with tracectl := v, traceIdx := 0, traceWrapped := false, traceLeft := none, tfrozen := false }) ∧
    ((sysRefused 0x050 1 v).isSome = true → Gives (.tracectlWrite core v) s s)

/-! ## The management region -/

/-- R457, R145: a store of a whole aligned word programs the register there with its legal bits, and any other address, an unknown word or an
illegal value programs nothing; quotas that would pass 64 MiB together are refused. -/
def Sys2Proof.Parts.ManagementStoresProgramRegisters : Prop :=
  ∀ (s : State) (off : BitVec 26) (v : Word),
    let o := off.toNat
    let w : Word := v &&& BitVec.ofNat 64 (regMask o)
    (o % 8 ≠ 0 → Gives (.mgmtRegisterWrite off v) s s) ∧
    (o % 8 = 0 → ∃ t, exec (.mgmtRegisterWrite off v) s = .next t ∧ t.regs = regStore s.regs o v ∧
      (o < 0x5000 ∨ 0x5540 ≤ o → SameMemory s t ∧ t.tasks = s.tasks ∧ ∀ c, (t.core c).arch = (s.core c).arch)) ∧
    ((regKnown o = false ∨ regLegal o w = false) → regStore s.regs o v = s.regs) ∧
    (regKnown o = true → regLegal o w = true → 0x1200 ≤ o → o < 0x6000 → regAt (regStore s.regs o v) o = w ∧
      ∀ p, p ≠ o → regAt (regStore s.regs o v) p = regAt s.regs p) ∧
    (retTotal s.regs ≤ 1024 → retTotal (regStore s.regs o v) ≤ 1024)

/-- R145, R146, R148, R174, R231: a retention store that keeps the quotas within 64 MiB takes effect, frees the register's lines and clears
its status; one that does not is refused with status 2. Writing 0 clears a counter, and ones clear the DEGRADED bits of their cores. -/
def Sys2Proof.Parts.RetentionCountersAndDegraded : Prop :=
  ∀ (s : State) (n : Fin 8) (word : Fin 8) (v : Word) (off : BitVec 26) (d : Fin 16), kwf s.stat = true →
    let o := 0x1000 + 64 * n.val + 8 * word.val
    let w : Word := v &&& BitVec.ofNat 64 (regMask o)
    (word.val < 3 → regLegal o w = true → retTotal (kset s.regs o w) ≤ 1024 →
      ∃ t, exec (.retainWrite n word v) s = .next t ∧ regAt t.regs o = w ∧ t.statAt (0x1000 + 64 * n.val + 8) = 0 ∧
        SameMemory s t ∧ t.cores = s.cores ∧ (∀ l ∈ t.l2, l.2.retained ≠ some n.val) ∧ t.l2.length = s.l2.length) ∧
    (word.val < 3 → regLegal o w = true → 1024 < retTotal (kset s.regs o w) →
      ∃ t, exec (.retainWrite n word v) s = .next t ∧ t.regs = s.regs ∧ t.statAt (0x1000 + 64 * n.val + 8) = 2 ∧
        t.l2 = s.l2 ∧ SameMemory s t ∧ t.cores = s.cores) ∧
    (∃ t, exec (.counterClear off) s = .next t ∧ { t with stat := s.stat } = s ∧
      (isCounter off.toNat = true → t.statAt off.toNat = 0) ∧ (isCounter off.toNat = false → t = s) ∧
      ∀ a, a ≠ off.toNat → t.statAt a = s.statAt a) ∧
    (∃ t, exec (.degradedClear d v) s = .next t ∧ { t with cores := s.cores } = s ∧
      ∀ c, t.core c = { s.core c with degraded := (s.core c).degraded && !(c / 64 == d.val && bitAt v (c % 64)) })

/-- R73, R145, R146, R148, R174, R231, R236, R257, R457: the registers of the management region. -/
def Obligations.ManagementRegisters : Prop :=
  Parts.ErrorLogsAndTheTraceControl ∧ Parts.ManagementStoresProgramRegisters ∧ Parts.RetentionCountersAndDegraded

/-- R246: GO removes the named entries of every TLB and clears DONE; while DONE is clear a GO is ignored; DONE comes once every access that
the entries translated has performed, and not before. -/
def Sys2Proof.Parts.TlbInvalidation : Prop :=
  ∀ s : State,
    let va := (s.reg 0x5100).toNat
    let count := (s.reg 0x5108).field 32 32
    let job := (s.reg 0x5108).field 0 32
    (s.tlbinv = none → ∃ t, exec .tlbinvGo s = .next t ∧ t.tlbinv = some (job, va, count) ∧
      { t with tlbinv := s.tlbinv, cores := s.cores, dieTlbs := s.dieTlbs } = s ∧
      (∀ c, t.core c = { s.core c with tlb := (s.core c).tlb.filter fun e => !e.named job va count }) ∧
      (∀ d, kget t.dieTlbs d [] = (kget s.dieTlbs d []).filter fun e => !e.named job va count)) ∧
    (∀ x, s.tlbinv = some x → Gives .tlbinvGo s s ∧
      (s.tlbSettled x.1 x.2.1 x.2.2 = true → Gives .tlbinvDone s { s with tlbinv := none }) ∧
      (s.tlbSettled x.1 x.2.1 x.2.2 = false → Gives .tlbinvDone s s)) ∧
    (s.tlbinv = none → Gives .tlbinvDone s s)

/-- R248, R249: a consumer index that leaves more than 256 entries between the indices is ignored, another is stored, and entries that waited
enter the ring; RESUME of a VA that nothing waits under changes nothing, and one that a parked task names puts it back into its queue. -/
def Sys2Proof.Parts.ThePagerAnswers : Prop :=
  ∀ (s : State) (die : Fin 8) (v va : Word),
    let p := (s.statAt (0x5400 + 16 * die.val)).field 0 32
    (256 < (p + 2 ^ 32 - v.field 0 32) % 2 ^ 32 → Gives (.pfConsumerIndexWrite die v) s s) ∧
    ((p + 2 ^ 32 - v.field 0 32) % 2 ^ 32 ≤ 256 → s.pfWait = [] → Gives (.pfConsumerIndexWrite die v) s
      (s.setStat (0x5400 + 16 * die.val + 8) (BitVec.ofNat 64 (v.field 0 32)))) ∧
    ((∀ h ∈ s.heldStores, h.record ≠ va.toNat ∧ h.va ≠ va.toNat) →
      (∀ t ∈ s.tasks, t.tcb ≠ va.toNat ∨ s.tcbState t.job t.tcb ≠ tParked) → (∀ l ∈ s.launches, l.record ≠ va.toNat) →
      (∀ g ∈ s.heldGraphs, g.resume ≠ va.toNat) → Gives (.resumeWrite die va) s s) ∧
    (∀ k, s.heldStores = [] → s.launches = [] → s.heldGraphs = [] → (∀ j ∈ s.jobs, j.2.phase = none) → s.tasks = [k] → k.tcb = va.toNat →
      s.tcbState k.job k.tcb = tParked →
      ∃ t, exec (.resumeWrite die va) s = .next t ∧ t.regs = s.regs ∧ ∃ u, u = s.requeue k.job k.tcb false ∧ t.rings = u.rings ∧
        t.mem = u.mem)

/-- R246, R248, R249: TLB invalidation and what the pager writes. -/
def Obligations.TlbInvalidationAndThePager : Prop :=
  Parts.TlbInvalidation ∧ Parts.ThePagerAnswers

/-! ## The host -/

/-- What a message of the host finds: the device awake, and its number accepted (R283, R287). -/
def Sys2Proof.Vocab.heard (s : State) (seq : W32) : State :=
  let w := s.wake
  { w with host := { w.host with h := seq.toNat } }

/-- The message has the number after the last one performed. -/
def Sys2Proof.Vocab.nextSeq (s : State) (seq : W32) : Prop := (s.wake.host.h + 1) % 2 ^ 32 = seq.toNat

/-- R283, R287: a message of the host whose number is not the next is not performed: a later one is answered NAK, a duplicate OK. Of the
answer: its number is D + 1, it acknowledges H, and it is retained.
The types of the answers, and which messages are numbered, are the model's reading (log entries 23, 24). -/
def Sys2Proof.Parts.MessagesOutOfOrderAreNotPerformed : Prop :=
  (∀ (s : State) (seq job : W32) (va : Word) (d : List Word) (level : BitVec 8) (id : W32) (r : Fin 4096) (pa n : Nat) (bs : List Byte),
    ¬ Vocab.nextSeq s seq →
    let out (ty : Nat) : State := s.wake.send ty (if newer seq.toNat s.wake.host.h then 2 else 0) []
    Gives (.jobOpen seq d) s (out 0x10) ∧ Gives (.launchSubmit seq job va) s (out 0x11) ∧ Gives (.graphSubmit seq job va) s (out 0x12) ∧
    Gives (.hostCancel seq job level id) s (out 0x13) ∧ Gives (.hostRefstop seq job r) s (out 0x14) ∧
    Gives (.memoryWrite seq pa bs) s (out 0x01) ∧ Gives (.memoryRead seq pa n) s (out 0x03) ∧
    Gives (.resynchroniseRequest seq id) s (out 0x31) ∧ Gives (.attestationRequest seq bs) s (out 0x41)) ∧
  (∀ (s : State) (ty st : Nat) (p : List Byte),
    (s.send ty st p).host.d = (s.host.d + 1) % 2 ^ 32 ∧ (s.send ty st p).host.h = s.host.h ∧
    (s.send ty st p).host.sent.getLast? =
      some { type := ty, status := st, seq := (s.host.d + 1) % 2 ^ 32, ack := s.host.h, payload := p } ∧
    (s.host.sent.length ≤ 64 → (s.send ty st p).host.sent.length ≤ 64) ∧ { (s.send ty st p) with host := s.host } = s)

/-- R44, R458, R29, R36, R45, R46, R205, R282: in order, a job open of a new id opens the job and of an open one changes its descriptor at the
next barrier; an illegal one is REFUSED; submissions are answered OK and taken up, CANCEL with its result, REFSTOP once it has stopped the
region; a message about a job that is not open is REFUSED.
The answers' types, an ill-formed open and an open of a known job are the model's reading (log entries 17, 22, 23). -/
def Sys2Proof.Parts.JobMessagesPerform : Prop :=
  ∀ (s : State) (seq job : W32) (va : Word) (d : List Word) (level : BitVec 8) (id : W32) (r : Fin 4096), Vocab.nextSeq s seq →
    let h := Vocab.heard s seq
    let n := job.toNat
    let sealed (t : State) : State := { t with regs := s.regs }
    (d.length ≤ 512 → (descOk d = false ∨ h.plat.power = 3) → Gives (.jobOpen seq d) s (sealed (h.send 0x10 4 []))) ∧
    (descOk d = true → h.plat.power ≠ 3 → ∀ j, kfind h.jobs ((d.getD 0 0).field 0 32) = some j → Gives (.jobOpen seq d) s
      (sealed ((Vocab.withJob h ((d.getD 0 0).field 0 32) { j with next := some d }).send 0x10 0 []))) ∧
    (descOk d = true → h.plat.power ≠ 3 → kfind h.jobs ((d.getD 0 0).field 0 32) = none →
      Gives (.jobOpen seq d) s (sealed ((Vocab.withJob h ((d.getD 0 0).field 0 32) (Job.make d)).send 0x10 0 []))) ∧
    ((kfind h.jobs n).isSome = true →
      Gives (.launchSubmit seq job va) s (sealed ((h.send 0x11 0 []).submitLaunch n va.toNat)) ∧
      Gives (.graphSubmit seq job va) s (sealed ((h.send 0x12 0 []).submitGraph n va.toNat [])) ∧
      (level.toNat ≤ 4 → Gives (.hostCancel seq job level id) s (sealed ((h.cancel n none level.toNat id.toNat).1.send 0x13 0
        (payloadOf (h.cancel n none level.toNat id.toNat).2)))) ∧
      (4 < level.toNat → Gives (.hostCancel seq job level id) s (sealed (h.send 0x13 1 []))) ∧
      Gives (.hostRefstop seq job r) s (sealed ((h.refstop n r.val none).1.send 0x14 0 []))) ∧
    ((kfind h.jobs n).isSome = false →
      Gives (.launchSubmit seq job va) s (sealed (h.send 0x11 4 [])) ∧ Gives (.graphSubmit seq job va) s (sealed (h.send 0x12 4 [])) ∧
      Gives (.hostCancel seq job level id) s (sealed (h.send 0x13 4 [])) ∧ Gives (.hostRefstop seq job r) s (sealed (h.send 0x14 4 [])))

/-- R45, R46, R334: CANCEL. A task that is done or past TEND step 4, cancelled or faulted already answers 1 and nothing changes, an index beyond
the launch 2; any other leaves its core, every queue and the Safety Net, and the device forgets it. A launch that is live becomes CANCELLED with
its committed count: only its tasks past step 4 stay, and none of its exchange streams runs; one that is over answers 1, an unknown id 2. A graph
becomes CANCELLED with its launches, a phase and a job with theirs. The word of a launch reads its status, its cause and its count.
The launches and graphs that wait for the pager are no part of the answers 1 and 2 here. -/
def Sys2Proof.Parts.CancelEndsItsLevel : Prop :=
  (∀ (s : State) (job launch index : Nat) (l : Lnch), s.launch job launch = some l →
    let tcb := l.tcbs + 64 * index
    let st := s.tcbState job tcb
    let ended : Prop := st = tDone ∧ s.task job tcb = none ∨ st = tCancelled ∨ st = tFaulted ∨ ∃ t, s.task job tcb = some t ∧ t.past4 = true
    let r := s.cancel job (some launch) 0 index
    (l.count ≤ index → r = (s, 2)) ∧ (index < l.count → ended → r = (s, 1)) ∧
    (index < l.count → ¬ ended → s.task job tcb = none → r = (((s.dropPubs job launch index).tcbSet job l.record tcb 40 40 16 cCancel).setTcbState
      job launch tcb tCancelled, 0)) ∧
    (∀ tk, index < l.count → ¬ ended → (s.tasks.filter fun t => t.job == job && t.tcb == tcb) = [tk] → r.2 = 0 ∧
      r.1.task job tcb = none ∧ (∀ c, s.coreOf job tcb = some c → (r.1.core c).run = none) ∧
      (∀ x ∈ r.1.rings, ∀ e ∈ x.2.ready ++ x.2.spill, ¬ (e.job = job ∧ e.tcb = tcb)) ∧
      (∀ i ∈ r.1.net, i.job = job → i.tcb = tcb → i.exch = true))) ∧
  (∀ (s : State) (job id : Nat) (launch : Option Nat),
    let r := s.cancel job launch 1 id
    (∀ l, s.launch job id = some l → l.live = true → r.2 = 0 ∧
      (∃ m, r.1.launch job id = some m ∧ m.status = stCancelled ∧ m.cause = cCancel ∧ m.committed = l.committed) ∧
      (∀ t ∈ r.1.tasks, t.job = job → t.launch = id → t.past4 = true) ∧
      (∀ c ∈ r.1.cores, ∀ x, c.2.run = some x → x.exch = true → x.job = job → x.launch ≠ id) ∧
      (l.accepted = false → l.words ≠ [] → s.tasks = [] →
        r.1.mem = ((s.modLaunch job id fun l => { l with status := stCancelled, cause := cCancel }).writeCw job id).mem)) ∧
    (∀ l, s.launch job id = some l → l.live = false → s.heldGraphs = [] → r = (s, 1)) ∧
    (s.launch job id = none → s.heldGraphs = [] → r = (s, 2))) ∧
  (∀ (s : State) (job id : Nat) (launch : Option Nat),
    let r := s.cancel job launch 2 id
    let known := s.graphs.find? fun g => g.job == job && g.id == id
    (∀ g, known = some g → (g.status = stPending ∨ g.status = stRunning) → r.2 = 0 ∧
      (∃ h, r.1.graphs.find? (fun g => g.job == job && g.id == id) = some h ∧ h.status = stCancelled) ∧
      (∀ i ∈ g.launches, ∀ m, r.1.launch job i = some m → m.live = false)) ∧
    (∀ g, known = some g → g.status ≠ stPending → g.status ≠ stRunning → s.heldGraphs = [] → r = (s, 1)) ∧
    (known = none → s.heldGraphs = [] → r = (s, 2))) ∧
  (∀ (s : State) (job id : Nat) (launch : Option Nat),
    let r := s.cancel job launch 3 id
    let ls := s.launches.filter fun l => l.job == job && !l.words.isEmpty && l.phase == id
    (ls = [] → r = (s, 2)) ∧
    (ls.any (·.live) = true → r.2 = 0 ∧ ∀ l ∈ ls, ∀ m, r.1.launch job l.id = some m → m.live = false) ∧
    (ls ≠ [] → ls.any (·.live) = false → (∀ j p, kfind s.jobs job = some j → j.phase = some p → p.num ≠ id) → r = (s, 1))) ∧
  (∀ (s : State) (job id : Nat) (launch : Option Nat),
    let r := s.cancel job launch 4 id
    (id ≠ job → r = (s, 2)) ∧ (kfind s.jobs id = none → r = (s, 2)) ∧
    (∀ j, id = job → kfind s.jobs job = some j → j.status ≠ stPending → j.status ≠ stRunning → r = (s, 1)) ∧
    (∀ j, id = job → kfind s.jobs job = some j → (j.status = stPending ∨ j.status = stRunning) → r.2 = 0 ∧
      (∃ m, kfind r.1.jobs job = some m ∧ m.status = stCancelled) ∧ ∀ i m, r.1.launch job i = some m → m.live = false)) ∧
  (∀ (s u : State) (job id : Nat) (l : Lnch) (x : Xl), s.launch job id = some l → s.devHeld job l.record = false →
    s.eachPage (fun s a => s.translateNow job a .write) l.cw 8 = (u, .ok x) → Memory.wf u.mem = true →
    ∀ a, Memory.read (s.writeCw job id).mem a = if x.pa ≤ a ∧ a < x.pa + 8 then
      (bytesOf 8 (cwWord l.status l.cause l.committed).toNat).getD (a - x.pa) 0 else Memory.read u.mem a)

/-- R283, R287, R44, R458, R29, R36, R45, R46, R205, R282: messages out of order, messages about jobs, and what CANCEL does to tasks, launches and words. -/
def Obligations.HostMessagesAboutJobs : Prop :=
  Parts.MessagesOutOfOrderAreNotPerformed ∧ Parts.JobMessagesPerform ∧ Parts.CancelEndsItsLevel

/-- R273, R282, R284, R286: in order, a memory write of at most 4,096 bytes at listed addresses stores its bytes, and a read answers with
them, where no piece of them races with a core's strong store (R165; log entries 49, 61); another is answered ERROR and performs nothing. A resynchronise request is answered with H and D and what is retained, or LOST; a
nonce of 32 bytes with an attestation report; a type that the host does not send with ERROR.
The answers' types and the layouts of a resynchronise response and a report are the model's (log entries 23, 24, 25). -/
def Obligations.MemoryAndLinkMessagesPerform : Prop :=
  ∀ (s : State) (seq dh : W32) (pa n : Nat) (bs nonce : List Byte) (ty : Byte), Vocab.nextSeq s seq →
    let h := Vocab.heard s seq
    let sealed (t : State) : State := { t with regs := s.regs }
    (4096 < bs.length ∨ listed pa bs.length = false ∨ wholeWords pa bs.length = false →
      Gives (.memoryWrite seq pa bs) s (h.send 0x01 1 [])) ∧
    (bs.length ≤ 4096 → bs ≠ [] → listed pa bs.length = true → inMgmt pa = false → Memory.wf s.mem = true →
      (∀ x ∈ hostPieces pa bs.length, hostStrong x = true → ∀ a, s.racesAt theHost x.1 x.2 a = none) →
      ∃ t, exec (.memoryWrite seq pa bs) s = .next t ∧ t.regs = s.regs ∧ t.cores = s.cores ∧ t.tasks = s.tasks ∧
        (∀ a, Memory.read t.mem a = if pa ≤ a ∧ a < pa + bs.length then bs.getD (a - pa) 0 else Memory.read s.mem a)) ∧
    (4096 < n ∨ listed pa n = false → Gives (.memoryRead seq pa n) s (sealed (h.send 0x03 1 []))) ∧
    (n ≤ 4096 → listed pa n = true → inMgmt pa = false → h.poisoned pa n = false →
      (∀ x ∈ hostPieces pa n, hostStrong x = true → ∀ a, h.racesAt theHost x.1 x.2 a = none) →
      ∃ t m, exec (.memoryRead seq pa n) s = .next t ∧ SameMemory s t ∧ t.host.sent.getLast? = some m ∧ m.type = 0x03 ∧ m.status = 0 ∧
        m.payload.take n = Memory.reads s.mem pa n ∧ m.payload.length % 16 = 0) ∧
    (∃ t m, exec (.resynchroniseRequest seq dh) s = .next t ∧ { t with host := h.host } = { h with regs := s.regs } ∧
      t.host.sent.getLast? = some m ∧ m.type = 0x31 ∧ m.payload.take 4 = bytesOf 4 h.host.h ∧
      (m.payload.drop 4).take 4 = bytesOf 4 h.host.d ∧ (m.status = 3 → t.host.again = []) ∧
      (m.status ≠ 3 → t.host.again = h.host.sent.filter fun x => newer x.seq dh.toNat)) ∧
    (nonce.length ≠ 32 → Gives (.attestationRequest seq nonce) s (sealed (h.send 0x41 1 []))) ∧
    (nonce.length = 32 → Gives (.attestationRequest seq nonce) s
      (let r := h.report nonce
       let b := pad16 (r ++ Config.attestRsa r ++ Config.attestSlh r)
       sealed (h.sendAll 0x41 b.length b)) ∧ (h.report nonce).take 32 = nonce) ∧
    (hostTypes.contains ty.toNat = false → Gives (.unknownMessage seq ty) s (sealed (h.send ty.toNat 1 []))) ∧
    (hostTypes.contains ty.toNat = true → Gives (.unknownMessage seq ty) s s)

/-! ## The fabric and the platform -/

/-- R275, R274: on a port that is up, a flit with a good CRC and the expected number advances the number; one with a bad CRC asks for a replay, and
after 8 replays retrains the link; on another port nothing happens to it. A signal takes a port from down to training, training brings it up,
and without a signal it is down; a replay request counts the flits that go out again, and after 8 of one flit retrains the link, which fails no step but one that the flit carried. A flit that is
sent has 64 bytes, its CRC and the next number, and is kept with the last 256.
Where a flit holds its number is free (log entry 20). -/
def Sys2Proof.Parts.LinksFollowTheirProtocol : Prop :=
  ∀ (s : State) (port : Fin 6) (bs : List Byte) (signal : Bool) (seq : BitVec 12),
    let w := s.wake
    let q := w.port port.val
    (q.state ≠ 2 → Gives (.flitReceive port bs) s { w with regs := s.regs }) ∧
    (q.state = 2 → flitOk bs = true → Config.flitSeq bs % 4096 = q.expect → ∃ t, exec (.flitReceive port bs) s = .next t ∧
      SameMemory s t ∧ t.cores = s.cores ∧ (t.port port.val).expect = (q.expect + 1) % 4096 ∧ (t.port port.val).waiting = false ∧
      (t.port port.val).got = q.got ++ [bs.take 60] ∧ (t.port port.val).state = 2) ∧
    (q.state = 2 → flitOk bs = false → kget q.replays q.expect 0 < 8 → ∃ t, exec (.flitReceive port bs) s = .next t ∧
      { t with ports := w.ports } = { w with regs := s.regs } ∧ (t.port port.val).waiting = true ∧
      (t.port port.val).expect = q.expect ∧ kget (t.port port.val).replays q.expect 0 = kget q.replays q.expect 0 + 1) ∧
    (q.state = 2 → flitOk bs = false → 8 ≤ kget q.replays q.expect 0 → s.colls = [] → ∃ t, exec (.flitReceive port bs) s = .next t ∧
      (t.port port.val).state = 1 ∧ SameMemory s t) ∧
    (let p := s.port port.val
     ∃ t u, exec (.linkSignalChange port signal) s = .next t ∧ { t with ports := s.ports } = s ∧
       (t.port port.val).state = (if signal then (if p.state = 0 then 1 else p.state) else 0) ∧
       (signal = false → p.state ≠ 0 → (t.port port.val).downSince = s.cycle) ∧ (∀ d, d ≠ port.val → t.port d = s.port d) ∧
       exec (.linkTrainingComplete port) s = .next u ∧ (p.state = 1 → (u.port port.val).state = 2 ∧ (u.port port.val).lost = false) ∧
       (p.state ≠ 1 → u = s)) ∧
    (let p := s.port port.val
     let n := (p.sent.dropWhile fun f => f.1 != seq.toNat).length
     let times := kget p.asked seq.toNat 0
     (times < 8 → n = 0 → Gives (.linkReplayRequest port seq) s s) ∧
     (times < 8 → 0 < n → ∃ t, exec (.linkReplayRequest port seq) s = .next t ∧ { t with stat := s.stat, ports := s.ports } = s ∧
       kget (t.port port.val).asked seq.toNat 0 = times + 1 ∧ (t.port port.val).sent = p.sent ∧ (t.port port.val).state = p.state ∧
       t.stat = (s.setStat (0x5210 + 8 * port.val) (s.statAt (0x5210 + 8 * port.val) + BitVec.ofNat 64 (n * 2 ^ 32))).stat) ∧
     (8 ≤ times → (s.colls = [] ∨ kfind p.carries seq.toNat = none) → ∃ t, exec (.linkReplayRequest port seq) s = .next t ∧ { t with ports := s.ports } = s ∧
       (t.port port.val).state = 1)) ∧
    (∀ pay : List Byte, let q := s.port port.val
      let n := (s.sendFlits port.val none [pay]).port port.val
      n.nextSeq = (q.nextSeq + 1) % 4096 ∧ n.sent.length ≤ 256 ∧
      (∃ f, n.sent.getLast? = some (q.nextSeq, f) ∧ f.length = 64 ∧ flitOk f = true))

/-- R281, R274: a port whose neighbour has been down past the loss limit, in a dimension of more than one device, forwards a notice over its other
links that are up, and reports the loss once; a loss notice about a device of the partition does the same; a device that is known to be lost, and one outside the partition, change nothing.
Without open jobs, collectives and running streams a loss changes the list of lost devices, the log and the answer to the host alone. -/
def Sys2Proof.Parts.LostDevicesEndTheirJobs : Prop :=
  ∀ (s : State) (port : Fin 6) (x y z : Fin 16),
    let q := s.port port.val
    let dev := devCode x.val y.val z.val
    (q.state ≠ 0 ∨ q.lost = true ∨ s.fabricSize (port.val / 2) = 1 ∨ s.cycle ≤ q.downSince + 1100 * (s.reg 0x5240).toNat →
      Gives (.deviceLost port) s s) ∧
    (q.state = 0 → q.lost = false → s.fabricSize (port.val / 2) ≠ 1 → q.downSince + 1100 * (s.reg 0x5240).toNat < s.cycle →
      Gives (.deviceLost port) s { ((s.modPort port.val fun q => { q with lost := true }).forwardLoss port.val
        (s.neighbour port.val)).deviceLost (s.neighbour port.val) with regs := s.regs }) ∧
    (x.val < s.fabricSize 0 → y.val < s.fabricSize 1 → z.val < s.fabricSize 2 →
      Gives (.lossNotice x y z) s { s.deviceLost dev with regs := s.regs }) ∧
    (s.fabricSize 0 ≤ x.val → Gives (.lossNotice x y z) s s) ∧
    (s.lostDevs.contains dev = true → s.deviceLost dev = s) ∧
    (s.lostDevs.contains dev = false → s.jobs = [] → s.colls = [] → (∀ c ∈ s.cores, c.2.run = none) → dev ∈ (s.deviceLost dev).lostDevs ∧
      { s.deviceLost dev with lostDevs := s.lostDevs, stat := s.stat, host := s.host } = s)

/-- R274, R275, R281: the links of the fabric and the loss of a device. -/
def Obligations.LinksAndLostDevices : Prop :=
  Parts.LinksFollowTheirProtocol ∧ Parts.LostDevicesEndTheirJobs

/-- R285, R287: an accepted image boots the package: nothing runs, HBM4E reads 0, control-node memory and the registers stay, and the power state
is P0; a refused one leaves it in P3 with an answer REFUSED. The package enters the deepest state that the tolerance and its work allow,
P2 drops the L2 and nothing else of memory; it wakes to P0 with nothing lost.
What the power states leave of a core, and the answer to a refused boot, are the model's reading (log entry 31). -/
def Obligations.BootAndPowerStates : Prop :=
  (∀ (s : State) (img : Firmware), ∃ t, exec (.firmwareBoot img) s = .next t ∧ t.regs = s.regs ∧ t.jobs = [] ∧ t.tasks = [] ∧
    (∀ c, (t.core c).run = none) ∧ (Memory.wf s.mem = true → ∀ a, Memory.read t.mem a = if inHbm a then 0 else Memory.read s.mem a) ∧
    (imageOk img = true → t.plat = { power := 0, dozing := [], image := some img.body, boots := s.plat.boots + 1 }) ∧
    (imageOk img = false → t.plat.power = 3 ∧ t.plat.image = none ∧ t.plat.boots = s.plat.boots ∧
      ∃ m, t.host.sent.getLast? = some m ∧ m.status = 4)) ∧
  (∀ s : State,
    let t := s.tolerance
    (s.plat.power = 3 → Gives .powerStateEntry s s) ∧
    (s.plat.power ≠ 3 → 5000000 ≤ t → s.jobs = [] → ∃ u, exec .powerStateEntry s = .next u ∧ u.plat.power = 3 ∧ u.regs = s.regs) ∧
    (s.plat.power ≠ 3 → t < 5000000 → 60000 ≤ t → s.quietForP2 = true → ∃ u, exec .powerStateEntry s = .next u ∧ u.plat.power = 2 ∧
      u.l2 = [] ∧ { u with plat := s.plat, l2 := s.l2, poison := s.poison, memFlaws := s.memFlaws, stat := s.stat } = s ∧
      (s.memFlaws = [] → u.poison = s.poison ∧ u.stat = s.stat)) ∧
    (s.plat.power ≠ 3 → t < 60000 → 2000 ≤ t → s.idleCores ≠ [] → ∃ u, exec .powerStateEntry s = .next u ∧ u.plat.power = 1 ∧
      u.plat.dozing = s.idleCores ∧ { u with plat := s.plat } = s) ∧
    (s.plat.power ≠ 3 → t < 2000 → ∃ u, exec .powerStateEntry s = .next u ∧ u.plat.power = 0 ∧ { u with plat := s.plat } = s) ∧
    ((s.plat.power ≠ 3 ∨ s.plat.image.isSome = true) → ∃ u, exec .wake s = .next u ∧ u.plat = { s.plat with power := 0, dozing := [] } ∧
      { u with plat := s.plat } = s) ∧
    (s.plat.power = 3 → s.plat.image = none → Gives .wake s s))

/-! ## Decoding and encoding -/

/-- The worked words of R297, and a word of each other class written from the tables of R50, R290, R292, R294, R298 and R299: each
decodes to the instruction it stands for. -/
def Obligations.SpecifiedWordsDecode : Prop :=
  decode [0x04, 0x88, 0x21, 0x00, 0x00, 0x00, 0x00, 0x00, 0x05, 0x00, 0x00, 0x00] = .ok (.add 3 4 (.imm 5), 12) ∧
  decode [0x00, 0x84, 0x03, 0x20, 0x9A, 0x02, 0x00, 0x00, 0x40, 0x00, 0x00, 0x00] =
    .ok (.ld .w false { oc := 3, scope := 5, hint := .normal, strong := false } 7 2 0x40, 12) ∧
  decode [0x40, 0x51, 0x00, 0x60, 0x14, 0x28, 0x20, 0x00, 0x10, 0x01, 0x00, 0x00] =
    .ok (.vadd .f32 .rne { qp := 2, z := true, pop := .la, push := .as } 10 (.v 20) (.s 5), 12) ∧
  decode [0x09, 0x40, 0x04, 0xA0, 0x00, 0x00, 0x00, 0x00, 0x00, 0x00, 0x00, 0x00] = .ok (.ecgo .mx 9 4, 12) ∧
  -- VLD.W v3, [s2 + 0x100] under p1, popping SL and pushing LA: class 2, opcode 0
  decode (leBytes 12 (0x100 * 2 ^ 64 + 1 * 2 ^ 54 + 3 * 2 ^ 51 + 2 * 2 ^ 49 + 2 * 2 ^ 29 + 3 * 2 ^ 11 + 2 * 2 ^ 5 + 1 * 2 ^ 1)) =
    .ok (.vld .w { qp := 1, z := false, pop := .sl, push := .la } 3 2 0x100, 12) ∧
  -- VSTX.H v4, [s5 - 4 + v6]: class 4, opcode 2
  decode (leBytes 12 (0xFFFFFFFC * 2 ^ 64 + 1 * 2 ^ 49 + 6 * 2 ^ 32 + 4 * 2 ^ 29 + 2 * 2 ^ 21 + 4 * 2 ^ 11 + 5 * 2 ^ 5)) =
    .ok (.vstx .h { qp := 0, z := false, pop := .none, push := .none } 4 5 0xFFFFFFFC (.v 6), 12) ∧
  -- FENCE.DEV with mask 0x0011: class 6, opcode 4, scope 5 in [41:39]
  decode (leBytes 12 (0x11 * 2 ^ 64 + 5 * 2 ^ 39 + 6 * 2 ^ 29 + 4 * 2 ^ 21)) = .ok (.fence 5 0x11, 12) ∧
  -- a header of section 5 with 12 parcels that waits for one entry of VL
  decode (leBytes 8 (7 * 2 ^ 29 + 12 * 2 ^ 20 + 5 * 2 ^ 16 + 1 * 2 ^ 8)) =
    .ok (.sectionHeader { dVA := 0, dVL := 1, num := 5, len := 12, dVS := 0, dMX := 0, dCP := 0, dNM := 0 }, 8) ∧
  -- ZACC of tile 7 with tag 9, in the queue of MX
  (∃ h, decodeEcb .mx [BitVec.ofNat 64 (9 * 2 ^ 32 + 1 * 2 ^ 8 + 0x03), 0, 0, 0, 0, 7, 0, 0, 0, 0, 0, 0, 0, 0, 0, 0] = .ok (.zacc h 7) ∧ h.tag = 9)

/-- R288-R294, R297-R300, R50: the decoder reads back every well-formed instruction of the stream, with every operand it can hold, from its
encoding, whatever bytes follow. -/
def Obligations.StreamDecodesItsEncoding : Prop :=
  ∀ (i : Instr) (rest : List Byte), i.wf = true → i.isStream = true → decode (encode i ++ rest) = .ok (i, (encode i).length)

/-- R289: every item that decodes is well-formed, takes 8 or 12 bytes, and is the one encoding of its instruction: no bit of it is dropped. -/
def Obligations.DecodedItemsAreTheirEncoding : Prop :=
  ∀ (bs : List Byte) (i : Instr) (n : Nat), decode bs = .ok (i, n) → n ≤ bs.length →
    i.wf = true ∧ i.isStream = true ∧ (n = 8 ∨ n = 12) ∧ (encode i).length = n ∧ encode i = bs.take n

/-- The bits of slot 0 that a command's opcode leaves reserved are clear (R107, R110, R356, R262, R329). -/
def Sys2Proof.Vocab.headClear : Instr → Bool
  | .mma h _ => h.oc == 0 && h.scope == 0 && !h.katCmp
  | .drain h _ | .zacc h _ | .twfill h _ => h.oc == 0 && h.scope == 0 && !h.katCmp && !h.strict
  | .kat h _ => h.oc == 0 && h.scope == 0 && !h.strict && !h.pushMA && h.budget == 0
  | .nmatt h _ | .nmopt h _ | .nmxg h _ | .crs h _ | .cag h _ | .car h _ =>
    h.budget == 0 && !h.pushMA && h.role == 0 && !h.strict && !h.katCmp && !h.tsm
  | _ => false

/-- R106, R107, R108, R263, R265, R270, R299, R329: a command with every field at any value has an image of 16 slots, with its CRC in slot
15, that its engine's queue decodes to the command, and no other engine's. -/
def Obligations.CommandsDecodeTheirImage : Prop :=
  ∀ i : Instr, i.isEcb = true → Vocab.headClear i = true →
    ∃ slots e, encodeEcb i = some slots ∧ slots.length = 16 ∧ ecbSlot slots 15 = (ecbCrc slots).setWidth 64 ∧
      decodeEcb e slots = .ok i ∧ ∀ f, f ≠ e → decodeEcb f slots = .error 0

/-- R317, R318, R319: a relocation writes a value that fits its field, or none: ABS64 the sum of symbol and addend modulo 2^64, PCREL32 a
quarter of its exact distance within 32 signed bits, SPOFF19 an offset up to 524,287 with or without the window's upper bits, and the index,
event and tile fields the sum itself. An image at a multiple of its alignment with a value that does not fit is refused with the index of the
first such relocation, and nothing is written where the record's done or report pointer, as computed, is 0 or misaligned (DEDUCED, log
entry 55); with every value fitting and its pages writable it is written whole and its record is ready to submit. -/
def Obligations.RelocationsFitOrTheImageIsRefused : Prop :=
  (∀ t s a p v, Etbin.relValue t s a p = some v → v < 2 ^ Etbin.widthOf t) ∧
    (∀ s a p v, Etbin.relValue .abs64 s a p = some v ↔ v = ((s + a) % 2 ^ 64).toNat) ∧
    (∀ s a p v, Etbin.relValue .pcrel32 s a p = some v ↔
      ∃ q : Int, s + a - p = 4 * q ∧ -(2 ^ 31) ≤ q ∧ q < 2 ^ 31 ∧ v = (q % 2 ^ 32).toNat) ∧
    (∀ s a p v, Etbin.relValue .spoff19 s a p = some v ↔
      v ≤ 524287 ∧ (((s + a) % 2 ^ 64).toNat = v ∨ ((s + a) % 2 ^ 64).toNat = 0xFF00 * 2 ^ 48 + v)) ∧
    (∀ tm ∈ [(Etas.RelType.tplidx8, 255), (.event6, 63), (.ztile5, 31)], ∀ (s a p : Int) (v : Nat),
      Etbin.relValue tm.1 s a p = some v ↔ s + a = v ∧ v ≤ tm.2) ∧
    ∀ (s : State) job va o given launch y, o.syms[launch]? = some y → o.image = true → o.ok = true → va % o.alignment = 0 → y.kind = 5 →
      let m := o.relocated va given
      let at_ := ((m.secs[y.sec]?).map Etbin.OSec.place).getD 0 + y.value
      let record := (((m.secs[y.sec]?).map Etbin.OSec.bytes).getD [] |>.drop y.value).take 256
      let done := Etbin.numAt record 48 8
      let report := Etbin.numAt record 56 8
      (∀ i name, o.failing va given = some (i, name) → (s.loadImage job va o given launch).2 = .refused i name ∧
        (∃ r, o.rels[i]? = some r ∧ o.evaluate va given r = none) ∧
        (∀ j r, j < i → o.rels[j]? = some r → (o.evaluate va given r).isSome = true) ∧
        (done = 0 ∨ done % 8 ≠ 0 ∨ report = 0 ∨ report % 64 ≠ 0 → (s.loadImage job va o given launch).1 = s)) ∧
      (o.failing va given = none → (∀ x ∈ m.secs, s.loadable job (va + x.place) x.bytes.length = true) →
        s.loadImage job va o given launch = (m.secs.foldl (fun s x => s.loadBytes job (va + x.place) x.bytes) s, .submit (va + at_)))

/-! ## A step -/

/-- The outcome of a turn of s, settled: the words that it wrote early stand as they were (R58), and the engine has had its banks (R65). -/
def Sys2Proof.Vocab.settled (s : State) (tn : Turn) : Host.Outcome State Fault Refusal → Host.Outcome State Fault Refusal
  | .next t => .next (State.settle s (s.wide t tn))
  | .fault f => .fault f
  | .refused r => .refused r

/-- SQ of the core in focus is at the word of a body (or of a handler), with its section's waits met, no latent error and no trace match
there. -/
def Sys2Proof.Vocab.AtWord (s : State) : Prop :=
  s.cur.run.isSome = true ∧ s.arch.ended = false ∧ s.cur.ckpt = none ∧ s.cur.flaws = [] ∧ s.cur.resumed = none ∧
    (s.arch.atHeader = false ∨ s.inHandler = true) ∧
    (s.inHandler = true ∨ s.cur.waitsMet = true) ∧ s.cur.matchesTrig s.arch.word = false ∧ windowOf s.arch.word = .glob

/-- R49, R51, R54, R56, R254: when the bytes at SQ's position decode to an instruction, the head of an engine's queue names one, or an event is
due, a step that takes the whole of it is exec of that instruction, settled (R66, R38); its section's waits are spent (R53). Whose turn it
is, is log entry 1; an agent that loses a bank to an aged requester (R65), and an NM or CL command whose wait bit a lower engine's head takes in
the cycle (R62), do not move. No turn passes the cycle in which the first item of a Safety Net leaves (R216), nor the 44th of an access that
waits for a column step (R272). -/
def Obligations.StepRunsTheDecodedInstruction : Prop :=
  (∀ (s : State) (tn : Turn) (l : List Turn), s.nextTurn = (tn, l) →
    (∀ c i, c < 1024 → s.firstItem c = some i → s.cycle + tn.dt ≤ max s.cycle (i.entered + 2048)) ∧
    (∀ w ∈ s.rowWaits, s.cycle + tn.dt ≤ max s.cycle (w.arrived + 44))) ∧
  ∀ (s : State) (tn : Turn) (l : List Turn) (i : Instr) (n : Nat), s.nextTurn = (tn, l) → tn.part = none →
    (s.pass tn l).losesTurn tn = none →
    let sp : State := s.pass tn l
    let s0 : State := { sp with part := none }
    (∀ c, tn.who = .sq c → c < 1024 → Vocab.AtWord (s0.at_ c false) →
      let s1 := if (s0.at_ c false).inHandler then s0.at_ c false else (s0.at_ c false).modArch fun a => { a with waits := [] }
      ∀ u v bs ws, s1.fetchBytes (offsetOf s1.arch.word) 4 = (u, .ok bs) → leNat bs / 2 ^ 29 % 8 ≠ 7 →
        (s1.inHandler = true → handlerBad (leNat bs) = false) →
        State.fetchBytes { u with regs := s.regs } (offsetOf s1.arch.word) 12 = (v, .ok ws) → decode ws = .ok (i, n) →
        u.focus = c → (u.core c).arch = s1.arch → v.cur.flaws = [] →
        step s = Vocab.settled sp tn (exec i { v with regs := s.regs })) ∧
    (∀ c, tn.who = .sq c → c < 1024 →
      let s1 := s0.at_ c false
      s1.cur.run.isSome = true → s1.arch.ended = false → s1.cur.ckpt = none → s1.cur.flaws = [] → s1.cur.resumed = none →
      s1.arch.atHeader = true → s1.inHandler = false → windowOf s1.arch.pc = .glob →
      ∀ u v bs ws, s1.fetchBytes (offsetOf s1.arch.pc) 4 = (u, .ok bs) → leNat bs / 2 ^ 29 % 8 = 7 →
        State.fetchBytes { u with regs := s.regs } (offsetOf s1.arch.pc) 8 = (v, .ok ws) → decode ws = .ok (i, n) →
        step s = Vocab.settled sp tn (exec i { v with regs := s.regs })) ∧
    (∀ c q e r, c < 1024 → (tn.who, q) ∈ [(Who.vl c, Vq.vl), (Who.va c, Vq.va), (Who.vs c, Vq.vs)] →
      (s0.core c).ckpt = none → (s0.core c).flaws = [] → (s0.core c).arch.vq q = e :: r →
      step s = Vocab.settled sp tn (exec e.instr (s0.at_ c true))) ∧
    (∀ c g x r, c < 1024 → (tn.who, g) ∈ [(Who.mx c, EcbEngine.mx), (Who.nm c, EcbEngine.nm), (Who.cl c, EcbEngine.cl)] →
      ecbQ (s0.core c).arch g = x :: r → x.net = false → x.owing = false → (s0.core c).flaws = [] →
      ((s0.core c).ckpt = none ∨ x.started = true) → (g = .mx → (s0.core c).replay = none) →
      (∀ f, (g = .nm ∧ f = .mx ∨ g = .cl ∧ f ≠ .cl) →
        (s0.at_ c true).takesFirst f (if x.started then 0 else ecbSlot x.slots 1) = false) → decodeEcb g x.slots = .ok i →
      step s = Vocab.settled sp tn (exec i (s0.at_ c true))) ∧
    (tn.who = .event i → i.isEvent = true → step s = Vocab.settled sp tn (exec i s0))

/-! ## The registers that software programs -/

/-- R145, R174, R238, R267, R274: after reset no register is programmed, so every one holds its reset value, and no retention quota is in force.
That memory reads 0 at reset is the model's choice (log entry 2). -/
def Obligations.ResetMeetsTheInvariant : Prop :=
  State.reset.Inv ∧ (∀ off, State.reset.reg off = regReset off) ∧ retTotal State.reset.regs = 0 ∧ Memory.wf State.reset.mem = true ∧
    (∀ a, Memory.read State.reset.mem a = 0)

/-- R145, R174, R238, R267, R274: whatever a step does, from any state in which the enabled retention registers' quotas add to at most 64 MiB and each
programmed register holds a value that is legal for it, both still hold after it. -/
def Obligations.EveryStepKeepsTheInvariant : Prop :=
  ∀ s t : State, s.Inv → step s = .next t → t.Inv
end

