-- ==== Sys2Proof/Laws/Exec.lean ====
section
/-!
SUPPORT. exec, arm by arm: the one call that each constructor makes.
-/

namespace Sys2Proof.Machine

set_option Elab.async false

theorem exec_nop (s : State) : exec .nop s = execNop s := rfl
theorem exec_add (s : State) sd sa src : exec (.add sd sa src) s = execAdd sd sa src s := rfl
theorem exec_sub (s : State) sd sa src : exec (.sub sd sa src) s = execSub sd sa src s := rfl
theorem exec_mul (s : State) sd sa src : exec (.mul sd sa src) s = execMul sd sa src s := rfl
theorem exec_mulh (s : State) v sd sa src : exec (.mulh v sd sa src) s = execMulh v sd sa src s := rfl
theorem exec_div (s : State) v sd sa src : exec (.div v sd sa src) s = execDiv v sd sa src s := rfl
theorem exec_rem (s : State) v sd sa src : exec (.rem v sd sa src) s = execRem v sd sa src s := rfl
theorem exec_and (s : State) sd sa src : exec (.and sd sa src) s = execAnd sd sa src s := rfl
theorem exec_or (s : State) sd sa src : exec (.or sd sa src) s = execOr sd sa src s := rfl
theorem exec_xor (s : State) sd sa src : exec (.xor sd sa src) s = execXor sd sa src s := rfl
theorem exec_andn (s : State) sd sa src : exec (.andn sd sa src) s = execAndn sd sa src s := rfl
theorem exec_shl (s : State) sd sa src : exec (.shl sd sa src) s = execShl sd sa src s := rfl
theorem exec_shr (s : State) sd sa src : exec (.shr sd sa src) s = execShr sd sa src s := rfl
theorem exec_sra (s : State) sd sa src : exec (.sra sd sa src) s = execSra sd sa src s := rfl
theorem exec_clz (s : State) sd sa : exec (.clz sd sa) s = execClz sd sa s := rfl
theorem exec_popc (s : State) sd sa : exec (.popc sd sa) s = execPopc sd sa s := rfl
theorem exec_min (s : State) v sd sa src : exec (.min v sd sa src) s = execMin v sd sa src s := rfl
theorem exec_max (s : State) v sd sa src : exec (.max v sd sa src) s = execMax v sd sa src s := rfl
theorem exec_sel (s : State) sd sa src sc : exec (.sel sd sa src sc) s = execSel sd sa src sc s := rfl
theorem exec_cmp (s : State) c sd sa src : exec (.cmp c sd sa src) s = execCmp c sd sa src s := rfl
theorem exec_ext (s : State) v sd sa lo width : exec (.ext v sd sa lo width) s = execExt v sd sa lo width s := rfl
theorem exec_ins (s : State) sd sa sc lo width : exec (.ins sd sa sc lo width) s = execIns sd sa sc lo width s := rfl
theorem exec_hash (s : State) sd sa sb sc : exec (.hash sd sa sb sc) s = execHash sd sa sb sc s := rfl
theorem exec_li (s : State) sd v : exec (.li sd v) s = execLi sd v s := rfl
theorem exec_br (s : State) c sa b off : exec (.br c sa b off) s = execBr c sa b off s := rfl
theorem exec_jmp (s : State) t : exec (.jmp t) s = execJmp t s := rfl
theorem exec_call (s : State) t : exec (.call t) s = execCall t s := rfl
theorem exec_loop (s : State) sa off : exec (.loop sa off) s = execLoop sa off s := rfl
theorem exec_sectionHeader (s : State) h : exec (.sectionHeader h) s = execSectionHeader h s := rfl
theorem exec_ld (s : State) sz sx at_ sd sa off : exec (.ld sz sx at_ sd sa off) s = execLd sz sx at_ sd sa off s := rfl
theorem exec_st (s : State) sz at_ sa off sd : exec (.st sz at_ sa off sd) s = execSt sz at_ sa off sd s := rfl
theorem exec_amo (s : State) op sz sx at_ sd sa off sb : exec (.amo op sz sx at_ sd sa off sb) s = execAmo op sz sx at_ sd sa off sb s := rfl
theorem exec_cas (s : State) sz sx at_ sd sa off sb : exec (.cas sz sx at_ sd sa off sb) s = execCas sz sx at_ sd sa off sb s := rfl
theorem exec_ldfe (s : State) sx sd sa off : exec (.ldfe sx sd sa off) s = execLdfe sx sd sa off s := rfl
theorem exec_ldff (s : State) sx sd sa off : exec (.ldff sx sd sa off) s = execLdff sx sd sa off s := rfl
theorem exec_stef (s : State) sa off sd : exec (.stef sa off sd) s = execStef sa off sd s := rfl
theorem exec_stff (s : State) sa off sd : exec (.stff sa off sd) s = execStff sa off sd s := rfl
theorem exec_feclr (s : State) sa off : exec (.feclr sa off) s = execFeclr sa off s := rfl
theorem exec_cpgo (s : State) chan tpl sa sb : exec (.cpgo chan tpl sa sb) s = execCpgo chan tpl sa sb s := rfl
theorem exec_splook (s : State) sd sa off : exec (.splook sd sa off) s = execSplook sd sa off s := rfl
theorem exec_spfill (s : State) hint oc sa off sd : exec (.spfill hint oc sa off sd) s = execSpfill hint oc sa off sd s := rfl
theorem exec_spevictWb (s : State) sa off : exec (.spevictWb sa off) s = execSpevictWb sa off s := rfl
theorem exec_spevictDrop (s : State) sa off : exec (.spevictDrop sa off) s = execSpevictDrop sa off s := rfl
theorem exec_sppin (s : State) sa off : exec (.sppin sa off) s = execSppin sa off s := rfl
theorem exec_sppinUn (s : State) sa off : exec (.sppinUn sa off) s = execSppinUn sa off s := rfl
theorem exec_wenq (s : State) oc hint sa off sd sb : exec (.wenq oc hint sa off sd sb) s = execWenq oc hint sa off sd sb s := rfl
theorem exec_pref (s : State) hint oc sa off : exec (.pref hint oc sa off) s = execPref hint oc sa off s := rfl
theorem exec_vld (s : State) e c vd sa off : exec (.vld e c vd sa off) s = execVld e c vd sa off s := rfl
theorem exec_vlds (s : State) e c vd sa off sb : exec (.vlds e c vd sa off sb) s = execVlds e c vd sa off sb s := rfl
theorem exec_vldx (s : State) e c vd sa off vx : exec (.vldx e c vd sa off vx) s = execVldx e c vd sa off vx s := rfl
theorem exec_vldb (s : State) e c vd sa off : exec (.vldb e c vd sa off) s = execVldb e c vd sa off s := rfl
theorem exec_vldt (s : State) col q c vd sa off sb : exec (.vldt col q c vd sa off sb) s = execVldt col q c vd sa off sb s := rfl
theorem exec_vaccr (s : State) col tile c vd sa off : exec (.vaccr col tile c vd sa off) s = execVaccr col tile c vd sa off s := rfl
theorem exec_vadd (s : State) ty rm c vd va vb : exec (.vadd ty rm c vd va vb) s = execVadd ty rm c vd va vb s := rfl
theorem exec_vsub (s : State) ty rm c vd va vb : exec (.vsub ty rm c vd va vb) s = execVsub ty rm c vd va vb s := rfl
theorem exec_vmul (s : State) ty rm c vd va vb : exec (.vmul ty rm c vd va vb) s = execVmul ty rm c vd va vb s := rfl
theorem exec_vfma (s : State) ty rm c vd va vb vc : exec (.vfma ty rm c vd va vb vc) s = execVfma ty rm c vd va vb vc s := rfl
theorem exec_vmin (s : State) ty c vd va vb : exec (.vmin ty c vd va vb) s = execVmin ty c vd va vb s := rfl
theorem exec_vmax (s : State) ty c vd va vb : exec (.vmax ty c vd va vb) s = execVmax ty c vd va vb s := rfl
theorem exec_vabs (s : State) ty c vd va : exec (.vabs ty c vd va) s = execVabs ty c vd va s := rfl
theorem exec_vand (s : State) ty c vd va vb : exec (.vand ty c vd va vb) s = execVand ty c vd va vb s := rfl
theorem exec_vor (s : State) ty c vd va vb : exec (.vor ty c vd va vb) s = execVor ty c vd va vb s := rfl
theorem exec_vxor (s : State) ty c vd va vb : exec (.vxor ty c vd va vb) s = execVxor ty c vd va vb s := rfl
theorem exec_vshl (s : State) ty c vd va vb : exec (.vshl ty c vd va vb) s = execVshl ty c vd va vb s := rfl
theorem exec_vshr (s : State) ty c vd va vb : exec (.vshr ty c vd va vb) s = execVshr ty c vd va vb s := rfl
theorem exec_vsra (s : State) ty c vd va vb : exec (.vsra ty c vd va vb) s = execVsra ty c vd va vb s := rfl
theorem exec_vcmp (s : State) ty cond ct c pd1 pd2 va vb : exec (.vcmp ty cond ct c pd1 pd2 va vb) s = execVcmp ty cond ct c pd1 pd2 va vb s := rfl
theorem exec_vsel (s : State) ty c vd ps va vb : exec (.vsel ty c vd ps va vb) s = execVsel ty c vd ps va vb s := rfl
theorem exec_vmov (s : State) ty c vd va : exec (.vmov ty c vd va) s = execVmov ty c vd va s := rfl
theorem exec_vcvt (s : State) src dst rm c vd va vb vc : exec (.vcvt src dst rm c vd va vb vc) s = execVcvt src dst rm c vd va vb vc s := rfl
theorem exec_vred (s : State) ty op rm c vd va : exec (.vred ty op rm c vd va) s = execVred ty op rm c vd va s := rfl
theorem exec_vperm (s : State) ty c vd va vb : exec (.vperm ty c vd va vb) s = execVperm ty c vd va vb s := rfl
theorem exec_vslide (s : State) dn ty c vd va vb k : exec (.vslide dn ty c vd va vb k) s = execVslide dn ty c vd va vb k s := rfl
theorem exec_viota (s : State) ty c vd va step : exec (.viota ty c vd va step) s = execViota ty c vd va step s := rfl
theorem exec_vdiv (s : State) c vd va vb : exec (.vdiv c vd va vb) s = execVdiv c vd va vb s := rfl
theorem exec_vsqrt (s : State) c vd va : exec (.vsqrt c vd va) s = execVsqrt c vd va s := rfl
theorem exec_vexp2 (s : State) c vd va : exec (.vexp2 c vd va) s = execVexp2 c vd va s := rfl
theorem exec_vlog2 (s : State) c vd va : exec (.vlog2 c vd va) s = execVlog2 c vd va s := rfl
theorem exec_vget (s : State) form c sd : exec (.vget form c sd) s = execVget form c sd s := rfl
theorem exec_plog (s : State) op c pd pa pb : exec (.plog op c pd pa pb) s = execPlog op c pd pa pb s := rfl
theorem exec_pset (s : State) src c pd : exec (.pset src c pd) s = execPset src c pd s := rfl
theorem exec_vhash (s : State) ty c vd va vb vc : exec (.vhash ty c vd va vb vc) s = execVhash ty c vd va vb vc s := rfl
theorem exec_vst (s : State) e c vs sa off : exec (.vst e c vs sa off) s = execVst e c vs sa off s := rfl
theorem exec_vsts (s : State) e c vs sa off sb : exec (.vsts e c vs sa off sb) s = execVsts e c vs sa off sb s := rfl
theorem exec_vstx (s : State) e c vs sa off vx : exec (.vstx e c vs sa off vx) s = execVstx e c vs sa off vx s := rfl
theorem exec_vaccw (s : State) col tile c vs sa off : exec (.vaccw col tile c vs sa off) s = execVaccw col tile c vs sa off s := rfl
theorem exec_vstc (s : State) e c vs sa off : exec (.vstc e c vs sa off) s = execVstc e c vs sa off s := rfl
theorem exec_ecgo (s : State) eng sd sa : exec (.ecgo eng sd sa) s = execEcgo eng sd sa s := rfl
theorem exec_mxw (s : State) sa slot : exec (.mxw sa slot) s = execMxw sa slot s := rfl
theorem exec_mxgo (s : State) sd : exec (.mxgo sd) s = execMxgo sd s := rfl
theorem exec_cptpl (s : State) tpl sa : exec (.cptpl tpl sa) s = execCptpl tpl sa s := rfl
theorem exec_pubv (s : State) sd region n final : exec (.pubv sd region n final) s = execPubv sd region n final s := rfl
theorem exec_refstop (s : State) sd region : exec (.refstop sd region) s = execRefstop sd region s := rfl
theorem exec_verget (s : State) sd region : exec (.verget sd region) s = execVerget sd region s := rfl
theorem exec_trap (s : State) imm : exec (.trap imm) s = execTrap imm s := rfl
theorem exec_eret (s : State) : exec .eret s = execEret s := rfl
theorem exec_mfs (s : State) sd reg : exec (.mfs sd reg) s = execMfs sd reg s := rfl
theorem exec_mts (s : State) reg sa : exec (.mts reg sa) s = execMts reg sa s := rfl
theorem exec_fence (s : State) scope mask : exec (.fence scope mask) s = execFence scope mask s := rfl
theorem exec_waitc (s : State) ld st cp mx : exec (.waitc ld st cp mx) s = execWaitc ld st cp mx s := rfl
theorem exec_evset (s : State) m : exec (.evset m) s = execEvset m s := rfl
theorem exec_evclr (s : State) m : exec (.evclr m) s = execEvclr m s := rfl
theorem exec_evwait (s : State) m : exec (.evwait m) s = execEvwait m s := rfl
theorem exec_spawn (s : State) sd t : exec (.spawn sd t) s = execSpawn sd t s := rfl
theorem exec_depdec (s : State) scope t : exec (.depdec scope t) s = execDepdec scope t s := rfl
theorem exec_tend (s : State) : exec .tend s = execTend s := rfl
theorem exec_cancel (s : State) sd level id : exec (.cancel sd level id) s = execCancel sd level id s := rfl
theorem exec_xsync (s : State) id : exec (.xsync id) s = execXsync id s := rfl
theorem exec_xmc (s : State) sa off sb sc : exec (.xmc sa off sb sc) s = execXmc sa off sb sc s := rfl
theorem exec_idle (s : State) : exec .idle s = execIdle s := rfl
theorem exec_trig (s : State) : exec .trig s = execTrig s := rfl
theorem exec_stepBegin (s : State) k : exec (.stepBegin k) s = execStepBegin k s := rfl
theorem exec_stepCommit (s : State) k : exec (.stepCommit k) s = execStepCommit k s := rfl
theorem exec_stepAbort (s : State) k : exec (.stepAbort k) s = execStepAbort k s := rfl
theorem exec_halt (s : State) : exec .halt s = execHalt s := rfl
theorem exec_unpin (s : State) sd n : exec (.unpin sd n) s = execUnpin sd n s := rfl
theorem exec_mma (s : State) h m : exec (.mma h m) s = execMma h m s := rfl
theorem exec_drain (s : State) h d : exec (.drain h d) s = execDrain h d s := rfl
theorem exec_zacc (s : State) h tile : exec (.zacc h tile) s = execZacc h tile s := rfl
theorem exec_twfill (s : State) h t : exec (.twfill h t) s = execTwfill h t s := rfl
theorem exec_kat (s : State) h k : exec (.kat h k) s = execKat h k s := rfl
theorem exec_nmatt (s : State) h a : exec (.nmatt h a) s = execNmatt h a s := rfl
theorem exec_nmopt (s : State) h o : exec (.nmopt h o) s = execNmopt h o s := rfl
theorem exec_nmxg (s : State) h x : exec (.nmxg h x) s = execNmxg h x s := rfl
theorem exec_crs (s : State) h c : exec (.crs h c) s = execCrs h c s := rfl
theorem exec_cag (s : State) h c : exec (.cag h c) s = execCag h c s := rfl
theorem exec_car (s : State) h c : exec (.car h c) s = execCar h c s := rfl
theorem exec_nmuCompletion (s : State) nmu : exec (.nmuCompletion nmu) s = execNmuCompletion nmu s := rfl
theorem exec_openRowAccess (s : State) nmu write pa value : exec (.openRowAccess nmu write pa value) s = execOpenRowAccess nmu write pa value s := rfl
theorem exec_collectiveStepAck (s : State) tag : exec (.collectiveStepAck tag) s = execCollectiveStepAck tag s := rfl
theorem exec_collectiveStepTimeout (s : State) tag : exec (.collectiveStepTimeout tag) s = execCollectiveStepTimeout tag s := rfl
theorem exec_safetyNetRelease (s : State) core : exec (.safetyNetRelease core) s = execSafetyNetRelease core s := rfl
theorem exec_xmcDelivery (s : State) die index : exec (.xmcDelivery die index) s = execXmcDelivery die index s := rfl
theorem exec_xsyncBarrier (s : State) job : exec (.xsyncBarrier job) s = execXsyncBarrier job s := rfl
theorem exec_globalLoadReturn (s : State) core index : exec (.globalLoadReturn core index) s = execGlobalLoadReturn core index s := rfl
theorem exec_copySectorCounted (s : State) core chan : exec (.copySectorCounted core chan) s = execCopySectorCounted core chan s := rfl
theorem exec_pageFillComplete (s : State) core page : exec (.pageFillComplete core page) s = execPageFillComplete core page s := rfl
theorem exec_tableWalk (s : State) core va acc : exec (.tableWalk core va acc) s = execTableWalk core va acc s := rfl
theorem exec_taskCommit (s : State) core : exec (.taskCommit core) s = execTaskCommit core s := rfl
theorem exec_taskDispatch (s : State) die : exec (.taskDispatch die) s = execTaskDispatch die s := rfl
theorem exec_taskRestore (s : State) die : exec (.taskRestore die) s = execTaskRestore die s := rfl
theorem exec_preemption (s : State) die : exec (.preemption die) s = execPreemption die s := rfl
theorem exec_sliceExpiry (s : State) core : exec (.sliceExpiry core) s = execSliceExpiry core s := rfl
theorem exec_taskAgeing (s : State) die : exec (.taskAgeing die) s = execTaskAgeing die s := rfl
theorem exec_spillListMove (s : State) die cls : exec (.spillListMove die cls) s = execSpillListMove die cls s := rfl
theorem exec_launchRunning (s : State) job launch : exec (.launchRunning job launch) s = execLaunchRunning job launch s := rfl
theorem exec_phaseBegin (s : State) job : exec (.phaseBegin job) s = execPhaseBegin job s := rfl
theorem exec_exchangeStart (s : State) job : exec (.exchangeStart job) s = execExchangeStart job s := rfl
theorem exec_exchangeHoldExpiry (s : State) job : exec (.exchangeHoldExpiry job) s = execExchangeHoldExpiry job s := rfl
theorem exec_confirmationBarrier (s : State) job : exec (.confirmationBarrier job) s = execConfirmationBarrier job s := rfl
theorem exec_coreStrikeReport (s : State) zone core t : exec (.coreStrikeReport zone core t) s = execCoreStrikeReport zone core t s := rfl
theorem exec_matrixStrikeReport (s : State) core t : exec (.matrixStrikeReport core t) s = execMatrixStrikeReport core t s := rfl
theorem exec_safetyNetStrike (s : State) cluster t : exec (.safetyNetStrike cluster t) s = execSafetyNetStrike cluster t s := rfl
theorem exec_l2Strike (s : State) slice t : exec (.l2Strike slice t) s = execL2Strike slice t s := rfl
theorem exec_nmuStrike (s : State) nmu t : exec (.nmuStrike nmu t) s = execNmuStrike nmu t s := rfl
theorem exec_routerStrike (s : State) port t : exec (.routerStrike port t) s = execRouterStrike port t s := rfl
theorem exec_queueDeadlock (s : State) core : exec (.queueDeadlock core) s = execQueueDeadlock core s := rfl
theorem exec_bankAgeLimit (s : State) core bank : exec (.bankAgeLimit core bank) s = execBankAgeLimit core bank s := rfl
theorem exec_mxWindowAgeOut (s : State) core : exec (.mxWindowAgeOut core) s = execMxWindowAgeOut core s := rfl
theorem exec_governorPromotion (s : State) core : exec (.governorPromotion core) s = execGovernorPromotion core s := rfl
theorem exec_scrubStep (s : State) core ring : exec (.scrubStep core ring) s = execScrubStep core ring s := rfl
theorem exec_l2Scrub (s : State) slice : exec (.l2Scrub slice) s = execL2Scrub slice s := rfl
theorem exec_hbmPatrol (s : State) channel : exec (.hbmPatrol channel) s = execHbmPatrol channel s := rfl
theorem exec_traceFreeze (s : State) core : exec (.traceFreeze core) s = execTraceFreeze core s := rfl
theorem exec_errlogRead (s : State) core ring sd : exec (.errlogRead core ring sd) s = execErrlogRead core ring sd s := rfl
theorem exec_errlogClear (s : State) core ring : exec (.errlogClear core ring) s = execErrlogClear core ring s := rfl
theorem exec_tracectlWrite (s : State) core v : exec (.tracectlWrite core v) s = execTracectlWrite core v s := rfl
theorem exec_retainWrite (s : State) n word v : exec (.retainWrite n word v) s = execRetainWrite n word v s := rfl
theorem exec_counterClear (s : State) off : exec (.counterClear off) s = execCounterClear off s := rfl
theorem exec_degradedClear (s : State) word v : exec (.degradedClear word v) s = execDegradedClear word v s := rfl
theorem exec_tlbinvGo (s : State) : exec .tlbinvGo s = execTlbinvGo s := rfl
theorem exec_tlbinvDone (s : State) : exec .tlbinvDone s = execTlbinvDone s := rfl
theorem exec_resumeWrite (s : State) die va : exec (.resumeWrite die va) s = execResumeWrite die va s := rfl
theorem exec_pfConsumerIndexWrite (s : State) die v : exec (.pfConsumerIndexWrite die v) s = execPfConsumerIndexWrite die v s := rfl
theorem exec_mgmtRegisterWrite (s : State) off v : exec (.mgmtRegisterWrite off v) s = execMgmtRegisterWrite off v s := rfl
theorem exec_jobOpen (s : State) seq desc : exec (.jobOpen seq desc) s = execJobOpen seq desc s := rfl
theorem exec_launchSubmit (s : State) seq job va : exec (.launchSubmit seq job va) s = execLaunchSubmit seq job va s := rfl
theorem exec_graphSubmit (s : State) seq job va : exec (.graphSubmit seq job va) s = execGraphSubmit seq job va s := rfl
theorem exec_hostCancel (s : State) seq job level id : exec (.hostCancel seq job level id) s = execHostCancel seq job level id s := rfl
theorem exec_hostRefstop (s : State) seq job region : exec (.hostRefstop seq job region) s = execHostRefstop seq job region s := rfl
theorem exec_memoryWrite (s : State) seq pa bytes : exec (.memoryWrite seq pa bytes) s = execMemoryWrite seq pa bytes s := rfl
theorem exec_memoryRead (s : State) seq pa n : exec (.memoryRead seq pa n) s = execMemoryRead seq pa n s := rfl
theorem exec_resynchroniseRequest (s : State) seq dh : exec (.resynchroniseRequest seq dh) s = execResynchroniseRequest seq dh s := rfl
theorem exec_attestationRequest (s : State) seq nonce : exec (.attestationRequest seq nonce) s = execAttestationRequest seq nonce s := rfl
theorem exec_unknownMessage (s : State) seq type : exec (.unknownMessage seq type) s = execUnknownMessage seq type s := rfl
theorem exec_flitReceive (s : State) port bytes : exec (.flitReceive port bytes) s = execFlitReceive port bytes s := rfl
theorem exec_linkReplayRequest (s : State) port seq : exec (.linkReplayRequest port seq) s = execLinkReplayRequest port seq s := rfl
theorem exec_linkSignalChange (s : State) port signal : exec (.linkSignalChange port signal) s = execLinkSignalChange port signal s := rfl
theorem exec_linkTrainingComplete (s : State) port : exec (.linkTrainingComplete port) s = execLinkTrainingComplete port s := rfl
theorem exec_deviceLost (s : State) port : exec (.deviceLost port) s = execDeviceLost port s := rfl
theorem exec_lossNotice (s : State) x y z : exec (.lossNotice x y z) s = execLossNotice x y z s := rfl
theorem exec_firmwareBoot (s : State) img : exec (.firmwareBoot img) s = execFirmwareBoot img s := rfl
theorem exec_powerStateEntry (s : State) : exec .powerStateEntry s = execPowerStateEntry s := rfl
theorem exec_wake (s : State) : exec .wake s = execWake s := rfl
theorem exec_governorBudgetRenewal (s : State) die : exec (.governorBudgetRenewal die) s = execGovernorBudgetRenewal die s := rfl

end Sys2Proof.Machine
end

