-- ==== Sys2Proof/Laws/Maps.lean ====
section
/-!
SUPPORT. Laws of the sorted maps and of physical memory: a read after a write, and that every operation keeps the canonical
form.
-/

namespace Sys2Proof.Machine

set_option Elab.async false

/-! ## Lookups -/

@[simp] theorem kfind_kset_same {α : Type} (m : KMap α) (k : Nat) (v : α) : kfind (kset m k v) k = some v := by
  induction m with
  | nil => simp [kset, kfind]
  | cons x t ih =>
    obtain ⟨a, b⟩ := x
    simp only [kset]
    split
    · simp [kfind]
    · split
      · simp [kfind]
      · simp_all [kfind]

theorem kfind_kset_ne {α : Type} (m : KMap α) {k j : Nat} (v : α) (h : j ≠ k) : kfind (kset m k v) j = kfind m j := by
  induction m with
  | nil => simp [kset, kfind, h]
  | cons x t ih =>
    obtain ⟨a, b⟩ := x
    simp only [kset]
    split
    · simp only [kfind, h, if_false]
      repeat' split
      all_goals first | rfl | omega
    · split
      · simp only [kfind, h, if_false]
        repeat' split
        all_goals first | rfl | omega
      · simp only [kfind, ih]

@[simp] theorem kget_kset_same {α : Type} (m : KMap α) (k : Nat) (v d : α) : kget (kset m k v) k d = v := by simp [kget]

theorem kget_kset_ne {α : Type} (m : KMap α) {k j : Nat} (v d : α) (h : j ≠ k) : kget (kset m k v) j d = kget m j d := by
  simp [kget, kfind_kset_ne m v h]

/-! ## The canonical form -/

/-- Every key is at least lo, and the keys rise strictly. -/
def risesFrom {α : Type} : Nat → KMap α → Prop
  | _, [] => True
  | lo, (a, _) :: t => lo ≤ a ∧ risesFrom (a + 1) t

theorem risesFrom_mono {α : Type} {lo hi : Nat} {m : KMap α} (h : lo ≤ hi) (hm : risesFrom hi m) : risesFrom lo m := by
  cases m with
  | nil => trivial
  | cons x t => exact ⟨Nat.le_trans h hm.1, hm.2⟩

theorem kwf_cons {α : Type} (a : Nat) (b : α) (t : KMap α) : kwf ((a, b) :: t) = true ↔ risesFrom (a + 1) t := by
  induction t generalizing a b with
  | nil => simp [kwf, risesFrom]
  | cons y t ih =>
    obtain ⟨c, d⟩ := y
    simp only [kwf, risesFrom, Bool.and_eq_true, decide_eq_true_eq, ih]
    exact Iff.rfl

theorem kwf_iff {α : Type} (m : KMap α) : kwf m = true ↔ risesFrom 0 m := by
  cases m with
  | nil => simp [kwf, risesFrom]
  | cons x t => obtain ⟨a, b⟩ := x; simp [kwf_cons, risesFrom]

theorem risesFrom_kset {α : Type} {lo : Nat} {m : KMap α} (h : risesFrom lo m) {k : Nat} (hk : lo ≤ k) (v : α) :
    risesFrom lo (kset m k v) := by
  induction m generalizing lo with
  | nil => exact ⟨hk, trivial⟩
  | cons x t ih =>
    obtain ⟨a, b⟩ := x
    simp only [kset]
    split
    · next hlt => exact ⟨hk, hlt, h.2⟩
    · split
      · next he => subst he; exact ⟨hk, h.2⟩
      · next h1 h2 => exact ⟨h.1, ih h.2 (by omega)⟩

theorem risesFrom_kdel {α : Type} {lo : Nat} {m : KMap α} (h : risesFrom lo m) (k : Nat) : risesFrom lo (kdel m k) := by
  induction m generalizing lo with
  | nil => trivial
  | cons x t ih =>
    obtain ⟨a, b⟩ := x
    simp only [kdel]
    split
    · exact h
    · split
      · exact risesFrom_mono (Nat.le_succ_of_le h.1) h.2
      · exact ⟨h.1, ih h.2⟩

theorem kwf_kset {α : Type} {m : KMap α} (h : kwf m = true) (k : Nat) (v : α) : kwf (kset m k v) = true :=
  (kwf_iff _).2 (risesFrom_kset ((kwf_iff _).1 h) (Nat.zero_le k) v)

theorem kwf_kdel {α : Type} {m : KMap α} (h : kwf m = true) (k : Nat) : kwf (kdel m k) = true :=
  (kwf_iff _).2 (risesFrom_kdel ((kwf_iff _).1 h) k)

theorem kwf_kput {α : Type} [DecidableEq α] {d : α} {m : KMap α} (h : kwf m = true) (k : Nat) (v : α) :
    kwf (kput d m k v) = true := by
  simp only [kput]
  split
  · exact kwf_kdel h k
  · exact kwf_kset h k v

theorem kset_mem {α : Type} {m : KMap α} {k : Nat} {v : α} {x : Nat × α} (h : x ∈ kset m k v) : x = (k, v) ∨ x ∈ m := by
  induction m with
  | nil => simpa [kset] using h
  | cons y t ih =>
    obtain ⟨a, b⟩ := y
    simp only [kset] at h
    split at h
    · simpa using h
    · split at h
      · simp only [List.mem_cons] at h ⊢
        rcases h with h | h <;> simp [h]
      · simp only [List.mem_cons] at h ⊢
        rcases h with h | h
        · simp [h]
        · rcases ih h with h | h <;> simp [h]

theorem kdel_mem {α : Type} {m : KMap α} {k : Nat} {x : Nat × α} (h : x ∈ kdel m k) : x ∈ m := by
  induction m with
  | nil => simp [kdel] at h
  | cons y t ih =>
    obtain ⟨a, b⟩ := y
    simp only [kdel] at h
    split at h
    · exact h
    · split at h
      · exact List.mem_cons_of_mem _ h
      · rcases List.mem_cons.1 h with h | h
        · simp [h]
        · exact List.mem_cons_of_mem _ (ih h)

theorem kfind_none_of_risesFrom {α : Type} {lo k : Nat} {m : KMap α} (h : risesFrom lo m) (hk : k < lo) : kfind m k = none := by
  cases m with
  | nil => rfl
  | cons x t =>
    obtain ⟨a, b⟩ := x
    have := h.1
    simp only [kfind]
    split
    · omega
    · split
      · rfl
      · omega

theorem kfind_kdel_same {α : Type} {lo : Nat} {m : KMap α} (h : risesFrom lo m) (k : Nat) : kfind (kdel m k) k = none := by
  induction m generalizing lo with
  | nil => rfl
  | cons x t ih =>
    obtain ⟨a, b⟩ := x
    simp only [kdel]
    split
    · next hlt => exact kfind_none_of_risesFrom (show risesFrom (k + 1) ((a, b) :: t) from ⟨hlt, h.2⟩) (Nat.lt_succ_self k)
    · split
      · next he => exact kfind_none_of_risesFrom h.2 (by omega)
      · next h1 h2 => simp only [kfind, h1, h2, if_false]; exact ih h.2

theorem kfind_kdel_ne {α : Type} {lo : Nat} {m : KMap α} (h : risesFrom lo m) {k j : Nat} (hj : j ≠ k) :
    kfind (kdel m k) j = kfind m j := by
  induction m generalizing lo with
  | nil => rfl
  | cons x t ih =>
    obtain ⟨a, b⟩ := x
    simp only [kdel]
    split
    · rfl
    · split
      · next he =>
        subst he
        simp only [kfind, hj, if_false]
        split
        · exact kfind_none_of_risesFrom h.2 (by omega)
        · rfl
      · simp only [kfind, ih h.2]

/-! ## Physical memory -/

namespace Memory

theorem write_wf {m : List Host.Cell} (h : wf m = true) (pa : Nat) (b : Byte) : wf (write m pa b) = true := by
  simp only [wf, Bool.and_eq_true, List.all_eq_true] at h ⊢
  refine ⟨kwf_kput h.1 pa b, fun c hc => ?_⟩
  simp only [write, kput] at hc
  split at hc
  · exact h.2 c (kdel_mem hc)
  · next hb => rcases kset_mem hc with rfl | hc
               · simpa using hb
               · exact h.2 c hc

theorem writes_wf {m : List Host.Cell} (h : wf m = true) (pa : Nat) (bs : List Byte) : wf (writes m pa bs) = true := by
  induction bs generalizing m pa with
  | nil => exact h
  | cons b bs ih => exact ih (write_wf h pa b) (pa + 1)

theorem read_write_same {m : List Host.Cell} (h : wf m = true) (pa : Nat) (b : Byte) : read (write m pa b) pa = b := by
  simp only [wf, Bool.and_eq_true] at h
  simp only [read, write, kput]
  split
  · next hb => simp [kget, kfind_kdel_same ((kwf_iff _).1 h.1), hb]
  · simp

theorem read_write_ne {m : List Host.Cell} (h : wf m = true) {pa a : Nat} (b : Byte) (ha : a ≠ pa) :
    read (write m pa b) a = read m a := by
  simp only [wf, Bool.and_eq_true] at h
  simp only [read, write, kput]
  split
  · simp [kget, kfind_kdel_ne ((kwf_iff _).1 h.1) ha]
  · exact kget_kset_ne _ _ _ ha

/-- A write of bytes leaves every address outside them alone. -/
theorem read_writes_outside {m : List Host.Cell} (h : wf m = true) {pa a : Nat} (bs : List Byte)
    (ha : a < pa ∨ pa + bs.length ≤ a) : read (writes m pa bs) a = read m a := by
  induction bs generalizing m pa with
  | nil => rfl
  | cons b bs ih =>
    simp only [writes, List.length_cons] at ha ⊢
    rw [ih (write_wf h pa b) (by omega), read_write_ne h b (by omega)]

/-- A byte that a write has stored reads back. -/
theorem read_writes_inside {m : List Host.Cell} (h : wf m = true) (pa : Nat) (bs : List Byte) (i : Nat) (hi : i < bs.length) :
    read (writes m pa bs) (pa + i) = bs[i] := by
  induction bs generalizing m pa i with
  | nil => simp at hi
  | cons b bs ih =>
    simp only [writes]
    cases i with
    | zero =>
      rw [read_writes_outside (write_wf h pa b) bs (by omega)]
      simpa using read_write_same h pa b
    | succ i =>
      have := ih (write_wf h pa b) (pa + 1) i (by simpa using hi)
      simpa [Nat.add_assoc, Nat.add_comm 1] using this

end Memory

end Sys2Proof.Machine
end

