-- ==== Sys2Proof/Laws/State.lean ====
section
/-!
SUPPORT. What the named updates of the state leave alone, field by field, and what the core in focus reads after them.
-/

namespace Sys2Proof.Machine

/-! ## Updates of one core -/

@[simp] theorem State.setCore_agenda (s : State) (c : Nat) (k : Core) : (s.setCore c k).agenda = s.agenda := rfl
@[simp] theorem State.setCore_focus (s : State) (c : Nat) (k : Core) : (s.setCore c k).focus = s.focus := rfl
@[simp] theorem State.setCore_atEngine (s : State) (c : Nat) (k : Core) : (s.setCore c k).atEngine = s.atEngine := rfl
@[simp] theorem State.setCore_part (s : State) (c : Nat) (k : Core) : (s.setCore c k).part = s.part := rfl
@[simp] theorem State.setCore_rank (s : State) (c : Nat) (k : Core) : (s.setCore c k).rank = s.rank := rfl
@[simp] theorem State.setCore_cycle (s : State) (c : Nat) (k : Core) : (s.setCore c k).cycle = s.cycle := rfl
@[simp] theorem State.setCore_epoch (s : State) (c : Nat) (k : Core) : (s.setCore c k).epoch = s.epoch := rfl
@[simp] theorem State.setCore_mem (s : State) (c : Nat) (k : Core) : (s.setCore c k).mem = s.mem := rfl
@[simp] theorem State.setCore_regs (s : State) (c : Nat) (k : Core) : (s.setCore c k).regs = s.regs := rfl
@[simp] theorem State.setCore_stat (s : State) (c : Nat) (k : Core) : (s.setCore c k).stat = s.stat := rfl
@[simp] theorem State.setCore_tasks (s : State) (c : Nat) (k : Core) : (s.setCore c k).tasks = s.tasks := rfl
@[simp] theorem State.setCore_rings (s : State) (c : Nat) (k : Core) : (s.setCore c k).rings = s.rings := rfl
@[simp] theorem State.setCore_launches (s : State) (c : Nat) (k : Core) : (s.setCore c k).launches = s.launches := rfl
@[simp] theorem State.setCore_graphs (s : State) (c : Nat) (k : Core) : (s.setCore c k).graphs = s.graphs := rfl
@[simp] theorem State.setCore_jobs (s : State) (c : Nat) (k : Core) : (s.setCore c k).jobs = s.jobs := rfl
@[simp] theorem State.setCore_heldStores (s : State) (c : Nat) (k : Core) : (s.setCore c k).heldStores = s.heldStores := rfl
@[simp] theorem State.setCore_heldGraphs (s : State) (c : Nat) (k : Core) : (s.setCore c k).heldGraphs = s.heldGraphs := rfl
@[simp] theorem State.setCore_devFaults (s : State) (c : Nat) (k : Core) : (s.setCore c k).devFaults = s.devFaults := rfl
@[simp] theorem State.setCore_net (s : State) (c : Nat) (k : Core) : (s.setCore c k).net = s.net := rfl
@[simp] theorem State.setCore_gone (s : State) (c : Nat) (k : Core) : (s.setCore c k).gone = s.gone := rfl
@[simp] theorem State.setCore_fwds (s : State) (c : Nat) (k : Core) : (s.setCore c k).fwds = s.fwds := rfl
@[simp] theorem State.setCore_bonds (s : State) (c : Nat) (k : Core) : (s.setCore c k).bonds = s.bonds := rfl
@[simp] theorem State.setCore_xmcs (s : State) (c : Nat) (k : Core) : (s.setCore c k).xmcs = s.xmcs := rfl
@[simp] theorem State.setCore_l2 (s : State) (c : Nat) (k : Core) : (s.setCore c k).l2 = s.l2 := rfl
@[simp] theorem State.setCore_l2Tick (s : State) (c : Nat) (k : Core) : (s.setCore c k).l2Tick = s.l2Tick := rfl
@[simp] theorem State.setCore_commits (s : State) (c : Nat) (k : Core) : (s.setCore c k).commits = s.commits := rfl
@[simp] theorem State.setCore_poison (s : State) (c : Nat) (k : Core) : (s.setCore c k).poison = s.poison := rfl
@[simp] theorem State.setCore_recent (s : State) (c : Nat) (k : Core) : (s.setCore c k).recent = s.recent := rfl
@[simp] theorem State.setCore_strong (s : State) (c : Nat) (k : Core) : (s.setCore c k).strong = s.strong := rfl
@[simp] theorem State.setCore_nmus (s : State) (c : Nat) (k : Core) : (s.setCore c k).nmus = s.nmus := rfl
@[simp] theorem State.setCore_rowWaits (s : State) (c : Nat) (k : Core) : (s.setCore c k).rowWaits = s.rowWaits := rfl
@[simp] theorem State.setCore_dieTlbs (s : State) (c : Nat) (k : Core) : (s.setCore c k).dieTlbs = s.dieTlbs := rfl
@[simp] theorem State.setCore_tlbinv (s : State) (c : Nat) (k : Core) : (s.setCore c k).tlbinv = s.tlbinv := rfl
@[simp] theorem State.setCore_pfWait (s : State) (c : Nat) (k : Core) : (s.setCore c k).pfWait = s.pfWait := rfl
@[simp] theorem State.setCore_members (s : State) (c : Nat) (k : Core) : (s.setCore c k).members = s.members := rfl
@[simp] theorem State.setCore_colls (s : State) (c : Nat) (k : Core) : (s.setCore c k).colls = s.colls := rfl
@[simp] theorem State.setCore_kept (s : State) (c : Nat) (k : Core) : (s.setCore c k).kept = s.kept := rfl
@[simp] theorem State.setCore_ports (s : State) (c : Nat) (k : Core) : (s.setCore c k).ports = s.ports := rfl
@[simp] theorem State.setCore_lostDevs (s : State) (c : Nat) (k : Core) : (s.setCore c k).lostDevs = s.lostDevs := rfl
@[simp] theorem State.setCore_host (s : State) (c : Nat) (k : Core) : (s.setCore c k).host = s.host := rfl
@[simp] theorem State.setCore_plat (s : State) (c : Nat) (k : Core) : (s.setCore c k).plat = s.plat := rfl
@[simp] theorem State.setCore_budget (s : State) (c : Nat) (k : Core) : (s.setCore c k).budget = s.budget := rfl
@[simp] theorem State.setCore_renewed (s : State) (c : Nat) (k : Core) : (s.setCore c k).renewed = s.renewed := rfl
@[simp] theorem State.setCore_memFlaws (s : State) (c : Nat) (k : Core) : (s.setCore c k).memFlaws = s.memFlaws := rfl
@[simp] theorem State.setCore_l2Pos (s : State) (c : Nat) (k : Core) : (s.setCore c k).l2Pos = s.l2Pos := rfl
@[simp] theorem State.setCore_hbmPos (s : State) (c : Nat) (k : Core) : (s.setCore c k).hbmPos = s.hbmPos := rfl
@[simp] theorem State.modCore_agenda (s : State) (c : Nat) (f : Core → Core) : (s.modCore c f).agenda = s.agenda := rfl
@[simp] theorem State.modCore_focus (s : State) (c : Nat) (f : Core → Core) : (s.modCore c f).focus = s.focus := rfl
@[simp] theorem State.modCore_atEngine (s : State) (c : Nat) (f : Core → Core) : (s.modCore c f).atEngine = s.atEngine := rfl
@[simp] theorem State.modCore_part (s : State) (c : Nat) (f : Core → Core) : (s.modCore c f).part = s.part := rfl
@[simp] theorem State.modCore_rank (s : State) (c : Nat) (f : Core → Core) : (s.modCore c f).rank = s.rank := rfl
@[simp] theorem State.modCore_cycle (s : State) (c : Nat) (f : Core → Core) : (s.modCore c f).cycle = s.cycle := rfl
@[simp] theorem State.modCore_epoch (s : State) (c : Nat) (f : Core → Core) : (s.modCore c f).epoch = s.epoch := rfl
@[simp] theorem State.modCore_mem (s : State) (c : Nat) (f : Core → Core) : (s.modCore c f).mem = s.mem := rfl
@[simp] theorem State.modCore_regs (s : State) (c : Nat) (f : Core → Core) : (s.modCore c f).regs = s.regs := rfl
@[simp] theorem State.modCore_stat (s : State) (c : Nat) (f : Core → Core) : (s.modCore c f).stat = s.stat := rfl
@[simp] theorem State.modCore_tasks (s : State) (c : Nat) (f : Core → Core) : (s.modCore c f).tasks = s.tasks := rfl
@[simp] theorem State.modCore_rings (s : State) (c : Nat) (f : Core → Core) : (s.modCore c f).rings = s.rings := rfl
@[simp] theorem State.modCore_launches (s : State) (c : Nat) (f : Core → Core) : (s.modCore c f).launches = s.launches := rfl
@[simp] theorem State.modCore_graphs (s : State) (c : Nat) (f : Core → Core) : (s.modCore c f).graphs = s.graphs := rfl
@[simp] theorem State.modCore_jobs (s : State) (c : Nat) (f : Core → Core) : (s.modCore c f).jobs = s.jobs := rfl
@[simp] theorem State.modCore_heldStores (s : State) (c : Nat) (f : Core → Core) : (s.modCore c f).heldStores = s.heldStores := rfl
@[simp] theorem State.modCore_heldGraphs (s : State) (c : Nat) (f : Core → Core) : (s.modCore c f).heldGraphs = s.heldGraphs := rfl
@[simp] theorem State.modCore_devFaults (s : State) (c : Nat) (f : Core → Core) : (s.modCore c f).devFaults = s.devFaults := rfl
@[simp] theorem State.modCore_net (s : State) (c : Nat) (f : Core → Core) : (s.modCore c f).net = s.net := rfl
@[simp] theorem State.modCore_gone (s : State) (c : Nat) (f : Core → Core) : (s.modCore c f).gone = s.gone := rfl
@[simp] theorem State.modCore_fwds (s : State) (c : Nat) (f : Core → Core) : (s.modCore c f).fwds = s.fwds := rfl
@[simp] theorem State.modCore_bonds (s : State) (c : Nat) (f : Core → Core) : (s.modCore c f).bonds = s.bonds := rfl
@[simp] theorem State.modCore_xmcs (s : State) (c : Nat) (f : Core → Core) : (s.modCore c f).xmcs = s.xmcs := rfl
@[simp] theorem State.modCore_l2 (s : State) (c : Nat) (f : Core → Core) : (s.modCore c f).l2 = s.l2 := rfl
@[simp] theorem State.modCore_l2Tick (s : State) (c : Nat) (f : Core → Core) : (s.modCore c f).l2Tick = s.l2Tick := rfl
@[simp] theorem State.modCore_commits (s : State) (c : Nat) (f : Core → Core) : (s.modCore c f).commits = s.commits := rfl
@[simp] theorem State.modCore_poison (s : State) (c : Nat) (f : Core → Core) : (s.modCore c f).poison = s.poison := rfl
@[simp] theorem State.modCore_recent (s : State) (c : Nat) (f : Core → Core) : (s.modCore c f).recent = s.recent := rfl
@[simp] theorem State.modCore_strong (s : State) (c : Nat) (f : Core → Core) : (s.modCore c f).strong = s.strong := rfl
@[simp] theorem State.modCore_nmus (s : State) (c : Nat) (f : Core → Core) : (s.modCore c f).nmus = s.nmus := rfl
@[simp] theorem State.modCore_rowWaits (s : State) (c : Nat) (f : Core → Core) : (s.modCore c f).rowWaits = s.rowWaits := rfl
@[simp] theorem State.modCore_dieTlbs (s : State) (c : Nat) (f : Core → Core) : (s.modCore c f).dieTlbs = s.dieTlbs := rfl
@[simp] theorem State.modCore_tlbinv (s : State) (c : Nat) (f : Core → Core) : (s.modCore c f).tlbinv = s.tlbinv := rfl
@[simp] theorem State.modCore_pfWait (s : State) (c : Nat) (f : Core → Core) : (s.modCore c f).pfWait = s.pfWait := rfl
@[simp] theorem State.modCore_members (s : State) (c : Nat) (f : Core → Core) : (s.modCore c f).members = s.members := rfl
@[simp] theorem State.modCore_colls (s : State) (c : Nat) (f : Core → Core) : (s.modCore c f).colls = s.colls := rfl
@[simp] theorem State.modCore_kept (s : State) (c : Nat) (f : Core → Core) : (s.modCore c f).kept = s.kept := rfl
@[simp] theorem State.modCore_ports (s : State) (c : Nat) (f : Core → Core) : (s.modCore c f).ports = s.ports := rfl
@[simp] theorem State.modCore_lostDevs (s : State) (c : Nat) (f : Core → Core) : (s.modCore c f).lostDevs = s.lostDevs := rfl
@[simp] theorem State.modCore_host (s : State) (c : Nat) (f : Core → Core) : (s.modCore c f).host = s.host := rfl
@[simp] theorem State.modCore_plat (s : State) (c : Nat) (f : Core → Core) : (s.modCore c f).plat = s.plat := rfl
@[simp] theorem State.modCore_budget (s : State) (c : Nat) (f : Core → Core) : (s.modCore c f).budget = s.budget := rfl
@[simp] theorem State.modCore_renewed (s : State) (c : Nat) (f : Core → Core) : (s.modCore c f).renewed = s.renewed := rfl
@[simp] theorem State.modCore_memFlaws (s : State) (c : Nat) (f : Core → Core) : (s.modCore c f).memFlaws = s.memFlaws := rfl
@[simp] theorem State.modCore_l2Pos (s : State) (c : Nat) (f : Core → Core) : (s.modCore c f).l2Pos = s.l2Pos := rfl
@[simp] theorem State.modCore_hbmPos (s : State) (c : Nat) (f : Core → Core) : (s.modCore c f).hbmPos = s.hbmPos := rfl
@[simp] theorem State.setCur_agenda (s : State) (k : Core) : (s.setCur k).agenda = s.agenda := rfl
@[simp] theorem State.setCur_focus (s : State) (k : Core) : (s.setCur k).focus = s.focus := rfl
@[simp] theorem State.setCur_atEngine (s : State) (k : Core) : (s.setCur k).atEngine = s.atEngine := rfl
@[simp] theorem State.setCur_part (s : State) (k : Core) : (s.setCur k).part = s.part := rfl
@[simp] theorem State.setCur_rank (s : State) (k : Core) : (s.setCur k).rank = s.rank := rfl
@[simp] theorem State.setCur_cycle (s : State) (k : Core) : (s.setCur k).cycle = s.cycle := rfl
@[simp] theorem State.setCur_epoch (s : State) (k : Core) : (s.setCur k).epoch = s.epoch := rfl
@[simp] theorem State.setCur_mem (s : State) (k : Core) : (s.setCur k).mem = s.mem := rfl
@[simp] theorem State.setCur_regs (s : State) (k : Core) : (s.setCur k).regs = s.regs := rfl
@[simp] theorem State.setCur_stat (s : State) (k : Core) : (s.setCur k).stat = s.stat := rfl
@[simp] theorem State.setCur_tasks (s : State) (k : Core) : (s.setCur k).tasks = s.tasks := rfl
@[simp] theorem State.setCur_rings (s : State) (k : Core) : (s.setCur k).rings = s.rings := rfl
@[simp] theorem State.setCur_launches (s : State) (k : Core) : (s.setCur k).launches = s.launches := rfl
@[simp] theorem State.setCur_graphs (s : State) (k : Core) : (s.setCur k).graphs = s.graphs := rfl
@[simp] theorem State.setCur_jobs (s : State) (k : Core) : (s.setCur k).jobs = s.jobs := rfl
@[simp] theorem State.setCur_heldStores (s : State) (k : Core) : (s.setCur k).heldStores = s.heldStores := rfl
@[simp] theorem State.setCur_heldGraphs (s : State) (k : Core) : (s.setCur k).heldGraphs = s.heldGraphs := rfl
@[simp] theorem State.setCur_devFaults (s : State) (k : Core) : (s.setCur k).devFaults = s.devFaults := rfl
@[simp] theorem State.setCur_net (s : State) (k : Core) : (s.setCur k).net = s.net := rfl
@[simp] theorem State.setCur_gone (s : State) (k : Core) : (s.setCur k).gone = s.gone := rfl
@[simp] theorem State.setCur_fwds (s : State) (k : Core) : (s.setCur k).fwds = s.fwds := rfl
@[simp] theorem State.setCur_bonds (s : State) (k : Core) : (s.setCur k).bonds = s.bonds := rfl
@[simp] theorem State.setCur_xmcs (s : State) (k : Core) : (s.setCur k).xmcs = s.xmcs := rfl
@[simp] theorem State.setCur_l2 (s : State) (k : Core) : (s.setCur k).l2 = s.l2 := rfl
@[simp] theorem State.setCur_l2Tick (s : State) (k : Core) : (s.setCur k).l2Tick = s.l2Tick := rfl
@[simp] theorem State.setCur_commits (s : State) (k : Core) : (s.setCur k).commits = s.commits := rfl
@[simp] theorem State.setCur_poison (s : State) (k : Core) : (s.setCur k).poison = s.poison := rfl
@[simp] theorem State.setCur_recent (s : State) (k : Core) : (s.setCur k).recent = s.recent := rfl
@[simp] theorem State.setCur_strong (s : State) (k : Core) : (s.setCur k).strong = s.strong := rfl
@[simp] theorem State.setCur_nmus (s : State) (k : Core) : (s.setCur k).nmus = s.nmus := rfl
@[simp] theorem State.setCur_rowWaits (s : State) (k : Core) : (s.setCur k).rowWaits = s.rowWaits := rfl
@[simp] theorem State.setCur_dieTlbs (s : State) (k : Core) : (s.setCur k).dieTlbs = s.dieTlbs := rfl
@[simp] theorem State.setCur_tlbinv (s : State) (k : Core) : (s.setCur k).tlbinv = s.tlbinv := rfl
@[simp] theorem State.setCur_pfWait (s : State) (k : Core) : (s.setCur k).pfWait = s.pfWait := rfl
@[simp] theorem State.setCur_members (s : State) (k : Core) : (s.setCur k).members = s.members := rfl
@[simp] theorem State.setCur_colls (s : State) (k : Core) : (s.setCur k).colls = s.colls := rfl
@[simp] theorem State.setCur_kept (s : State) (k : Core) : (s.setCur k).kept = s.kept := rfl
@[simp] theorem State.setCur_ports (s : State) (k : Core) : (s.setCur k).ports = s.ports := rfl
@[simp] theorem State.setCur_lostDevs (s : State) (k : Core) : (s.setCur k).lostDevs = s.lostDevs := rfl
@[simp] theorem State.setCur_host (s : State) (k : Core) : (s.setCur k).host = s.host := rfl
@[simp] theorem State.setCur_plat (s : State) (k : Core) : (s.setCur k).plat = s.plat := rfl
@[simp] theorem State.setCur_budget (s : State) (k : Core) : (s.setCur k).budget = s.budget := rfl
@[simp] theorem State.setCur_renewed (s : State) (k : Core) : (s.setCur k).renewed = s.renewed := rfl
@[simp] theorem State.setCur_memFlaws (s : State) (k : Core) : (s.setCur k).memFlaws = s.memFlaws := rfl
@[simp] theorem State.setCur_l2Pos (s : State) (k : Core) : (s.setCur k).l2Pos = s.l2Pos := rfl
@[simp] theorem State.setCur_hbmPos (s : State) (k : Core) : (s.setCur k).hbmPos = s.hbmPos := rfl
@[simp] theorem State.modCur_agenda (s : State) (f : Core → Core) : (s.modCur f).agenda = s.agenda := rfl
@[simp] theorem State.modCur_focus (s : State) (f : Core → Core) : (s.modCur f).focus = s.focus := rfl
@[simp] theorem State.modCur_atEngine (s : State) (f : Core → Core) : (s.modCur f).atEngine = s.atEngine := rfl
@[simp] theorem State.modCur_part (s : State) (f : Core → Core) : (s.modCur f).part = s.part := rfl
@[simp] theorem State.modCur_rank (s : State) (f : Core → Core) : (s.modCur f).rank = s.rank := rfl
@[simp] theorem State.modCur_cycle (s : State) (f : Core → Core) : (s.modCur f).cycle = s.cycle := rfl
@[simp] theorem State.modCur_epoch (s : State) (f : Core → Core) : (s.modCur f).epoch = s.epoch := rfl
@[simp] theorem State.modCur_mem (s : State) (f : Core → Core) : (s.modCur f).mem = s.mem := rfl
@[simp] theorem State.modCur_regs (s : State) (f : Core → Core) : (s.modCur f).regs = s.regs := rfl
@[simp] theorem State.modCur_stat (s : State) (f : Core → Core) : (s.modCur f).stat = s.stat := rfl
@[simp] theorem State.modCur_tasks (s : State) (f : Core → Core) : (s.modCur f).tasks = s.tasks := rfl
@[simp] theorem State.modCur_rings (s : State) (f : Core → Core) : (s.modCur f).rings = s.rings := rfl
@[simp] theorem State.modCur_launches (s : State) (f : Core → Core) : (s.modCur f).launches = s.launches := rfl
@[simp] theorem State.modCur_graphs (s : State) (f : Core → Core) : (s.modCur f).graphs = s.graphs := rfl
@[simp] theorem State.modCur_jobs (s : State) (f : Core → Core) : (s.modCur f).jobs = s.jobs := rfl
@[simp] theorem State.modCur_heldStores (s : State) (f : Core → Core) : (s.modCur f).heldStores = s.heldStores := rfl
@[simp] theorem State.modCur_heldGraphs (s : State) (f : Core → Core) : (s.modCur f).heldGraphs = s.heldGraphs := rfl
@[simp] theorem State.modCur_devFaults (s : State) (f : Core → Core) : (s.modCur f).devFaults = s.devFaults := rfl
@[simp] theorem State.modCur_net (s : State) (f : Core → Core) : (s.modCur f).net = s.net := rfl
@[simp] theorem State.modCur_gone (s : State) (f : Core → Core) : (s.modCur f).gone = s.gone := rfl
@[simp] theorem State.modCur_fwds (s : State) (f : Core → Core) : (s.modCur f).fwds = s.fwds := rfl
@[simp] theorem State.modCur_bonds (s : State) (f : Core → Core) : (s.modCur f).bonds = s.bonds := rfl
@[simp] theorem State.modCur_xmcs (s : State) (f : Core → Core) : (s.modCur f).xmcs = s.xmcs := rfl
@[simp] theorem State.modCur_l2 (s : State) (f : Core → Core) : (s.modCur f).l2 = s.l2 := rfl
@[simp] theorem State.modCur_l2Tick (s : State) (f : Core → Core) : (s.modCur f).l2Tick = s.l2Tick := rfl
@[simp] theorem State.modCur_commits (s : State) (f : Core → Core) : (s.modCur f).commits = s.commits := rfl
@[simp] theorem State.modCur_poison (s : State) (f : Core → Core) : (s.modCur f).poison = s.poison := rfl
@[simp] theorem State.modCur_recent (s : State) (f : Core → Core) : (s.modCur f).recent = s.recent := rfl
@[simp] theorem State.modCur_strong (s : State) (f : Core → Core) : (s.modCur f).strong = s.strong := rfl
@[simp] theorem State.modCur_nmus (s : State) (f : Core → Core) : (s.modCur f).nmus = s.nmus := rfl
@[simp] theorem State.modCur_rowWaits (s : State) (f : Core → Core) : (s.modCur f).rowWaits = s.rowWaits := rfl
@[simp] theorem State.modCur_dieTlbs (s : State) (f : Core → Core) : (s.modCur f).dieTlbs = s.dieTlbs := rfl
@[simp] theorem State.modCur_tlbinv (s : State) (f : Core → Core) : (s.modCur f).tlbinv = s.tlbinv := rfl
@[simp] theorem State.modCur_pfWait (s : State) (f : Core → Core) : (s.modCur f).pfWait = s.pfWait := rfl
@[simp] theorem State.modCur_members (s : State) (f : Core → Core) : (s.modCur f).members = s.members := rfl
@[simp] theorem State.modCur_colls (s : State) (f : Core → Core) : (s.modCur f).colls = s.colls := rfl
@[simp] theorem State.modCur_kept (s : State) (f : Core → Core) : (s.modCur f).kept = s.kept := rfl
@[simp] theorem State.modCur_ports (s : State) (f : Core → Core) : (s.modCur f).ports = s.ports := rfl
@[simp] theorem State.modCur_lostDevs (s : State) (f : Core → Core) : (s.modCur f).lostDevs = s.lostDevs := rfl
@[simp] theorem State.modCur_host (s : State) (f : Core → Core) : (s.modCur f).host = s.host := rfl
@[simp] theorem State.modCur_plat (s : State) (f : Core → Core) : (s.modCur f).plat = s.plat := rfl
@[simp] theorem State.modCur_budget (s : State) (f : Core → Core) : (s.modCur f).budget = s.budget := rfl
@[simp] theorem State.modCur_renewed (s : State) (f : Core → Core) : (s.modCur f).renewed = s.renewed := rfl
@[simp] theorem State.modCur_memFlaws (s : State) (f : Core → Core) : (s.modCur f).memFlaws = s.memFlaws := rfl
@[simp] theorem State.modCur_l2Pos (s : State) (f : Core → Core) : (s.modCur f).l2Pos = s.l2Pos := rfl
@[simp] theorem State.modCur_hbmPos (s : State) (f : Core → Core) : (s.modCur f).hbmPos = s.hbmPos := rfl
@[simp] theorem State.setArch_agenda (s : State) (a : Arch) : (s.setArch a).agenda = s.agenda := rfl
@[simp] theorem State.setArch_focus (s : State) (a : Arch) : (s.setArch a).focus = s.focus := rfl
@[simp] theorem State.setArch_atEngine (s : State) (a : Arch) : (s.setArch a).atEngine = s.atEngine := rfl
@[simp] theorem State.setArch_part (s : State) (a : Arch) : (s.setArch a).part = s.part := rfl
@[simp] theorem State.setArch_rank (s : State) (a : Arch) : (s.setArch a).rank = s.rank := rfl
@[simp] theorem State.setArch_cycle (s : State) (a : Arch) : (s.setArch a).cycle = s.cycle := rfl
@[simp] theorem State.setArch_epoch (s : State) (a : Arch) : (s.setArch a).epoch = s.epoch := rfl
@[simp] theorem State.setArch_mem (s : State) (a : Arch) : (s.setArch a).mem = s.mem := rfl
@[simp] theorem State.setArch_regs (s : State) (a : Arch) : (s.setArch a).regs = s.regs := rfl
@[simp] theorem State.setArch_stat (s : State) (a : Arch) : (s.setArch a).stat = s.stat := rfl
@[simp] theorem State.setArch_tasks (s : State) (a : Arch) : (s.setArch a).tasks = s.tasks := rfl
@[simp] theorem State.setArch_rings (s : State) (a : Arch) : (s.setArch a).rings = s.rings := rfl
@[simp] theorem State.setArch_launches (s : State) (a : Arch) : (s.setArch a).launches = s.launches := rfl
@[simp] theorem State.setArch_graphs (s : State) (a : Arch) : (s.setArch a).graphs = s.graphs := rfl
@[simp] theorem State.setArch_jobs (s : State) (a : Arch) : (s.setArch a).jobs = s.jobs := rfl
@[simp] theorem State.setArch_heldStores (s : State) (a : Arch) : (s.setArch a).heldStores = s.heldStores := rfl
@[simp] theorem State.setArch_heldGraphs (s : State) (a : Arch) : (s.setArch a).heldGraphs = s.heldGraphs := rfl
@[simp] theorem State.setArch_devFaults (s : State) (a : Arch) : (s.setArch a).devFaults = s.devFaults := rfl
@[simp] theorem State.setArch_net (s : State) (a : Arch) : (s.setArch a).net = s.net := rfl
@[simp] theorem State.setArch_gone (s : State) (a : Arch) : (s.setArch a).gone = s.gone := rfl
@[simp] theorem State.setArch_fwds (s : State) (a : Arch) : (s.setArch a).fwds = s.fwds := rfl
@[simp] theorem State.setArch_bonds (s : State) (a : Arch) : (s.setArch a).bonds = s.bonds := rfl
@[simp] theorem State.setArch_xmcs (s : State) (a : Arch) : (s.setArch a).xmcs = s.xmcs := rfl
@[simp] theorem State.setArch_l2 (s : State) (a : Arch) : (s.setArch a).l2 = s.l2 := rfl
@[simp] theorem State.setArch_l2Tick (s : State) (a : Arch) : (s.setArch a).l2Tick = s.l2Tick := rfl
@[simp] theorem State.setArch_commits (s : State) (a : Arch) : (s.setArch a).commits = s.commits := rfl
@[simp] theorem State.setArch_poison (s : State) (a : Arch) : (s.setArch a).poison = s.poison := rfl
@[simp] theorem State.setArch_recent (s : State) (a : Arch) : (s.setArch a).recent = s.recent := rfl
@[simp] theorem State.setArch_strong (s : State) (a : Arch) : (s.setArch a).strong = s.strong := rfl
@[simp] theorem State.setArch_nmus (s : State) (a : Arch) : (s.setArch a).nmus = s.nmus := rfl
@[simp] theorem State.setArch_rowWaits (s : State) (a : Arch) : (s.setArch a).rowWaits = s.rowWaits := rfl
@[simp] theorem State.setArch_dieTlbs (s : State) (a : Arch) : (s.setArch a).dieTlbs = s.dieTlbs := rfl
@[simp] theorem State.setArch_tlbinv (s : State) (a : Arch) : (s.setArch a).tlbinv = s.tlbinv := rfl
@[simp] theorem State.setArch_pfWait (s : State) (a : Arch) : (s.setArch a).pfWait = s.pfWait := rfl
@[simp] theorem State.setArch_members (s : State) (a : Arch) : (s.setArch a).members = s.members := rfl
@[simp] theorem State.setArch_colls (s : State) (a : Arch) : (s.setArch a).colls = s.colls := rfl
@[simp] theorem State.setArch_kept (s : State) (a : Arch) : (s.setArch a).kept = s.kept := rfl
@[simp] theorem State.setArch_ports (s : State) (a : Arch) : (s.setArch a).ports = s.ports := rfl
@[simp] theorem State.setArch_lostDevs (s : State) (a : Arch) : (s.setArch a).lostDevs = s.lostDevs := rfl
@[simp] theorem State.setArch_host (s : State) (a : Arch) : (s.setArch a).host = s.host := rfl
@[simp] theorem State.setArch_plat (s : State) (a : Arch) : (s.setArch a).plat = s.plat := rfl
@[simp] theorem State.setArch_budget (s : State) (a : Arch) : (s.setArch a).budget = s.budget := rfl
@[simp] theorem State.setArch_renewed (s : State) (a : Arch) : (s.setArch a).renewed = s.renewed := rfl
@[simp] theorem State.setArch_memFlaws (s : State) (a : Arch) : (s.setArch a).memFlaws = s.memFlaws := rfl
@[simp] theorem State.setArch_l2Pos (s : State) (a : Arch) : (s.setArch a).l2Pos = s.l2Pos := rfl
@[simp] theorem State.setArch_hbmPos (s : State) (a : Arch) : (s.setArch a).hbmPos = s.hbmPos := rfl
@[simp] theorem State.modArch_agenda (s : State) (f : Arch → Arch) : (s.modArch f).agenda = s.agenda := rfl
@[simp] theorem State.modArch_focus (s : State) (f : Arch → Arch) : (s.modArch f).focus = s.focus := rfl
@[simp] theorem State.modArch_atEngine (s : State) (f : Arch → Arch) : (s.modArch f).atEngine = s.atEngine := rfl
@[simp] theorem State.modArch_part (s : State) (f : Arch → Arch) : (s.modArch f).part = s.part := rfl
@[simp] theorem State.modArch_rank (s : State) (f : Arch → Arch) : (s.modArch f).rank = s.rank := rfl
@[simp] theorem State.modArch_cycle (s : State) (f : Arch → Arch) : (s.modArch f).cycle = s.cycle := rfl
@[simp] theorem State.modArch_epoch (s : State) (f : Arch → Arch) : (s.modArch f).epoch = s.epoch := rfl
@[simp] theorem State.modArch_mem (s : State) (f : Arch → Arch) : (s.modArch f).mem = s.mem := rfl
@[simp] theorem State.modArch_regs (s : State) (f : Arch → Arch) : (s.modArch f).regs = s.regs := rfl
@[simp] theorem State.modArch_stat (s : State) (f : Arch → Arch) : (s.modArch f).stat = s.stat := rfl
@[simp] theorem State.modArch_tasks (s : State) (f : Arch → Arch) : (s.modArch f).tasks = s.tasks := rfl
@[simp] theorem State.modArch_rings (s : State) (f : Arch → Arch) : (s.modArch f).rings = s.rings := rfl
@[simp] theorem State.modArch_launches (s : State) (f : Arch → Arch) : (s.modArch f).launches = s.launches := rfl
@[simp] theorem State.modArch_graphs (s : State) (f : Arch → Arch) : (s.modArch f).graphs = s.graphs := rfl
@[simp] theorem State.modArch_jobs (s : State) (f : Arch → Arch) : (s.modArch f).jobs = s.jobs := rfl
@[simp] theorem State.modArch_heldStores (s : State) (f : Arch → Arch) : (s.modArch f).heldStores = s.heldStores := rfl
@[simp] theorem State.modArch_heldGraphs (s : State) (f : Arch → Arch) : (s.modArch f).heldGraphs = s.heldGraphs := rfl
@[simp] theorem State.modArch_devFaults (s : State) (f : Arch → Arch) : (s.modArch f).devFaults = s.devFaults := rfl
@[simp] theorem State.modArch_net (s : State) (f : Arch → Arch) : (s.modArch f).net = s.net := rfl
@[simp] theorem State.modArch_gone (s : State) (f : Arch → Arch) : (s.modArch f).gone = s.gone := rfl
@[simp] theorem State.modArch_fwds (s : State) (f : Arch → Arch) : (s.modArch f).fwds = s.fwds := rfl
@[simp] theorem State.modArch_bonds (s : State) (f : Arch → Arch) : (s.modArch f).bonds = s.bonds := rfl
@[simp] theorem State.modArch_xmcs (s : State) (f : Arch → Arch) : (s.modArch f).xmcs = s.xmcs := rfl
@[simp] theorem State.modArch_l2 (s : State) (f : Arch → Arch) : (s.modArch f).l2 = s.l2 := rfl
@[simp] theorem State.modArch_l2Tick (s : State) (f : Arch → Arch) : (s.modArch f).l2Tick = s.l2Tick := rfl
@[simp] theorem State.modArch_commits (s : State) (f : Arch → Arch) : (s.modArch f).commits = s.commits := rfl
@[simp] theorem State.modArch_poison (s : State) (f : Arch → Arch) : (s.modArch f).poison = s.poison := rfl
@[simp] theorem State.modArch_recent (s : State) (f : Arch → Arch) : (s.modArch f).recent = s.recent := rfl
@[simp] theorem State.modArch_strong (s : State) (f : Arch → Arch) : (s.modArch f).strong = s.strong := rfl
@[simp] theorem State.modArch_nmus (s : State) (f : Arch → Arch) : (s.modArch f).nmus = s.nmus := rfl
@[simp] theorem State.modArch_rowWaits (s : State) (f : Arch → Arch) : (s.modArch f).rowWaits = s.rowWaits := rfl
@[simp] theorem State.modArch_dieTlbs (s : State) (f : Arch → Arch) : (s.modArch f).dieTlbs = s.dieTlbs := rfl
@[simp] theorem State.modArch_tlbinv (s : State) (f : Arch → Arch) : (s.modArch f).tlbinv = s.tlbinv := rfl
@[simp] theorem State.modArch_pfWait (s : State) (f : Arch → Arch) : (s.modArch f).pfWait = s.pfWait := rfl
@[simp] theorem State.modArch_members (s : State) (f : Arch → Arch) : (s.modArch f).members = s.members := rfl
@[simp] theorem State.modArch_colls (s : State) (f : Arch → Arch) : (s.modArch f).colls = s.colls := rfl
@[simp] theorem State.modArch_kept (s : State) (f : Arch → Arch) : (s.modArch f).kept = s.kept := rfl
@[simp] theorem State.modArch_ports (s : State) (f : Arch → Arch) : (s.modArch f).ports = s.ports := rfl
@[simp] theorem State.modArch_lostDevs (s : State) (f : Arch → Arch) : (s.modArch f).lostDevs = s.lostDevs := rfl
@[simp] theorem State.modArch_host (s : State) (f : Arch → Arch) : (s.modArch f).host = s.host := rfl
@[simp] theorem State.modArch_plat (s : State) (f : Arch → Arch) : (s.modArch f).plat = s.plat := rfl
@[simp] theorem State.modArch_budget (s : State) (f : Arch → Arch) : (s.modArch f).budget = s.budget := rfl
@[simp] theorem State.modArch_renewed (s : State) (f : Arch → Arch) : (s.modArch f).renewed = s.renewed := rfl
@[simp] theorem State.modArch_memFlaws (s : State) (f : Arch → Arch) : (s.modArch f).memFlaws = s.memFlaws := rfl
@[simp] theorem State.modArch_l2Pos (s : State) (f : Arch → Arch) : (s.modArch f).l2Pos = s.l2Pos := rfl
@[simp] theorem State.modArch_hbmPos (s : State) (f : Arch → Arch) : (s.modArch f).hbmPos = s.hbmPos := rfl
@[simp] theorem State.modArchOf_agenda (s : State) (c : Nat) (f : Arch → Arch) : (s.modArchOf c f).agenda = s.agenda := rfl
@[simp] theorem State.modArchOf_focus (s : State) (c : Nat) (f : Arch → Arch) : (s.modArchOf c f).focus = s.focus := rfl
@[simp] theorem State.modArchOf_atEngine (s : State) (c : Nat) (f : Arch → Arch) : (s.modArchOf c f).atEngine = s.atEngine := rfl
@[simp] theorem State.modArchOf_part (s : State) (c : Nat) (f : Arch → Arch) : (s.modArchOf c f).part = s.part := rfl
@[simp] theorem State.modArchOf_rank (s : State) (c : Nat) (f : Arch → Arch) : (s.modArchOf c f).rank = s.rank := rfl
@[simp] theorem State.modArchOf_cycle (s : State) (c : Nat) (f : Arch → Arch) : (s.modArchOf c f).cycle = s.cycle := rfl
@[simp] theorem State.modArchOf_epoch (s : State) (c : Nat) (f : Arch → Arch) : (s.modArchOf c f).epoch = s.epoch := rfl
@[simp] theorem State.modArchOf_mem (s : State) (c : Nat) (f : Arch → Arch) : (s.modArchOf c f).mem = s.mem := rfl
@[simp] theorem State.modArchOf_regs (s : State) (c : Nat) (f : Arch → Arch) : (s.modArchOf c f).regs = s.regs := rfl
@[simp] theorem State.modArchOf_stat (s : State) (c : Nat) (f : Arch → Arch) : (s.modArchOf c f).stat = s.stat := rfl
@[simp] theorem State.modArchOf_tasks (s : State) (c : Nat) (f : Arch → Arch) : (s.modArchOf c f).tasks = s.tasks := rfl
@[simp] theorem State.modArchOf_rings (s : State) (c : Nat) (f : Arch → Arch) : (s.modArchOf c f).rings = s.rings := rfl
@[simp] theorem State.modArchOf_launches (s : State) (c : Nat) (f : Arch → Arch) : (s.modArchOf c f).launches = s.launches := rfl
@[simp] theorem State.modArchOf_graphs (s : State) (c : Nat) (f : Arch → Arch) : (s.modArchOf c f).graphs = s.graphs := rfl
@[simp] theorem State.modArchOf_jobs (s : State) (c : Nat) (f : Arch → Arch) : (s.modArchOf c f).jobs = s.jobs := rfl
@[simp] theorem State.modArchOf_heldStores (s : State) (c : Nat) (f : Arch → Arch) : (s.modArchOf c f).heldStores = s.heldStores := rfl
@[simp] theorem State.modArchOf_heldGraphs (s : State) (c : Nat) (f : Arch → Arch) : (s.modArchOf c f).heldGraphs = s.heldGraphs := rfl
@[simp] theorem State.modArchOf_devFaults (s : State) (c : Nat) (f : Arch → Arch) : (s.modArchOf c f).devFaults = s.devFaults := rfl
@[simp] theorem State.modArchOf_net (s : State) (c : Nat) (f : Arch → Arch) : (s.modArchOf c f).net = s.net := rfl
@[simp] theorem State.modArchOf_gone (s : State) (c : Nat) (f : Arch → Arch) : (s.modArchOf c f).gone = s.gone := rfl
@[simp] theorem State.modArchOf_fwds (s : State) (c : Nat) (f : Arch → Arch) : (s.modArchOf c f).fwds = s.fwds := rfl
@[simp] theorem State.modArchOf_bonds (s : State) (c : Nat) (f : Arch → Arch) : (s.modArchOf c f).bonds = s.bonds := rfl
@[simp] theorem State.modArchOf_xmcs (s : State) (c : Nat) (f : Arch → Arch) : (s.modArchOf c f).xmcs = s.xmcs := rfl
@[simp] theorem State.modArchOf_l2 (s : State) (c : Nat) (f : Arch → Arch) : (s.modArchOf c f).l2 = s.l2 := rfl
@[simp] theorem State.modArchOf_l2Tick (s : State) (c : Nat) (f : Arch → Arch) : (s.modArchOf c f).l2Tick = s.l2Tick := rfl
@[simp] theorem State.modArchOf_commits (s : State) (c : Nat) (f : Arch → Arch) : (s.modArchOf c f).commits = s.commits := rfl
@[simp] theorem State.modArchOf_poison (s : State) (c : Nat) (f : Arch → Arch) : (s.modArchOf c f).poison = s.poison := rfl
@[simp] theorem State.modArchOf_recent (s : State) (c : Nat) (f : Arch → Arch) : (s.modArchOf c f).recent = s.recent := rfl
@[simp] theorem State.modArchOf_strong (s : State) (c : Nat) (f : Arch → Arch) : (s.modArchOf c f).strong = s.strong := rfl
@[simp] theorem State.modArchOf_nmus (s : State) (c : Nat) (f : Arch → Arch) : (s.modArchOf c f).nmus = s.nmus := rfl
@[simp] theorem State.modArchOf_rowWaits (s : State) (c : Nat) (f : Arch → Arch) : (s.modArchOf c f).rowWaits = s.rowWaits := rfl
@[simp] theorem State.modArchOf_dieTlbs (s : State) (c : Nat) (f : Arch → Arch) : (s.modArchOf c f).dieTlbs = s.dieTlbs := rfl
@[simp] theorem State.modArchOf_tlbinv (s : State) (c : Nat) (f : Arch → Arch) : (s.modArchOf c f).tlbinv = s.tlbinv := rfl
@[simp] theorem State.modArchOf_pfWait (s : State) (c : Nat) (f : Arch → Arch) : (s.modArchOf c f).pfWait = s.pfWait := rfl
@[simp] theorem State.modArchOf_members (s : State) (c : Nat) (f : Arch → Arch) : (s.modArchOf c f).members = s.members := rfl
@[simp] theorem State.modArchOf_colls (s : State) (c : Nat) (f : Arch → Arch) : (s.modArchOf c f).colls = s.colls := rfl
@[simp] theorem State.modArchOf_kept (s : State) (c : Nat) (f : Arch → Arch) : (s.modArchOf c f).kept = s.kept := rfl
@[simp] theorem State.modArchOf_ports (s : State) (c : Nat) (f : Arch → Arch) : (s.modArchOf c f).ports = s.ports := rfl
@[simp] theorem State.modArchOf_lostDevs (s : State) (c : Nat) (f : Arch → Arch) : (s.modArchOf c f).lostDevs = s.lostDevs := rfl
@[simp] theorem State.modArchOf_host (s : State) (c : Nat) (f : Arch → Arch) : (s.modArchOf c f).host = s.host := rfl
@[simp] theorem State.modArchOf_plat (s : State) (c : Nat) (f : Arch → Arch) : (s.modArchOf c f).plat = s.plat := rfl
@[simp] theorem State.modArchOf_budget (s : State) (c : Nat) (f : Arch → Arch) : (s.modArchOf c f).budget = s.budget := rfl
@[simp] theorem State.modArchOf_renewed (s : State) (c : Nat) (f : Arch → Arch) : (s.modArchOf c f).renewed = s.renewed := rfl
@[simp] theorem State.modArchOf_memFlaws (s : State) (c : Nat) (f : Arch → Arch) : (s.modArchOf c f).memFlaws = s.memFlaws := rfl
@[simp] theorem State.modArchOf_l2Pos (s : State) (c : Nat) (f : Arch → Arch) : (s.modArchOf c f).l2Pos = s.l2Pos := rfl
@[simp] theorem State.modArchOf_hbmPos (s : State) (c : Nat) (f : Arch → Arch) : (s.modArchOf c f).hbmPos = s.hbmPos := rfl
@[simp] theorem State.done_agenda (s : State) : (s.done).agenda = s.agenda := rfl
@[simp] theorem State.done_focus (s : State) : (s.done).focus = s.focus := rfl
@[simp] theorem State.done_atEngine (s : State) : (s.done).atEngine = s.atEngine := rfl
@[simp] theorem State.done_part (s : State) : (s.done).part = s.part := rfl
@[simp] theorem State.done_rank (s : State) : (s.done).rank = s.rank := rfl
@[simp] theorem State.done_cycle (s : State) : (s.done).cycle = s.cycle := rfl
@[simp] theorem State.done_epoch (s : State) : (s.done).epoch = s.epoch := rfl
@[simp] theorem State.done_mem (s : State) : (s.done).mem = s.mem := rfl
@[simp] theorem State.done_regs (s : State) : (s.done).regs = s.regs := rfl
@[simp] theorem State.done_stat (s : State) : (s.done).stat = s.stat := rfl
@[simp] theorem State.done_tasks (s : State) : (s.done).tasks = s.tasks := rfl
@[simp] theorem State.done_rings (s : State) : (s.done).rings = s.rings := rfl
@[simp] theorem State.done_launches (s : State) : (s.done).launches = s.launches := rfl
@[simp] theorem State.done_graphs (s : State) : (s.done).graphs = s.graphs := rfl
@[simp] theorem State.done_jobs (s : State) : (s.done).jobs = s.jobs := rfl
@[simp] theorem State.done_heldStores (s : State) : (s.done).heldStores = s.heldStores := rfl
@[simp] theorem State.done_heldGraphs (s : State) : (s.done).heldGraphs = s.heldGraphs := rfl
@[simp] theorem State.done_devFaults (s : State) : (s.done).devFaults = s.devFaults := rfl
@[simp] theorem State.done_net (s : State) : (s.done).net = s.net := rfl
@[simp] theorem State.done_gone (s : State) : (s.done).gone = s.gone := rfl
@[simp] theorem State.done_fwds (s : State) : (s.done).fwds = s.fwds := rfl
@[simp] theorem State.done_bonds (s : State) : (s.done).bonds = s.bonds := rfl
@[simp] theorem State.done_xmcs (s : State) : (s.done).xmcs = s.xmcs := rfl
@[simp] theorem State.done_l2 (s : State) : (s.done).l2 = s.l2 := rfl
@[simp] theorem State.done_l2Tick (s : State) : (s.done).l2Tick = s.l2Tick := rfl
@[simp] theorem State.done_commits (s : State) : (s.done).commits = s.commits := rfl
@[simp] theorem State.done_poison (s : State) : (s.done).poison = s.poison := rfl
@[simp] theorem State.done_recent (s : State) : (s.done).recent = s.recent := rfl
@[simp] theorem State.done_strong (s : State) : (s.done).strong = s.strong := rfl
@[simp] theorem State.done_nmus (s : State) : (s.done).nmus = s.nmus := rfl
@[simp] theorem State.done_rowWaits (s : State) : (s.done).rowWaits = s.rowWaits := rfl
@[simp] theorem State.done_dieTlbs (s : State) : (s.done).dieTlbs = s.dieTlbs := rfl
@[simp] theorem State.done_tlbinv (s : State) : (s.done).tlbinv = s.tlbinv := rfl
@[simp] theorem State.done_pfWait (s : State) : (s.done).pfWait = s.pfWait := rfl
@[simp] theorem State.done_members (s : State) : (s.done).members = s.members := rfl
@[simp] theorem State.done_colls (s : State) : (s.done).colls = s.colls := rfl
@[simp] theorem State.done_kept (s : State) : (s.done).kept = s.kept := rfl
@[simp] theorem State.done_ports (s : State) : (s.done).ports = s.ports := rfl
@[simp] theorem State.done_lostDevs (s : State) : (s.done).lostDevs = s.lostDevs := rfl
@[simp] theorem State.done_host (s : State) : (s.done).host = s.host := rfl
@[simp] theorem State.done_plat (s : State) : (s.done).plat = s.plat := rfl
@[simp] theorem State.done_budget (s : State) : (s.done).budget = s.budget := rfl
@[simp] theorem State.done_renewed (s : State) : (s.done).renewed = s.renewed := rfl
@[simp] theorem State.done_memFlaws (s : State) : (s.done).memFlaws = s.memFlaws := rfl
@[simp] theorem State.done_l2Pos (s : State) : (s.done).l2Pos = s.l2Pos := rfl
@[simp] theorem State.done_hbmPos (s : State) : (s.done).hbmPos = s.hbmPos := rfl
@[simp] theorem State.pushed_agenda (s : State) : (s.pushed).agenda = s.agenda := rfl
@[simp] theorem State.pushed_focus (s : State) : (s.pushed).focus = s.focus := rfl
@[simp] theorem State.pushed_atEngine (s : State) : (s.pushed).atEngine = s.atEngine := rfl
@[simp] theorem State.pushed_part (s : State) : (s.pushed).part = s.part := rfl
@[simp] theorem State.pushed_rank (s : State) : (s.pushed).rank = s.rank := rfl
@[simp] theorem State.pushed_cycle (s : State) : (s.pushed).cycle = s.cycle := rfl
@[simp] theorem State.pushed_epoch (s : State) : (s.pushed).epoch = s.epoch := rfl
@[simp] theorem State.pushed_mem (s : State) : (s.pushed).mem = s.mem := rfl
@[simp] theorem State.pushed_regs (s : State) : (s.pushed).regs = s.regs := rfl
@[simp] theorem State.pushed_stat (s : State) : (s.pushed).stat = s.stat := rfl
@[simp] theorem State.pushed_tasks (s : State) : (s.pushed).tasks = s.tasks := rfl
@[simp] theorem State.pushed_rings (s : State) : (s.pushed).rings = s.rings := rfl
@[simp] theorem State.pushed_launches (s : State) : (s.pushed).launches = s.launches := rfl
@[simp] theorem State.pushed_graphs (s : State) : (s.pushed).graphs = s.graphs := rfl
@[simp] theorem State.pushed_jobs (s : State) : (s.pushed).jobs = s.jobs := rfl
@[simp] theorem State.pushed_heldStores (s : State) : (s.pushed).heldStores = s.heldStores := rfl
@[simp] theorem State.pushed_heldGraphs (s : State) : (s.pushed).heldGraphs = s.heldGraphs := rfl
@[simp] theorem State.pushed_devFaults (s : State) : (s.pushed).devFaults = s.devFaults := rfl
@[simp] theorem State.pushed_net (s : State) : (s.pushed).net = s.net := rfl
@[simp] theorem State.pushed_gone (s : State) : (s.pushed).gone = s.gone := rfl
@[simp] theorem State.pushed_fwds (s : State) : (s.pushed).fwds = s.fwds := rfl
@[simp] theorem State.pushed_bonds (s : State) : (s.pushed).bonds = s.bonds := rfl
@[simp] theorem State.pushed_xmcs (s : State) : (s.pushed).xmcs = s.xmcs := rfl
@[simp] theorem State.pushed_l2 (s : State) : (s.pushed).l2 = s.l2 := rfl
@[simp] theorem State.pushed_l2Tick (s : State) : (s.pushed).l2Tick = s.l2Tick := rfl
@[simp] theorem State.pushed_commits (s : State) : (s.pushed).commits = s.commits := rfl
@[simp] theorem State.pushed_poison (s : State) : (s.pushed).poison = s.poison := rfl
@[simp] theorem State.pushed_recent (s : State) : (s.pushed).recent = s.recent := rfl
@[simp] theorem State.pushed_strong (s : State) : (s.pushed).strong = s.strong := rfl
@[simp] theorem State.pushed_nmus (s : State) : (s.pushed).nmus = s.nmus := rfl
@[simp] theorem State.pushed_rowWaits (s : State) : (s.pushed).rowWaits = s.rowWaits := rfl
@[simp] theorem State.pushed_dieTlbs (s : State) : (s.pushed).dieTlbs = s.dieTlbs := rfl
@[simp] theorem State.pushed_tlbinv (s : State) : (s.pushed).tlbinv = s.tlbinv := rfl
@[simp] theorem State.pushed_pfWait (s : State) : (s.pushed).pfWait = s.pfWait := rfl
@[simp] theorem State.pushed_members (s : State) : (s.pushed).members = s.members := rfl
@[simp] theorem State.pushed_colls (s : State) : (s.pushed).colls = s.colls := rfl
@[simp] theorem State.pushed_kept (s : State) : (s.pushed).kept = s.kept := rfl
@[simp] theorem State.pushed_ports (s : State) : (s.pushed).ports = s.ports := rfl
@[simp] theorem State.pushed_lostDevs (s : State) : (s.pushed).lostDevs = s.lostDevs := rfl
@[simp] theorem State.pushed_host (s : State) : (s.pushed).host = s.host := rfl
@[simp] theorem State.pushed_plat (s : State) : (s.pushed).plat = s.plat := rfl
@[simp] theorem State.pushed_budget (s : State) : (s.pushed).budget = s.budget := rfl
@[simp] theorem State.pushed_renewed (s : State) : (s.pushed).renewed = s.renewed := rfl
@[simp] theorem State.pushed_memFlaws (s : State) : (s.pushed).memFlaws = s.memFlaws := rfl
@[simp] theorem State.pushed_l2Pos (s : State) : (s.pushed).l2Pos = s.l2Pos := rfl
@[simp] theorem State.pushed_hbmPos (s : State) : (s.pushed).hbmPos = s.hbmPos := rfl
@[simp] theorem State.doneWith_agenda (s : State) (r : SReg) (v : Word) : (s.doneWith r v).agenda = s.agenda := rfl
@[simp] theorem State.doneWith_focus (s : State) (r : SReg) (v : Word) : (s.doneWith r v).focus = s.focus := rfl
@[simp] theorem State.doneWith_atEngine (s : State) (r : SReg) (v : Word) : (s.doneWith r v).atEngine = s.atEngine := rfl
@[simp] theorem State.doneWith_part (s : State) (r : SReg) (v : Word) : (s.doneWith r v).part = s.part := rfl
@[simp] theorem State.doneWith_rank (s : State) (r : SReg) (v : Word) : (s.doneWith r v).rank = s.rank := rfl
@[simp] theorem State.doneWith_cycle (s : State) (r : SReg) (v : Word) : (s.doneWith r v).cycle = s.cycle := rfl
@[simp] theorem State.doneWith_epoch (s : State) (r : SReg) (v : Word) : (s.doneWith r v).epoch = s.epoch := rfl
@[simp] theorem State.doneWith_mem (s : State) (r : SReg) (v : Word) : (s.doneWith r v).mem = s.mem := rfl
@[simp] theorem State.doneWith_regs (s : State) (r : SReg) (v : Word) : (s.doneWith r v).regs = s.regs := rfl
@[simp] theorem State.doneWith_stat (s : State) (r : SReg) (v : Word) : (s.doneWith r v).stat = s.stat := rfl
@[simp] theorem State.doneWith_tasks (s : State) (r : SReg) (v : Word) : (s.doneWith r v).tasks = s.tasks := rfl
@[simp] theorem State.doneWith_rings (s : State) (r : SReg) (v : Word) : (s.doneWith r v).rings = s.rings := rfl
@[simp] theorem State.doneWith_launches (s : State) (r : SReg) (v : Word) : (s.doneWith r v).launches = s.launches := rfl
@[simp] theorem State.doneWith_graphs (s : State) (r : SReg) (v : Word) : (s.doneWith r v).graphs = s.graphs := rfl
@[simp] theorem State.doneWith_jobs (s : State) (r : SReg) (v : Word) : (s.doneWith r v).jobs = s.jobs := rfl
@[simp] theorem State.doneWith_heldStores (s : State) (r : SReg) (v : Word) : (s.doneWith r v).heldStores = s.heldStores := rfl
@[simp] theorem State.doneWith_heldGraphs (s : State) (r : SReg) (v : Word) : (s.doneWith r v).heldGraphs = s.heldGraphs := rfl
@[simp] theorem State.doneWith_devFaults (s : State) (r : SReg) (v : Word) : (s.doneWith r v).devFaults = s.devFaults := rfl
@[simp] theorem State.doneWith_net (s : State) (r : SReg) (v : Word) : (s.doneWith r v).net = s.net := rfl
@[simp] theorem State.doneWith_gone (s : State) (r : SReg) (v : Word) : (s.doneWith r v).gone = s.gone := rfl
@[simp] theorem State.doneWith_fwds (s : State) (r : SReg) (v : Word) : (s.doneWith r v).fwds = s.fwds := rfl
@[simp] theorem State.doneWith_bonds (s : State) (r : SReg) (v : Word) : (s.doneWith r v).bonds = s.bonds := rfl
@[simp] theorem State.doneWith_xmcs (s : State) (r : SReg) (v : Word) : (s.doneWith r v).xmcs = s.xmcs := rfl
@[simp] theorem State.doneWith_l2 (s : State) (r : SReg) (v : Word) : (s.doneWith r v).l2 = s.l2 := rfl
@[simp] theorem State.doneWith_l2Tick (s : State) (r : SReg) (v : Word) : (s.doneWith r v).l2Tick = s.l2Tick := rfl
@[simp] theorem State.doneWith_commits (s : State) (r : SReg) (v : Word) : (s.doneWith r v).commits = s.commits := rfl
@[simp] theorem State.doneWith_poison (s : State) (r : SReg) (v : Word) : (s.doneWith r v).poison = s.poison := rfl
@[simp] theorem State.doneWith_recent (s : State) (r : SReg) (v : Word) : (s.doneWith r v).recent = s.recent := rfl
@[simp] theorem State.doneWith_strong (s : State) (r : SReg) (v : Word) : (s.doneWith r v).strong = s.strong := rfl
@[simp] theorem State.doneWith_nmus (s : State) (r : SReg) (v : Word) : (s.doneWith r v).nmus = s.nmus := rfl
@[simp] theorem State.doneWith_rowWaits (s : State) (r : SReg) (v : Word) : (s.doneWith r v).rowWaits = s.rowWaits := rfl
@[simp] theorem State.doneWith_dieTlbs (s : State) (r : SReg) (v : Word) : (s.doneWith r v).dieTlbs = s.dieTlbs := rfl
@[simp] theorem State.doneWith_tlbinv (s : State) (r : SReg) (v : Word) : (s.doneWith r v).tlbinv = s.tlbinv := rfl
@[simp] theorem State.doneWith_pfWait (s : State) (r : SReg) (v : Word) : (s.doneWith r v).pfWait = s.pfWait := rfl
@[simp] theorem State.doneWith_members (s : State) (r : SReg) (v : Word) : (s.doneWith r v).members = s.members := rfl
@[simp] theorem State.doneWith_colls (s : State) (r : SReg) (v : Word) : (s.doneWith r v).colls = s.colls := rfl
@[simp] theorem State.doneWith_kept (s : State) (r : SReg) (v : Word) : (s.doneWith r v).kept = s.kept := rfl
@[simp] theorem State.doneWith_ports (s : State) (r : SReg) (v : Word) : (s.doneWith r v).ports = s.ports := rfl
@[simp] theorem State.doneWith_lostDevs (s : State) (r : SReg) (v : Word) : (s.doneWith r v).lostDevs = s.lostDevs := rfl
@[simp] theorem State.doneWith_host (s : State) (r : SReg) (v : Word) : (s.doneWith r v).host = s.host := rfl
@[simp] theorem State.doneWith_plat (s : State) (r : SReg) (v : Word) : (s.doneWith r v).plat = s.plat := rfl
@[simp] theorem State.doneWith_budget (s : State) (r : SReg) (v : Word) : (s.doneWith r v).budget = s.budget := rfl
@[simp] theorem State.doneWith_renewed (s : State) (r : SReg) (v : Word) : (s.doneWith r v).renewed = s.renewed := rfl
@[simp] theorem State.doneWith_memFlaws (s : State) (r : SReg) (v : Word) : (s.doneWith r v).memFlaws = s.memFlaws := rfl
@[simp] theorem State.doneWith_l2Pos (s : State) (r : SReg) (v : Word) : (s.doneWith r v).l2Pos = s.l2Pos := rfl
@[simp] theorem State.doneWith_hbmPos (s : State) (r : SReg) (v : Word) : (s.doneWith r v).hbmPos = s.hbmPos := rfl
@[simp] theorem State.stallWith_agenda (s : State) (w : Stall) : (s.stallWith w).agenda = s.agenda := rfl
@[simp] theorem State.stallWith_focus (s : State) (w : Stall) : (s.stallWith w).focus = s.focus := rfl
@[simp] theorem State.stallWith_atEngine (s : State) (w : Stall) : (s.stallWith w).atEngine = s.atEngine := rfl
@[simp] theorem State.stallWith_part (s : State) (w : Stall) : (s.stallWith w).part = s.part := rfl
@[simp] theorem State.stallWith_rank (s : State) (w : Stall) : (s.stallWith w).rank = s.rank := rfl
@[simp] theorem State.stallWith_cycle (s : State) (w : Stall) : (s.stallWith w).cycle = s.cycle := rfl
@[simp] theorem State.stallWith_epoch (s : State) (w : Stall) : (s.stallWith w).epoch = s.epoch := rfl
@[simp] theorem State.stallWith_mem (s : State) (w : Stall) : (s.stallWith w).mem = s.mem := rfl
@[simp] theorem State.stallWith_regs (s : State) (w : Stall) : (s.stallWith w).regs = s.regs := rfl
@[simp] theorem State.stallWith_stat (s : State) (w : Stall) : (s.stallWith w).stat = s.stat := rfl
@[simp] theorem State.stallWith_tasks (s : State) (w : Stall) : (s.stallWith w).tasks = s.tasks := rfl
@[simp] theorem State.stallWith_rings (s : State) (w : Stall) : (s.stallWith w).rings = s.rings := rfl
@[simp] theorem State.stallWith_launches (s : State) (w : Stall) : (s.stallWith w).launches = s.launches := rfl
@[simp] theorem State.stallWith_graphs (s : State) (w : Stall) : (s.stallWith w).graphs = s.graphs := rfl
@[simp] theorem State.stallWith_jobs (s : State) (w : Stall) : (s.stallWith w).jobs = s.jobs := rfl
@[simp] theorem State.stallWith_heldStores (s : State) (w : Stall) : (s.stallWith w).heldStores = s.heldStores := rfl
@[simp] theorem State.stallWith_heldGraphs (s : State) (w : Stall) : (s.stallWith w).heldGraphs = s.heldGraphs := rfl
@[simp] theorem State.stallWith_devFaults (s : State) (w : Stall) : (s.stallWith w).devFaults = s.devFaults := rfl
@[simp] theorem State.stallWith_net (s : State) (w : Stall) : (s.stallWith w).net = s.net := rfl
@[simp] theorem State.stallWith_gone (s : State) (w : Stall) : (s.stallWith w).gone = s.gone := rfl
@[simp] theorem State.stallWith_fwds (s : State) (w : Stall) : (s.stallWith w).fwds = s.fwds := rfl
@[simp] theorem State.stallWith_bonds (s : State) (w : Stall) : (s.stallWith w).bonds = s.bonds := rfl
@[simp] theorem State.stallWith_xmcs (s : State) (w : Stall) : (s.stallWith w).xmcs = s.xmcs := rfl
@[simp] theorem State.stallWith_l2 (s : State) (w : Stall) : (s.stallWith w).l2 = s.l2 := rfl
@[simp] theorem State.stallWith_l2Tick (s : State) (w : Stall) : (s.stallWith w).l2Tick = s.l2Tick := rfl
@[simp] theorem State.stallWith_commits (s : State) (w : Stall) : (s.stallWith w).commits = s.commits := rfl
@[simp] theorem State.stallWith_poison (s : State) (w : Stall) : (s.stallWith w).poison = s.poison := rfl
@[simp] theorem State.stallWith_recent (s : State) (w : Stall) : (s.stallWith w).recent = s.recent := rfl
@[simp] theorem State.stallWith_strong (s : State) (w : Stall) : (s.stallWith w).strong = s.strong := rfl
@[simp] theorem State.stallWith_nmus (s : State) (w : Stall) : (s.stallWith w).nmus = s.nmus := rfl
@[simp] theorem State.stallWith_rowWaits (s : State) (w : Stall) : (s.stallWith w).rowWaits = s.rowWaits := rfl
@[simp] theorem State.stallWith_dieTlbs (s : State) (w : Stall) : (s.stallWith w).dieTlbs = s.dieTlbs := rfl
@[simp] theorem State.stallWith_tlbinv (s : State) (w : Stall) : (s.stallWith w).tlbinv = s.tlbinv := rfl
@[simp] theorem State.stallWith_pfWait (s : State) (w : Stall) : (s.stallWith w).pfWait = s.pfWait := rfl
@[simp] theorem State.stallWith_members (s : State) (w : Stall) : (s.stallWith w).members = s.members := rfl
@[simp] theorem State.stallWith_colls (s : State) (w : Stall) : (s.stallWith w).colls = s.colls := rfl
@[simp] theorem State.stallWith_kept (s : State) (w : Stall) : (s.stallWith w).kept = s.kept := rfl
@[simp] theorem State.stallWith_ports (s : State) (w : Stall) : (s.stallWith w).ports = s.ports := rfl
@[simp] theorem State.stallWith_lostDevs (s : State) (w : Stall) : (s.stallWith w).lostDevs = s.lostDevs := rfl
@[simp] theorem State.stallWith_host (s : State) (w : Stall) : (s.stallWith w).host = s.host := rfl
@[simp] theorem State.stallWith_plat (s : State) (w : Stall) : (s.stallWith w).plat = s.plat := rfl
@[simp] theorem State.stallWith_budget (s : State) (w : Stall) : (s.stallWith w).budget = s.budget := rfl
@[simp] theorem State.stallWith_renewed (s : State) (w : Stall) : (s.stallWith w).renewed = s.renewed := rfl
@[simp] theorem State.stallWith_memFlaws (s : State) (w : Stall) : (s.stallWith w).memFlaws = s.memFlaws := rfl
@[simp] theorem State.stallWith_l2Pos (s : State) (w : Stall) : (s.stallWith w).l2Pos = s.l2Pos := rfl
@[simp] theorem State.stallWith_hbmPos (s : State) (w : Stall) : (s.stallWith w).hbmPos = s.hbmPos := rfl
@[simp] theorem State.setStallOf_agenda (s : State) (e : Nat) (w : Option Stall) : (s.setStallOf e w).agenda = s.agenda := rfl
@[simp] theorem State.setStallOf_focus (s : State) (e : Nat) (w : Option Stall) : (s.setStallOf e w).focus = s.focus := rfl
@[simp] theorem State.setStallOf_atEngine (s : State) (e : Nat) (w : Option Stall) : (s.setStallOf e w).atEngine = s.atEngine := rfl
@[simp] theorem State.setStallOf_part (s : State) (e : Nat) (w : Option Stall) : (s.setStallOf e w).part = s.part := rfl
@[simp] theorem State.setStallOf_rank (s : State) (e : Nat) (w : Option Stall) : (s.setStallOf e w).rank = s.rank := rfl
@[simp] theorem State.setStallOf_cycle (s : State) (e : Nat) (w : Option Stall) : (s.setStallOf e w).cycle = s.cycle := rfl
@[simp] theorem State.setStallOf_epoch (s : State) (e : Nat) (w : Option Stall) : (s.setStallOf e w).epoch = s.epoch := rfl
@[simp] theorem State.setStallOf_mem (s : State) (e : Nat) (w : Option Stall) : (s.setStallOf e w).mem = s.mem := rfl
@[simp] theorem State.setStallOf_regs (s : State) (e : Nat) (w : Option Stall) : (s.setStallOf e w).regs = s.regs := rfl
@[simp] theorem State.setStallOf_stat (s : State) (e : Nat) (w : Option Stall) : (s.setStallOf e w).stat = s.stat := rfl
@[simp] theorem State.setStallOf_tasks (s : State) (e : Nat) (w : Option Stall) : (s.setStallOf e w).tasks = s.tasks := rfl
@[simp] theorem State.setStallOf_rings (s : State) (e : Nat) (w : Option Stall) : (s.setStallOf e w).rings = s.rings := rfl
@[simp] theorem State.setStallOf_launches (s : State) (e : Nat) (w : Option Stall) : (s.setStallOf e w).launches = s.launches := rfl
@[simp] theorem State.setStallOf_graphs (s : State) (e : Nat) (w : Option Stall) : (s.setStallOf e w).graphs = s.graphs := rfl
@[simp] theorem State.setStallOf_jobs (s : State) (e : Nat) (w : Option Stall) : (s.setStallOf e w).jobs = s.jobs := rfl
@[simp] theorem State.setStallOf_heldStores (s : State) (e : Nat) (w : Option Stall) : (s.setStallOf e w).heldStores = s.heldStores := rfl
@[simp] theorem State.setStallOf_heldGraphs (s : State) (e : Nat) (w : Option Stall) : (s.setStallOf e w).heldGraphs = s.heldGraphs := rfl
@[simp] theorem State.setStallOf_devFaults (s : State) (e : Nat) (w : Option Stall) : (s.setStallOf e w).devFaults = s.devFaults := rfl
@[simp] theorem State.setStallOf_net (s : State) (e : Nat) (w : Option Stall) : (s.setStallOf e w).net = s.net := rfl
@[simp] theorem State.setStallOf_gone (s : State) (e : Nat) (w : Option Stall) : (s.setStallOf e w).gone = s.gone := rfl
@[simp] theorem State.setStallOf_fwds (s : State) (e : Nat) (w : Option Stall) : (s.setStallOf e w).fwds = s.fwds := rfl
@[simp] theorem State.setStallOf_bonds (s : State) (e : Nat) (w : Option Stall) : (s.setStallOf e w).bonds = s.bonds := rfl
@[simp] theorem State.setStallOf_xmcs (s : State) (e : Nat) (w : Option Stall) : (s.setStallOf e w).xmcs = s.xmcs := rfl
@[simp] theorem State.setStallOf_l2 (s : State) (e : Nat) (w : Option Stall) : (s.setStallOf e w).l2 = s.l2 := rfl
@[simp] theorem State.setStallOf_l2Tick (s : State) (e : Nat) (w : Option Stall) : (s.setStallOf e w).l2Tick = s.l2Tick := rfl
@[simp] theorem State.setStallOf_commits (s : State) (e : Nat) (w : Option Stall) : (s.setStallOf e w).commits = s.commits := rfl
@[simp] theorem State.setStallOf_poison (s : State) (e : Nat) (w : Option Stall) : (s.setStallOf e w).poison = s.poison := rfl
@[simp] theorem State.setStallOf_recent (s : State) (e : Nat) (w : Option Stall) : (s.setStallOf e w).recent = s.recent := rfl
@[simp] theorem State.setStallOf_strong (s : State) (e : Nat) (w : Option Stall) : (s.setStallOf e w).strong = s.strong := rfl
@[simp] theorem State.setStallOf_nmus (s : State) (e : Nat) (w : Option Stall) : (s.setStallOf e w).nmus = s.nmus := rfl
@[simp] theorem State.setStallOf_rowWaits (s : State) (e : Nat) (w : Option Stall) : (s.setStallOf e w).rowWaits = s.rowWaits := rfl
@[simp] theorem State.setStallOf_dieTlbs (s : State) (e : Nat) (w : Option Stall) : (s.setStallOf e w).dieTlbs = s.dieTlbs := rfl
@[simp] theorem State.setStallOf_tlbinv (s : State) (e : Nat) (w : Option Stall) : (s.setStallOf e w).tlbinv = s.tlbinv := rfl
@[simp] theorem State.setStallOf_pfWait (s : State) (e : Nat) (w : Option Stall) : (s.setStallOf e w).pfWait = s.pfWait := rfl
@[simp] theorem State.setStallOf_members (s : State) (e : Nat) (w : Option Stall) : (s.setStallOf e w).members = s.members := rfl
@[simp] theorem State.setStallOf_colls (s : State) (e : Nat) (w : Option Stall) : (s.setStallOf e w).colls = s.colls := rfl
@[simp] theorem State.setStallOf_kept (s : State) (e : Nat) (w : Option Stall) : (s.setStallOf e w).kept = s.kept := rfl
@[simp] theorem State.setStallOf_ports (s : State) (e : Nat) (w : Option Stall) : (s.setStallOf e w).ports = s.ports := rfl
@[simp] theorem State.setStallOf_lostDevs (s : State) (e : Nat) (w : Option Stall) : (s.setStallOf e w).lostDevs = s.lostDevs := rfl
@[simp] theorem State.setStallOf_host (s : State) (e : Nat) (w : Option Stall) : (s.setStallOf e w).host = s.host := rfl
@[simp] theorem State.setStallOf_plat (s : State) (e : Nat) (w : Option Stall) : (s.setStallOf e w).plat = s.plat := rfl
@[simp] theorem State.setStallOf_budget (s : State) (e : Nat) (w : Option Stall) : (s.setStallOf e w).budget = s.budget := rfl
@[simp] theorem State.setStallOf_renewed (s : State) (e : Nat) (w : Option Stall) : (s.setStallOf e w).renewed = s.renewed := rfl
@[simp] theorem State.setStallOf_memFlaws (s : State) (e : Nat) (w : Option Stall) : (s.setStallOf e w).memFlaws = s.memFlaws := rfl
@[simp] theorem State.setStallOf_l2Pos (s : State) (e : Nat) (w : Option Stall) : (s.setStallOf e w).l2Pos = s.l2Pos := rfl
@[simp] theorem State.setStallOf_hbmPos (s : State) (e : Nat) (w : Option Stall) : (s.setStallOf e w).hbmPos = s.hbmPos := rfl

/-! ## Updates of memory and of the device status words -/

@[simp] theorem State.wrBytes_agenda (s : State) (p : Nat) (b : List Byte) : (s.wrBytes p b).agenda = s.agenda := rfl
@[simp] theorem State.wrBytes_focus (s : State) (p : Nat) (b : List Byte) : (s.wrBytes p b).focus = s.focus := rfl
@[simp] theorem State.wrBytes_atEngine (s : State) (p : Nat) (b : List Byte) : (s.wrBytes p b).atEngine = s.atEngine := rfl
@[simp] theorem State.wrBytes_part (s : State) (p : Nat) (b : List Byte) : (s.wrBytes p b).part = s.part := rfl
@[simp] theorem State.wrBytes_rank (s : State) (p : Nat) (b : List Byte) : (s.wrBytes p b).rank = s.rank := rfl
@[simp] theorem State.wrBytes_cycle (s : State) (p : Nat) (b : List Byte) : (s.wrBytes p b).cycle = s.cycle := rfl
@[simp] theorem State.wrBytes_epoch (s : State) (p : Nat) (b : List Byte) : (s.wrBytes p b).epoch = s.epoch := rfl
@[simp] theorem State.wrBytes_regs (s : State) (p : Nat) (b : List Byte) : (s.wrBytes p b).regs = s.regs := rfl
@[simp] theorem State.wrBytes_stat (s : State) (p : Nat) (b : List Byte) : (s.wrBytes p b).stat = s.stat := rfl
@[simp] theorem State.wrBytes_cores (s : State) (p : Nat) (b : List Byte) : (s.wrBytes p b).cores = s.cores := rfl
@[simp] theorem State.wrBytes_tasks (s : State) (p : Nat) (b : List Byte) : (s.wrBytes p b).tasks = s.tasks := rfl
@[simp] theorem State.wrBytes_rings (s : State) (p : Nat) (b : List Byte) : (s.wrBytes p b).rings = s.rings := rfl
@[simp] theorem State.wrBytes_launches (s : State) (p : Nat) (b : List Byte) : (s.wrBytes p b).launches = s.launches := rfl
@[simp] theorem State.wrBytes_graphs (s : State) (p : Nat) (b : List Byte) : (s.wrBytes p b).graphs = s.graphs := rfl
@[simp] theorem State.wrBytes_jobs (s : State) (p : Nat) (b : List Byte) : (s.wrBytes p b).jobs = s.jobs := rfl
@[simp] theorem State.wrBytes_heldStores (s : State) (p : Nat) (b : List Byte) : (s.wrBytes p b).heldStores = s.heldStores := rfl
@[simp] theorem State.wrBytes_heldGraphs (s : State) (p : Nat) (b : List Byte) : (s.wrBytes p b).heldGraphs = s.heldGraphs := rfl
@[simp] theorem State.wrBytes_devFaults (s : State) (p : Nat) (b : List Byte) : (s.wrBytes p b).devFaults = s.devFaults := rfl
@[simp] theorem State.wrBytes_net (s : State) (p : Nat) (b : List Byte) : (s.wrBytes p b).net = s.net := rfl
@[simp] theorem State.wrBytes_gone (s : State) (p : Nat) (b : List Byte) : (s.wrBytes p b).gone = s.gone := rfl
@[simp] theorem State.wrBytes_fwds (s : State) (p : Nat) (b : List Byte) : (s.wrBytes p b).fwds = s.fwds := rfl
@[simp] theorem State.wrBytes_bonds (s : State) (p : Nat) (b : List Byte) : (s.wrBytes p b).bonds = s.bonds := rfl
@[simp] theorem State.wrBytes_xmcs (s : State) (p : Nat) (b : List Byte) : (s.wrBytes p b).xmcs = s.xmcs := rfl
@[simp] theorem State.wrBytes_l2 (s : State) (p : Nat) (b : List Byte) : (s.wrBytes p b).l2 = s.l2 := rfl
@[simp] theorem State.wrBytes_l2Tick (s : State) (p : Nat) (b : List Byte) : (s.wrBytes p b).l2Tick = s.l2Tick := rfl
@[simp] theorem State.wrBytes_commits (s : State) (p : Nat) (b : List Byte) : (s.wrBytes p b).commits = s.commits := rfl
@[simp] theorem State.wrBytes_poison (s : State) (p : Nat) (b : List Byte) : (s.wrBytes p b).poison = s.poison := rfl
@[simp] theorem State.wrBytes_recent (s : State) (p : Nat) (b : List Byte) : (s.wrBytes p b).recent = s.recent := rfl
@[simp] theorem State.wrBytes_strong (s : State) (p : Nat) (b : List Byte) : (s.wrBytes p b).strong = s.strong := rfl
@[simp] theorem State.wrBytes_nmus (s : State) (p : Nat) (b : List Byte) : (s.wrBytes p b).nmus = s.nmus := rfl
@[simp] theorem State.wrBytes_rowWaits (s : State) (p : Nat) (b : List Byte) : (s.wrBytes p b).rowWaits = s.rowWaits := rfl
@[simp] theorem State.wrBytes_dieTlbs (s : State) (p : Nat) (b : List Byte) : (s.wrBytes p b).dieTlbs = s.dieTlbs := rfl
@[simp] theorem State.wrBytes_tlbinv (s : State) (p : Nat) (b : List Byte) : (s.wrBytes p b).tlbinv = s.tlbinv := rfl
@[simp] theorem State.wrBytes_pfWait (s : State) (p : Nat) (b : List Byte) : (s.wrBytes p b).pfWait = s.pfWait := rfl
@[simp] theorem State.wrBytes_members (s : State) (p : Nat) (b : List Byte) : (s.wrBytes p b).members = s.members := rfl
@[simp] theorem State.wrBytes_colls (s : State) (p : Nat) (b : List Byte) : (s.wrBytes p b).colls = s.colls := rfl
@[simp] theorem State.wrBytes_kept (s : State) (p : Nat) (b : List Byte) : (s.wrBytes p b).kept = s.kept := rfl
@[simp] theorem State.wrBytes_ports (s : State) (p : Nat) (b : List Byte) : (s.wrBytes p b).ports = s.ports := rfl
@[simp] theorem State.wrBytes_lostDevs (s : State) (p : Nat) (b : List Byte) : (s.wrBytes p b).lostDevs = s.lostDevs := rfl
@[simp] theorem State.wrBytes_host (s : State) (p : Nat) (b : List Byte) : (s.wrBytes p b).host = s.host := rfl
@[simp] theorem State.wrBytes_plat (s : State) (p : Nat) (b : List Byte) : (s.wrBytes p b).plat = s.plat := rfl
@[simp] theorem State.wrBytes_budget (s : State) (p : Nat) (b : List Byte) : (s.wrBytes p b).budget = s.budget := rfl
@[simp] theorem State.wrBytes_renewed (s : State) (p : Nat) (b : List Byte) : (s.wrBytes p b).renewed = s.renewed := rfl
@[simp] theorem State.wrBytes_memFlaws (s : State) (p : Nat) (b : List Byte) : (s.wrBytes p b).memFlaws = s.memFlaws := rfl
@[simp] theorem State.wrBytes_l2Pos (s : State) (p : Nat) (b : List Byte) : (s.wrBytes p b).l2Pos = s.l2Pos := rfl
@[simp] theorem State.wrBytes_hbmPos (s : State) (p : Nat) (b : List Byte) : (s.wrBytes p b).hbmPos = s.hbmPos := rfl
@[simp] theorem State.setStat_agenda (s : State) (p : Nat) (w : Word) : (s.setStat p w).agenda = s.agenda := rfl
@[simp] theorem State.setStat_focus (s : State) (p : Nat) (w : Word) : (s.setStat p w).focus = s.focus := rfl
@[simp] theorem State.setStat_atEngine (s : State) (p : Nat) (w : Word) : (s.setStat p w).atEngine = s.atEngine := rfl
@[simp] theorem State.setStat_part (s : State) (p : Nat) (w : Word) : (s.setStat p w).part = s.part := rfl
@[simp] theorem State.setStat_rank (s : State) (p : Nat) (w : Word) : (s.setStat p w).rank = s.rank := rfl
@[simp] theorem State.setStat_cycle (s : State) (p : Nat) (w : Word) : (s.setStat p w).cycle = s.cycle := rfl
@[simp] theorem State.setStat_epoch (s : State) (p : Nat) (w : Word) : (s.setStat p w).epoch = s.epoch := rfl
@[simp] theorem State.setStat_mem (s : State) (p : Nat) (w : Word) : (s.setStat p w).mem = s.mem := rfl
@[simp] theorem State.setStat_regs (s : State) (p : Nat) (w : Word) : (s.setStat p w).regs = s.regs := rfl
@[simp] theorem State.setStat_cores (s : State) (p : Nat) (w : Word) : (s.setStat p w).cores = s.cores := rfl
@[simp] theorem State.setStat_tasks (s : State) (p : Nat) (w : Word) : (s.setStat p w).tasks = s.tasks := rfl
@[simp] theorem State.setStat_rings (s : State) (p : Nat) (w : Word) : (s.setStat p w).rings = s.rings := rfl
@[simp] theorem State.setStat_launches (s : State) (p : Nat) (w : Word) : (s.setStat p w).launches = s.launches := rfl
@[simp] theorem State.setStat_graphs (s : State) (p : Nat) (w : Word) : (s.setStat p w).graphs = s.graphs := rfl
@[simp] theorem State.setStat_jobs (s : State) (p : Nat) (w : Word) : (s.setStat p w).jobs = s.jobs := rfl
@[simp] theorem State.setStat_heldStores (s : State) (p : Nat) (w : Word) : (s.setStat p w).heldStores = s.heldStores := rfl
@[simp] theorem State.setStat_heldGraphs (s : State) (p : Nat) (w : Word) : (s.setStat p w).heldGraphs = s.heldGraphs := rfl
@[simp] theorem State.setStat_devFaults (s : State) (p : Nat) (w : Word) : (s.setStat p w).devFaults = s.devFaults := rfl
@[simp] theorem State.setStat_net (s : State) (p : Nat) (w : Word) : (s.setStat p w).net = s.net := rfl
@[simp] theorem State.setStat_gone (s : State) (p : Nat) (w : Word) : (s.setStat p w).gone = s.gone := rfl
@[simp] theorem State.setStat_fwds (s : State) (p : Nat) (w : Word) : (s.setStat p w).fwds = s.fwds := rfl
@[simp] theorem State.setStat_bonds (s : State) (p : Nat) (w : Word) : (s.setStat p w).bonds = s.bonds := rfl
@[simp] theorem State.setStat_xmcs (s : State) (p : Nat) (w : Word) : (s.setStat p w).xmcs = s.xmcs := rfl
@[simp] theorem State.setStat_l2 (s : State) (p : Nat) (w : Word) : (s.setStat p w).l2 = s.l2 := rfl
@[simp] theorem State.setStat_l2Tick (s : State) (p : Nat) (w : Word) : (s.setStat p w).l2Tick = s.l2Tick := rfl
@[simp] theorem State.setStat_commits (s : State) (p : Nat) (w : Word) : (s.setStat p w).commits = s.commits := rfl
@[simp] theorem State.setStat_poison (s : State) (p : Nat) (w : Word) : (s.setStat p w).poison = s.poison := rfl
@[simp] theorem State.setStat_recent (s : State) (p : Nat) (w : Word) : (s.setStat p w).recent = s.recent := rfl
@[simp] theorem State.setStat_strong (s : State) (p : Nat) (w : Word) : (s.setStat p w).strong = s.strong := rfl
@[simp] theorem State.setStat_nmus (s : State) (p : Nat) (w : Word) : (s.setStat p w).nmus = s.nmus := rfl
@[simp] theorem State.setStat_rowWaits (s : State) (p : Nat) (w : Word) : (s.setStat p w).rowWaits = s.rowWaits := rfl
@[simp] theorem State.setStat_dieTlbs (s : State) (p : Nat) (w : Word) : (s.setStat p w).dieTlbs = s.dieTlbs := rfl
@[simp] theorem State.setStat_tlbinv (s : State) (p : Nat) (w : Word) : (s.setStat p w).tlbinv = s.tlbinv := rfl
@[simp] theorem State.setStat_pfWait (s : State) (p : Nat) (w : Word) : (s.setStat p w).pfWait = s.pfWait := rfl
@[simp] theorem State.setStat_members (s : State) (p : Nat) (w : Word) : (s.setStat p w).members = s.members := rfl
@[simp] theorem State.setStat_colls (s : State) (p : Nat) (w : Word) : (s.setStat p w).colls = s.colls := rfl
@[simp] theorem State.setStat_kept (s : State) (p : Nat) (w : Word) : (s.setStat p w).kept = s.kept := rfl
@[simp] theorem State.setStat_ports (s : State) (p : Nat) (w : Word) : (s.setStat p w).ports = s.ports := rfl
@[simp] theorem State.setStat_lostDevs (s : State) (p : Nat) (w : Word) : (s.setStat p w).lostDevs = s.lostDevs := rfl
@[simp] theorem State.setStat_host (s : State) (p : Nat) (w : Word) : (s.setStat p w).host = s.host := rfl
@[simp] theorem State.setStat_plat (s : State) (p : Nat) (w : Word) : (s.setStat p w).plat = s.plat := rfl
@[simp] theorem State.setStat_budget (s : State) (p : Nat) (w : Word) : (s.setStat p w).budget = s.budget := rfl
@[simp] theorem State.setStat_renewed (s : State) (p : Nat) (w : Word) : (s.setStat p w).renewed = s.renewed := rfl
@[simp] theorem State.setStat_memFlaws (s : State) (p : Nat) (w : Word) : (s.setStat p w).memFlaws = s.memFlaws := rfl
@[simp] theorem State.setStat_l2Pos (s : State) (p : Nat) (w : Word) : (s.setStat p w).l2Pos = s.l2Pos := rfl
@[simp] theorem State.setStat_hbmPos (s : State) (p : Nat) (w : Word) : (s.setStat p w).hbmPos = s.hbmPos := rfl

/-! ## Cores -/

@[simp] theorem kset_kset {α : Type} (m : KMap α) (k : Nat) (v w : α) : kset (kset m k v) k w = kset m k w := by
  induction m with
  | nil => simp [kset]
  | cons x t ih =>
    obtain ⟨a, b⟩ := x
    simp only [kset]
    split
    · simp [kset]
    · split
      · simp [kset]
      · simp [kset, *]

@[simp] theorem State.setCore_core_same (s : State) (c : Nat) (k : Core) : (s.setCore c k).core c = k :=
  kget_kset_same _ _ _ _
theorem State.setCore_core_ne (s : State) {c d : Nat} (k : Core) (h : d ≠ c) : (s.setCore c k).core d = s.core d :=
  kget_kset_ne _ _ _ h
@[simp] theorem State.setCur_cur (s : State) (k : Core) : (s.setCur k).cur = k := kget_kset_same _ _ _ _
theorem State.setCur_core (s : State) {c : Nat} (k : Core) (h : c ≠ s.focus) : (s.setCur k).core c = s.core c :=
  kget_kset_ne _ _ _ h
@[simp] theorem State.setCur_core_focus (s : State) (k : Core) : (s.setCur k).core s.focus = k := kget_kset_same _ _ _ _
@[simp] theorem State.setCur_setCur (s : State) (k l : Core) : (s.setCur k).setCur l = s.setCur l := by
  simp [State.setCur, State.setCore]
@[simp] theorem State.setCur_arch (s : State) (k : Core) : (s.setCur k).arch = k.arch := by rw [State.arch, State.setCur_cur]
@[simp] theorem State.modCur_eq (s : State) (f : Core → Core) : s.modCur f = s.setCur (f s.cur) := rfl
@[simp] theorem State.setArch_eq (s : State) (a : Arch) : s.setArch a = s.setCur { s.cur with arch := a } := rfl
@[simp] theorem State.modArch_eq (s : State) (f : Arch → Arch) :
    s.modArch f = s.setCur { s.cur with arch := f s.cur.arch } := rfl
@[simp] theorem State.modCore_at_focus (s : State) (f : Core → Core) : s.modCore s.focus f = s.setCur (f s.cur) := rfl
@[simp] theorem State.core_at_focus (s : State) : s.core s.focus = s.cur := rfl
@[simp] theorem State.cur_arch (s : State) : s.cur.arch = s.arch := rfl
theorem State.done_eq (s : State) : s.done = s.setCur { s.cur with arch := s.cur.arch.advance.retire, stallSq := none } := rfl
theorem State.pushed_eq (s : State) : s.pushed = s.setCur { s.cur with arch := s.cur.arch.advance, stallSq := none } := rfl
theorem State.doneWith_eq (s : State) (r : SReg) (v : Word) : s.doneWith r v =
    s.setCur { s.cur with arch := (s.cur.arch.wr r v).advance.retire, stallSq := none } := by
  simp only [State.doneWith, State.done, State.modArch_eq, State.modCur_eq, State.setCur_cur, State.setCur_setCur]

/-- Setting the registers that software programs to what they are changes nothing. -/
@[simp] theorem State.setCur_regs_self (s : State) (k : Core) : { s.setCur k with regs := s.regs } = s.setCur k := rfl

/-! ## Registers of a core -/

/-- A scalar register after a write: s0 discards it. -/
theorem Arch.rd_wr (a : Arch) (r q : SReg) (v : Word) : (a.wr r v).rd q = if q = r ∧ q ≠ 0 then v else a.rd q := by
  unfold Arch.wr Arch.rd
  by_cases h0 : q = 0
  · simp [h0]
  · by_cases hr : r = 0
    · subst hr; simp [h0]
    · by_cases hq : q = r
      · subst hq; simp [h0]
      · have : q.val ≠ r.val := fun h => hq (Fin.ext h)
        simp [h0, hr, hq, kfind_kset_ne _ _ this]

theorem Arch.prd_pwr (a : Arch) (r q : PReg) (v : Word) : (a.pwr r v).prd q = if q = r ∧ q ≠ 0 then v else a.prd q := by
  unfold Arch.pwr Arch.prd
  by_cases h0 : q = 0
  · simp [h0]
  · by_cases hr : r = 0
    · subst hr; simp [h0]
    · by_cases hq : q = r
      · subst hq; simp [h0]
      · have : q.val ≠ r.val := fun h => hq (Fin.ext h)
        simp [h0, hr, hq, kfind_kset_ne _ _ this]

theorem Arch.vrd_vwr (a : Arch) (r q : VReg) (v : Vec) : (a.vwr r v).vrd q = if q = r then v else a.vrd q := by
  unfold Arch.vwr Arch.vrd
  by_cases hq : q = r
  · subst hq; simp
  · have : q.val ≠ r.val := fun h => hq (Fin.ext h)
    simp [hq, kfind_kset_ne _ _ this]

/-! ## Fields that the updates of the architectural state leave alone -/

@[simp] theorem Arch.advance_sregs (a : Arch) : a.advance.sregs = a.sregs := by unfold Arch.advance; split <;> rfl
@[simp] theorem Arch.advance_pregs (a : Arch) : a.advance.pregs = a.pregs := by unfold Arch.advance; split <;> rfl
@[simp] theorem Arch.advance_vregs (a : Arch) : a.advance.vregs = a.vregs := by unfold Arch.advance; split <;> rfl
@[simp] theorem Arch.advance_tiles (a : Arch) : a.advance.tiles = a.tiles := by unfold Arch.advance; split <;> rfl
@[simp] theorem Arch.advance_sp (a : Arch) : a.advance.sp = a.sp := by unfold Arch.advance; split <;> rfl
@[simp] theorem Arch.advance_full (a : Arch) : a.advance.full = a.full := by unfold Arch.advance; split <;> rfl
@[simp] theorem Arch.advance_delivered (a : Arch) : a.advance.delivered = a.delivered := by unfold Arch.advance; split <;> rfl
@[simp] theorem Arch.advance_slots (a : Arch) : a.advance.slots = a.slots := by unfold Arch.advance; split <;> rfl
@[simp] theorem Arch.advance_scales (a : Arch) : a.advance.scales = a.scales := by unfold Arch.advance; split <;> rfl
@[simp] theorem Arch.advance_dirs (a : Arch) : a.advance.dirs = a.dirs := by unfold Arch.advance; split <;> rfl
@[simp] theorem Arch.advance_bypass (a : Arch) : a.advance.bypass = a.bypass := by unfold Arch.advance; split <;> rfl
@[simp] theorem Arch.advance_bypassLive (a : Arch) : a.advance.bypassLive = a.bypassLive := by unfold Arch.advance; split <;> rfl
@[simp] theorem Arch.advance_tpls (a : Arch) : a.advance.tpls = a.tpls := by unfold Arch.advance; split <;> rfl
@[simp] theorem Arch.advance_pages (a : Arch) : a.advance.pages = a.pages := by unfold Arch.advance; split <;> rfl
@[simp] theorem Arch.advance_bank (a : Arch) : a.advance.bank = a.bank := by unfold Arch.advance; split <;> rfl
@[simp] theorem Arch.advance_events (a : Arch) : a.advance.events = a.events := by unfold Arch.advance; split <;> rfl
@[simp] theorem Arch.advance_tokens (a : Arch) : a.advance.tokens = a.tokens := by unfold Arch.advance; split <;> rfl
@[simp] theorem Arch.advance_owed (a : Arch) : a.advance.owed = a.owed := by unfold Arch.advance; split <;> rfl
@[simp] theorem Arch.advance_sv (a : Arch) : a.advance.sv = a.sv := by unfold Arch.advance; split <;> rfl
@[simp] theorem Arch.advance_nest (a : Arch) : a.advance.nest = a.nest := by unfold Arch.advance; split <;> rfl
@[simp] theorem Arch.advance_sliceflr (a : Arch) : a.advance.sliceflr = a.sliceflr := by unfold Arch.advance; split <;> rfl
@[simp] theorem Arch.advance_fpflags (a : Arch) : a.advance.fpflags = a.fpflags := by unfold Arch.advance; split <;> rfl
@[simp] theorem Arch.advance_trapvec (a : Arch) : a.advance.trapvec = a.trapvec := by unfold Arch.advance; split <;> rfl
@[simp] theorem Arch.advance_trappc (a : Arch) : a.advance.trappc = a.trappc := by unfold Arch.advance; split <;> rfl
@[simp] theorem Arch.advance_trapcause (a : Arch) : a.advance.trapcause = a.trapcause := by unfold Arch.advance; split <;> rfl
@[simp] theorem Arch.advance_trapinfo (a : Arch) : a.advance.trapinfo = a.trapinfo := by unfold Arch.advance; split <;> rfl
@[simp] theorem Arch.advance_trapsave (a : Arch) : a.advance.trapsave = a.trapsave := by unfold Arch.advance; split <;> rfl
@[simp] theorem Arch.advance_seed (a : Arch) : a.advance.seed = a.seed := by unfold Arch.advance; split <;> rfl
@[simp] theorem Arch.advance_slip (a : Arch) : a.advance.slip = a.slip := by unfold Arch.advance; split <;> rfl
@[simp] theorem Arch.advance_lattol (a : Arch) : a.advance.lattol = a.lattol := by unfold Arch.advance; split <;> rfl
@[simp] theorem Arch.advance_retired (a : Arch) : a.advance.retired = a.retired := by unfold Arch.advance; split <;> rfl
@[simp] theorem Arch.advance_hentry (a : Arch) : a.advance.hentry = a.hentry := by unfold Arch.advance; split <;> rfl
@[simp] theorem Arch.advance_bodyStart (a : Arch) : a.advance.bodyStart = a.bodyStart := by unfold Arch.advance; split <;> rfl
@[simp] theorem Arch.advance_bodyLen (a : Arch) : a.advance.bodyLen = a.bodyLen := by unfold Arch.advance; split <;> rfl
@[simp] theorem Arch.advance_sect (a : Arch) : a.advance.sect = a.sect := by unfold Arch.advance; split <;> rfl
@[simp] theorem Arch.advance_waits (a : Arch) : a.advance.waits = a.waits := by unfold Arch.advance; split <;> rfl
@[simp] theorem Arch.advance_vnum (a : Arch) : a.advance.vnum = a.vnum := by unfold Arch.advance; split <;> rfl
@[simp] theorem Arch.advance_seq (a : Arch) : a.advance.seq = a.seq := by unfold Arch.advance; split <;> rfl
@[simp] theorem Arch.advance_vl (a : Arch) : a.advance.vl = a.vl := by unfold Arch.advance; split <;> rfl
@[simp] theorem Arch.advance_va (a : Arch) : a.advance.va = a.va := by unfold Arch.advance; split <;> rfl
@[simp] theorem Arch.advance_vs (a : Arch) : a.advance.vs = a.vs := by unfold Arch.advance; split <;> rfl
@[simp] theorem Arch.advance_mx (a : Arch) : a.advance.mx = a.mx := by unfold Arch.advance; split <;> rfl
@[simp] theorem Arch.advance_nm (a : Arch) : a.advance.nm = a.nm := by unfold Arch.advance; split <;> rfl
@[simp] theorem Arch.advance_cl (a : Arch) : a.advance.cl = a.cl := by unfold Arch.advance; split <;> rfl
@[simp] theorem Arch.advance_ended (a : Arch) : a.advance.ended = a.ended := by unfold Arch.advance; split <;> rfl
@[simp] theorem Arch.advance_epoch (a : Arch) : a.advance.epoch = a.epoch := by unfold Arch.advance; split <;> rfl
@[simp] theorem Arch.advance_spEpoch (a : Arch) : a.advance.spEpoch = a.spEpoch := by unfold Arch.advance; split <;> rfl
@[simp] theorem Arch.retire_sregs (a : Arch) : a.retire.sregs = a.sregs := rfl
@[simp] theorem Arch.retire_pregs (a : Arch) : a.retire.pregs = a.pregs := rfl
@[simp] theorem Arch.retire_vregs (a : Arch) : a.retire.vregs = a.vregs := rfl
@[simp] theorem Arch.retire_tiles (a : Arch) : a.retire.tiles = a.tiles := rfl
@[simp] theorem Arch.retire_sp (a : Arch) : a.retire.sp = a.sp := rfl
@[simp] theorem Arch.retire_full (a : Arch) : a.retire.full = a.full := rfl
@[simp] theorem Arch.retire_delivered (a : Arch) : a.retire.delivered = a.delivered := rfl
@[simp] theorem Arch.retire_slots (a : Arch) : a.retire.slots = a.slots := rfl
@[simp] theorem Arch.retire_scales (a : Arch) : a.retire.scales = a.scales := rfl
@[simp] theorem Arch.retire_dirs (a : Arch) : a.retire.dirs = a.dirs := rfl
@[simp] theorem Arch.retire_bypass (a : Arch) : a.retire.bypass = a.bypass := rfl
@[simp] theorem Arch.retire_bypassLive (a : Arch) : a.retire.bypassLive = a.bypassLive := rfl
@[simp] theorem Arch.retire_tpls (a : Arch) : a.retire.tpls = a.tpls := rfl
@[simp] theorem Arch.retire_pages (a : Arch) : a.retire.pages = a.pages := rfl
@[simp] theorem Arch.retire_bank (a : Arch) : a.retire.bank = a.bank := rfl
@[simp] theorem Arch.retire_events (a : Arch) : a.retire.events = a.events := rfl
@[simp] theorem Arch.retire_tokens (a : Arch) : a.retire.tokens = a.tokens := rfl
@[simp] theorem Arch.retire_owed (a : Arch) : a.retire.owed = a.owed := rfl
@[simp] theorem Arch.retire_sv (a : Arch) : a.retire.sv = a.sv := rfl
@[simp] theorem Arch.retire_nest (a : Arch) : a.retire.nest = a.nest := rfl
@[simp] theorem Arch.retire_sliceflr (a : Arch) : a.retire.sliceflr = a.sliceflr := rfl
@[simp] theorem Arch.retire_fpflags (a : Arch) : a.retire.fpflags = a.fpflags := rfl
@[simp] theorem Arch.retire_trapvec (a : Arch) : a.retire.trapvec = a.trapvec := rfl
@[simp] theorem Arch.retire_trappc (a : Arch) : a.retire.trappc = a.trappc := rfl
@[simp] theorem Arch.retire_trapcause (a : Arch) : a.retire.trapcause = a.trapcause := rfl
@[simp] theorem Arch.retire_trapinfo (a : Arch) : a.retire.trapinfo = a.trapinfo := rfl
@[simp] theorem Arch.retire_trapsave (a : Arch) : a.retire.trapsave = a.trapsave := rfl
@[simp] theorem Arch.retire_seed (a : Arch) : a.retire.seed = a.seed := rfl
@[simp] theorem Arch.retire_slip (a : Arch) : a.retire.slip = a.slip := rfl
@[simp] theorem Arch.retire_lattol (a : Arch) : a.retire.lattol = a.lattol := rfl
@[simp] theorem Arch.retire_pc (a : Arch) : a.retire.pc = a.pc := rfl
@[simp] theorem Arch.retire_hpc (a : Arch) : a.retire.hpc = a.hpc := rfl
@[simp] theorem Arch.retire_hentry (a : Arch) : a.retire.hentry = a.hentry := rfl
@[simp] theorem Arch.retire_bodyStart (a : Arch) : a.retire.bodyStart = a.bodyStart := rfl
@[simp] theorem Arch.retire_bodyLen (a : Arch) : a.retire.bodyLen = a.bodyLen := rfl
@[simp] theorem Arch.retire_atHeader (a : Arch) : a.retire.atHeader = a.atHeader := rfl
@[simp] theorem Arch.retire_jumped (a : Arch) : a.retire.jumped = a.jumped := rfl
@[simp] theorem Arch.retire_sect (a : Arch) : a.retire.sect = a.sect := rfl
@[simp] theorem Arch.retire_waits (a : Arch) : a.retire.waits = a.waits := rfl
@[simp] theorem Arch.retire_vnum (a : Arch) : a.retire.vnum = a.vnum := rfl
@[simp] theorem Arch.retire_seq (a : Arch) : a.retire.seq = a.seq := rfl
@[simp] theorem Arch.retire_vl (a : Arch) : a.retire.vl = a.vl := rfl
@[simp] theorem Arch.retire_va (a : Arch) : a.retire.va = a.va := rfl
@[simp] theorem Arch.retire_vs (a : Arch) : a.retire.vs = a.vs := rfl
@[simp] theorem Arch.retire_mx (a : Arch) : a.retire.mx = a.mx := rfl
@[simp] theorem Arch.retire_nm (a : Arch) : a.retire.nm = a.nm := rfl
@[simp] theorem Arch.retire_cl (a : Arch) : a.retire.cl = a.cl := rfl
@[simp] theorem Arch.retire_ended (a : Arch) : a.retire.ended = a.ended := rfl
@[simp] theorem Arch.retire_epoch (a : Arch) : a.retire.epoch = a.epoch := rfl
@[simp] theorem Arch.retire_spEpoch (a : Arch) : a.retire.spEpoch = a.spEpoch := rfl
@[simp] theorem Arch.tick_sregs (a : Arch) : a.tick.sregs = a.sregs := rfl
@[simp] theorem Arch.tick_pregs (a : Arch) : a.tick.pregs = a.pregs := rfl
@[simp] theorem Arch.tick_vregs (a : Arch) : a.tick.vregs = a.vregs := rfl
@[simp] theorem Arch.tick_tiles (a : Arch) : a.tick.tiles = a.tiles := rfl
@[simp] theorem Arch.tick_sp (a : Arch) : a.tick.sp = a.sp := rfl
@[simp] theorem Arch.tick_full (a : Arch) : a.tick.full = a.full := rfl
@[simp] theorem Arch.tick_delivered (a : Arch) : a.tick.delivered = a.delivered := rfl
@[simp] theorem Arch.tick_slots (a : Arch) : a.tick.slots = a.slots := rfl
@[simp] theorem Arch.tick_scales (a : Arch) : a.tick.scales = a.scales := rfl
@[simp] theorem Arch.tick_dirs (a : Arch) : a.tick.dirs = a.dirs := rfl
@[simp] theorem Arch.tick_bypass (a : Arch) : a.tick.bypass = a.bypass := rfl
@[simp] theorem Arch.tick_bypassLive (a : Arch) : a.tick.bypassLive = a.bypassLive := rfl
@[simp] theorem Arch.tick_tpls (a : Arch) : a.tick.tpls = a.tpls := rfl
@[simp] theorem Arch.tick_pages (a : Arch) : a.tick.pages = a.pages := rfl
@[simp] theorem Arch.tick_bank (a : Arch) : a.tick.bank = a.bank := rfl
@[simp] theorem Arch.tick_events (a : Arch) : a.tick.events = a.events := rfl
@[simp] theorem Arch.tick_tokens (a : Arch) : a.tick.tokens = a.tokens := rfl
@[simp] theorem Arch.tick_owed (a : Arch) : a.tick.owed = a.owed := rfl
@[simp] theorem Arch.tick_sv (a : Arch) : a.tick.sv = a.sv := rfl
@[simp] theorem Arch.tick_nest (a : Arch) : a.tick.nest = a.nest := rfl
@[simp] theorem Arch.tick_sliceflr (a : Arch) : a.tick.sliceflr = a.sliceflr := rfl
@[simp] theorem Arch.tick_fpflags (a : Arch) : a.tick.fpflags = a.fpflags := rfl
@[simp] theorem Arch.tick_trapvec (a : Arch) : a.tick.trapvec = a.trapvec := rfl
@[simp] theorem Arch.tick_trappc (a : Arch) : a.tick.trappc = a.trappc := rfl
@[simp] theorem Arch.tick_trapcause (a : Arch) : a.tick.trapcause = a.trapcause := rfl
@[simp] theorem Arch.tick_trapinfo (a : Arch) : a.tick.trapinfo = a.trapinfo := rfl
@[simp] theorem Arch.tick_trapsave (a : Arch) : a.tick.trapsave = a.trapsave := rfl
@[simp] theorem Arch.tick_seed (a : Arch) : a.tick.seed = a.seed := rfl
@[simp] theorem Arch.tick_slip (a : Arch) : a.tick.slip = a.slip := rfl
@[simp] theorem Arch.tick_lattol (a : Arch) : a.tick.lattol = a.lattol := rfl
@[simp] theorem Arch.tick_retired (a : Arch) : a.tick.retired = a.retired := rfl
@[simp] theorem Arch.tick_pc (a : Arch) : a.tick.pc = a.pc := rfl
@[simp] theorem Arch.tick_hpc (a : Arch) : a.tick.hpc = a.hpc := rfl
@[simp] theorem Arch.tick_hentry (a : Arch) : a.tick.hentry = a.hentry := rfl
@[simp] theorem Arch.tick_bodyStart (a : Arch) : a.tick.bodyStart = a.bodyStart := rfl
@[simp] theorem Arch.tick_bodyLen (a : Arch) : a.tick.bodyLen = a.bodyLen := rfl
@[simp] theorem Arch.tick_atHeader (a : Arch) : a.tick.atHeader = a.atHeader := rfl
@[simp] theorem Arch.tick_jumped (a : Arch) : a.tick.jumped = a.jumped := rfl
@[simp] theorem Arch.tick_sect (a : Arch) : a.tick.sect = a.sect := rfl
@[simp] theorem Arch.tick_waits (a : Arch) : a.tick.waits = a.waits := rfl
@[simp] theorem Arch.tick_vnum (a : Arch) : a.tick.vnum = a.vnum := rfl
@[simp] theorem Arch.tick_vl (a : Arch) : a.tick.vl = a.vl := rfl
@[simp] theorem Arch.tick_va (a : Arch) : a.tick.va = a.va := rfl
@[simp] theorem Arch.tick_vs (a : Arch) : a.tick.vs = a.vs := rfl
@[simp] theorem Arch.tick_mx (a : Arch) : a.tick.mx = a.mx := rfl
@[simp] theorem Arch.tick_nm (a : Arch) : a.tick.nm = a.nm := rfl
@[simp] theorem Arch.tick_cl (a : Arch) : a.tick.cl = a.cl := rfl
@[simp] theorem Arch.tick_ended (a : Arch) : a.tick.ended = a.ended := rfl
@[simp] theorem Arch.tick_epoch (a : Arch) : a.tick.epoch = a.epoch := rfl
@[simp] theorem Arch.tick_spEpoch (a : Arch) : a.tick.spEpoch = a.spEpoch := rfl
@[simp] theorem Arch.wr_pregs (a : Arch) (r : SReg) (v : Word) : (a.wr r v).pregs = a.pregs := by unfold Arch.wr; split <;> rfl
@[simp] theorem Arch.wr_vregs (a : Arch) (r : SReg) (v : Word) : (a.wr r v).vregs = a.vregs := by unfold Arch.wr; split <;> rfl
@[simp] theorem Arch.wr_tiles (a : Arch) (r : SReg) (v : Word) : (a.wr r v).tiles = a.tiles := by unfold Arch.wr; split <;> rfl
@[simp] theorem Arch.wr_sp (a : Arch) (r : SReg) (v : Word) : (a.wr r v).sp = a.sp := by unfold Arch.wr; split <;> rfl
@[simp] theorem Arch.wr_full (a : Arch) (r : SReg) (v : Word) : (a.wr r v).full = a.full := by unfold Arch.wr; split <;> rfl
@[simp] theorem Arch.wr_delivered (a : Arch) (r : SReg) (v : Word) : (a.wr r v).delivered = a.delivered := by unfold Arch.wr; split <;> rfl
@[simp] theorem Arch.wr_slots (a : Arch) (r : SReg) (v : Word) : (a.wr r v).slots = a.slots := by unfold Arch.wr; split <;> rfl
@[simp] theorem Arch.wr_scales (a : Arch) (r : SReg) (v : Word) : (a.wr r v).scales = a.scales := by unfold Arch.wr; split <;> rfl
@[simp] theorem Arch.wr_dirs (a : Arch) (r : SReg) (v : Word) : (a.wr r v).dirs = a.dirs := by unfold Arch.wr; split <;> rfl
@[simp] theorem Arch.wr_bypass (a : Arch) (r : SReg) (v : Word) : (a.wr r v).bypass = a.bypass := by unfold Arch.wr; split <;> rfl
@[simp] theorem Arch.wr_bypassLive (a : Arch) (r : SReg) (v : Word) : (a.wr r v).bypassLive = a.bypassLive := by unfold Arch.wr; split <;> rfl
@[simp] theorem Arch.wr_tpls (a : Arch) (r : SReg) (v : Word) : (a.wr r v).tpls = a.tpls := by unfold Arch.wr; split <;> rfl
@[simp] theorem Arch.wr_pages (a : Arch) (r : SReg) (v : Word) : (a.wr r v).pages = a.pages := by unfold Arch.wr; split <;> rfl
@[simp] theorem Arch.wr_bank (a : Arch) (r : SReg) (v : Word) : (a.wr r v).bank = a.bank := by unfold Arch.wr; split <;> rfl
@[simp] theorem Arch.wr_events (a : Arch) (r : SReg) (v : Word) : (a.wr r v).events = a.events := by unfold Arch.wr; split <;> rfl
@[simp] theorem Arch.wr_tokens (a : Arch) (r : SReg) (v : Word) : (a.wr r v).tokens = a.tokens := by unfold Arch.wr; split <;> rfl
@[simp] theorem Arch.wr_owed (a : Arch) (r : SReg) (v : Word) : (a.wr r v).owed = a.owed := by unfold Arch.wr; split <;> rfl
@[simp] theorem Arch.wr_sv (a : Arch) (r : SReg) (v : Word) : (a.wr r v).sv = a.sv := by unfold Arch.wr; split <;> rfl
@[simp] theorem Arch.wr_nest (a : Arch) (r : SReg) (v : Word) : (a.wr r v).nest = a.nest := by unfold Arch.wr; split <;> rfl
@[simp] theorem Arch.wr_sliceflr (a : Arch) (r : SReg) (v : Word) : (a.wr r v).sliceflr = a.sliceflr := by unfold Arch.wr; split <;> rfl
@[simp] theorem Arch.wr_fpflags (a : Arch) (r : SReg) (v : Word) : (a.wr r v).fpflags = a.fpflags := by unfold Arch.wr; split <;> rfl
@[simp] theorem Arch.wr_trapvec (a : Arch) (r : SReg) (v : Word) : (a.wr r v).trapvec = a.trapvec := by unfold Arch.wr; split <;> rfl
@[simp] theorem Arch.wr_trappc (a : Arch) (r : SReg) (v : Word) : (a.wr r v).trappc = a.trappc := by unfold Arch.wr; split <;> rfl
@[simp] theorem Arch.wr_trapcause (a : Arch) (r : SReg) (v : Word) : (a.wr r v).trapcause = a.trapcause := by unfold Arch.wr; split <;> rfl
@[simp] theorem Arch.wr_trapinfo (a : Arch) (r : SReg) (v : Word) : (a.wr r v).trapinfo = a.trapinfo := by unfold Arch.wr; split <;> rfl
@[simp] theorem Arch.wr_trapsave (a : Arch) (r : SReg) (v : Word) : (a.wr r v).trapsave = a.trapsave := by unfold Arch.wr; split <;> rfl
@[simp] theorem Arch.wr_seed (a : Arch) (r : SReg) (v : Word) : (a.wr r v).seed = a.seed := by unfold Arch.wr; split <;> rfl
@[simp] theorem Arch.wr_slip (a : Arch) (r : SReg) (v : Word) : (a.wr r v).slip = a.slip := by unfold Arch.wr; split <;> rfl
@[simp] theorem Arch.wr_lattol (a : Arch) (r : SReg) (v : Word) : (a.wr r v).lattol = a.lattol := by unfold Arch.wr; split <;> rfl
@[simp] theorem Arch.wr_retired (a : Arch) (r : SReg) (v : Word) : (a.wr r v).retired = a.retired := by unfold Arch.wr; split <;> rfl
@[simp] theorem Arch.wr_pc (a : Arch) (r : SReg) (v : Word) : (a.wr r v).pc = a.pc := by unfold Arch.wr; split <;> rfl
@[simp] theorem Arch.wr_hpc (a : Arch) (r : SReg) (v : Word) : (a.wr r v).hpc = a.hpc := by unfold Arch.wr; split <;> rfl
@[simp] theorem Arch.wr_hentry (a : Arch) (r : SReg) (v : Word) : (a.wr r v).hentry = a.hentry := by unfold Arch.wr; split <;> rfl
@[simp] theorem Arch.wr_bodyStart (a : Arch) (r : SReg) (v : Word) : (a.wr r v).bodyStart = a.bodyStart := by unfold Arch.wr; split <;> rfl
@[simp] theorem Arch.wr_bodyLen (a : Arch) (r : SReg) (v : Word) : (a.wr r v).bodyLen = a.bodyLen := by unfold Arch.wr; split <;> rfl
@[simp] theorem Arch.wr_atHeader (a : Arch) (r : SReg) (v : Word) : (a.wr r v).atHeader = a.atHeader := by unfold Arch.wr; split <;> rfl
@[simp] theorem Arch.wr_jumped (a : Arch) (r : SReg) (v : Word) : (a.wr r v).jumped = a.jumped := by unfold Arch.wr; split <;> rfl
@[simp] theorem Arch.wr_sect (a : Arch) (r : SReg) (v : Word) : (a.wr r v).sect = a.sect := by unfold Arch.wr; split <;> rfl
@[simp] theorem Arch.wr_waits (a : Arch) (r : SReg) (v : Word) : (a.wr r v).waits = a.waits := by unfold Arch.wr; split <;> rfl
@[simp] theorem Arch.wr_vnum (a : Arch) (r : SReg) (v : Word) : (a.wr r v).vnum = a.vnum := by unfold Arch.wr; split <;> rfl
@[simp] theorem Arch.wr_seq (a : Arch) (r : SReg) (v : Word) : (a.wr r v).seq = a.seq := by unfold Arch.wr; split <;> rfl
@[simp] theorem Arch.wr_vl (a : Arch) (r : SReg) (v : Word) : (a.wr r v).vl = a.vl := by unfold Arch.wr; split <;> rfl
@[simp] theorem Arch.wr_va (a : Arch) (r : SReg) (v : Word) : (a.wr r v).va = a.va := by unfold Arch.wr; split <;> rfl
@[simp] theorem Arch.wr_vs (a : Arch) (r : SReg) (v : Word) : (a.wr r v).vs = a.vs := by unfold Arch.wr; split <;> rfl
@[simp] theorem Arch.wr_mx (a : Arch) (r : SReg) (v : Word) : (a.wr r v).mx = a.mx := by unfold Arch.wr; split <;> rfl
@[simp] theorem Arch.wr_nm (a : Arch) (r : SReg) (v : Word) : (a.wr r v).nm = a.nm := by unfold Arch.wr; split <;> rfl
@[simp] theorem Arch.wr_cl (a : Arch) (r : SReg) (v : Word) : (a.wr r v).cl = a.cl := by unfold Arch.wr; split <;> rfl
@[simp] theorem Arch.wr_ended (a : Arch) (r : SReg) (v : Word) : (a.wr r v).ended = a.ended := by unfold Arch.wr; split <;> rfl
@[simp] theorem Arch.wr_epoch (a : Arch) (r : SReg) (v : Word) : (a.wr r v).epoch = a.epoch := by unfold Arch.wr; split <;> rfl
@[simp] theorem Arch.wr_spEpoch (a : Arch) (r : SReg) (v : Word) : (a.wr r v).spEpoch = a.spEpoch := by unfold Arch.wr; split <;> rfl
@[simp] theorem Arch.pwr_sregs (a : Arch) (r : PReg) (v : Word) : (a.pwr r v).sregs = a.sregs := by unfold Arch.pwr; split <;> rfl
@[simp] theorem Arch.pwr_vregs (a : Arch) (r : PReg) (v : Word) : (a.pwr r v).vregs = a.vregs := by unfold Arch.pwr; split <;> rfl
@[simp] theorem Arch.pwr_tiles (a : Arch) (r : PReg) (v : Word) : (a.pwr r v).tiles = a.tiles := by unfold Arch.pwr; split <;> rfl
@[simp] theorem Arch.pwr_sp (a : Arch) (r : PReg) (v : Word) : (a.pwr r v).sp = a.sp := by unfold Arch.pwr; split <;> rfl
@[simp] theorem Arch.pwr_full (a : Arch) (r : PReg) (v : Word) : (a.pwr r v).full = a.full := by unfold Arch.pwr; split <;> rfl
@[simp] theorem Arch.pwr_delivered (a : Arch) (r : PReg) (v : Word) : (a.pwr r v).delivered = a.delivered := by unfold Arch.pwr; split <;> rfl
@[simp] theorem Arch.pwr_slots (a : Arch) (r : PReg) (v : Word) : (a.pwr r v).slots = a.slots := by unfold Arch.pwr; split <;> rfl
@[simp] theorem Arch.pwr_scales (a : Arch) (r : PReg) (v : Word) : (a.pwr r v).scales = a.scales := by unfold Arch.pwr; split <;> rfl
@[simp] theorem Arch.pwr_dirs (a : Arch) (r : PReg) (v : Word) : (a.pwr r v).dirs = a.dirs := by unfold Arch.pwr; split <;> rfl
@[simp] theorem Arch.pwr_bypass (a : Arch) (r : PReg) (v : Word) : (a.pwr r v).bypass = a.bypass := by unfold Arch.pwr; split <;> rfl
@[simp] theorem Arch.pwr_bypassLive (a : Arch) (r : PReg) (v : Word) : (a.pwr r v).bypassLive = a.bypassLive := by unfold Arch.pwr; split <;> rfl
@[simp] theorem Arch.pwr_tpls (a : Arch) (r : PReg) (v : Word) : (a.pwr r v).tpls = a.tpls := by unfold Arch.pwr; split <;> rfl
@[simp] theorem Arch.pwr_pages (a : Arch) (r : PReg) (v : Word) : (a.pwr r v).pages = a.pages := by unfold Arch.pwr; split <;> rfl
@[simp] theorem Arch.pwr_bank (a : Arch) (r : PReg) (v : Word) : (a.pwr r v).bank = a.bank := by unfold Arch.pwr; split <;> rfl
@[simp] theorem Arch.pwr_events (a : Arch) (r : PReg) (v : Word) : (a.pwr r v).events = a.events := by unfold Arch.pwr; split <;> rfl
@[simp] theorem Arch.pwr_tokens (a : Arch) (r : PReg) (v : Word) : (a.pwr r v).tokens = a.tokens := by unfold Arch.pwr; split <;> rfl
@[simp] theorem Arch.pwr_owed (a : Arch) (r : PReg) (v : Word) : (a.pwr r v).owed = a.owed := by unfold Arch.pwr; split <;> rfl
@[simp] theorem Arch.pwr_sv (a : Arch) (r : PReg) (v : Word) : (a.pwr r v).sv = a.sv := by unfold Arch.pwr; split <;> rfl
@[simp] theorem Arch.pwr_nest (a : Arch) (r : PReg) (v : Word) : (a.pwr r v).nest = a.nest := by unfold Arch.pwr; split <;> rfl
@[simp] theorem Arch.pwr_sliceflr (a : Arch) (r : PReg) (v : Word) : (a.pwr r v).sliceflr = a.sliceflr := by unfold Arch.pwr; split <;> rfl
@[simp] theorem Arch.pwr_fpflags (a : Arch) (r : PReg) (v : Word) : (a.pwr r v).fpflags = a.fpflags := by unfold Arch.pwr; split <;> rfl
@[simp] theorem Arch.pwr_trapvec (a : Arch) (r : PReg) (v : Word) : (a.pwr r v).trapvec = a.trapvec := by unfold Arch.pwr; split <;> rfl
@[simp] theorem Arch.pwr_trappc (a : Arch) (r : PReg) (v : Word) : (a.pwr r v).trappc = a.trappc := by unfold Arch.pwr; split <;> rfl
@[simp] theorem Arch.pwr_trapcause (a : Arch) (r : PReg) (v : Word) : (a.pwr r v).trapcause = a.trapcause := by unfold Arch.pwr; split <;> rfl
@[simp] theorem Arch.pwr_trapinfo (a : Arch) (r : PReg) (v : Word) : (a.pwr r v).trapinfo = a.trapinfo := by unfold Arch.pwr; split <;> rfl
@[simp] theorem Arch.pwr_trapsave (a : Arch) (r : PReg) (v : Word) : (a.pwr r v).trapsave = a.trapsave := by unfold Arch.pwr; split <;> rfl
@[simp] theorem Arch.pwr_seed (a : Arch) (r : PReg) (v : Word) : (a.pwr r v).seed = a.seed := by unfold Arch.pwr; split <;> rfl
@[simp] theorem Arch.pwr_slip (a : Arch) (r : PReg) (v : Word) : (a.pwr r v).slip = a.slip := by unfold Arch.pwr; split <;> rfl
@[simp] theorem Arch.pwr_lattol (a : Arch) (r : PReg) (v : Word) : (a.pwr r v).lattol = a.lattol := by unfold Arch.pwr; split <;> rfl
@[simp] theorem Arch.pwr_retired (a : Arch) (r : PReg) (v : Word) : (a.pwr r v).retired = a.retired := by unfold Arch.pwr; split <;> rfl
@[simp] theorem Arch.pwr_pc (a : Arch) (r : PReg) (v : Word) : (a.pwr r v).pc = a.pc := by unfold Arch.pwr; split <;> rfl
@[simp] theorem Arch.pwr_hpc (a : Arch) (r : PReg) (v : Word) : (a.pwr r v).hpc = a.hpc := by unfold Arch.pwr; split <;> rfl
@[simp] theorem Arch.pwr_hentry (a : Arch) (r : PReg) (v : Word) : (a.pwr r v).hentry = a.hentry := by unfold Arch.pwr; split <;> rfl
@[simp] theorem Arch.pwr_bodyStart (a : Arch) (r : PReg) (v : Word) : (a.pwr r v).bodyStart = a.bodyStart := by unfold Arch.pwr; split <;> rfl
@[simp] theorem Arch.pwr_bodyLen (a : Arch) (r : PReg) (v : Word) : (a.pwr r v).bodyLen = a.bodyLen := by unfold Arch.pwr; split <;> rfl
@[simp] theorem Arch.pwr_atHeader (a : Arch) (r : PReg) (v : Word) : (a.pwr r v).atHeader = a.atHeader := by unfold Arch.pwr; split <;> rfl
@[simp] theorem Arch.pwr_jumped (a : Arch) (r : PReg) (v : Word) : (a.pwr r v).jumped = a.jumped := by unfold Arch.pwr; split <;> rfl
@[simp] theorem Arch.pwr_sect (a : Arch) (r : PReg) (v : Word) : (a.pwr r v).sect = a.sect := by unfold Arch.pwr; split <;> rfl
@[simp] theorem Arch.pwr_waits (a : Arch) (r : PReg) (v : Word) : (a.pwr r v).waits = a.waits := by unfold Arch.pwr; split <;> rfl
@[simp] theorem Arch.pwr_vnum (a : Arch) (r : PReg) (v : Word) : (a.pwr r v).vnum = a.vnum := by unfold Arch.pwr; split <;> rfl
@[simp] theorem Arch.pwr_seq (a : Arch) (r : PReg) (v : Word) : (a.pwr r v).seq = a.seq := by unfold Arch.pwr; split <;> rfl
@[simp] theorem Arch.pwr_vl (a : Arch) (r : PReg) (v : Word) : (a.pwr r v).vl = a.vl := by unfold Arch.pwr; split <;> rfl
@[simp] theorem Arch.pwr_va (a : Arch) (r : PReg) (v : Word) : (a.pwr r v).va = a.va := by unfold Arch.pwr; split <;> rfl
@[simp] theorem Arch.pwr_vs (a : Arch) (r : PReg) (v : Word) : (a.pwr r v).vs = a.vs := by unfold Arch.pwr; split <;> rfl
@[simp] theorem Arch.pwr_mx (a : Arch) (r : PReg) (v : Word) : (a.pwr r v).mx = a.mx := by unfold Arch.pwr; split <;> rfl
@[simp] theorem Arch.pwr_nm (a : Arch) (r : PReg) (v : Word) : (a.pwr r v).nm = a.nm := by unfold Arch.pwr; split <;> rfl
@[simp] theorem Arch.pwr_cl (a : Arch) (r : PReg) (v : Word) : (a.pwr r v).cl = a.cl := by unfold Arch.pwr; split <;> rfl
@[simp] theorem Arch.pwr_ended (a : Arch) (r : PReg) (v : Word) : (a.pwr r v).ended = a.ended := by unfold Arch.pwr; split <;> rfl
@[simp] theorem Arch.pwr_epoch (a : Arch) (r : PReg) (v : Word) : (a.pwr r v).epoch = a.epoch := by unfold Arch.pwr; split <;> rfl
@[simp] theorem Arch.pwr_spEpoch (a : Arch) (r : PReg) (v : Word) : (a.pwr r v).spEpoch = a.spEpoch := by unfold Arch.pwr; split <;> rfl
@[simp] theorem Arch.vwr_sregs (a : Arch) (r : VReg) (v : Vec) : (a.vwr r v).sregs = a.sregs := rfl
@[simp] theorem Arch.vwr_pregs (a : Arch) (r : VReg) (v : Vec) : (a.vwr r v).pregs = a.pregs := rfl
@[simp] theorem Arch.vwr_tiles (a : Arch) (r : VReg) (v : Vec) : (a.vwr r v).tiles = a.tiles := rfl
@[simp] theorem Arch.vwr_sp (a : Arch) (r : VReg) (v : Vec) : (a.vwr r v).sp = a.sp := rfl
@[simp] theorem Arch.vwr_full (a : Arch) (r : VReg) (v : Vec) : (a.vwr r v).full = a.full := rfl
@[simp] theorem Arch.vwr_delivered (a : Arch) (r : VReg) (v : Vec) : (a.vwr r v).delivered = a.delivered := rfl
@[simp] theorem Arch.vwr_slots (a : Arch) (r : VReg) (v : Vec) : (a.vwr r v).slots = a.slots := rfl
@[simp] theorem Arch.vwr_scales (a : Arch) (r : VReg) (v : Vec) : (a.vwr r v).scales = a.scales := rfl
@[simp] theorem Arch.vwr_dirs (a : Arch) (r : VReg) (v : Vec) : (a.vwr r v).dirs = a.dirs := rfl
@[simp] theorem Arch.vwr_bypass (a : Arch) (r : VReg) (v : Vec) : (a.vwr r v).bypass = a.bypass := rfl
@[simp] theorem Arch.vwr_bypassLive (a : Arch) (r : VReg) (v : Vec) : (a.vwr r v).bypassLive = a.bypassLive := rfl
@[simp] theorem Arch.vwr_tpls (a : Arch) (r : VReg) (v : Vec) : (a.vwr r v).tpls = a.tpls := rfl
@[simp] theorem Arch.vwr_pages (a : Arch) (r : VReg) (v : Vec) : (a.vwr r v).pages = a.pages := rfl
@[simp] theorem Arch.vwr_bank (a : Arch) (r : VReg) (v : Vec) : (a.vwr r v).bank = a.bank := rfl
@[simp] theorem Arch.vwr_events (a : Arch) (r : VReg) (v : Vec) : (a.vwr r v).events = a.events := rfl
@[simp] theorem Arch.vwr_tokens (a : Arch) (r : VReg) (v : Vec) : (a.vwr r v).tokens = a.tokens := rfl
@[simp] theorem Arch.vwr_owed (a : Arch) (r : VReg) (v : Vec) : (a.vwr r v).owed = a.owed := rfl
@[simp] theorem Arch.vwr_sv (a : Arch) (r : VReg) (v : Vec) : (a.vwr r v).sv = a.sv := rfl
@[simp] theorem Arch.vwr_nest (a : Arch) (r : VReg) (v : Vec) : (a.vwr r v).nest = a.nest := rfl
@[simp] theorem Arch.vwr_sliceflr (a : Arch) (r : VReg) (v : Vec) : (a.vwr r v).sliceflr = a.sliceflr := rfl
@[simp] theorem Arch.vwr_fpflags (a : Arch) (r : VReg) (v : Vec) : (a.vwr r v).fpflags = a.fpflags := rfl
@[simp] theorem Arch.vwr_trapvec (a : Arch) (r : VReg) (v : Vec) : (a.vwr r v).trapvec = a.trapvec := rfl
@[simp] theorem Arch.vwr_trappc (a : Arch) (r : VReg) (v : Vec) : (a.vwr r v).trappc = a.trappc := rfl
@[simp] theorem Arch.vwr_trapcause (a : Arch) (r : VReg) (v : Vec) : (a.vwr r v).trapcause = a.trapcause := rfl
@[simp] theorem Arch.vwr_trapinfo (a : Arch) (r : VReg) (v : Vec) : (a.vwr r v).trapinfo = a.trapinfo := rfl
@[simp] theorem Arch.vwr_trapsave (a : Arch) (r : VReg) (v : Vec) : (a.vwr r v).trapsave = a.trapsave := rfl
@[simp] theorem Arch.vwr_seed (a : Arch) (r : VReg) (v : Vec) : (a.vwr r v).seed = a.seed := rfl
@[simp] theorem Arch.vwr_slip (a : Arch) (r : VReg) (v : Vec) : (a.vwr r v).slip = a.slip := rfl
@[simp] theorem Arch.vwr_lattol (a : Arch) (r : VReg) (v : Vec) : (a.vwr r v).lattol = a.lattol := rfl
@[simp] theorem Arch.vwr_retired (a : Arch) (r : VReg) (v : Vec) : (a.vwr r v).retired = a.retired := rfl
@[simp] theorem Arch.vwr_pc (a : Arch) (r : VReg) (v : Vec) : (a.vwr r v).pc = a.pc := rfl
@[simp] theorem Arch.vwr_hpc (a : Arch) (r : VReg) (v : Vec) : (a.vwr r v).hpc = a.hpc := rfl
@[simp] theorem Arch.vwr_hentry (a : Arch) (r : VReg) (v : Vec) : (a.vwr r v).hentry = a.hentry := rfl
@[simp] theorem Arch.vwr_bodyStart (a : Arch) (r : VReg) (v : Vec) : (a.vwr r v).bodyStart = a.bodyStart := rfl
@[simp] theorem Arch.vwr_bodyLen (a : Arch) (r : VReg) (v : Vec) : (a.vwr r v).bodyLen = a.bodyLen := rfl
@[simp] theorem Arch.vwr_atHeader (a : Arch) (r : VReg) (v : Vec) : (a.vwr r v).atHeader = a.atHeader := rfl
@[simp] theorem Arch.vwr_jumped (a : Arch) (r : VReg) (v : Vec) : (a.vwr r v).jumped = a.jumped := rfl
@[simp] theorem Arch.vwr_sect (a : Arch) (r : VReg) (v : Vec) : (a.vwr r v).sect = a.sect := rfl
@[simp] theorem Arch.vwr_waits (a : Arch) (r : VReg) (v : Vec) : (a.vwr r v).waits = a.waits := rfl
@[simp] theorem Arch.vwr_vnum (a : Arch) (r : VReg) (v : Vec) : (a.vwr r v).vnum = a.vnum := rfl
@[simp] theorem Arch.vwr_seq (a : Arch) (r : VReg) (v : Vec) : (a.vwr r v).seq = a.seq := rfl
@[simp] theorem Arch.vwr_vl (a : Arch) (r : VReg) (v : Vec) : (a.vwr r v).vl = a.vl := rfl
@[simp] theorem Arch.vwr_va (a : Arch) (r : VReg) (v : Vec) : (a.vwr r v).va = a.va := rfl
@[simp] theorem Arch.vwr_vs (a : Arch) (r : VReg) (v : Vec) : (a.vwr r v).vs = a.vs := rfl
@[simp] theorem Arch.vwr_mx (a : Arch) (r : VReg) (v : Vec) : (a.vwr r v).mx = a.mx := rfl
@[simp] theorem Arch.vwr_nm (a : Arch) (r : VReg) (v : Vec) : (a.vwr r v).nm = a.nm := rfl
@[simp] theorem Arch.vwr_cl (a : Arch) (r : VReg) (v : Vec) : (a.vwr r v).cl = a.cl := rfl
@[simp] theorem Arch.vwr_ended (a : Arch) (r : VReg) (v : Vec) : (a.vwr r v).ended = a.ended := rfl
@[simp] theorem Arch.vwr_epoch (a : Arch) (r : VReg) (v : Vec) : (a.vwr r v).epoch = a.epoch := rfl
@[simp] theorem Arch.vwr_spEpoch (a : Arch) (r : VReg) (v : Vec) : (a.vwr r v).spEpoch = a.spEpoch := rfl

/-! ## Outcomes -/

theorem State.run_ok (s t : State) : s.run (.ok t) = .next { t with regs := s.regs } := rfl
theorem State.run_stall (s : State) (w : Stall) : s.run (.stall w) = .next (s.stallWith w) := rfl
theorem State.run_ok_setCur (s : State) (k : Core) : s.run (.ok (s.setCur k)) = .next (s.setCur k) := rfl

/-- A check that holds lets the word go on. -/
@[simp] theorem guard_true (c : Nat) (i : Word) (k : Sq) : guard true c i k = k := rfl
@[simp] theorem guard_false (c : Nat) (i : Word) (k : Sq) : guard false c i k = .raise c i := rfl
@[simp] theorem waitFor_true (w : Stall) (k : Sq) : waitFor true w k = k := rfl
@[simp] theorem waitFor_false (w : Stall) (k : Sq) : waitFor false w k = .stall w := rfl

end Sys2Proof.Machine
end

