-- ==== Sys2Proof/Laws/Frames.lean ====
section
/-!
SUPPORT. What the shared operations can do, said once: the frames of an update of the core in focus, the words of class SA, completion
at SQ, an access to clear scratchpad bytes, an entry at the head of an engine.
-/

namespace Sys2Proof.Machine

set_option Elab.async false

theorem onlyCore_setCore (s : State) (c : Nat) (k : Core) : OnlyCore s (s.setCore c k) c k :=
  ⟨fun _ => rfl, rfl, fun _ h => State.setCore_core_ne s k h, by simp⟩

theorem onlyCore_setCur (s : State) (k : Core) : OnlyCore s (s.setCur k) s.focus k := onlyCore_setCore s s.focus k

theorem answers_of {i : Instr} {s : State} {k : Core} (h : exec i s = .next (s.setCur k)) : Answers i s k :=
  ⟨_, h, onlyCore_setCur s k⟩

/-- What SQ comes to at a word that completes. -/
theorem completes_of {i : Instr} {s : State} {a : Arch} (h : exec i s = .next (s.setCur (s.cur.completed a))) :
    Completes i s a := answers_of h

theorem scalarIs_wr (a : Arch) (sd : SReg) (v : Word) : ScalarIs a (a.wr sd v) sd v := by
  refine ⟨fun r => Arch.rd_wr a sd r v, ?_⟩
  unfold Arch.wr
  split <;> rfl

theorem writesOnly_of {i : Instr} {s : State} {sd : SReg} {v : Word}
    (h : exec i s = .next (s.setCur (s.cur.completed (s.arch.wr sd v)))) : WritesOnly i s sd v :=
  ⟨_, scalarIs_wr _ _ _, completes_of h⟩

/-- The checks that SQ makes before a word pass. -/
theorem State.sq_pass {s : State} {handler : Bool} {regs : List SReg} (k : Sq) (hh : handler = true ∨ s.inHandler = false)
    (hf : s.cur.free regs = true) : s.sq handler regs k = k := by
  have : (handler || !s.inHandler) = true := by rcases hh with h | h <;> simp [h]
  simp [State.sq, this, hf]

theorem State.doneWith_completed (s : State) (sd : SReg) (v : Word) :
    s.doneWith sd v = s.setCur (s.cur.completed (s.arch.wr sd v)) := State.doneWith_eq s sd v

theorem State.done_completed (s : State) : s.done = s.setCur (s.cur.completed s.arch) := rfl

/-- An ALU word of class SA writes f to sd and does nothing else. -/
theorem alu_eq {s : State} {regs : List SReg} {sd : SReg} (f : Arch → Word) (h : s.cur.free (sd :: regs) = true) :
    alu s regs sd f = .next (s.setCur (s.cur.completed (s.arch.wr sd (f s.arch)))) := by
  unfold alu
  rw [State.sq_pass _ (.inl rfl) h, State.doneWith_completed]
  rfl

theorem Core.free_mono {k : Core} {rs qs : List SReg} (h : k.free rs = true) (hs : ∀ q ∈ qs, q ∈ rs) : k.free qs = true := by
  simp only [Core.free, List.all_eq_true] at *
  exact fun q hq => h q (hs q hq)

/-- A cause that a handler takes, where one exists and none is running, enters it and does nothing else (R253). -/
theorem run_raise_enters {i : Instr} {s : State} {cause : Nat} {info : Word} (hs : HandlerThere s) (hc : dispH cause = true)
    (hi : exec i s = s.run (.raise cause info)) : EntersHandler i s cause info := by
  have he : (if (s.arch.trapvec != 0) = true then s.arch.trapvec else s.reg mSupvec) =
      (if s.arch.trapvec ≠ 0 then s.arch.trapvec else s.reg mSupvec) := by
    by_cases h : s.arch.trapvec = 0 <;> simp_all
  have hne : ((if s.arch.trapvec ≠ 0 then s.arch.trapvec else s.reg mSupvec) != 0) = true := by
    by_cases h0 : s.arch.trapvec = 0
    · have h : s.reg mSupvec ≠ 0 := hs.2.resolve_left fun h => h h0
      rw [if_neg (not_not_intro h0)]
      exact bne_iff_ne.2 h
    · rw [if_pos h0]
      exact bne_iff_ne.2 h0
  refine answers_of (hi.trans ?_)
  simp only [State.run, State.finish, State.raiseCause, he, hc, hs.1, hne, Bool.not_false, Bool.and_self, if_true]
  rfl

/-! ## A core with no latent error -/

theorem State.correct_none {s : State} {c : Nat} (ring : Ring5) (hit : Nat → Bool) (kind : Nat) (h : (s.core c).flaws = []) :
    s.correct c ring hit kind = s := by
  simp [State.correct, h]

theorem State.fatalAt_none {s : State} {c : Nat} (ring : Ring5) (hit : Nat → Bool) (h : (s.core c).flaws = []) :
    s.fatalAt c ring hit = none := by
  simp [State.fatalAt, h]

/-- An access of SQ to clear bytes proceeds, and changes nothing by itself. -/
theorem touch_clear {s : State} {o n : Nat} (h : SpClear s o n) (reads writes : Bool) :
    s.touch s.focus s.arch.seq [(o, n)] reads writes = .ready s := by
  obtain ⟨-, -, hf, ha, hb, hl⟩ := h
  have ha' : s.cur.absentFor false o n = none := ha
  cases reads <;> cases writes <;>
    simp [State.touch, State.touchAs, ha', hb, hl, State.correct_none, State.fatalAt_none, hf]

end Sys2Proof.Machine
end

