-- ==== Sys2Proof/Tests/Slice0.lean ====
section
/-!
SUPPORT. The model's own tests: what the well-formedness checks refuse, words written out from the spec's encoding tables, values worked by
hand from the rules, and for each statement a state and operands that meet its hypotheses.
-/

namespace Sys2Proof.Tests

open Sys2Proof Sys2Proof.Machine

set_option Elab.async false

/-! ## Small states -/

/-- Core 0 in the middle of a task with every resource, at a word of its body. -/
def base : State := State.reset.withFetchWord 96 0

def core0 (s : State) (f : Core → Core) : State := s.modCore 0 f
def arch0 (s : State) (f : Arch → Arch) : State := s.modCore 0 fun k => { k with arch := f k.arch }

/-- s with values in scalar registers of core 0. -/
def setr (s : State) (l : List (Nat × Nat)) : State :=
  arch0 s fun a => { a with sregs := l.foldl (fun m p => kset m p.1 (BitVec.ofNat 64 p.2)) a.sregs }

/-- Core 0 runs an exchange stream. -/
def asExch (s : State) : State := core0 s fun k => { k with run := k.run.map fun r => { r with exch := true } }

/-- The state after i, or s where i does not answer one. -/
def after (i : Instr) (s : State) : State := match exec i s with | .next t => t | _ => s

theorem some_of {α : Type} {o : Option α} (h : o.isSome = true) : ∃ x, o = some x := ⟨o.get h, by simp⟩
/-- A result that is ok, as its state and value. -/
theorem ok_of {ε : Type} {p : State × Except ε Xl} (q : Xl → Bool)
    (h : (match p.2 with | .ok x => q x | .error _ => false) = true) : ∃ x, p = (p.1, .ok x) ∧ q x = true := by
  obtain ⟨u, r⟩ := p
  cases r with
  | error e => cases h
  | ok x => exact ⟨x, rfl, h⟩

/-! ## What is not well-formed (R289) -/

def pop (p : Chan) : VCtl := { qp := 0, z := false, pop := p, push := .none }
def push (p : Chan) : VCtl := { qp := 0, z := false, pop := .none, push := p }
def plain : VCtl := pop .none

theorem test_width_0_refused : (Instr.ext .u 5 6 8 0).wf = false := by decide
theorem test_width_past_64_refused : (Instr.ins 5 6 7 60 5).wf = false := by decide
theorem test_loop_on_s0_refused : (Instr.loop 0 4).wf = false := by decide
theorem test_ld_d_with_sign_refused :
    (Instr.ld .d true { oc := 0, scope := 0, hint := .normal, strong := false } 5 6 0).wf = false := by decide
theorem test_amo_of_a_half_refused :
    (Instr.amo .add .h false { oc := 0, scope := 0, hint := .normal, strong := false } 5 6 0 7).wf = false := by decide
theorem test_cas_of_a_byte_refused :
    (Instr.cas .b false { oc := 0, scope := 0, hint := .normal, strong := false } 5 6 0 7).wf = false := by decide
theorem test_vl_pops_la_refused : (Instr.vld .w (pop .la) 3 2 0).wf = false := by decide
theorem test_vl_pushes_as_refused : (Instr.vaccr false 3 (push .as) 3 2 0).wf = false := by decide
theorem test_va_pops_sl_refused : (Instr.vmov .i32 (pop .sl) 3 (.v 4)).wf = false := by decide
theorem test_va_pushes_la_refused : (Instr.vhash .i32 (push .la) 3 (.v 4) (.v 5) (.v 6)).wf = false := by decide
theorem test_vs_pops_ca_refused : (Instr.vst .w (pop .ca) 4 5 0).wf = false := by decide
theorem test_vs_with_z_refused : (Instr.vst .w { plain with z := true } 4 5 0).wf = false := by decide
theorem test_integer_rounding_refused : (Instr.vadd .i32 .rtz plain 3 (.v 4) (.v 5)).wf = false := by decide
theorem test_stochastic_add_refused : (Instr.vadd .f32 .sr plain 3 (.v 4) (.v 5)).wf = false := by decide
theorem test_vabs_unsigned_refused : (Instr.vabs .u32 plain 3 (.v 4)).wf = false := by decide
theorem test_vshl_of_floats_refused : (Instr.vshl .f32 plain 3 (.v 4) (.v 5)).wf = false := by decide
theorem test_vcmp_float_unsigned_refused : (Instr.vcmp .f32 .ltu .new plain 1 2 (.v 4) (.v 5)).wf = false := by decide
theorem test_vcmp_one_predicate_refused : (Instr.vcmp .i32 .lt .new plain 2 2 (.v 4) (.v 5)).wf = false := by decide
theorem test_vcmp_all_with_z_refused : (Instr.vcmp .i32 .lt .all { plain with z := true } 1 2 (.v 4) (.v 5)).wf = false := by decide
theorem test_vcvt_bits_without_sr_refused : (Instr.vcvt .fp32 .bf16 .rne plain 3 (.v 4) (.v 5) (.v 0)).wf = false := by decide
theorem test_vred_and_of_floats_refused : (Instr.vred .f32 .and .rne plain 3 (.v 4)).wf = false := by decide
theorem test_vred_rounding_of_min_refused : (Instr.vred .f32 .min .rtz plain 3 (.v 4)).wf = false := by decide
theorem test_viota_of_floats_refused : (Instr.viota .f32 plain 3 (.v 4) 1).wf = false := by decide
theorem test_vget_lane_with_predicate_refused : (Instr.vget (.lane (.v 3) 0 .i32) { plain with qp := 1 } 5).wf = false := by decide
theorem test_pset_first_65_refused : (Instr.pset (.firstImm 65) plain 3).wf = false := by decide
theorem test_mxw_slot_15_refused : (Instr.mxw 5 15).wf = false := by decide
theorem test_pubv_version_0_refused : (Instr.pubv 5 40 0 false).wf = false := by decide
theorem test_mfs_unknown_register_refused : (Instr.mfs 5 0x006).wf = false := by decide
theorem test_mts_read_only_refused : (Instr.mts 0x021 5).wf = false := by decide
theorem test_fence_scope_0_refused : (Instr.fence 0 1).wf = false := by decide
theorem test_depdec_scope_0_refused : (Instr.depdec 0 (.reg 5)).wf = false := by decide
theorem test_cancel_level_5_refused : (Instr.cancel 5 5 (.imm 1)).wf = false := by decide
theorem test_step_0_refused : (Instr.stepCommit 0).wf = false := by decide

/-! ## Words of the spec's examples and tables (three parcels, the first lowest) -/

/-- The twelve bytes of three parcels. -/
def word (a b c : Nat) : List Byte := leBytes 12 (a + b * 2 ^ 32 + c * 2 ^ 64)

/-- The bytes decode, whole, to i. -/
def reads (bs : List Byte) (i : Instr) : Bool := match decode bs with | .ok (j, n) => j == i && n == bs.length | .error _ => false

def ma : MemAttr := { oc := 0, scope := 0, hint := .normal, strong := false }

/-- The examples of class SA: R323, R392, R375, R327, R328, R333, R336, R337, R342, R349, R352, R354, R355, R362, R363, R364, R369, R374,
R377, R382, R383, R384. -/
theorem test_sa_examples_decode : [
    (word 0x00218804 0 5, Instr.add 3 4 (.imm 5)), (word 0x00428030 0 0, .sub 5 0 (.reg 6)), (word 0x01028C00 0 0, .or 5 6 (.reg 0)),
    (word 0x00E28C04 0 0xFF, .and 5 6 (.imm 0xFF)), (word 0x04000804 1 0xFFFFFFFA, .br .ne 4 (.imm6 0) 0xFFFFFFFA),
    (word 0x04400004 0 0x1E, .call (.off 0x1E)), (word 0x01C28C00 0 0, .clz 5 6), (word 0x02628C38 6 0, .cmp .ltu 5 6 (.reg 7)),
    (word 0x00A28C38 0x10 0, .div .u 5 6 (.reg 7)), (word 0x02828C04 0x10 0x308, .ext .u 5 6 8 12),
    (word 0x02C28C38 0x800 0, .hash 5 6 7 8)].all (fun p => reads p.1 p.2) = true := by decide +kernel
theorem test_sa_more_examples_decode : [
    (word 0x02A28C04 0x700 0x308, Instr.ins 5 6 7 8 12), (word 0x04207C00 0 0, .jmp (.reg 62)),
    (word 0x02E28000 0x89ABCDEF 0x01234567, .li 5 0x0123456789ABCDEF), (word 0x04600800 0 0xFFFFFFF7, .loop 4 0xFFFFFFF7),
    (word 0x02028C04 0x10 0x64, .min .u 5 6 (.imm 100)), (word 0x00828C38 0x10 0, .mulh .u 5 6 (.reg 7)), (word 0 0 0, .nop),
    (word 0x01E28C00 0 0, .popc 5 6), (word 0x00C28C04 0 0xFFFFFFF9, .rem .s 5 6 (.imm 0xFFFFFFF9)),
    (word 0x02428C38 0x800 0, .sel 5 6 (.reg 7) 8), (word 0x01A28C04 0 4, .sra 5 6 (.imm 4))].all (fun p => reads p.1 p.2) = true := by
  decide +kernel

/-- The examples of class SM: R324, R335, R338, R350, R358, R360, R378, R386, R388, R389, R423. -/
theorem test_sm_examples_decode : [
    (word 0x20438818 0x12 0, Instr.amo .add .w false { ma with oc := 2 } 7 4 0 3), (word 0x20638818 3 0, .cas .d false ma 7 4 0 3),
    (word 0x21200828 0 0x312, .cpgo 3 0x12 4 5), (word 0x21000800 2 0x100, .feclr 4 0x100), (word 0x2002FE00 5 0x10, .ld .h true ma 5 63 0x10),
    (word 0x20828800 2 0x200, .ldfe false 5 4 0x200), (word 0x21E00800 0x20000 0x1000, .pref .retain 0 4 0x1000),
    (word 0x21800800 0x400 0, .spevictDrop 4 0), (word 0x21628C00 0 0, .spfill .normal 0 6 0 5),
    (word 0x20230800 0x183 8, .st .d { ma with scope := 3 } 4 8 6),
    (word 0x21C28830 0 0, .wenq 0 .normal 4 0 5 6)].all (fun p => reads p.1 p.2) = true := by decide +kernel

/-- The examples of classes VL and VS: R407, R408, R411. -/
theorem test_vl_vs_examples_decode : [
    (word 0x40814080 0x12002800 0, Instr.vldt true 2 plain 40 4 0 5), (word 0x40A04000 0x1C040000 5, .vaccr false 3 plain 8 0 5),
    (word 0x808060C8 0x40000 0, .vstc .w { plain with qp := 4 } 12 6 0)].all (fun p => reads p.1 p.2) = true := by decide +kernel

/-- The examples of class VA: R376, R379, R404, R412, R413, R415-R421. -/
theorem test_va_examples_decode : [
    (word 0x63401800 0 0x04200000, Instr.plog .and plain 3 1 2), (word 0x63602000 0 0x01400800, .pset (.firstImm 10) plain 4),
    (word 0x60601800 0x01802804 2, .vfma .f32 .rtz plain 3 (.v 4) (.v 5) (.v 6)),
    (word 0x61A00800 0x4808 0x40800, .vcmp .f32 .lt .new plain 1 2 (.v 8) (.v 9)),
    (word 0x6200A000 0x05C0B015 0x0600000A, .vcvt .fp32 .e4m3 .sr plain 20 (.v 21) (.v 22) (.v 23)),
    (word 0x63202808 0x1E 0, .vget (.lane (.v 30) 0 .u32) plain 5), (word 0x63802800 0x02403806 1, .vhash .f32 plain 5 (.v 6) (.v 7) (.s 9)),
    (word 0x62800808 0x407 0x200000, .viota .u32 plain 1 (.s 7) 1), (word 0x62403800 0x4808 0, .vperm .f32 plain 7 (.v 8) (.v 9)),
    (word 0x6220F188 0x1F 0xC00, .vred .u32 .minu .rne { plain with qp := 3 } 30 (.v 31)),
    (word 0x61C01000 0x200003 0xA0000, .vsel .f32 plain 2 5 (.v 3) (.s 0)),
    (word 0x62606000 0x20000A 0x200400, .vslide true .f32 plain 12 (.v 10) (.s 0) 1)].all (fun p => reads p.1 p.2) = true := by
  decide +kernel

/-- The examples of classes EC and SY: R339, R345, R370, R371, R380, R414, R422, R334, R340, R347, R348, R351, R353, R365, R385, R390, R393-R395,
R401, R426, R428, R159. -/
theorem test_ec_examples_decode : [
    (word 0xA0604000 0x12 0, Instr.cptpl 0x12 4), (word 0xA0044009 0 0, .ecgo .mx 9 4), (word 0xA0204000 5 0, .mxw 4 5),
    (word 0xA0400009 0 0, .mxgo 9), (word 0xA0800005 0xA028 0, .pubv 5 40 2 true), (word 0xA0A00005 0x28 0, .refstop 5 40),
    (word 0xA0C00005 0x28 0, .verget 5 40)].all (fun p => reads p.1 p.2) = true := by decide +kernel
theorem test_sy_examples_decode : [
    (word 0xC0800000 0x280 3, Instr.fence 5 3), (word 0xC1838600 1 0, .cancel 7 1 (.reg 3)), (word 0xC1400004 0x280 3, .depdec 5 (.imm 3)),
    (word 0xC0200000 0 0, .eret), (word 0xC0C00004 0 5, .evset (.bit 5)), (word 0xC2400000 0 0, .halt), (word 0xC1E00000 0 0, .idle),
    (word 0xC0428000 0 0x40, .mfs 5 0x040), (word 0xC0600C00 0 0x30, .mts 0x030 6), (word 0xC1228004 0 12, .spawn 5 (.imm 12)),
    (word 0xC2200000 0 7, .stepBegin 7), (word 0xC2200000 1 7, .stepCommit 7)].all (fun p => reads p.1 p.2) = true := by decide +kernel
theorem test_sy_more_examples_decode : [
    (word 0xC1600000 0 0, Instr.tend), (word 0xC0000000 0 0x77, .trap 0x77), (word 0xC2000000 0 0, .trig), (word 0xC2628000 0 0, .unpin 5 0),
    (word 0xC0A00000 0 0x01020000, .waitc 0 0 2 1), (word 0xC1C00828 0x600 0x100, .xmc 4 0x100 5 6),
    (word 0xC1A00000 0 3, .xsync 3)].all (fun p => reads p.1 p.2) = true := by decide +kernel

/-- FENCE.DEV 0x0003 in memory (R159). -/
theorem test_fence_bytes : reads [0x00, 0x00, 0x80, 0xC0, 0x80, 0x02, 0x00, 0x00, 0x03, 0x00, 0x00, 0x00] (.fence 5 3) = true := by
  decide +kernel

/-! ## Fields that a decode refuses, with the bit that TRAPINFO names (R289) -/

/-- A nonzero reserved immediate of NOP, an unused sd of CLZ's neighbour, opcode 0x18 of SA, which is no instruction. -/
theorem test_reserved_fields_refused :
    (match decode (word 0 0 1) with | .error (.illegalField 64) => true | _ => false) = true ∧
    (match decode (word (0x18 * 2 ^ 21) 0 0) with | .error .illegalOp => true | _ => false) = true ∧
    (match decode (word (0x0E * 2 ^ 21) 0 1) with | .error (.illegalField 64) => true | _ => false) = true := by decide +kernel

/-! ## Values worked in the spec -/

/-- What i leaves in s5, of operands in scalar registers. -/
def s5Of (i : Instr) (l : List (Nat × Nat)) : Word := (after i (setr base l)).arch.rd 5

/-- The results that R336, R337, R349, R352, R354, R369 and R382 work out. -/
theorem test_clz_value : s5Of (.clz 5 6) [(6, 0x10000)] = 47 := by decide +kernel
theorem test_clz_of_0 : s5Of (.clz 5 6) [(6, 0)] = 64 := by decide +kernel
theorem test_cmp_ltu_value : s5Of (.cmp .ltu 5 6 (.reg 7)) [(5, 9), (6, 2 ^ 64 - 1), (7, 1)] = 0 := by decide +kernel
theorem test_ext_u_value : s5Of (.ext .u 5 6 8 12) [(6, 0xABCD12)] = 0xBCD := by decide +kernel
theorem test_ext_s_value : s5Of (.ext .s 5 6 8 12) [(6, 0xABCD12)] = 0xFFFFFFFFFFFFFBCD := by decide +kernel
theorem test_ins_value : s5Of (.ins 5 6 7 8 12) [(6, 0), (7, 0xFBCD)] = 0xBCD00 := by decide +kernel
theorem test_mulh_u_value : s5Of (.mulh .u 5 6 (.reg 7)) [(6, 2 ^ 63), (7, 2 ^ 63)] = 2 ^ 62 := by decide +kernel
theorem test_rem_value : s5Of (.rem .s 5 6 (.imm 0xFFFFFFF9)) [(6, 2 ^ 64 - 20)] = BitVec.ofInt 64 (-6) := by decide +kernel
/-- DIV by 0 gives all ones, and the one signed quotient that does not fit gives −2^63 (R342). -/
theorem test_div_corners : s5Of (.div .s 5 6 (.reg 7)) [(6, 3), (7, 0)] = 0xFFFFFFFFFFFFFFFF ∧
    s5Of (.div .s 5 6 (.reg 7)) [(6, 2 ^ 63), (7, 2 ^ 64 - 1)] = 0x8000000000000000 := by decide +kernel
/-- ADD wraps (R323), and a write of s0 leaves it 0 (R295). -/
theorem test_add_wraps : s5Of (.add 5 6 (.imm 1)) [(6, 2 ^ 64 - 1)] = 0 := by decide +kernel
theorem test_add_to_s0 : (after (.add 0 6 (.imm 1)) (setr base [(6, 4)])).arch.rd 0 = 0 := by decide +kernel
/-- A shift count keeps its low six bits (R384). -/
theorem test_shl_by_64 : s5Of (.shl 5 6 (.imm 64)) [(6, 3)] = 3 := by decide +kernel
theorem test_sra_fills_with_the_sign : s5Of (.sra 5 6 (.imm 4)) [(6, 2 ^ 63)] = 0xF800000000000000 := by decide +kernel
theorem test_andn_sign_extends : s5Of (.andn 5 6 (.imm 0xFF)) [(6, 2 ^ 64 - 1)] = 0xFFFFFFFFFFFFFF00 := by decide +kernel
theorem test_min_u_sign_extends : s5Of (.min .u 5 6 (.imm 0xFFFFFFFF)) [(6, 7)] = 7 := by decide +kernel
theorem test_max_s : s5Of (.max .s 5 6 (.imm 0xFFFFFFFF)) [(6, 2 ^ 64 - 7)] = 0xFFFFFFFFFFFFFFFF := by decide +kernel
theorem test_sel_of_0 : s5Of (.sel 5 6 (.imm 9) 7) [(6, 4), (7, 0)] = 9 := by decide +kernel
theorem test_popc : s5Of (.popc 5 6) [(6, 0xF00F)] = 8 := by decide +kernel
theorem test_li : s5Of (.li 5 0x0123456789ABCDEF) [] = 0x0123456789ABCDEF := by decide +kernel

/-- LOOP with 2 goes round again with 1, and with 1 ends with 0 (R363). -/
theorem test_loop : (let s := after (.loop 5 0) (setr base [(5, 2)]); s.arch.rd 5 = 1 ∧ s.arch.pc = 0x20000) ∧
    (let s := after (.loop 5 0) (setr base [(5, 1)]); s.arch.rd 5 = 0 ∧ s.arch.pc = 0x2000C) := by decide +kernel
/-- CALL leaves the next word's address in lk (R333), 12 bytes on. -/
theorem test_call : (let s := after (.call (.off 30)) base; s.arch.rd 62 = 0x2000C ∧ s.arch.pc = 0x20078) := by decide +kernel
/-- BR.NE compares with a signed six-bit immediate (R328). -/
theorem test_br_imm6 : (after (.br .eq 4 (.imm6 0x3F) 3) (setr base [(4, 2 ^ 64 - 1)])).arch.pc = 0x2000C ∧
    (after (.br .ne 4 (.imm6 0x3F) 0xFFFFFFFD) (setr base [(4, 2 ^ 64 - 1)])).arch.pc = 0x2000C := by decide +kernel

/-- TRAP saves its address and cause, and goes to TRAPVEC (R253, R394). -/
theorem test_trap : (let s := after (.trap 0x77) (arch0 base fun a => { a with trapvec := 0x20300 })
    s.arch.sv = true ∧ s.arch.nest = true ∧ s.arch.trappc = 0x20000 ∧ s.arch.trapinfo = 0x77 ∧ s.arch.word = 0x20300) := by decide +kernel
/-- LD.D at the last word but four of the scratchpad's window is WINDOW_FAULT even with 128 pages (R70). -/
theorem test_ld_past_the_window : (let s := after (.ld .d false ma 5 4 0) (setr (arch0 base fun a => { a with trapvec := 0x20300 })
      [(4, 0xFF00 * 2 ^ 48 + 0x7FFFC)])
    s.arch.sv = true ∧ s.arch.trapcause.toNat = cWindowFault) := by decide +kernel
/-- Element (1, 1) of tile z1 lies at 0x4104 of the accumulator view (R70). -/
theorem test_accumulator_view : ((after (.ld .w false ma 5 4 0) (setr (arch0 base fun a =>
      a.setTile 1 { data := List.replicate 65 0 ++ 0x12345678 :: List.replicate 4030 0, count := 0, clip := false })
      [(4, 0xFF01 * 2 ^ 48 + 0x4104)])).arch.rd 5) = 0x12345678 := by decide +kernel
/-- A store of a half-word leaves the bytes beside it (R389). -/
theorem test_st_h : ((after (.st .h ma 4 2 6) (setr (core0 base (·.put 0x100 [1, 2, 3, 4, 5, 6])) [(4, 0xFF00 * 2 ^ 48 + 0x100), (6, 0xAABBCCDD)])
    ).arch.spBytes 0x100 6) = [1, 2, 0xDD, 0xCC, 5, 6] := by decide +kernel

/-- The header of R50's example, and its bytes. -/
theorem test_header_bytes : reads [0x01, 0x00, 0xC5, 0xE0, 0x00, 0x02, 0x00, 0x00]
    (.sectionHeader { dVA := 1, dVL := 0, num := 5, len := 12, dVS := 0, dMX := 2, dCP := 0, dNM := 0 }) = true := by decide +kernel

/-- The check value of the CRC (R108). -/
theorem test_crc32c : crc32c ([0x31, 0x32, 0x33, 0x34, 0x35, 0x36, 0x37, 0x38, 0x39] : List Byte) = 0xE3069283 := by decide +kernel

/-- 3 × 5 + 2^−30 under RTZ is 15, inexact (R404's example); 1.3125 to E4M3 rounds up exactly when r[31] is 1 (R86). -/
theorem test_fma_rtz : ffma .rtz 0x40400000 0x40A00000 0x30800000 = (0x41700000, 1) := by decide +kernel
theorem test_stochastic_rounding : (convert .fp32 .e4m3 .sr 0x80000000 0x3FA80000).1 = 0x3B ∧
    (convert .fp32 .e4m3 .sr 0x7FFFFFFF 0x3FA80000).1 = 0x3A := by decide +kernel
/-- 2^24 + 1 ties to even, and 1 / 3, √2 and 2^0.5 round to nearest. -/
theorem test_rounding_to_even : (fadd .rne 0x4B800000 0x3F800000).1 = 0x4B800000 ∧ (fdiv 0x3F800000 0x40400000).1 = 0x3EAAAAAB ∧
    (fsqrt 0x40000000).1 = 0x3FB504F3 ∧ (fexp2 0x3F000000).1 = 0x3FB504F3 := by decide +kernel
/-- log2 8 = 3 is exact (R97). -/
theorem test_log2_of_8 : flog2 0x41000000 = (0x40400000, 0) := by decide +kernel
/-- A block whose largest magnitude is about 1.77 × 2^−7 has the MXFP4 scale 118 (the example after R90). -/
theorem test_block_scale : blockScale .e2m1 [0x3C621965, 0x3C23D70A, 0x7F800000] = 118 := by decide +kernel
def detCmd (b w : Nat) : CollCmd := { (default : CollCmd) with b := BitVec.ofNat 32 b, w := BitVec.ofNat 5 w }
def detMember (b w : Nat) (v : W32) : Member := { tag := 1, op := 0x43, rank := 0, cmd := detCmd b w, data := [v] }
/-- DET forms 1 + 1 first: 2^24 + 2 (R278's example). -/
theorem test_det_tree : node [detMember 0 2 0x4B800000, detMember 4 1 0x3F800000, detMember 6 1 0x3F800000] 0 0 3 = 0x4B800001 := by
  decide +kernel
/-- The binding entry of R31's example: tasks 0 to 63 on cores 512 to 515. -/
theorem test_core_numbers : dieOf 512 = 4 ∧ clusterOf 512 = 128 ∧ clusterOf 515 = 128 ∧ dieOf 1023 = 7 := by decide
/-- R132's example: 0x12 + (0x2_0000 << 8) + (0x100 << 27) starts template 0x12 at scratchpad 0x2_0000 with offset 0x100 units. -/
theorem test_aperture_word : (let d : Nat := 0x0000000802000012; d % 256 = 0x12 ∧ d / 256 % 2 ^ 19 = 0x20000 ∧ d / 2 ^ 27 = 0x100) := by
  decide

/-! ## States that meet the hypotheses of the statements, named after them -/

theorem witness_NopChangesNothingButRetired : (∃ t, exec .nop base = .next t) ∧
    (0 < 2 ^ 95 ∧ 2 ^ 95 < 2 ^ 96 ∧ 2 ^ 95 / 2 ^ 21 % 2 ^ 11 = 0) ∧ (0 < 1 ∧ 1 / 2 ^ 21 % 2 ^ 11 = 0) ∧ (0 < 7 ∧ 7 < 8) :=
  ⟨⟨_, rfl⟩, by decide, by decide, by decide⟩
theorem witness_IntegerWordsAndBitFields_words : base.cur.free (63 :: 0 :: src2Regs (.reg 62)) = true := by decide +kernel
theorem witness_IntegerWordsAndBitFields_fields : base.cur.free [0, 63, 62] = true ∧
    (1 ≤ (1 : Fin 128).val ∧ (63 : Fin 64).val + (1 : Fin 128).val ≤ 64) ∧
    (1 ≤ (64 : Fin 128).val ∧ (0 : Fin 64).val + (64 : Fin 128).val ≤ 64) := by decide +kernel
theorem witness_PopcCountsSetBits : base.cur.free [63, 0] = true := by decide +kernel
theorem witness_SelectingWordsWriteTheirResults : base.cur.free (63 :: 0 :: 1 :: 2 :: src2Regs (.imm 0)) = true := by decide +kernel

/-- The last word of the body, from the first. -/
theorem witness_TransfersWithinTheBody : (let s := setr base [(5, 0x20000 + 1188), (6, 2), (7, 1)]
    Vocab.inBody s 297 (0x20000 + 1188) ∧ s.cur.free [5, 6, SReg.lk] = true ∧ s.arch.rd 5 = 0x20000 + 1188 ∧ 1 < (s.arch.rd 6).toNat ∧
      (s.arch.rd 7).toNat ≤ 1 ∧ Vocab.holds .ltu (s.arch.rd 7) (s.arch.rd 6) = true ∧ Vocab.holds .gt (s.arch.rd 7) (s.arch.rd 6) = false) := by
  unfold Vocab.inBody; decide +kernel
theorem witness_TransfersWithinTheBody_itself : Vocab.inBody base 0 0x20000 := by unfold Vocab.inBody; decide +kernel

def header5 : Header := { dVA := 0xFF, dVL := 0, num := 5, len := 3, dVS := 0, dMX := 0, dCP := 0, dNM := 0 }
theorem witness_HeaderOpensItsSection :
    (let s := arch0 base fun a => { a with atHeader := true, sect := 4, jumped := false }
     s.inHandler = false ∧ 0 < header5.len.toNat ∧ header5.len.toNat % 3 = 0 ∧ 5 < 2 ^ 32 ∧ 5 % 16 = header5.num.toNat ∧ s.arch.sect < 5 ∧
      (s.arch.jumped = false → 5 = s.arch.sect + 1) ∧ (s.arch.jumped = true → 5 ≤ s.arch.sect + 16)) ∧
    (let s := arch0 base fun a => { a with atHeader := true, sect := 5, jumped := true }
     s.inHandler = false ∧ 21 % 16 = header5.num.toNat ∧ s.arch.sect < 21 ∧ (s.arch.jumped = false → 21 = s.arch.sect + 1) ∧
      (s.arch.jumped = true → 21 ≤ s.arch.sect + 16)) := by decide +kernel

def withVec : State := arch0 base fun a => { a with trapvec := 0x20300 }
def inHandler (pc : Word) : State := arch0 base fun a =>
  { a with sv := true, nest := true, hpc := 0x20300, trappc := pc, trapcause := 0x11, trapvec := 0x20300 }
theorem witness_TrapsEnterAndLeaveTheHandler :
    (HandlerThere withVec ∧ withVec.cur.free [63, 0] = true ∧ withVec.arch.sv = false ∧
      (0x001 : Fin 4096).val ∈ [0x001, 0x002, 0x003, 0x004, 0x070, 0x071, 0x072, 0x073, 0x074, 0x080, 0x081, 0x082, 0x083, 0x084, 0x090, 0x0A0] ∧
      0x080 ≤ (0x084 : Fin 4096).val) ∧
    ((inHandler 0x20000).arch.sv = true ∧ (inHandler 0x20000).arch.trappc = (inHandler 0x20000).arch.pc) ∧
    ((inHandler 0x2000C).arch.trappc = (inHandler 0x2000C).arch.pc + 12 ∧ (inHandler 0x2000C).arch.atHeader = false) ∧
    ((inHandler 0x20004).arch.trappc ≠ (inHandler 0x20004).arch.pc ∧ (inHandler 0x20004).arch.trappc ≠ (inHandler 0x20004).arch.pc + 12) ∧
    (inHandler 0).arch.trapcause.field 0 8 ≠ 0 := by unfold HandlerThere; decide +kernel
/-- A handler from SUPVEC alone (R72). -/
theorem witness_TrapsEnterAndLeaveTheHandler_supvec : HandlerThere { base with regs := [(mSupvec, 0x20300)] } := by
  unfold HandlerThere; decide +kernel

def vadd : Instr := .vadd .i32 .rne plain 10 (.v 1) (.v 2)
def idleCopy : Copy :=
  { kind := .evict 0, addr := 0, sec := 1, seq := 1, next := 0, counted := 0, net := 0, expected := 0, writeBack := none }
theorem witness_WaitsAndEventsComplete :
    (let s := setr (arch0 base fun a => { a with events := 0x11 }) [(4, 0x11), (5, 0x13)]
     s.cur.free (evRegs (.reg 4)) = true ∧ s.arch.events &&& s.arch.rd 4 = s.arch.rd 4 ∧ s.arch.events &&& s.arch.rd 5 ≠ s.arch.rd 5 ∧
      s.cur.free (evRegs (.bit 63)) = true) ∧
    (base.arch.vl = [] ∧ base.arch.va = [] ∧ base.arch.vs = [] ∧ base.arch.mx = [] ∧ base.arch.nm = [] ∧ base.arch.cl = [] ∧
      base.cur.copies = [] ∧ base.cur.ldCount ≤ (0 : BitVec 8).toNat ∧ base.cur.pend = [] ∧ base.net = [] ∧ base.fenceMet 7 0xFFFF = true) ∧
    (let s (owing : Bool) := core0 base fun k => { k with copies := [(1, { idleCopy with owing := owing })] }
     (∀ c ∈ (s true).cur.copies, c.2.owing = true) ∧ ∃ c ∈ (s false).cur.copies, c.2.owing = false) ∧
    (after vadd base).arch.va ≠ [] ∧
    (let s := after (.ld .d false ma 3 4 0) (setr base [(4, 0x50000)]); (0 : BitVec 8).toNat < s.cur.ldCount ∧ s.fenceMet 5 1 = false) ∧
    bitAt base.cur.tracectl 0 = false := by decide +kernel

/-- Scratchpad bytes in pages with nothing in their way, at the window's end. -/
def sp (o : Nat) : Nat := 0xFF00 * 2 ^ 48 + o
theorem witness_LocalLoadsReadTheirBytes : (let s := setr base [(4, sp (2 ^ 19 - 8)), (5, 0xFF02 * 2 ^ 48 + 2 ^ 18 - 8), (6, 0xFF01 * 2 ^ 48 + 2 ^ 19 - 8)]
    s.cur.free [0, 4] = true ∧ s.cur.flaws = [] ∧ (Vocab.ea s 4 0).toNat % 8 = 0 ∧ (Vocab.ea s 4 0).toNat / 2 ^ 48 = 0xFF00 ∧
      SpClear s ((Vocab.ea s 4 0).toNat % 2 ^ 48) 8 ∧ (Vocab.ea s 5 0).toNat / 2 ^ 48 = 0xFF02 ∧ (Vocab.ea s 5 0).toNat % 2 ^ 48 + 8 ≤ 2 ^ 18 ∧
      (Vocab.ea s 6 0).toNat / 2 ^ 48 = 0xFF01 ∧ (Vocab.ea s 6 0).toNat % 2 ^ 48 + 8 ≤ 16384 * s.runD.ntile) := by
  unfold SpClear; decide +kernel

theorem isTask_base : Vocab.IsTask base := ⟨_, rfl, rfl⟩
theorem witness_ScratchpadStoresAndAtomics : (let s := setr base [(4, sp 0x108), (7, 5)]
    s.cur.free [4, 7] = true ∧ SpClear s 0x108 8 ∧ (Vocab.ea s 4 0).toNat / 2 ^ 48 = 0xFF00 ∧ (Vocab.ea s 4 0).toNat % 8 = 0 ∧
      BitVec.ofNat 64 (leNat (s.arch.spBytes 0x108 8)) ≠ s.arch.rd 7) ∧
    (let s := asExch (setr base [(4, sp 0)]); s.cur.free [4, 0] = true ∧ SpClear s 0 8 ∧ s.isExch = true ∧ s.cur.pendingDeliv 0 8 = []) := by
  unfold SpClear; decide +kernel
theorem witness_ScratchpadStoresAndAtomics_task : Vocab.IsTask (setr base [(4, sp 0x108), (7, 5)]) := ⟨_, rfl, rfl⟩
/-- A CAS that matches: the bytes hold 5. -/
theorem witness_ScratchpadStoresAndAtomics_match : (let s := core0 (setr base [(4, sp 0x108), (7, 5)]) (·.put 0x108 (bytesOf 8 5))
    BitVec.ofNat 64 (leNat (s.arch.spBytes 0x108 8)) = s.arch.rd 7) := by decide +kernel
theorem witness_FullEmptyWords : (let s := setr base [(4, sp 0)]
    s.cur.free [3, 4] = true ∧ SpClear s 0 4 ∧ (Vocab.ea s 4 0).toNat / 2 ^ 48 = 0xFF00 ∧ (Vocab.ea s 4 0).toNat % 4 = 0 ∧ 0 ∉ s.arch.full ∧
      0 ∈ (arch0 s fun a => { a with full := [0] }).arch.full) := by unfold SpClear; decide +kernel
/-- One byte past the last page; and a misaligned last word. -/
theorem witness_BadLocalAccessesTrap : (let s := setr withVec [(4, sp (4096 * 128 - 3)), (5, sp 2)]
    HandlerThere s ∧ s.cur.free [3, 4] = true ∧ (Vocab.ea s 4 0).toNat / 2 ^ 48 = 0xFF00 ∧
      4096 * s.runD.npage < (Vocab.ea s 4 0).toNat % 2 ^ 48 + MSize.bytes .w ∧
      (Vocab.ea s 5 0).toNat % 2 ^ 48 + MSize.bytes .w ≤ 4096 * s.runD.npage ∧ (Vocab.ea s 5 0).toNat % MSize.bytes .w ≠ 0) := by
  unfold HandlerThere; decide +kernel

/-- A template of 1 KiB rows from VA 0x50000 into the scratchpad. -/
def tpl : List Word := [0x50000, BitVec.ofNat 64 (4 + 2 * 2 ^ 20), 0, 0, 0, 0, 0, 0]
def copyS : State := arch0 (setr base [(5, 0x200), (6, 3), (10, 0xFF03 * 2 ^ 48 + 8 * 2), (11, 7 + 256 * 0x200 + 2 ^ 27 * 3)]) fun a =>
  { a with tpls := [(7, tpl)] }
theorem witness_CopiesStartOnTheirChannel : copyS.cur.free [5, 6, 11] = true ∧ copyS.inHandler = false ∧ copyS.isExch = false ∧
    kfind copyS.arch.tpls 7 = some tpl ∧ kfind copyS.cur.copies 2 = none ∧ tplBase tpl + 32 * 3 = 0x50060 ∧
    copyOk tpl 0x50060 0x200 copyS.runD.npage = true ∧ 0 < expectedCount tpl 0x50060 ∧ (copyS.arch.rd 5).toNat = 0x200 ∧
    (copyS.arch.rd 6).toInt = 3 ∧ (Vocab.ea copyS 10 0).toNat = 0xFF03 * 2 ^ 48 + 8 * 2 ∧ (copyS.arch.rd 11).toNat % 256 = 7 ∧
    (copyS.arch.rd 11).toNat / 256 % 2 ^ 19 = 0x200 ∧ (copyS.arch.rd 11).toInt / 2 ^ 27 = 3 := by decide +kernel

def page5 : Page := { range := 0x50, res := true, pin := false, dirty := [1, 2], hint := .normal }
def pageS : State := arch0 (setr base [(4, sp (4096 * 127)), (5, sp (4096 * 5)), (8, 0x50FFF), (9, 0x60000)]) fun a => { a with pages := [(5, page5)] }
theorem witness_PageWordsExecute : pageS.cur.free [3, 8] = true ∧ pageS.inHandler = false ∧ (Vocab.ea pageS 8 0).toNat / 2 ^ 48 = 0 ∧
    pageS.arch.pageOf 0x50FFF = some 5 ∧ pageS.arch.pageOf 0x60000 = none ∧ (Vocab.ea pageS 4 0).toNat / 2 ^ 48 = 0xFF00 ∧
    4096 * 127 < 4096 * pageS.runD.npage ∧ 4096 * 127 < 2 ^ 19 ∧ kfind pageS.arch.pages 127 = none ∧ kfind pageS.arch.pages 5 = some page5 ∧
    pageS.isExch = false ∧ pageS.cur.freeChan = some 0 ∧ 127 < pageS.runD.npage ∧
    (pageS.arch.rd 4).toNat = 0xFF00 * 2 ^ 48 + 4096 * 127 ∧ (Vocab.ea pageS 9 0).toNat % 4096 = 0 ∧ (Vocab.ea pageS 9 0).toNat < 2 ^ 48 := by
  decide +kernel

/-! Accesses that translate: the last bytes of page 0x50. -/

def globS : State := setr base [(4, 0x50FF8), (7, 5), (8, 0x50000)]
def globT (acc : Access) (va n : Nat) : State × Except (XlFail × Nat) Xl := globS.translateRange (some globS.focus) (dieOf globS.focus) globS.runD.job va n acc

theorem witness_GlobalLoadsAndAtomicsLeave_loads : ∃ x, Vocab.Maps globS 0x50FF8 8 .read (globT .read 0x50FF8 8).1 x ∧ globS.cur.free [3, 4] = true ∧
    (Vocab.ea globS 4 0).toNat = 0x50FF8 ∧ 0x50FF8 % 8 = 0 := by
  obtain ⟨x, h, q⟩ := ok_of (p := globT .read 0x50FF8 8) (fun x => !inMgmt x.pa) (by decide +kernel)
  exact ⟨x, ⟨by decide, by decide +kernel, h, by simpa using q⟩, by decide +kernel, by decide +kernel, by decide⟩
theorem witness_GlobalLoadsAndAtomicsLeave_atomics : ∃ x, Vocab.Maps globS 0x50FF8 8 .write (globT .write 0x50FF8 8).1 x ∧ globS.cur.free [3, 4, 7] = true ∧
    (globT .write 0x50FF8 8).1.focus = globS.focus ∧ (globT .write 0x50FF8 8).1.cur.run.isSome = true ∧
    (globT .write 0x50FF8 8).1.netFits 0 8 = true ∧ (globT .write 0x50FF8 8).1.cur.pend.length < 512 ∧ (globT .write 0x50FF8 8).1.cur.storeWaits 3 0x50FF8 x.pa 8 true false = false := by
  obtain ⟨x, h, q⟩ := ok_of (p := globT .write 0x50FF8 8)
    (fun x => !inMgmt x.pa && !(globT .write 0x50FF8 8).1.cur.storeWaits 3 0x50FF8 x.pa 8 true false) (by decide +kernel)
  simp only [Bool.and_eq_true, Bool.not_eq_true'] at q
  exact ⟨x, ⟨by decide, by decide +kernel, h, q.1⟩, by decide +kernel, by decide +kernel, by decide +kernel, by decide +kernel, by decide +kernel, q.2⟩
/-- The store's last bytes end at the page's end, and the quota holds the line. -/
theorem witness_GlobalStoresAreHeldUntilTheCommit_stores : ∃ x tk r, Vocab.Maps globS 0x50FF8 8 .write (globT .write 0x50FF8 8).1 x ∧
    (globT .write 0x50FF8 8).1.cur.run = some r ∧ globS.runD = r ∧ (globT .write 0x50FF8 8).1.task r.job r.tcb = some tk ∧
    x.pa % 4096 + 8 ≤ 4096 ∧ ma.scope.val ≠ 3 ∧
    ({ tk with quar := tk.quar ++ [{ va := 0x50FF8, pa := x.pa, bytes := bytesOf 8 5, hint := .normal, strong := false, wenq := false, seq := 1 }] } : Task).lines
      ≤ 32 * (match (globT .write 0x50FF8 8).1.launch r.job r.launch with | some l => l.quota | none => 0) := by
  obtain ⟨x, h, q⟩ := ok_of (p := globT .write 0x50FF8 8) (fun x => x == { pa := 0x50FF8, pa2 := 0, uncached := false }) (by decide +kernel)
  have : x = { pa := 0x50FF8, pa2 := 0, uncached := false } := by simpa using q
  subst this
  exact ⟨{ pa := 0x50FF8, pa2 := 0, uncached := false }, fetchTask, globS.runD, ⟨by decide, by decide +kernel, h, by decide +kernel⟩, by decide +kernel, rfl, by decide +kernel, by decide,
    by decide, by decide +kernel⟩

/-- A queue of 8 slots of 64 bytes at 0x60000, and a payload of 48 bytes. -/
def queueS : State :=
  let s := { base with mem := Memory.writes base.mem 0x50000 (bytesOf 8 5 ++ bytesOf 8 0 ++ bytesOf 8 0x60000 ++ bytesOf 8 (8 * 2 ^ 32 + 64)) }
  core0 (setr s [(8, 0x50000), (9, 48), (13, sp 0x100)]) (·.put 0x100 (List.replicate 48 7))
def queueT : State × Except (XlFail × Nat) Xl := queueS.translateRange (some 0) 0 0 0x50000 64 .write
def queueX : Xl := { pa := 0x50000, pa2 := 0, uncached := false }
def queueP : Xl := queueT.1.provXl 0 0x60140
theorem witness_GlobalStoresAreHeldUntilTheCommit_wenq : ∃ x v, Vocab.Maps queueS 0x50000 64 .write queueT.1 x ∧ SqReady queueS [8, 13, 9] ∧
    (queueS.arch.rd 9).toNat = 48 ∧ spOffset (queueS.arch.rd 13) = some 0x100 ∧ SpClear queueT.1 0x100 48 ∧ queueT.1.netFits 0 48 = true ∧
    (∀ q ∈ queueT.1.cur.pend, q.kind.counted = true → q.hits 0x50000 x.pa 64 = false) ∧ queueT.1.poisoned x.pa 64 = false ∧
    queueOk (fun i => BitVec.ofNat 64 (leNat (queueT.1.viewBytes 0 0 fetchTcb (fun j => x.pa + 8 * i + j) 8 false).1)) 48 = true ∧
    queueP.inRegion 48 = false ∧ queueT.1.cur.storeWaits 0 0x50000 x.pa 8 false false = false ∧
    queueT.1.cur.storeWaits 0 0x60140 queueP.pa 48 false false = false ∧
    ((queueT.1.request 0 0 0x50000 x 64 false .normal).noteReads 0 fetchTcb x 64).quarPut 0 0 fetchTcb
      (quarEntries 1 0 0x60140 queueP (queueT.1.arch.spBytes 0x100 48) .normal false true ++
        quarEntries 1 0 0x50000 x (bytesOf 8 6) .normal false true) [.wenq 0x50000 (queueT.1.arch.spBytes 0x100 48) .normal] = some v := by
  obtain ⟨x, h, q⟩ := ok_of (p := queueT) (fun x => x == queueX) (by decide +kernel)
  have : x = queueX := by simpa using q
  subst this
  obtain ⟨v, e⟩ := some_of (o := ((queueT.1.request 0 0 0x50000 queueX 64 false .normal).noteReads 0 fetchTcb queueX 64).quarPut 0 0 fetchTcb
      (quarEntries 1 0 0x60140 queueP (queueT.1.arch.spBytes 0x100 48) .normal false true ++
        quarEntries 1 0 0x50000 queueX (bytesOf 8 6) .normal false true) [.wenq 0x50000 (queueT.1.arch.spBytes 0x100 48) .normal])
    (by decide +kernel)
  refine ⟨_, v, ⟨by decide, by decide +kernel, h, by decide +kernel⟩, ?_, by decide +kernel, by decide +kernel, ?_, by decide +kernel,
    by decide +kernel, by decide +kernel, by decide +kernel, by decide +kernel, by decide +kernel, by decide +kernel, e⟩
  · unfold SqReady; decide +kernel
  · unfold SpClear; decide +kernel

theorem witness_PrefetchAndTranslationChangeNoRegister : globS.cur.free [4] = true ∧ globS.isExch = false ∧ Memory.wf globS.mem = true ∧
    (∃ p, globS.translate (some 0) 0 0 0x50FF8 .write = p) ∧ (Vocab.ea (setr base [(4, sp 0)]) 4 0).toNat / 2 ^ 48 ≠ 0 :=
  ⟨by decide +kernel, by decide +kernel, by decide +kernel, ⟨_, rfl⟩, by decide +kernel⟩

/-! Words that leave through the Safety Net. -/

theorem witness_WordsLeaveThroughTheSafetyNet_answering : globS.cur.free [3] = true ∧ globS.isExch = false ∧ globS.cur.run.isSome = true ∧
    globS.netFits globS.focus 8 = true ∧ globS.inHandler = false := by decide +kernel
theorem witness_WordsLeaveThroughTheSafetyNet_spawn (t : RegImm) (va : Nat) (h : t = .reg 8 ∧ va = 0x50000 ∨ t = .imm 0 ∧ va = 0x30000) :
    ∃ x, SqReady globS (3 :: regImmRegs t) ∧ Vocab.tcbNamed globS t va ∧ va < 2 ^ 48 ∧ va % 64 = 0 ∧
      Vocab.Maps globS va 64 .write (globT .write va 64).1 x ∧ (globT .write va 64).1.focus = globS.focus ∧
      (globT .write va 64).1.runD = globS.runD ∧ (globT .write va 64).1.cur.run.isSome = true ∧ (globT .write va 64).1.netFits 0 8 = true ∧
      ((globT .write va 64).1.spawnClass 0 va).2 ∉ ((globT .write va 64).1.ring ((globT .write va 64).1.spawnClass 0 va).1).overflow := by
  rcases h with ⟨rfl, rfl⟩ | ⟨rfl, rfl⟩
  · obtain ⟨x, h, q⟩ := ok_of (p := globT .write 0x50000 64) (fun x => !inMgmt x.pa) (by decide +kernel)
    refine ⟨x, ?_, by unfold Vocab.tcbNamed; decide +kernel, by decide, by decide, ⟨by decide, by decide +kernel, h, by simpa using q⟩,
      by decide +kernel, by decide +kernel, by decide +kernel, by decide +kernel, by decide +kernel⟩
    unfold SqReady; decide +kernel
  · obtain ⟨x, h, q⟩ := ok_of (p := globT .write 0x30000 64) (fun x => !inMgmt x.pa) (by decide +kernel)
    refine ⟨x, ?_, ⟨fetchLaunch, rfl, by decide +kernel, by decide +kernel⟩, by decide, by decide, ⟨by decide, by decide +kernel, h, by simpa using q⟩,
      by decide +kernel, by decide +kernel, by decide +kernel, by decide +kernel, by decide +kernel⟩
    unfold SqReady; decide +kernel
theorem witness_WordsLeaveThroughTheSafetyNet_held : SqReady globS [3, 4, 7, 8] ∧ globS.cur.run.isSome = true ∧ globS.isExch = false ∧
    globS.netFits globS.focus 8 = true ∧ (∀ i ∈ globS.net, i.core ≠ globS.focus) := by unfold SqReady; decide +kernel
/-- XMC to all 1,024 cores, of the last word; and to core 1023 alone. -/
theorem witness_WordsLeaveThroughTheSafetyNet_xmc : (let s := asExch (setr base [(5, 524284), (12, 1024 * 2 ^ 10), (13, 1023 + 2 ^ 10)])
    SqReady s [3, 5, 6, 12] ∧ s.cur.run.isSome = true ∧ s.isExch = true ∧ s.netFits s.focus 4 = true ∧ (Vocab.ea s 5 0).toNat % 4 = 0 ∧
      (Vocab.ea s 5 0).toNat < 524288 ∧ (s.arch.rd 12).toNat < 2 ^ 31 ∧ (s.arch.rd 12).toNat / 2 ^ 10 % 2 ^ 11 ≤ 1024 ∧
      (s.arch.rd 12).toNat % 2 ^ 10 + 1 * ((s.arch.rd 12).toNat / 2 ^ 10 % 2 ^ 11 - 1) < 1024 ∧
      (s.arch.rd 13).toNat % 2 ^ 10 + 1 * ((s.arch.rd 13).toNat / 2 ^ 10 % 2 ^ 11 - 1) < 1024) := by unfold SqReady; decide +kernel

def stream0 (sync : Option Nat) : Stream := { core := 0, launch := 0, started := true, parked := false, ended := false, sync := sync }
def exchJob (l : List Stream) : Job := { fetchJob with phase := some { num := 1, pass := 0, part := .exchange, streams := l } }
def exchS : State := { asExch base with jobs := [(0, exchJob [stream0 none])] }
theorem witness_TendXsyncAndVerget : base.inHandler = false ∧ base.isExch = false ∧ base.cur.free [3] = true ∧ exchS.inHandler = false ∧
    exchS.isExch = true ∧ kfind exchS.jobs exchS.runD.job = some (exchJob [stream0 none]) ∧ base.regionSize base.runD.job 4095 = 0 := by
  decide +kernel

/-- The CRC register before and after each slot. -/
def crcSteps : W32 → List (Word × W32) → Bool
  | _, [] => true
  | c, (w, d) :: t => (leBytes 8 w.toNat).foldl crcByte c == d && crcSteps d t
theorem crc_of_steps : ∀ (l : List (Word × W32)) (c : W32), crcSteps c l = true →
    (l.flatMap fun p => leBytes 8 p.1.toNat).foldl crcByte c = ((l.map (·.2)).getLast?).getD c
  | [], _, _ => rfl
  | (w, d) :: t, c, h => by
    simp only [crcSteps, Bool.and_eq_true, beq_iff_eq] at h
    rw [List.flatMap_cons, List.foldl_append, h.1, crc_of_steps t d h.2]
    cases t <;> simp [List.getLast?_cons]

/-- An image of slot 0 and zeros, with the CRC in slot 15, in the scratchpad. -/
def image (s0 : Word) (crc : Nat) : List Word := s0 :: List.replicate 14 0 ++ [BitVec.ofNat 64 crc]
def ecgoS (s0 : Word) (crc : Nat) : State := arch0 (setr base [(4, 0x240)]) fun a =>
  { a with sp := ((image s0 crc).flatMap fun w => bytesOf 8 w.toNat).zipIdx.map fun p => (0x240 + p.2, p.1) }
def imageAt (s : State) : List Word := (List.range 16).map fun i => BitVec.ofNat 64 (leNat (s.arch.spBytes (0x240 + 8 * i) 8))
theorem crc_image (s0 : Word) (crc : Nat) (l : List W32) (h : crcSteps 0xFFFFFFFF#32 ((s0 :: List.replicate 14 0).zip l) = true)
    (n : l.length = 15) : ecbCrc (image s0 crc) = ~~~ (l.getLast?.getD 0) := by
  have e : ((List.range 15).flatMap fun n => leBytes 8 (ecbSlot (image s0 crc) n).toNat) =
      ((s0 :: List.replicate 14 0).zip l).flatMap fun p => leBytes 8 p.1.toNat := by
    match l, n with | [a0, a1, a2, a3, a4, a5, a6, a7, a8, a9, a10, a11, a12, a13, a14], _ => rfl
  unfold ecbCrc crc32c
  rw [e, crc_of_steps _ _ h]
  match l, n with | [a0, a1, a2, a3, a4, a5, a6, a7, a8, a9, a10, a11, a12, a13, a14], _ => rfl
def ecgoOk (eng : EcbEngine) (s : State) : Prop :=
  SqReady s [3, 4] ∧ s.isExch = false ∧ (s.arch.rd 4).toNat = 0x240 ∧ SpClear s 0x240 128 ∧
    (ecbSlot (imageAt s) 0).toNat / 2 ^ 8 % 2 ^ 3 = EcbEngine.code eng ∧ ecbEngineOf ((ecbSlot (imageAt s) 0).toNat % 256) = some eng ∧
    (ecbQ s.arch eng).length < 4 ∧ s.netFits s.focus 128 = true ∧ s.cur.run.isSome = true
/-- Every hypothesis for a command of MX. -/
theorem witness_EcgoPushesACheckedImage_mx : ecgoOk .mx (ecgoS 0x900000103 0x45BE3FEE) ∧
    (ecbCrc (imageAt (ecgoS 0x900000103 0x45BE3FEE))).toNat = (ecbSlot (imageAt (ecgoS 0x900000103 0x45BE3FEE)) 15).toNat % 2 ^ 32 := by
  have e : imageAt (ecgoS 0x900000103 0x45BE3FEE) = image 0x900000103 0x45BE3FEE := by decide +kernel
  refine ⟨by simp only [ecgoOk, SqReady, SpClear]; decide +kernel, ?_⟩
  rw [e, crc_image _ _ [0xEB912F8A, 0x76EAFBA6, 0x4D5BEEEE, 0xEBC6A724, 0x4DB7107D, 0xD0EC7BC2, 0x023C5A8B, 0x32909A4B, 0x4CCD9424, 0xDD74A1B4, 0x0EB79726, 0x400C5ED0, 0x92F28DEA, 0x9838DD7F, 0xBA41C011]
    (by decide +kernel) rfl]
  rfl
/-- Every hypothesis for a command of NM. -/
theorem witness_EcgoPushesACheckedImage_nm : ecgoOk .nm (ecgoS 0x20321 0xD6017A4B) ∧
    (ecbCrc (imageAt (ecgoS 0x20321 0xD6017A4B))).toNat = (ecbSlot (imageAt (ecgoS 0x20321 0xD6017A4B)) 15).toNat % 2 ^ 32 := by
  have e : imageAt (ecgoS 0x20321 0xD6017A4B) = image 0x20321 0xD6017A4B := by decide +kernel
  refine ⟨by simp only [ecgoOk, SqReady, SpClear]; decide +kernel, ?_⟩
  rw [e, crc_image _ _ [0x54628050, 0x6352941A, 0xE9AE62B8, 0x470863AC, 0x5AEFF820, 0x117529E9, 0x92793C5D, 0xABC91D06, 0xC994D29A, 0x69C4A0AC, 0xE364988D, 0x0A6EA4B5, 0x8F495B9F, 0x9A5013BD, 0x29FE85B4]
    (by decide +kernel) rfl]
  rfl
/-- Every hypothesis for a command of CL. -/
theorem witness_EcgoPushesACheckedImage_cl : ecgoOk .cl (ecgoS 0x20442 0x30B9BBEC) ∧
    (ecbCrc (imageAt (ecgoS 0x20442 0x30B9BBEC))).toNat = (ecbSlot (imageAt (ecgoS 0x20442 0x30B9BBEC)) 15).toNat % 2 ^ 32 := by
  have e : imageAt (ecgoS 0x20442 0x30B9BBEC) = image 0x20442 0x30B9BBEC := by decide +kernel
  refine ⟨by simp only [ecgoOk, SqReady, SpClear]; decide +kernel, ?_⟩
  rw [e, crc_image _ _ [0x85C3191B, 0x373A829D, 0x7D8B778B, 0x9D76DB8B, 0x96E2EA1A, 0x450F56C4, 0x955CE1A6, 0x75CA0C0B, 0xA0BB80E6, 0x1D4A6CB3, 0xED8D990C, 0x529E80F1, 0x060F9ECE, 0xFB8931B5, 0xCF464413]
    (by decide +kernel) rfl]
  rfl
theorem witness_BankAndTemplateWords_bank : (let s := arch0 base fun a => { a with bank := [(0, 0x103)] }
    SqReady s [4, 3] ∧ s.isExch = false ∧ (s.arch.bankSlot 0).toNat / 2 ^ 8 % 2 ^ 3 = 1 ∧
      ecbEngineOf ((s.arch.bankSlot 0).toNat % 256) = some .mx ∧ s.arch.mx.length < 16) := by unfold SqReady; decide +kernel
theorem witness_BankAndTemplateWords_templates :
    (let s := core0 (setr base [(4, 0x7FFC0)]) (·.put 0x7FFC0 (tpl.flatMap fun w => bytesOf 8 w.toNat))
     SqReady s [4] ∧ (s.arch.rd 4).toNat = 0x7FFC0 ∧ 0x7FFC0 < 2 ^ 19 ∧ 0x7FFC0 % 64 = 0 ∧ SpClear s 0x7FFC0 64 ∧
      tplOk ((List.range 8).map fun i => BitVec.ofNat 64 (leNat (s.arch.spBytes (0x7FFC0 + 8 * i) 8))) = true) ∧
    (let s := core0 (setr withVec [(4, 0x240)]) (·.put 0x240 [1, 2, 3, 4, 5, 6, 7, 8, 9])
     SqReady s [4] ∧ SpClear s 0x240 64 ∧ HandlerThere s ∧
      tplOk ((List.range 8).map fun i => BitVec.ofNat 64 (leNat (s.arch.spBytes (0x240 + 8 * i) 8))) = false) := by
  unfold SqReady SpClear HandlerThere; decide +kernel

/-! ## Vector words at their engines -/

def ctl : VCtl := { qp := 2, z := true, pop := .la, push := .as }
/-- Vector registers, predicates, tokens and a tile with known contents. -/
def vecS : State := arch0 (setr base [(4, sp (2 ^ 19 - 256)), (6, 4), (7, 0xFF02 * 2 ^ 48 + 0x3FF00), (8, 8), (9, 63)]) fun a =>
  { a with vregs := [(1, Vector.replicate 64 3), (2, Vector.replicate 64 5), (10, Vector.replicate 64 7)],
           pregs := [(2, 0xF0F0), (3, 0xFF00)], tokens := [(1, 2)],
           tiles := [(5, { data := List.replicate 4096 1, count := 3, clip := true })] }
def queued (i : Instr) : State := { after i vecS with atEngine := true }
def noEntry : VEntry := { instr := .nop, addr := 0, sec := 0, num := 0, seq := 0, scal := [], seed := 0 }
def headOf (s : State) (q : Vq) : VEntry := (s.arch.vq q).headD noEntry
def atHeadB (q : Vq) (i : Instr) : Bool :=
  let s := queued i
  let e := headOf s q
  s.atEngine && decide ((s.arch.vq q).head? = some e) && decide (e.instr = i) && (kfind s.arch.owed (Vq.code q)).isNone &&
    !s.cur.blocked q e && s.arch.tokReady (Chan.code (Machine.Instr.vctl i).pop) && decide (s.cur.flaws = [])
theorem atHead_of {q : Vq} {i : Instr} (h : atHeadB q i = true) : AtHead (queued i) q i (headOf (queued i) q) := by
  simp only [atHeadB, Bool.and_eq_true, decide_eq_true_eq, Bool.not_eq_true', Option.isNone_iff_eq_none] at h
  obtain ⟨⟨⟨⟨⟨⟨a, b⟩, c⟩, d⟩, e⟩, f⟩, g⟩ := h
  exact ⟨a, b, c, d, e, f, g⟩
theorem atHead_all {q : Vq} {l : List Instr} (h : l.all (atHeadB q) = true) : ∀ i ∈ l, ∃ s e, AtHead s q i e :=
  fun i m => ⟨_, _, atHead_of (List.all_eq_true.mp h i m)⟩

theorem witness_VectorWordsAreQueued : Vocab.vaWord (.vfma .f32 .rne ctl 767 (.v 1) (.s 4) (.s 0)) = true ∧ vecS.atEngine = false ∧
    vecS.inHandler = false ∧ vecS.undeclared (Machine.Instr.vuse (.vfma .f32 .rne ctl 767 (.v 1) (.s 4) (.s 0))).vregs = none ∧
    vecS.cur.free (Machine.Instr.vuse (.vfma .f32 .rne ctl 767 (.v 1) (.s 4) (.s 0))).scal = true ∧ vecS.arch.va.length < 64 ∧
    vecS.arch.slipOk = true := by decide +kernel
theorem witness_LaneWordsWriteTheirLanes : ∀ i ∈ [Instr.vadd .i32 .rne ctl 10 (.v 1) (.s 6), .vsub .u32 .rne plain 0 (.s 0) (.v 2),
      .vmul .i32 .rne ctl 10 (.v 10) (.v 10), .vfma .i32 .rne ctl 767 (.v 1) (.v 2) (.v 10), .vmin .i32 ctl 10 (.v 1) (.v 2),
      .vmax .i32 ctl 10 (.v 1) (.v 2), .vmin .u32 plain 10 (.v 1) (.v 2), .vmax .u32 ctl 10 (.v 1) (.v 2), .vabs .i32 ctl 10 (.v 1),
      .viota .u32 ctl 10 (.s 6) 0x400], ∃ s e, AtHead s .va i e := atHead_all (by decide +kernel)
theorem witness_LaneWordsWriteTheirLanes_bits : ∀ i ∈ [Instr.vand .f32 ctl 10 (.v 1) (.v 2), .vor .i32 ctl 10 (.v 1) (.v 2), .vxor .u32 ctl 10 (.v 1) (.v 2),
      .vshl .i32 ctl 10 (.v 1) (.v 2), .vshr .u32 ctl 10 (.v 1) (.v 2), .vsra .i32 ctl 10 (.v 1) (.v 2), .vmov .f32 ctl 10 (.v 1),
      .vhash .f32 ctl 10 (.v 1) (.v 2) (.s 6), .vsel .f32 ctl 10 3 (.v 1) (.v 2), .vperm .f32 ctl 10 (.v 1) (.v 2),
      .vslide false .f32 ctl 10 (.v 1) (.v 2) 0, .vslide true .f32 ctl 10 (.v 1) (.v 2) 63], ∃ s e, AtHead s .va i e :=
  atHead_all (by decide +kernel)
theorem witness_FloatLaneWordsWriteTheirLanes : ∀ i ∈ [Instr.vadd .f32 .rna ctl 10 (.v 1) (.v 2), .vsub .f32 .rup ctl 10 (.v 1) (.v 2),
      .vmul .f32 .rdn ctl 10 (.v 1) (.v 2), .vfma .f32 .rtz ctl 10 (.v 1) (.v 2) (.v 10), .vmin .f32 ctl 10 (.v 1) (.v 2),
      .vmax .f32 ctl 10 (.v 1) (.v 2), .vabs .f32 ctl 10 (.v 1), .vdiv ctl 10 (.v 1) (.v 2), .vsqrt ctl 10 (.v 1), .vexp2 ctl 10 (.v 1),
      .vlog2 ctl 10 (.v 1), .vcvt .fp32 .e4m3 .sr ctl 10 (.v 1) (.v 2) (.v 10)], ∃ s e, AtHead s .va i e := atHead_all (by decide +kernel)
def isNan (w : W32) : Bool := decide (0x7F800000 < w.toNat % 2 ^ 31)
/-- The least and greatest NaN patterns, and an infinity, which is none. -/
theorem witness_NanOperandsGiveTheCanonicalNan : isNan 0x7F800001 = true ∧ isNan 0xFFFFFFFF = true ∧ isNan 0xFF800000 = false := by decide
theorem witness_ReductionsCombineTheirLanes : ∀ i ∈ [Instr.vred .i32 .add .rne { ctl with z := false } 10 (.v 1),
      .vred .u32 .and .rne { ctl with z := false } 10 (.v 1), .vred .i32 .or .rne { ctl with z := false } 10 (.v 1),
      .vred .u32 .xor .rne { ctl with z := false } 10 (.v 1), .vred .u32 .maxu .rne { ctl with z := false } 10 (.v 1),
      .vred .u32 .minu .rne { ctl with z := false } 10 (.v 1), .vred .i32 .max .rne { ctl with z := false } 10 (.v 1),
      .vred .i32 .min .rne { ctl with z := false } 10 (.v 1), .vred .f32 .add .rdn { ctl with z := false } 10 (.v 1),
      .vred .f32 .min .rne { ctl with z := false } 10 (.v 1), .vred .f32 .max .rne { ctl with z := false } 10 (.v 1)],
    ∃ s e, AtHead s .va i e := atHead_all (by decide +kernel)
theorem witness_PredicatesAreWrittenAndRead : (∀ i ∈ [Instr.plog .xnor ctl 0 2 3, .plog .and ctl 15 2 3, .pset (.bits 4) ctl 3, .pset (.firstReg 9) ctl 3,
      .pset (.firstImm 64) ctl 3, .vcmp .f32 .ne .new ctl 1 0 (.v 1) (.v 2), .vcmp .u32 .gtu .split { ctl with z := false } 2 3 (.v 1) (.s 6)],
      ∃ s e, AtHead s .va i e) ∧
    (vecS.cur.free [5, 6] = true ∧ vecS.inHandler = false ∧ (767 : VReg).val < vecS.runD.nvec ∧ vecS.cur.flaws = [] ∧ vecS.arch.va = [] ∧
      vecS.arch.vl = [] ∧ vecS.arch.slipOk = true ∧ kfind vecS.arch.owed 2 = none ∧ vecS.arch.tokReady (Chan.code ctl.pop) = true) :=
  ⟨atHead_all (by decide +kernel), by decide +kernel⟩

def vlc : VCtl := { qp := 2, z := false, pop := .none, push := .la }
def vsc : VCtl := { qp := 2, z := false, pop := .none, push := .sl }
/-- An entry at its head whose ranges meet nothing. -/
def clearB (q : Vq) (i : Instr) (rs : VEntry → List (Nat × Nat)) : Bool :=
  let s := queued i
  let e := headOf s q
  atHeadB q i && (rs e).all fun r => !s.cur.pageBusy e.seq r.1 r.2 && (s.arch.absentPage r.1 r.2).isNone && !s.cur.locked r.1 r.2
/-- The last 256 bytes of the scratchpad, lane by lane, and all lanes at the last word. -/
theorem witness_VectorAndTileAccesses_loads :
    let at_ (s : State) (a : Word) (f : Nat → Word) : List (Nat × Nat) := Vocab.ranges s vlc 4 fun l => (a + f l).toNat % 2 ^ 48
    clearB .vl (.vld .w vlc 10 4 0) (fun e => at_ vecS (Vocab.base e 4 0) fun l => BitVec.ofNat 64 (4 * l)) = true ∧
    clearB .vl (.vlds .w vlc 10 4 0 6) (fun e => at_ vecS (Vocab.base e 4 0) fun l => e.scalar 6 * BitVec.ofNat 64 l) = true ∧
    clearB .vl (.vldb .w vlc 10 4 252) (fun e => at_ vecS (Vocab.base e 4 252) fun _ => 0) = true ∧
    clearB .vl (.vldx .w vlc 10 4 0 (.s 9)) (fun e => at_ vecS (Vocab.base e 4 0) fun l =>
      BitVec.ofNat 64 (4 * (Vocab.lane vecS e (.s 9) l).toNat)) = true ∧
    (let i : Instr := .vldx .w vlc 10 4 0 (.s 9)
     (List.range 64).all (fun l => !bitAt ((queued i).arch.prd vlc.qp) l || (queued i).laneIn (Vocab.base (headOf (queued i) .vl) 4 0 +
      BitVec.ofNat 64 (4 * (Vocab.lane (queued i) (headOf (queued i) .vl) (.s 9) l).toNat)) 4) = true) := by decide +kernel
theorem witness_VectorAndTileAccesses_tiles : ∀ i ∈ [Instr.vldt true 3 vlc 10 7 0 8, .vldt false 0 vlc 10 7 0 8, .vaccr true 5 vlc 10 9 0,
    .vaccr false 5 vlc 10 9 0], ∃ s e, AtHead s .vl i e := atHead_all (by decide +kernel)
theorem witness_VectorAndTileAccesses_stores :
    let act := (List.range 64).filter fun l => bitAt (vecS.arch.prd vsc.qp) l
    let at_ (a : Word) (f : Nat → Word) : List (Nat × Nat) := act.map fun l => ((a + f l).toNat % 2 ^ 48, 4)
    clearB .vs (.vst .w vsc 10 4 0) (fun e => at_ (Vocab.base e 4 0) fun l => BitVec.ofNat 64 (4 * l)) = true ∧
    clearB .vs (.vsts .w vsc 10 4 0 6) (fun e => at_ (Vocab.base e 4 0) fun l => e.scalar 6 * BitVec.ofNat 64 l) = true ∧
    clearB .vs (.vstc .w vsc 10 4 0) (fun e => (List.range act.length).map fun j => ((Vocab.base e 4 0 + BitVec.ofNat 64 (4 * j)).toNat % 2 ^ 48, 4))
      = true ∧
    clearB .vs (.vstx .w vsc 10 4 0 (.s 9)) (fun e => at_ (Vocab.base e 4 0) fun l =>
      BitVec.ofNat 64 (4 * (Vocab.lane vecS e (.s 9) l).toNat)) = true ∧
    (let i : Instr := .vstx .w vsc 10 4 0 (.s 9)
     (List.range 64).all (fun l => !bitAt ((queued i).arch.prd vsc.qp) l || (queued i).laneIn (Vocab.base (headOf (queued i) .vs) 4 0 +
      BitVec.ofNat 64 (4 * (Vocab.lane (queued i) (headOf (queued i) .vs) (.s 9) l).toNat)) 4) = true) := by decide +kernel
theorem witness_VectorAndTileAccesses_task : Vocab.IsTask (queued (.vst .w vsc 10 4 0)) := ⟨vecS.runD, by decide +kernel, by decide +kernel⟩
theorem witness_VectorAndTileAccesses_vaccw : (∃ e, AtHead (queued (.vaccw true 5 vsc 10 9 0)) .vs (.vaccw true 5 vsc 10 9 0) e ∧
      (Vocab.base e 9 0).toNat = 63) ∧ ((queued (.vaccw true 5 vsc 10 9 0)).arch.tile 5).data.length = 4096 := by
  refine ⟨⟨_, atHead_of (by decide +kernel), by decide +kernel⟩, ?_⟩
  have h : ((queued (.vaccw true 5 vsc 10 9 0)).arch.tile 5).data = List.replicate 4096 1 := rfl
  rw [h, List.length_replicate]

/-- R418's, R419's and R421's lane results: lanes 0 to 4 of v31 hold 9, 4, 0xFFFF_FFFF, 4, 7. -/
def redS : State := arch0 base fun a =>
  { a with vregs := [(31, Vector.ofFn fun (i : Fin 64) => ([9, 4, 0xFFFFFFFF, 4, 7] : List W32).getD i.val 0)], pregs := [(3, 0x1F)] }
def runVa (i : Instr) (s : State) : State := after i { after i s with atEngine := true }
theorem test_vred_minu : (let v := (runVa (.vred .u32 .minu .rne { plain with qp := 3 } 30 (.v 31)) redS).arch.vrd 30
    laneAt v 0 = 4 ∧ laneAt v 63 = 4) := by decide +kernel
theorem test_vslide_dn : (let v := (runVa (.vslide true .f32 plain 12 (.v 31) (.s 0) 1) redS).arch.vrd 12
    laneAt v 0 = 4 ∧ laneAt v 2 = 4 ∧ laneAt v 63 = 0) := by decide +kernel
theorem test_vget_lane : ((after (.vget (.lane (.v 31) 2 .i32) plain 5) redS).arch.rd 5) = 0xFFFFFFFFFFFFFFFF := by decide +kernel
theorem test_pset_first : (let p := (runVa (.pset (.firstImm 10) plain 4) redS).arch.prd 4; p = 0x3FF) := by decide +kernel
/-- VSTC packs lanes 2, 5 and 9 into three words (R411's example). -/
theorem test_vstc : (let s := arch0 (setr base [(6, sp 0x100)]) fun a =>
      { a with vregs := [(12, Vector.ofFn fun (i : Fin 64) => BitVec.ofNat 32 (i.val + 1))], pregs := [(4, 0x224)] }
    (runVa (.vstc .w { plain with qp := 4 } 12 6 0) s).arch.spBytes 0x100 12) = [3, 0, 0, 0, 6, 0, 0, 0, 10, 0, 0, 0] := by decide +kernel


/-! ## Matrix and near-memory commands, collectives -/

/-- A decoding that gives i. -/
theorem decoded_of {ε : Type} {r : Except ε Instr} {i : Instr} (h : (match r with | .ok j => decide (j = i) | .error _ => false) = true) :
    r = .ok i := by
  cases r with
  | error e => cases h
  | ok j => exact congrArg _ (of_decide_eq_true h)

def hMx : EcbHead := { tag := 9, budget := 0, pushMA := true, scope := 0, oc := 0, role := 0, strict := false, katCmp := false, tsm := false, wait := 1, signal := 6 }
def noLoop : LoopLevel := { count := 0, aStride := 0, bStride := 0, cStride := 0, kLevel := false, ragged := false }
def mma0 : MmaCmd := { aAddr := 0x2000, bypass := false, aFmt := 1, scaleBase := 0, dirBase := 0, transp := false, bFmt := 1, xv := 0, tile := 3, overwrite := true, l0 := noLoop, l1 := noLoop, l2 := noLoop, l3 := noLoop, l4 := noLoop, l5 := noLoop, raggedTable := 0, groups := 0 }
def tw0 : TwfillCmd := { src := 0x2000, fmt := 1, scaleSrc := 0, firstDir := 4, blocks := 2, firstSlot := 10, zeroMask := 1 }
def drain0 : DrainCmd := { tile := 3, fmt := 1, rnd := 0, addr := 0x4000, toBypass := false, row0 := 0, col0 := 0, frozen := false, frozenCols := 0, statusCopy := true, statusAddr := 0x9000 }
def kat0 : KatCmd := { set := 1, fmtA := 1, fmtB := 1, fmtD := 1, sigAddr := 0x4000, expect := 0 }
/-- i in its queue. Its CRC has been checked as it came (R108), and is 0 here. -/
def entry (i : Instr) : Ecb := { slots := ((encodeEcb i).getD []).take 15 ++ [0], addr := 0x20000, sec := 1, seq := 0, seed := 77, net := false, started := false }
def mxS (x : Ecb) : State :=
  let s := arch0 base fun a =>
    { a with mx := [x], events := 0xF1, tokens := [(6, 3)], dirs := (List.range 16).map fun n => (n, BitVec.ofNat 16 (2 * n)) }
  { s with atEngine := true }
def mxReadyB (i : Instr) (x : Ecb) : Bool :=
  let s := mxS x
  let u := s.modCur (·.ageOut s.cycle)
  let h0 := ecbSlot x.slots 0
  let p := mxPlan s.arch i
  maskMet s.arch (ecbSlot x.slots 1) && (mxBad s.runD s.arch i).isNone && (mxRagged s.arch i).isNone && !u.cur.tileWait x p &&
    u.cur.bufferFree (opensWindow i) && !u.cur.twaHeld p && s.cur.flaws.isEmpty && decide (16 ≤ s.cur.toggle) &&
    decide (u.ahead u.focus h0 + p.steps * stepCost h0 u.cur.toggle ≤ u.budgetOf (dieOf u.focus)) && (!bitAt h0 23 || s.arch.tokRoom 6)
theorem mxReady_of {i : Instr} {x : Ecb} (z : x.started = false ∧ x.owing = false) (h : mxReadyB i x = true) (d : decodeEcb .mx x.slots = .ok i)
    (t : (let s := mxS x; let u := s.modCur (·.ageOut s.cycle); u.mxTouch x (mxPlan s.arch i) = .ready u)) :
    Vocab.MxReady (mxS x) i x [] := by
  simp only [mxReadyB, Bool.and_eq_true, Bool.or_eq_true, decide_eq_true_eq, Bool.not_eq_true', Option.isNone_iff_eq_none,
    List.isEmpty_iff] at h
  obtain ⟨⟨⟨⟨⟨⟨⟨⟨⟨a, b⟩, c⟩, e⟩, f⟩, g⟩, j⟩, n⟩, k⟩, l⟩ := h
  exact ⟨rfl, rfl, rfl, rfl, d, z.1, z.2, n, a, b, c, e, f, g, t, j, k, fun y => by simp_all⟩
/-- A comparing KAT whose expected word is e. -/
def hKat : EcbHead := { hMx with role := 2, katCmp := true, pushMA := false }
def katE (e : Word) : KatCmd := { kat0 with sigAddr := 0, expect := e }
def katX (e : Word) : Ecb := { entry .nop with slots := [encodeSlot0 hKat 5 1, 1, 6, 0x100001, 0x800, 0x40, 0, 0, 0, 0, 0, 0, 0, 0, e, 0] }
theorem badSlot_full : ∀ (xs ys : List Word) (ms ns : List Nat) (n : Nat) (e : Word), xs.length = ms.length →
    badSlot n (xs ++ 0 :: ys) (ms ++ (2 ^ 64 - 1) :: ns) = none → badSlot n (xs ++ e :: ys) (ms ++ (2 ^ 64 - 1) :: ns) = none
  | [], ys, [], ns, n, e, _, h => by
    simp only [List.nil_append, badSlot] at h ⊢
    split at h
    · rw [if_pos (by rw [Nat.and_two_pow_sub_one_eq_mod, Nat.mod_eq_of_lt e.isLt])]; exact h
    · cases h
  | x :: xs, ys, m :: ms, ns, n, e, l, h => by
    simp only [List.cons_append, badSlot] at h ⊢
    split at h
    · rw [if_pos ‹_›]; exact badSlot_full xs ys ms ns _ e (by simpa using l) h
    · cases h

def katSlots : List Word := [encodeSlot0 hKat 5 1, 1, 6, 0x100001, 0x800, 0x40, 0, 0, 0, 0, 0, 0, 0, 0]
theorem decodeEcb_kat {s : List Word} {ms : List Nat} (o : (ecbSlot s 0).field 0 8 = 5)
    (g : ¬ (ecbEngineOf 5 ≠ some EcbEngine.mx ∨ (ecbSlot s 0).field 8 3 ≠ EcbEngine.code .mx))
    (m : ecbMasks 5 = some ms) (b : badSlot 0 (s.take 16) ms = none) : decodeEcb .mx s = .ok (.kat (decodeEcbHead s) (decodeKat s)) := by
  unfold decodeEcb
  rw [o]
  dsimp only
  rw [m]
  dsimp only
  rw [if_neg g, b]; rfl
theorem katX_decodes (e : Word) : decodeEcb .mx (katX e).slots = .ok (.kat hKat (katE e)) := by
  have m : ecbMasks 5 = some (((ecbMasks 5).getD []).take 14 ++ (2 ^ 64 - 1) :: [0xFFFFFFFF]) := by decide +kernel
  have b : badSlot 0 (katSlots ++ e :: [0]) (((ecbMasks 5).getD []).take 14 ++ (2 ^ 64 - 1) :: [0xFFFFFFFF]) = none :=
    badSlot_full katSlots [0] (((ecbMasks 5).getD []).take 14) [0xFFFFFFFF] 0 e rfl (by decide +kernel)
  have h : decodeEcbHead katSlots = hKat := by decide +kernel
  have o : (ecbSlot katSlots 0).field 0 8 = 5 := by decide +kernel
  have g : ¬ (ecbEngineOf 5 ≠ some EcbEngine.mx ∨ (ecbSlot katSlots 0).field 8 3 ≠ EcbEngine.code .mx) := by decide +kernel
  have k : decodeKat katSlots = katE 0 := by decide +kernel
  have h' : decodeEcbHead (katX e).slots = decodeEcbHead katSlots := rfl
  have k' : decodeKat (katX e).slots = { decodeKat katSlots with expect := e } := rfl
  have s' : ecbSlot (katX e).slots 0 = ecbSlot katSlots 0 := rfl
  have t' : (katX e).slots.take 16 = katSlots ++ e :: [0] := rfl
  rw [decodeEcb_kat (s' ▸ o) (s' ▸ g) m (t' ▸ b), h', k', h, k]; rfl
theorem katFold_expect (m : Option (List Byte)) (e : Word) : katFold m (katE e) = katFold m kat0 := by unfold katFold; rfl
theorem katX_ready (e : Word) : mxReadyB (.kat hKat (katE e)) (katX e) = true :=
  (by decide +kernel : mxReadyB (.kat hKat (katE 0)) (katX 0) = true)

theorem witness_MatrixCommandsExecute : Vocab.MxReady (mxS (entry (.zacc hMx 3))) (.zacc hMx 3) (entry (.zacc hMx 3)) [] ∧
    Vocab.MxReady (mxS (entry (.mma hMx mma0))) (.mma hMx mma0) (entry (.mma hMx mma0)) [] ∧
    Vocab.MxReady (mxS (entry (.twfill hMx tw0))) (.twfill hMx tw0) (entry (.twfill hMx tw0)) [] ∧
    Vocab.MxReady (mxS (entry (.drain hMx drain0))) (.drain hMx drain0) (entry (.drain hMx drain0)) [] ∧
    (let i : Instr := .kat { hMx with role := 2, pushMA := false } kat0; Vocab.MxReady (mxS (entry i)) i (entry i) []) :=
  ⟨mxReady_of ⟨rfl, rfl⟩ (by decide +kernel) (decoded_of (by decide +kernel)) rfl,
    mxReady_of ⟨rfl, rfl⟩ (by decide +kernel) (decoded_of (by decide +kernel)) rfl,
    mxReady_of ⟨rfl, rfl⟩ (by decide +kernel) (decoded_of (by decide +kernel)) rfl,
    mxReady_of ⟨rfl, rfl⟩ (by decide +kernel) (decoded_of (by decide +kernel)) rfl,
    mxReady_of ⟨rfl, rfl⟩ (by decide +kernel) (decoded_of (by decide +kernel)) rfl⟩
theorem katX_compares (e : Word) : Vocab.MxReady (mxS (katX e)) (.kat hKat (katE e)) (katX e) [] ∧ hKat.katCmp = true ∧
    (e = katFold (mxS (katX e)).plat.image kat0 → katFold (mxS (katX e)).plat.image (katE e) = (katE e).expect) :=
  ⟨mxReady_of ⟨rfl, rfl⟩ (katX_ready _) (katX_decodes _) rfl, rfl, fun h => (katFold_expect _ e).trans h.symm⟩
/-- A KAT whose expected word is the signature, whatever the constants. -/
theorem witness_MatrixCommandsExecute_kat : ∃ k x, Vocab.MxReady (mxS x) (.kat hKat k) x [] ∧ hKat.katCmp = true ∧ katFold (mxS x).plat.image k = k.expect := by
  generalize h : katFold base.plat.image kat0 = e
  exact ⟨katE e, katX e, (katX_compares e).1, rfl, (katX_compares e).2.2 h.symm⟩
theorem witness_MmaStepsAndFills : raggedLevel mma0 = none ∧ mma0.l0.count = 0 ∧ mma0.l5.count = 0 ∧
    twfillBad base.runD hMx tw0 = none ∧ 1 < tw0.blocks.toNat ∧ bitAt tw0.zeroMask 0 = true ∧ bitAt tw0.zeroMask 1 = false := by decide +kernel

/-- A check that passes, with what it answers of which q holds. -/
def okAnd {ε α : Type} (p : State × Except ε α) (q : State → α → Bool) : Bool := match p with | (v, .ok x) => q v x | _ => false
theorem checked_of {ε α : Type} {p : State × Except ε α} {q : State → α → Bool} (h : okAnd p q = true) : ∃ v x, p = (v, .ok x) ∧ q v x = true := by
  obtain ⟨u, r⟩ := p
  cases r with
  | error e => cases h
  | ok x => exact ⟨u, x, rfl, h⟩

def hNm : EcbHead := { hMx with pushMA := false, oc := 2 }
def nmS (i : Instr) (l : List (Nat × List Byte)) : State :=
  let s := arch0 base fun a => { a with nm := [entry i], events := 0xF1 }
  { s with atEngine := true, mem := l.foldl (fun m p => Memory.writes m p.1 p.2) s.mem }
/-- The state in which its unit has taken i, after the reads of its ranges. -/
def nmW (s : State) (i : Instr) (v : State) (p : List NmRange × KMap (Nat × Bool)) : State :=
  let r := s.nmReqOf (entry i)
  let n := s.nmOwner r.job r.slots
  let c := (p.1.filter (·.reads)).foldl (fun z y => z.nmClean p.2 y) v
  let d := p.1.foldl (fun s y => s.nmMeet p.2 y) c
  d.modNmu n fun u => { u with queue := u.queue.filter (fun q => !q.same r), run := some { req := r, waiting := true, lastWrite := d.cycle, undo := [], pages := p.2, parts := (d.nmMem [] p.2).parts n i } }
/-- The unit that owns the command. -/
def nmN (i : Instr) (l : List (Nat × List Byte)) : Nat := (nmS i l).nmOwner 0 (entry i).slots
def nmOk (i : Instr) (l : List (Nat × List Byte)) (q : State → Bool) : Bool :=
  let s := nmS i l
  let x := entry i
  let r := s.nmReqOf x
  let n := s.nmOwner r.job r.slots
  let u := s.nmArrive r
  let u1 := (u.modArch fun a => { a.clearEvents (ecbSlot x.slots 1) with
    nm := match a.nm with | y :: t => { y with started := true } :: t | [] => [] }).setStallOf 6 none
  maskMet u.arch (ecbSlot x.slots 1) && !u.cur.classBusy (ecbOc x) x.seq && (u.nmu n).run.isNone &&
    (match (u.nmu n).queue with | q :: _ => q.same r | [] => false) &&
    okAnd (u1.nmCheck n r.job false u1.runD.npage i) fun v p =>
      !p.1.any (((p.1.filter (·.reads)).foldl (fun s y => s.nmClean p.2 y) v).nmPoisoned p.2) && decide ((nmW s i v p).focus = 0) &&
        (nmW s i v p).part.isNone && !(nmW s i v p).isExch && q (nmW s i v p)
theorem nmTaken_of {i : Instr} {l : List (Nat × List Byte)} (q : State → Bool) (h : nmOk i l q = true)
    (d : decodeEcb .nm (entry i).slots = .ok i) : ∃ w, Vocab.NmTaken (nmS i l) i (entry i) w ∧ q w = true := by
  simp only [nmOk, Bool.and_eq_true, Bool.not_eq_true', Option.isNone_iff_eq_none] at h
  obtain ⟨⟨⟨⟨a, b⟩, c⟩, e⟩, f⟩ := h
  obtain ⟨v, p, g, f⟩ := checked_of f
  simp only [Bool.and_eq_true, Bool.not_eq_true', decide_eq_true_eq, Option.isNone_iff_eq_none] at f
  obtain ⟨⟨⟨⟨f1, f2⟩, f5⟩, f3⟩, f4⟩ := f
  refine ⟨_, ⟨(by decide +kernel : base.focus < 1024), f2, f5, f3, rfl, rfl, rfl, d, a, b, c, ?_, v, p.1, p.2, g, f1, rfl⟩, f4⟩
  split at e
  · exact ⟨_, _, ‹_›, e⟩
  · cases e
def words2 (l : List Nat) : List Byte := l.flatMap fun w => bytesOf 2 w
def att (glob : Bool) : NmattCmd := { query := 0x100000, table := 0x100800, toGlobal := glob, dest := if glob then 0x100F00 else 0x4000, dim := 16, tokens := 1, sigma := 0x3F800000 }
def attMem : List (Nat × List Byte) :=
  [(0x308000, words2 [0x3F80]), (0x100800, bytesOf 8 0x300000)]
def opt0 : NmoptCmd := { alg := 0, w := 0x100000, m1 := 0x300000, m2 := 0, g := 0x500000, fmt := 1, narrow := 0x900000, cols := 16, n := 16, target := 1, arrive := 0x700000, lambda := 0, eta := 0x3F800000, c1 := 0, mu := 0, c2 := 0, beta2 := 0, b2 := 0, b1 := 0, gs := 0x3F800000, eps := 0 }
def optMem (arrived : Nat) : List (Nat × List Byte) :=
  [(0x700000, bytesOf 8 arrived)]
def group0 : NmxgCmd := { list := 0x100000, count := 2 }
def groupMem : List (Nat × List Byte) :=
  [(0x100000, [0x300000, 0x500000 + 2 ^ 48, 0x300040, 0x700000 + 2 * 2 ^ 48].flatMap fun k => bytesOf 8 k), (0x500000, bytesOf 8 0x1122334455667788)]

def nmattN (glob : Bool) : Nat := nmN (.nmatt hNm (att glob)) attMem
def nmattBytes (glob : Bool) (w : State) : List Byte := ((Vocab.nmSees w (nmattN glob)).attend (att glob)).flatMap fun v => bytesOf 4 v.toNat
def nmattEntries (w : State) : List QEntry :=
  quarEntries 0 2 0x100F00 (pageXl (Vocab.nmSees w (nmattN true)).pages 0x100F00) (nmattBytes true w) .normal false false
theorem witness_NmattFoldsAndDelivers :
    (∃ w, Vocab.NmTaken (nmS (.nmatt hNm (att false)) attMem) (.nmatt hNm (att false)) (entry (.nmatt hNm (att false))) w ∧
      w.touch 0 0 [(0x4000, (nmattBytes false w).length)] false false = .ready w) ∧
    (∃ w v, Vocab.NmTaken (nmS (.nmatt hNm (att true)) attMem) (.nmatt hNm (att true)) (entry (.nmatt hNm (att true))) w ∧
      w.quarPut 0 0 fetchTcb (nmattEntries w) [] = some v) := by
  constructor
  · obtain ⟨w, h, q⟩ := nmTaken_of (i := .nmatt hNm (att false)) (l := attMem) (fun w =>
      match w.touch 0 0 [(0x4000, (nmattBytes false w).length)] false false with | .ready v => decide (v = w) | _ => false) (by decide +kernel)
      (decoded_of (by decide +kernel))
    refine ⟨w, h, ?_⟩
    split at q
    · rename_i e; rw [e, of_decide_eq_true q]
    · cases q
  · obtain ⟨w, h, q⟩ := nmTaken_of (i := .nmatt hNm (att true)) (l := attMem) (fun w =>
      (w.quarPut 0 0 fetchTcb (nmattEntries w) []).isSome) (by decide +kernel) (decoded_of (by decide +kernel))
    obtain ⟨v, e⟩ := some_of q
    exact ⟨w, v, h, e⟩
def optArrived (k : Nat) (w : State) : Nat := (Vocab.nmSees w (nmN (.nmopt hNm opt0) (optMem k))).nat opt0.arrive.toNat 8
theorem witness_NmoptAndNmxgWriteTheirArrays :
    (∃ w y, Vocab.NmTaken (nmS (.nmopt hNm opt0) (optMem 1)) (.nmopt hNm opt0) (entry (.nmopt hNm opt0)) w ∧ opt0.target.toNat ≤ optArrived 1 w ∧
      (w.nmu (nmN (.nmopt hNm opt0) (optMem 1))).run = some y ∧ (w.nmOptimise y hNm.tag opt0).full = false) ∧
    (∃ w, Vocab.NmTaken (nmS (.nmopt hNm opt0) (optMem 0)) (.nmopt hNm opt0) (entry (.nmopt hNm opt0)) w ∧ optArrived 0 w < opt0.target.toNat) ∧
    (∃ w tk, Vocab.NmTaken (nmS (.nmxg hNm group0) groupMem) (.nmxg hNm group0) (entry (.nmxg hNm group0)) w ∧ w.task 0 fetchTcb = some tk) := by
  refine ⟨?_, ?_, ?_⟩
  · obtain ⟨w, h, q⟩ := nmTaken_of (i := .nmopt hNm opt0) (l := optMem 1)
      (fun w => decide (opt0.target.toNat ≤ optArrived 1 w) && (match (w.nmu (nmN (.nmopt hNm opt0) (optMem 1))).run with
        | some y => !(w.nmOptimise y hNm.tag opt0).full | none => false)) (by decide +kernel) (decoded_of (by decide +kernel))
    simp only [Bool.and_eq_true, decide_eq_true_eq] at q
    obtain ⟨a, b⟩ := q
    split at b
    · exact ⟨w, _, h, a, ‹_›, by simpa using b⟩
    · cases b
  · obtain ⟨w, h, q⟩ := nmTaken_of (i := .nmopt hNm opt0) (l := optMem 0) (fun w => decide (optArrived 0 w < opt0.target.toNat))
      (by decide +kernel) (decoded_of (by decide +kernel))
    exact ⟨w, h, of_decide_eq_true q⟩
  · obtain ⟨w, h, q⟩ := nmTaken_of (i := .nmxg hNm group0) (l := groupMem) (fun w => (w.task 0 fetchTcb).isSome)
      (by decide +kernel) (decoded_of (by decide +kernel))
    obtain ⟨tk, e⟩ := some_of q
    exact ⟨w, tk, h, e⟩

/-- Unit 256 has written at cycle 100 for the command at core 0's head. -/
def nmDone : NmRun := { req := (nmS (.nmxg hNm group0) groupMem).nmReqOf (entry (.nmxg hNm group0)), waiting := false, lastWrite := 100, undo := [] }
def nmDoneS (cycle : Nat) (waiting : Bool) : State :=
  let s := arch0 (nmS (.nmxg hNm group0) groupMem) fun a => { a with nm := [{ entry (.nmxg hNm group0) with started := true }] }
  { s.modNmu 256 (fun u => { u with run := some { nmDone with waiting := waiting } }) with cycle := cycle }
theorem witness_NearMemoryCompletesAfterItsWindow : ((nmDoneS 2148 false).nmu 256).run = some nmDone ∧ nmDone.lastWrite + 2048 ≤ 2148 ∧
    nmDone.req.core = some 0 ∧ (((nmDoneS 2148 false).core 0).arch.nm.map (·.seq)) = [nmDone.req.seq] ∧
    (((nmDoneS 2148 false).core 0).arch.nm.all (·.started)) = true ∧ ((nmDoneS 2147 false).nmu 256).run = some nmDone ∧
    2147 < nmDone.lastWrite + 2048 ∧ ((nmDoneS 2148 true).nmu 256).run = some { nmDone with waiting := true } ∧
    ((nmDoneS 2148 false).task 0 fetchTcb).isSome = true ∧ Memory.wf (nmDoneS 2148 false).mem = true ∧ inHbm 0x100FFF = true ∧ nmuOf 0x100FFF = 256 := by
  decide +kernel
theorem witness_NmoptAndNmxgWriteTheirArrays_granules : (let a : NmAcc := { s := base, seen := [0x100000], undo := [], full := false }
    a.full = false ∧ (a.put 0 0 fetchTcb 0x10003E [1, 2, 3, 4]).full = false ∧ a.s.loggedStep 0 0 = none ∧ Memory.wf a.s.mem = true) := by
  decide +kernel

/-! Collectives of one member, and steps of two. -/

def coll (m : Nat) (arrive : Nat) (arr : Bool) : CollCmd := { src := 0x300000, dst := 0x100000, arr := arr, e := 32, bigW := 0, w := 0, b := 0, rank := 0, m := BitVec.ofNat 16 m, arrive := BitVec.ofNat 48 arrive }
def clS (i : Instr) : State :=
  let s := arch0 base fun a => { a with cl := [entry i], events := 0xF1 }
  { s with atEngine := true }
def clU (i : Instr) : State := ((clS i).modArch fun a => { a.clearEvents (ecbSlot (entry i).slots 1) with
    cl := match a.cl with | y :: t => { y with started := true } :: t | [] => [] }).setStallOf 7 none
def clOk (i : Instr) (op : Nat) (c : CollCmd) : Bool :=
  let u := clU i
  let p := u.nmTranslate (64 * dieOf u.focus) u.runD.job (collRanges op c)
  maskMet (clS i).arch (ecbSlot (entry i).slots 1) && !(clS i).cur.classBusy (ecbOc (entry i)) 0 && (collFields op hNm c).isNone &&
    !collOverlap op c && p.2.2.isNone && decide (p.1.focus = 0) && decide (p.1.kept = []) && decide (p.1.members = [] ∧ p.1.colls = []) &&
    p.1.part.isNone && !p.1.nmPoisoned p.2.1 { va := c.src.toNat, n := 4 * c.e.toNat, write := false, place := .any }
theorem clTaken_of {i : Instr} {op : Nat} {c : CollCmd} (k : clOk i op c = true) (d : decodeEcb .cl (entry i).slots = .ok i) :
    ∃ v k, Vocab.ClTaken (clS i) v k i op hNm c (entry i) [] ∧ v.members = [] := by
  simp only [clOk, Bool.and_eq_true, Bool.not_eq_true', Option.isNone_iff_eq_none, decide_eq_true_eq] at k
  obtain ⟨⟨⟨⟨⟨⟨⟨⟨⟨a, b⟩, e⟩, f⟩, g⟩, j⟩, l⟩, m⟩, q⟩, n⟩ := k
  let u := clU i
  let p := u.nmTranslate (64 * dieOf u.focus) u.runD.job (collRanges op c)
  let k : Coll := {
    attached := true, old := p.1.collSource u.runD.job u.runD.tcb (p.1.surely (clS i).focus (ecbOc (entry i)) (entry i).seq) p.2.1 c, core := (clS i).focus, job := u.runD.job,
    launch := u.runD.launch, tcb := u.runD.tcb, tag := hNm.tag.toNat, op := op, cmd := c, steps := 0, retries := 0, since := p.1.cycle,
    stamp := p.1.cycle, pages := p.2.1 }
  exact ⟨p.1, k, ⟨rfl, q, j.trans (by rfl), rfl, rfl, rfl, d, a, b, e, f, Prod.ext rfl (Prod.ext rfl g), rfl, by simp [u, p, l],
      fun y hy => by
        have w : p.1.colls = [] := m.2
        have z : y ∈ ([] : List Coll) := w ▸ (show y ∈ [] ++ p.1.colls from hy)
        exact absurd z List.not_mem_nil, n⟩, m.1⟩
theorem witness_CollectivesCompleteOrFail :
    (∃ v k, Vocab.ClTaken (clS (.crs hNm (coll 1 0x700000 false))) v k (.crs hNm (coll 1 0x700000 false)) 0x41 hNm (coll 1 0x700000 false)
      (entry (.crs hNm (coll 1 0x700000 false))) [] ∧ v.members = []) ∧
    (∃ v k, Vocab.ClTaken (clS (.crs hNm (coll 1 0 true))) v k (.crs hNm (coll 1 0 true)) 0x41 hNm (coll 1 0 true)
      (entry (.crs hNm (coll 1 0 true))) [] ∧ v.members = []) ∧
    (∃ v k, Vocab.ClTaken (clS (.cag hNm (coll 1 0 false))) v k (.cag hNm (coll 1 0 false)) 0x42 hNm (coll 1 0 false)
      (entry (.cag hNm (coll 1 0 false))) [] ∧ v.members = []) ∧
    (∃ v k, Vocab.ClTaken (clS (.car hNm (coll 1 0 true))) v k (.car hNm (coll 1 0 true)) 0x43 hNm (coll 1 0 true)
      (entry (.car hNm (coll 1 0 true))) [] ∧ v.members = []) ∧
    (coll 1 0x700000 false).m = 1 ∧ (coll 1 0x700000 false).b = 0 ∧ (coll 1 0 false).w = (coll 1 0 false).bigW :=
  ⟨clTaken_of (by decide +kernel) (decoded_of (by decide +kernel)), clTaken_of (by decide +kernel) (decoded_of (by decide +kernel)),
    clTaken_of (by decide +kernel) (decoded_of (by decide +kernel)), clTaken_of (by decide +kernel) (decoded_of (by decide +kernel)),
    rfl, rfl, rfl⟩
def coll2 (steps retries : Nat) : Coll :=
  { fails := if retries = 0 then [] else [(steps, retries)], attached := true, old := [], core := 0, job := 0, launch := 0, tcb := fetchTcb, tag := 9, op := 0x43, cmd := coll 2 0 true, steps := steps, retries := retries, since := 0, stamp := 0 }
def member1 : Member := { tag := 9, op := 0x43, rank := 1, cmd := { coll 2 0 true with rank := 1 }, data := List.replicate 32 0 }
def collS (k : Coll) (ms : List Member) (cycle : Nat) : State := { base with colls := [k], members := ms, cycle := cycle }
theorem find_coll2 (steps retries : Nat) (ms : List Member) (cycle : Nat) :
    (collS (coll2 steps retries) ms cycle).colls.find? (fun k => k.tag == (9 : BitVec 16).toNat && k.attached) = some (coll2 steps retries) := rfl
/-- The last step, whatever their free number (log entry 20), on which it rests whether one comes before it; a peer that has not come; a
timeout at its limit, with and without a retry left. -/
theorem witness_CollectivesCompleteOrFail_steps : (∃ steps s, s = collS (coll2 steps 0) [member1] 50 ∧
      s.colls.find? (fun k => k.tag == (9 : BitVec 16).toNat && k.attached) = some (coll2 steps 0) ∧
      (s.arrived (coll2 steps 0)).length = (coll2 steps 0).cmd.m.toNat ∧ agree (s.arrived (coll2 steps 0)) = true ∧
      Config.collSteps (9 : BitVec 16).toNat (coll2 steps 0).cmd.m.toNat ≤ (coll2 steps 0).steps ∧ (coll2 steps 0).op ≠ 0x41) ∧
    (let s := collS (coll2 0 0) [] 50; (s.arrived (coll2 0 0)).length < (coll2 0 0).cmd.m.toNat) ∧
    (let s := collS (coll2 0 7) [] (1100 * (base.reg 0x5208).toNat)
     s.colls.find? (fun k => k.tag == (9 : BitVec 16).toNat && k.attached && decide (k.since + 1100 * (s.reg 0x5208).toNat ≤ s.cycle)) = some (coll2 0 7) ∧
     (s.reg 0x3010).toNat ≤ kget (coll2 0 7).fails 0 0 ∧ s.part = none) ∧
    (let s := collS (coll2 0 0) [] (1100 * (base.reg 0x5208).toNat); kget (coll2 0 0).fails 0 0 < (s.reg 0x3010).toNat ∧
     s.colls.find? (fun k => k.tag == (9 : BitVec 16).toNat && k.attached && decide (k.since + 1100 * (s.reg 0x5208).toNat ≤ s.cycle)) = some (coll2 0 0)) :=
  ⟨⟨Config.collSteps 9 2, _, rfl, rfl, (by decide +kernel : ((collS (coll2 0 0) [member1] 50).arrived (coll2 0 0)).length = 2),
      (by decide +kernel : agree ((collS (coll2 0 0) [member1] 50).arrived (coll2 0 0)) = true), Nat.le_refl _, by decide +kernel⟩,
    by decide +kernel, by decide +kernel, by decide +kernel⟩

/-! ## The Safety Net, tasks, launches, strikes -/

def snItem (body : SnBody) (seq entered : Nat) : SnItem := { core := 0, job := 0, launch := 0, tcb := fetchTcb, exch := false, entered := entered, size := 32, oc := 3, seq := seq, intact := true, body := body }
def atCycle (c : Nat) : State := { base with cycle := c, mem := Memory.writes base.mem 0x50000 (bytesOf 8 0x100) }
def amoPend : Pend := { kind := .amo .add 5, seq := 7, sd := 3, va := 0x50000, pa := 0x50000, pa2 := 0x51000, n := 8, sx := false, oc := 3, scope := 5, hint := .normal, addr := 0 }
theorem witness_SafetyNetReleasesItsFirstItem : (let i := snItem .store 6 100
    ({ atCycle 2147 with net := [i] } : State).firstItem 0 = some i ∧ 2147 < i.entered + 2048 ∧
    ({ atCycle 2148 with net := [i] } : State).firstItem 0 = some i ∧ i.entered + 2048 ≤ 2148 ∧ i.intact = true ∧ i.body = .store ∧
    ({ atCycle 2148 with net := [{ i with intact := false }] } : State).firstItem 0 = some { i with intact := false }) ∧
    (let i := snItem .atomic 7 200
     let s := core0 { atCycle 5000 with net := [i] } fun k => { k with pend := [amoPend] }
     s.firstItem 0 = some i ∧ s.pendOf i = some amoPend ∧ s.recent = [] ∧ 0x50000 % 4096 + 8 ≤ 4096 ∧ s.poisoned 0x50000 8 = false ∧ s.mixHit 0 0x50000 8 = false ∧ s.sentBy i = true ∧
      Memory.wf s.mem = true) := by decide +kernel
def released (b : SnBody) : State := { atCycle 2148 with net := [snItem b 6 100] }
theorem witness_SafetyNetReleasesItsFirstItem_words : (∀ b ∈ [SnBody.cancel 3 1 5, .unpin 3 2, .depdec 0x50000, .step 0 1, .pubv 3 4 1 false, .refstop 3 4],
      (released b).firstItem 0 = some (snItem b 6 100) ∧ (snItem b 6 100).entered + 2048 ≤ (released b).cycle ∧
        (snItem b 6 100).intact = true ∧ (released b).sentBy (snItem b 6 100) = true ∧
        (((released b).takeItem 0 (snItem b 6 100)).cancel 0 (some 0) 1 5).1.sentBy (snItem b 6 100) = true ∧
        ((released b).takeItem 0 (snItem b 6 100)).regionSize 0 4 = 0 ∧ (released b).task 0 fetchTcb = some fetchTask) ∧
    ({ fetchTask with held := fetchTask.held ++ [.depdec 0x50000] } : Task).lines ≤
      32 * (match base.launch 0 0 with | some l => l.quota | none => 0) := by decide +kernel
/-- Region 4 with a size, at version 5, and final. -/
def region4 (final : Nat) : State := let s := released (.pubv 3 4 1 false)
  { s with mem := Memory.writes s.mem (s.regionVa 0 4) (bytesOf 8 (5 * 2 ^ 60 + final * 2 ^ 63) ++ bytesOf 8 (2 ^ 36)) }
theorem witness_SafetyNetReleasesItsFirstItem_regions : ((region4 0).takeItem 0 (snItem (.pubv 3 4 1 false) 6 100)).regionSize 0 4 ≠ 0 ∧
    ((region4 0).takeItem 0 (snItem (.pubv 3 4 1 false) 6 100)).regionNibble 0 4 = 5 ∧ (region4 0).sentBy (snItem (.pubv 3 4 1 false) 6 100) = true ∧
    8 ≤ ((region4 1).takeItem 0 (snItem (.pubv 3 4 1 false) 6 100)).regionNibble 0 4 := by decide +kernel

def xmcOut (die : Nat) : XmcOut := { die := die, launch := 0, job := 0, off := 0x208, value := 7, targets := [0, 5, 200], released := 1000 }
def xmcS (cycle : Nat) : State := { atCycle cycle with xmcs := [xmcOut 1, xmcOut 0] }
def syncS (l : List Stream) : State := { atCycle 5000 with jobs := [(0, exchJob l)] }
theorem witness_DeliveriesAndExchangeBarriers : (xmcS 1063).xmcs[1]? = some (xmcOut 0) ∧ 1063 < (xmcOut 0).released + 64 ∧
    (xmcS 1064).xmcs[1]? = some (xmcOut 0) ∧ (xmcOut 0).released + 64 ≤ 1064 ∧ (xmcOut 0).targets.filter (fun c => dieOf c == 0) = [0, 5] ∧
    ((xmcS 1064).core 0).deliv = [] ∧ ((xmcS 1064).core 5).deliv = [] ∧ ((xmcS 1064).core 0).prov = [] ∧ ((xmcS 1064).core 5).prov = [] ∧
    0 ∉ ((xmcS 1064).core 0).clash ∧ 0 ∉ ((xmcS 1064).core 5).clash ∧
    (kfind (syncS [stream0 (some 7), { stream0 none with core := 9 }]).jobs 0).isSome = true ∧
    ([stream0 (some 7), { stream0 (some 7) with core := 9 }, { stream0 none with core := 11, ended := true }].map (·.core)).Nodup := by
  decide +kernel

def loadPend (oc : Nat) : Pend := { amoPend with kind := .load false, n := 4, sx := true, oc := oc }
def loadS (l : List Pend) : State := core0 (atCycle 5000) fun k => { k with pend := l }
def theCopy : Copy := { kind := .copy tpl 0x50060 0x200, addr := 0x20000, sec := 1, seq := 3, next := 1, counted := 1, net := 0, expected := 32, writeBack := none }
def copying : State := core0 (atCycle 5000) fun k => { k with copies := [(2, theCopy)] }
theorem ready_of {p : Touch} (q : State → Bool) (h : (match p with | .ready v => q v | _ => false) = true) : ∃ v, p = .ready v ∧ q v = true := by
  cases p with
  | ready v => exact ⟨v, rfl, h⟩
  | wait v => cases h
  | lost v d l => cases h
theorem witness_MemoryEventsAndPageFills_loads : (let s := loadS [loadPend 4, loadPend 3]
    s.loadWaits 0 (loadPend 3) = false ∧ s.spanPoisoned (loadPend 3).xl 4 = false ∧ s.recent = [] ∧
      (s.core 0).pend[1]? = some (loadPend 3) ∧ inMgmt 0x50000 = false ∧ s.mixHit 0 0x50000 4 = false) ∧
    (let s := loadS [{ amoPend with seq := 6 }, loadPend 3]; s.loadWaits 0 (loadPend 3) = true) := by decide +kernel
/-- A sector that is neither the first nor the last. -/
theorem witness_MemoryEventsAndPageFills_copies :
    let sp := sectorSpan tpl 0x50060 0x200 theCopy.next
    ∃ u x, kfind (copying.core 0).copies 2 = some theCopy ∧ (copying.core 0).flaws = [] ∧ (copying.core 0).copyWaits theCopy tpl sp.1 sp.2.1 sp.2.2.1 = false ∧ theCopy.owing = false ∧
      theCopy.counted ≠ theCopy.expected ∧ theCopy.next ≠ theCopy.expected ∧ tplDir tpl ≠ 1 ∧ tplCounterOn tpl = false ∧
      copying.translateRange (some 0) (dieOf 0) 0 sp.1 sp.2.2.1 .read = (u, .ok x) ∧ inMgmt x.pa = false ∧
      u.poisoned x.pa sp.2.2.1 = false ∧ u.copyTouch 0 theCopy tpl sp.2.1 sp.2.2.1 false true = .ready u := by
  let sp := sectorSpan tpl 0x50060 0x200 theCopy.next
  obtain ⟨u, x, h, q⟩ := checked_of (p := copying.translateRange (some 0) (dieOf 0) 0 sp.1 sp.2.2.1 .read) (q := fun u x =>
    !inMgmt x.pa && !u.poisoned x.pa sp.2.2.1 &&
      (match u.copyTouch 0 theCopy tpl sp.2.1 sp.2.2.1 false true with | .ready v => decide (v = u) | _ => false)) (by decide +kernel)
  simp only [Bool.and_eq_true, Bool.not_eq_true'] at q
  obtain ⟨v, e, f⟩ := ready_of (fun v => decide (v = u)) q.2
  exact ⟨u, x, by decide +kernel, by decide +kernel, by decide +kernel, by decide +kernel, by decide +kernel, by decide +kernel, by decide +kernel, by decide +kernel, h, q.1.1, q.1.2,
    by rw [e, of_decide_eq_true f]⟩
def fillS (fills : List Nat) : State := core0 (arch0 (atCycle 5000) fun a => { a with pages := [(5, { page5 with res := false })] }) fun k => { k with fills := fills }
theorem witness_MemoryEventsAndPageFills_pages : ((fillS [5]).core 0).locked (4096 * 5) 4096 = false ∧ ((fillS [5]).core 0).fillOn 5 = none ∧
    ((fillS [5]).core 0).fills.contains 5 = true ∧ ((fillS []).core 0).fills.contains 5 = false ∧
    ∃ u x, (fillS [5]).translate (some 0) (dieOf 0) 0 (4096 * 0x50) .read = (u, .ok x) ∧ inMgmt x.pa = false ∧ u.poisoned x.pa 4096 = false := by
  obtain ⟨u, x, h, q⟩ := checked_of (p := (fillS [5]).translate (some 0) (dieOf 0) 0 (4096 * 0x50) .read)
    (q := fun u x => !inMgmt x.pa && !u.poisoned x.pa 4096) (by decide +kernel)
  simp only [Bool.and_eq_true, Bool.not_eq_true'] at q
  exact ⟨by decide +kernel, by decide +kernel, by decide +kernel, by decide +kernel, u, x, h, q⟩

def endedS (net : List SnItem) : State := { core0 (atCycle 5000) (fun k => { k with arch := { k.arch with ended := true } }) with net := net }
def qEntry (va n v : Nat) : QEntry := { va := va, pa := va, bytes := bytesOf n v, hint := .normal, strong := false, wenq := false }
theorem witness_TasksCommitWhole : ((endedS []).core 0).run = some base.runD ∧ base.runD.exch = false ∧ (endedS []).task 0 fetchTcb = some fetchTask ∧
    fetchTask.past4 = false ∧ (endedS []).tendIdle 0 = true ∧ base.tendIdle 0 = false ∧ ((endedS []).core 0).dirtyPages = false ∧
    (endedS []).bonds = [] ∧ (endedS []).readyToCommit 0 fetchTcb = true ∧ (endedS [snItem .store 6 100]).readyToCommit 0 fetchTcb = false ∧
    (endedS [snItem .store 6 100]).tendIdle 0 = true := by decide +kernel
/-- Two stores that overlap. -/
theorem witness_TasksCommitWhole_quarantine : ∃ t m, (endedS []).applyQuarantine (some 0)
      { fetchTask with quar := [qEntry 0x50000 8 0x1122334455667788, qEntry 0x50004 4 0xAABBCCDD] } [] = (t, m) ∧
    Memory.wf (endedS []).mem = true ∧ fetchTask.held = [] ∧ (endedS []).recent = [] := ⟨_, _, rfl, by decide +kernel, rfl, by decide +kernel⟩

def readyOf (cls qcls since : Nat) (restore : Bool) : Ready := { job := 0, launch := 0, index := 0, tcb := fetchTcb, cls := cls, qcls := qcls, key := [5], since := since, restore := restore }
/-- The core is free and its die's queues hold l and sp. -/
def ringS (s : State) (l sp : List Ready) (floor : Nat) : State := { s with rings := kset s.rings 0 { ready := l, spill := sp, overflow := [], floor := floor } }
def freeS (l : List Ready) : State := ringS (({ base with cycle := 100000 } : State).modCore 0 fun k => k.vacate) l [] 0
def savedS : State :=
  { freeS [readyOf 1 1 0 true] with tasks := [{ fetchTask with save := some { base.arch with events := 0x77 }, saveValid := true }] }
theorem witness_EntriesDispatchAgeAndSpill_dispatch :
    (∃ e n l b, (freeS [readyOf 1 1 0 false]).nextEntry 0 = some (e, false, n) ∧ (freeS [readyOf 1 1 0 false]).launch e.job e.launch = some l ∧
      (freeS [readyOf 1 1 0 false]).bindingOf e = some b ∧ e.restore = false) ∧ (freeS []).nextEntry 0 = none ∧
    (∃ e nm n l tk a, savedS.nextEntry 0 = some (e, nm, n) ∧ savedS.launch e.job e.launch = some l ∧ savedS.task e.job e.tcb = some tk ∧
      tk.save = some a ∧ e.restore = true) :=
  ⟨⟨readyOf 1 1 0 false, 0, fetchLaunch, { first := 0, count := 1, nmus := false, target := 0, targets := 1 }, by decide +kernel⟩, by decide +kernel,
    ⟨readyOf 1 1 0 true, false, 0, fetchLaunch, { fetchTask with save := some { base.arch with events := 0x77 }, saveValid := true },
      { base.arch with events := 0x77 }, by decide +kernel⟩⟩

/-- A second task waits in a class above the running one's, whose TCB names a drain or a checkpoint. -/
def other : Ready := { readyOf 0 0 0 false with tcb := fetchTcb + 64, index := 1 }
def twoTasks (lo hi slice floor : Nat) (waiting : Ready) : State :=
  let s := ringS { base with cycle := 100000 } [waiting] [] floor
  { s with
    tasks := [{ fetchTask with cls := 3 }, { fetchTask with tcb := fetchTcb + 64, index := 1 }], jobs := [(0, { fetchJob with tokens := 2 })],
    launches := [{ fetchLaunch with binds := [{ first := 0, count := 2, nmus := false, target := 0, targets := 1 }] }],
    mem := Memory.writes s.mem (fetchTcb + 32) (bytesOf 8 (lo + hi * 2 ^ 32)),
    regs := kset (kset (kset (kset s.regs (mRing 0 + 0x40) 50) (mRing 0 + 0x38) (BitVec.ofNat 64 slice)) (mRing 0 + 0x78) 0x1000000) (mRing 0 + 0x80) 0x1000000 }
theorem witness_PreemptionAndSlices : (∀ p ∈ [(0, Policy.drain), (1000, .checkpoint)],
      (let s := twoTasks p.1 0 0 0 other
       (s.ring 0).scan = [other] ∧ s.bindingOf other = some { first := 0, count := 2, nmus := false, target := 0, targets := 1 } ∧
        kfind s.jobs 0 = some { fetchJob with tokens := 2 } ∧ s.freeTargets other { first := 0, count := 2, nmus := false, target := 0, targets := 1 } = [] ∧
        (∀ k ∈ s.cores, k.2.reserved ≠ some (0, fetchTcb + 64)) ∧
        s.victim 0 other { first := 0, count := 2, nmus := false, target := 0, targets := 1 } = some (0, p.2))) ∧ (base.ring 0).ready = [] ∧
    (let s := { twoTasks 0 0 5 7 { other with cls := 3 } with cycle := 7700 }
     (s.core 0).run = some base.runD ∧ s.task 0 fetchTcb = some { fetchTask with cls := 3 } ∧ (s.reg (mRing (dieOf 0) + 0x38)).toNat = 5 ∧
      base.runD.since + 1100 * max 5 (s.ring (dieOf 0)).floor ≤ s.cycle ∧ s.cycle - 1 < base.runD.since + 1100 * max 5 (s.ring (dieOf 0)).floor ∧
      base.runD.exch = false ∧ (s.core 0).ckpt = none ∧ (s.core 0).reserved = none ∧ fetchTask.past4 = false ∧ s.waitsFor 0 3 = true ∧
      s.ckptOk 0 = true) := by decide +kernel
def agedS : State := let s := ringS { base with cycle := 22000 } [readyOf 1 1 0 false, readyOf 1 1 1 false] [readyOf 3 3 0 false] 0
  { s with regs := kset s.regs (mRing 0 + 0x30) 20 }
theorem witness_EntriesDispatchAgeAndSpill_ageing : (∀ k ∈ agedS.tasks, k.heldFor = none) ∧ (agedS.reg (mRing 0 + 0x30)).field 0 16 = 20 ∧
    (agedS.ring 0).spill.find? (·.qcls == (3 : Fin 4).val) = some (readyOf 3 3 0 false) ∧
    ((agedS.ring 0).ready.filter (·.qcls == (3 : Fin 4).val)).length < 4096 := by decide +kernel
theorem ringS_ring (l sp : List Ready) (f : Nat) : (ringS base l sp f).ring 0 = { ready := l, spill := sp, overflow := [], floor := f } := rfl
/-- A class queue of 4,096 entries has no room. -/
theorem witness_EntriesDispatchAgeAndSpill_full (l : List Ready) (h : l = List.replicate 4096 (readyOf 3 3 0 false)) :
    ((ringS base l [readyOf 3 3 0 false] 0).ring 0).spill.find? (·.qcls == (3 : Fin 4).val) = some (readyOf 3 3 0 false) ∧
    4096 ≤ (((ringS base l [readyOf 3 3 0 false] 0).ring 0).ready.filter (·.qcls == (3 : Fin 4).val)).length := by
  rw [ringS_ring, h, List.filter_replicate_of_pos (by decide), List.length_replicate]
  exact ⟨rfl, Nat.le_refl _⟩

/-- No region's words are mapped. -/
def pendS : State :=
  let j : Job := { fetchJob with desc := fetchJob.desc.set 5 0x7FFFF0000000, phase := some { num := 0, pass := 0, part := .compute, streams := [] } }
  { base with launches := [{ fetchLaunch with status := stPending }], tasks := [], cycle := 50, jobs := [(0, j)],
              mem := Memory.writes base.mem fetchTcb (bytesOf 8 0) }
theorem walk_absent (mem : List Host.Cell) (v t k : Nat) (h : v / leafSize 1 % 512 = k)
    (e : pteBit (BitVec.ofNat 64 (leNat (Memory.reads mem (t + 8 * k) 8))) 0 = false) : ∃ x, walk mem v 4 t = .error x := by
  rw [walk]
  simp only [show 4 - 3 = 1 from rfl, h, e]
  cases inMem t
  · exact ⟨_, rfl⟩
  · exact ⟨_, rfl⟩
theorem paOf_absent (s : State) (job va k : Nat) (h : va % 2 ^ 48 / leafSize 1 % 512 = k)
    (e : pteBit (BitVec.ofNat 64 (leNat (Memory.reads s.mem (s.rootOf job + 8 * k) 8))) 0 = false) : s.paOf job va = none := by
  obtain ⟨x, w⟩ := walk_absent s.mem (va % 2 ^ 48) (s.rootOf job) k h e
  unfold State.paOf
  rw [w]
theorem regionsInUse_none (s : State) (h : s.regionVa 0 0 = 0x7FFFF0000000)
    (d : ∀ r, s.regionVa 0 r = s.regionVa 0 0 + 16 * r)
    (e : pteBit (BitVec.ofNat 64 (leNat (Memory.reads s.mem (s.rootOf 0 + 8 * 255) 8))) 0 = false) : s.regionsInUse 0 = [] := by
  refine List.filter_eq_nil_iff.mpr fun r m => ?_
  have := List.mem_range.mp m
  rw [paOf_absent s 0 (s.regionVa 0 r + 8) 255 (by rw [d, h]; show _ / 2 ^ 39 % 512 = 255; omega) e]
  exact Bool.false_ne_true
theorem inputsOf_none (s : State) (l : Lnch) (h : (s.regionsRead l.job).regionsInUse l.job = []) :
    s.inputsOf l = (s.regionsRead l.job, some []) := by
  unfold State.inputsOf
  generalize s.regionsRead l.job = u at h ⊢
  simp [h]
theorem pair_eta {α β : Type} {p : α × β} {y : β} (h : p.2 = y) : p = (p.1, y) := h ▸ rfl
def pendL : Lnch := { fetchLaunch with status := stPending }
def pendT : State × Option (XlFail × Nat) := pendS.jobWrites 0 pendL.tcbs (64 * pendL.count)
def pendV : State × Bool := pendT.1.jobLines 0 pendL.tcbs (64 * pendL.count)
def pendR : State := pendV.1.regionsRead 0
theorem pendR_none : pendR.regionsInUse 0 = [] := by
  have e : kfind pendR.jobs 0 = kfind pendS.jobs 0 := by decide +kernel
  have f : pteBit (BitVec.ofNat 64 (leNat (Memory.reads pendR.mem (pendR.rootOf 0 + 8 * 255) 8))) 0 = false := by decide +kernel
  have d : ∀ r, pendR.regionVa 0 r = 0x7FFFF0000000 + 16 * r := fun r => by unfold State.regionVa; rw [e]; rfl
  exact regionsInUse_none pendR (d 0) (fun r => by rw [d, d 0]) f
theorem pend_inputs (s u : State) (h : s.regionsRead 0 = u) (n : u.regionsInUse 0 = []) : s.inputsOf pendL = (u, some []) := by
  subst h; exact inputsOf_none s pendL n
theorem witness_LaunchesAndPhasesAdvance_launches : pendS.launch 0 0 = some pendL ∧ pendL.hold = none ∧ pendL.deps = 0 ∧
    pendS.phaseOpen 0 pendL.phase = true ∧ base.launch 0 0 = some fetchLaunch ∧ fetchLaunch.status ≠ stPending ∧
    ∃ u v w ins, pendS.jobWrites 0 pendL.tcbs (64 * pendL.count) = (u, none) ∧ u.jobLines 0 pendL.tcbs (64 * pendL.count) = (v, false) ∧
      (List.range pendL.count).all (v.tcbOk pendL) = true ∧ v.inputsOf pendL = (w, some ins) := by
  have a : pendT.2 = none := by decide +kernel
  have b : pendV.2 = false := by decide +kernel
  have c : (List.range pendL.count).all (pendV.1.tcbOk pendL) = true := by decide +kernel
  exact ⟨by decide +kernel, by decide +kernel, by decide +kernel, by decide +kernel, by decide +kernel, by decide +kernel,
    pendT.1, pendV.1, pendR, [], pair_eta (p := pendT) a, pair_eta (p := pendV) b, c, pend_inputs _ _ rfl pendR_none⟩

def phaseS (part : PhasePart) (l : Lnch) (net : List SnItem) : State :=
  { base with cycle := 3048, net := net, launches := [l], jobs := [(0, { fetchJob with phase := some { num := 0, pass := 0, part := part, streams := [] } })] }
theorem witness_LaunchesAndPhasesAdvance_phases :
    (let s := phaseS .compute fetchLaunch []
     (kfind s.jobs 0).map (·.phase) = some (some { num := 0, pass := 0, part := .compute, streams := [] }) ∧ (s.ofPhase 0 0).any (·.live) = true) ∧
    (let l := { fetchLaunch with status := stDone, words := fetchLaunch.words.set 0 0x40001 }
     let s := phaseS .compute l []
     (s.ofPhase 0 0).any (·.live) = false ∧ s.streamsOf 0 0 ≠ []) ∧
    (fetchJob.phase = none ∧ fetchJob.confirmed = none ∧ fetchLaunch ∈ base.launches ∧ fetchLaunch.accepted = true ∧ fetchLaunch.live = true ∧
      fetchLaunch.job = 0 ∧ base.launches.length = 1) ∧
    (let s := phaseS (.holding 1000) fetchLaunch []; 1000 + 2048 ≤ s.cycle ∧ s.cycle < 1001 + 2048) ∧
    (let s := phaseS .confirm fetchLaunch []
     (s.net.any fun i => i.exch && i.job == 0) = false ∧ (s.xmcs.any fun x => x.job == 0) = false) ∧
    (let s := phaseS .confirm fetchLaunch [{ snItem .store 6 100 with exch := true }]; (s.net.any fun i => i.exch && i.job == 0) = true) := by
  decide +kernel
def deliveredCore : Core := { base.core 3 with run := none, deliv := [{ word := 2, value := 0x11223344, job := 0, launch := 0 }, { word := 131071, value := 5, job := 0, launch := 0 }] }
theorem witness_LaunchesAndPhasesAdvance_streams : (let x : Stream := { stream0 none with core := 3, started := false }
    base.launch 0 x.launch = some fetchLaunch ∧ x.started = false ∧ x.parked = false ∧ x.ended = false ∧ (base.core 3).run = none ∧
      (base.core 3).scrubUntil ≤ base.cycle) ∧ deliveredCore.run = none ∧ (deliveredCore.deliv.map (·.word)).Nodup ∧
    (∀ d ∈ deliveredCore.deliv, d.job = 0) := by decide +kernel

def struck : State := core0 { base with cycle := 2000 } fun k => { k with run := k.run.map fun r => { r with since := 1000 } }
def struckLate (cycle : Nat) : State := { struck with cycle := cycle }
def winCmd (seq ret : Nat) : WinCmd := { ecb := { entry .nop with seq := seq, started := true }, retired := ret, reads := [], writes := [], starts := [], drains := false, dirs := [], slots := [] }
def windowed (free : List WinCmd) : State := core0 struck fun k => { k with windows := [{ cmds := [winCmd 3 1200, winCmd 4 1400], bypass := none, replays := 0 }, { cmds := [winCmd 5 1900], bypass := none, replays := 0 }], unprot := free }
def nmPastS (c : Nat) : State := { base with nmus := [(7, { Nmu.reset with past := [(0, fetchTcb, c)] })], cycle := 2000 }
def nmRunS : State := { base with nmus := [(256, { Nmu.reset with run := some { nmDone with parts := [256] } })], cycle := 2000 }
theorem witness_StrikesAreReported :
    (968 ≤ struck.cycle ∧ struck.cycle ≤ 968 + 1932 ∧ (struckLate 2901).cycle > 968 + 1932 ∧ (struckLate 967).cycle < 968) ∧
    (struck.departed 0 968 = [] ∧ struck.exchangeAt 0 (968 + 32) = [] ∧ (struck.core 0).run = some { base.runD with since := 1000 } ∧ 967 + 32 < 1000 ∧ 1000 ≤ 968 + 32 ∧
      struck.departed 0 967 = [] ∧ struck.exchangeAt 0 (967 + 32) = [] ∧ (struck.core 5).run = none ∧ struck.departed 5 968 = [] ∧ struck.exchangeAt 5 (968 + 32) = []) ∧
    ((struck.core 0).affected 1300 ++ (struck.core 0).affectedFree 1300 = []) ∧
    (let k := (core0 struck fun k => { k with unprot := [winCmd 3 1900] }).core 0; k.affected 1300 = [] ∧ k.affectedFree 1300 ≠ []) ∧
    (let k := (windowed [winCmd 9 1950]).core 0; minOf ((k.affected 1300 ++ k.affectedFree 1300).map fun c => c.ecb.seq) = some 4 ∧
      (k.windows.find? fun w => w.cmds.any fun c => c.ecb.seq == 4 && k.hitBy 1300 c).isSome = true) ∧
    (struck.net = [] ∧ struck.gone = [] ∧ (∀ c, c < 4 → struck.exchangeAt c 1000 = []) ∧ clusterOf 3 = 0 ∧ clusterOf 4 = 1 ∧ struck.nmus = [] ∧
      struck.colls = [] ∧ struck.commits = [] ∧ 256 ∈ ({ nmDone with parts := [256] } : NmRun).parts ∧ nmRunS.nmus.length = 1 ∧
      1999 < 2000 ∧ (nmPastS 2000).nmus.map (·.2.past) = [[(0, fetchTcb, 2000)]]) := by
  decide +kernel
/-- Whatever port its present step goes by, a collective's step is struck there. -/
theorem witness_StrikesAreReported_port (k : Coll) (h : k = coll2 0 0) : k.struckSteps (Config.stepPort 9 0 % 6) 100 ≠ [] := by
  subst h
  unfold Coll.struckSteps
  rw [show (coll2 0 0).tag = 9 from rfl, show (coll2 0 0).acked = [] from rfl, show (coll2 0 0).steps + 1 = 1 from rfl]
  simp [List.range_succ]
def sector (valid dirty : Bool) (stamp : Nat) : Sector := { valid := valid, dirty := dirty, stamp := stamp }
def lineOf (l : List Sector) (r : Option Nat) : Line := { sectors := l, age := .ordinary, used := 0, retained := r }
def linesS : State :=
  { base with l2 := [(5, lineOf [sector true true 100, sector true true 99, sector true false 100, sector false false 100] none),
                     (6, lineOf [sector true true 100, sector true false 100, sector true false 99, sector false true 200] none)] }
/-- A struck line with a dirty, a clean and an old sector, and a line of another slice. -/
theorem witness_StrikesAreReported_l2 : (∀ k ∈ linesS.tasks, k.past4 = true ∨
      (kfind k.reads (homeSlice (128 * 5)) = none ∧ kfind k.writes (homeSlice (128 * 5)) = none)) ∧ homeSlice (128 * 5) < 128 ∧
    homeSlice (128 * 6) ≠ homeSlice (128 * 5) ∧ 99 ≤ struck.cycle ∧ struck.cycle ≤ 100 + 1932 := by decide +kernel

/-! ## Clocks, the management region, the host, the platform -/

def agesS (l : List (Nat × Nat)) : Core := { base.cur with ages := l }
theorem witness_ClocksScrubbersAndDeadlock_clocks : kwf (agesS [(24, 1), (28, 70), (29, 70)]).ages = true ∧
    (agesS [(24, 1), (28, 70), (29, 70)]).ageLimit ≤ kget (agesS [(24, 1), (28, 70), (29, 70)]).ages (8 * 3 + 5) 0 ∧
    (∀ q, q < 8 → kget (agesS [(24, 1)]).ages (8 * 3 + q) 0 < (agesS [(24, 1)]).ageLimit) ∧ base.cur.refused = none ∧ kget ({ base with cycle := 1100 } : State).renewed 3 0 + 1100 ≤ 1100 ∧ 1099 < kget base.renewed 3 0 + 1100 ∧
    base.cur.traceLeft ≠ some 0 ∧ base.cur.traceWrapped = false := by decide +kernel
def stalled : State := core0 { base with cycle := 5 + 65536 } fun k => { k with deadSince := some 5 }
theorem witness_ClocksScrubbersAndDeadlock_deadlock : (stalled.core 0).run = some base.runD ∧ (stalled.core 0).deadSince = some 5 ∧
    5 + (stalled.reg mDeadlock).toNat ≤ stalled.cycle ∧ stalled.cycle - 1 < 5 + (stalled.reg mDeadlock).toNat ∧ base.runD.exch = false ∧
    (mxS (entry (.zacc hMx 3))).cur.arch.mx ≠ [] := by decide +kernel
theorem witness_ClocksScrubbersAndDeadlock_scrubbers : (base.cur.scrub (Ring5.code .acc)).interval ≠ 0 ∧ base.cur.flaws = [] ∧
    (({ base.cur with scrubs := [(1, { interval := 0, pass := true, pos := 0 })] } : Core).scrub 1).interval = 0 ∧
    (base.reg 0x3000).toNat ≠ 0 ∧ (base.reg 0x3008).toNat ≠ 0 ∧ base.memFlaws = [] ∧
    (({ base with regs := [(0x3000, 0), (0x3008, 0)] } : State).reg 0x3000).toNat = 0 ∧
    (({ base with regs := [(0x3000, 0), (0x3008, 0)] } : State).reg 0x3008).toNat = 0 := by decide +kernel
theorem witness_ManagementRegisters_logs : base.arch.sv = false ∧ (inHandler 0x20000).arch.sv = true ∧
    kwf ({ (inHandler 0x20000).cur with errlogs := [(1, [5, 6]), (2, [7])] } : Core).errlogs = true ∧
    sysRefused 0x050 1 1 = none ∧ (sysRefused 0x050 1 (2 ^ 63)).isSome = true := by decide +kernel

theorem witness_ManagementRegisters_stores : 0x3003 % 8 ≠ 0 ∧ 0x3000 % 8 = 0 ∧ regKnown 0x4FF8 = false ∧ regKnown 0x3000 = true ∧
    regLegal 0x3000 (4096 &&& BitVec.ofNat 64 (regMask 0x3000)) = true ∧ regKnown 0x2038 = true ∧
    retTotal [(0x1048, 0x1000001)] ≤ 1024 := by decide +kernel
/-- Quotas that just fit, and that just do not. -/
theorem witness_ManagementRegisters_retention : kwf base.stat = true ∧
    (let w : Word := 0x4000001 &&& BitVec.ofNat 64 (regMask 0x1008); regLegal 0x1008 w = true ∧ retTotal (kset base.regs 0x1008 w) ≤ 1024 ∧
      1024 < retTotal (kset [(0x1048, 0x4000001)] 0x1008 w)) ∧ isCounter 0x1018 = true ∧ isCounter 0x3010 = false := by decide +kernel
def tlbE (va : Nat) : TlbEntry := { job := 0, level := 0, va := va, pte := 1, pteAt := 0 }
theorem witness_TlbInvalidationAndThePager_tlb : base.tlbinv = none ∧
    ({ base with tlbinv := some (0, 0x2000, 2) } : State).tlbSettled 0 0x2000 2 = true ∧
    (let s : State := { loadS [{ loadPend 3 with va := 0x2FFC, pa := 0x2FFC }] with tlbinv := some (0, 0x2000, 2) }; s.tlbSettled 0 0x2000 2 = false) := by
  decide +kernel
def pageF (p : Nat) : State := base.setStat 0x5400 (BitVec.ofNat 64 p)
def parked : State :=
  let s := (base.modCore 0 fun k => k.vacate).setTcbState 0 0 fetchTcb tParked
  { s with launches := [] }
theorem witness_TlbInvalidationAndThePager_pager : 256 < (((pageF 300).statAt 0x5400).field 0 32 + 2 ^ 32 - (43 : Word).field 0 32) % 2 ^ 32 ∧
    (((pageF 300).statAt 0x5400).field 0 32 + 2 ^ 32 - (44 : Word).field 0 32) % 2 ^ 32 ≤ 256 ∧ (pageF 300).pfWait = [] ∧
    (∀ h ∈ base.heldStores, h.record ≠ 8 ∧ h.va ≠ 8) ∧ (∀ t ∈ base.tasks, t.tcb ≠ 8 ∨ base.tcbState t.job t.tcb ≠ tParked) ∧
    (∀ l ∈ base.launches, l.record ≠ 8) ∧ (∀ g ∈ base.heldGraphs, g.resume ≠ 8) ∧
    parked.heldStores = [] ∧ parked.launches = [] ∧ parked.heldGraphs = [] ∧ (∀ j ∈ parked.jobs, j.2.phase = none) ∧
    parked.tasks.map (·.tcb) = [fetchTcb] ∧ parked.tcbState 0 fetchTcb = tParked := by decide +kernel

def hostS (power : Nat) : State := { base with host := { base.host with h := 5, d := 0xFFFFFFFF }, plat := { base.plat with power := power } }
def desc77 : List Word := [77, 0x10000000, 0x10200, 0, 100, 0, 0, 0]
theorem witness_HostMessagesAboutJobs_order : ¬ Vocab.nextSeq (hostS 2) 5 ∧ ¬ Vocab.nextSeq (hostS 2) 7 ∧ newer 7 (hostS 2).wake.host.h = true ∧
    newer 5 (hostS 2).wake.host.h = false ∧ (hostS 2).host.sent.length ≤ 64 := by unfold Vocab.nextSeq; decide +kernel
theorem witness_HostMessagesAboutJobs_jobs : Vocab.nextSeq (hostS 2) 6 ∧ desc77.length ≤ 512 ∧ descOk desc77 = true ∧ descOk [77] = false ∧
    (Vocab.heard (hostS 2) 6).plat.power ≠ 3 ∧ kfind (Vocab.heard (hostS 2) 6).jobs 77 = none ∧
    (kfind (Vocab.heard (hostS 2) 6).jobs 0).isSome = true ∧ descOk (desc77.set 0 0) = true ∧ (kfind (Vocab.heard (hostS 2) 6).jobs 3).isSome = false := by
  unfold Vocab.nextSeq; decide +kernel
theorem witness_MemoryAndLinkMessagesPerform : Vocab.nextSeq (hostS 2) 6 ∧ listed 0x100000 4 = true ∧ wholeWords 0x100000 4 = true ∧
    inMgmt 0x100000 = false ∧ Memory.wf (hostS 2).mem = true ∧ (Vocab.heard (hostS 2) 6).poisoned 0x100000 4096 = false ∧
    listed 0x100000 4096 = true ∧ listed (2 ^ 47) 4 = false ∧ hostTypes.contains 0x77 = false ∧ hostTypes.contains 0x10 = true := by
  unfold Vocab.nextSeq; decide +kernel
def flit : List Byte := let b : List Byte := List.replicate 60 0; b ++ bytesOf 4 (crc32c b).toNat
def portS (state : Nat) (tries : Nat) (expect : Nat) : State :=
  { base with ports := [(2, { state := state, downSince := 3, expect := expect, waiting := true, sent := [(5, [1]), (6, [2])], nextSeq := 7, replays := [(expect, tries)], lost := false, got := [] })] }
/-- A flit with a good CRC, whatever number it holds, where that number is expected. -/
theorem witness_LinksAndLostDevices_flits : flitOk flit = true ∧ ((portS 2 0 (Config.flitSeq flit % 4096)).wake.port 2).expect = Config.flitSeq flit % 4096 ∧
    ((portS 2 0 (Config.flitSeq flit % 4096)).wake.port 2).state = 2 := ⟨by decide +kernel, rfl, rfl⟩
theorem witness_LinksAndLostDevices_replays : ((portS 1 0 7).wake.port 2).state ≠ 2 ∧ ((portS 2 7 7).wake.port 2).state = 2 ∧ flitOk (flit.set 0 1) = false ∧
    kget ((portS 2 7 7).wake.port 2).replays 7 0 < 8 ∧ 8 ≤ kget ((portS 2 8 7).wake.port 2).replays 7 0 ∧ (portS 2 8 7).colls = [] ∧
    ((portS 0 0 7).port 2).state = 0 ∧ ((portS 1 0 7).port 2).state = 1 := by decide +kernel
def askedS (times : Nat) : State := { base with ports := [(2, { Port.reset with state := 2, sent := [(5, [1]), (6, [2])], nextSeq := 7, asked := [(6, times)] })] }
theorem witness_LinksAndLostDevices_asked : kget ((askedS 7).port 2).asked 6 0 < 8 ∧ 8 ≤ kget ((askedS 8).port 2).asked 6 0 ∧ (askedS 8).colls = [] ∧
    0 < (((askedS 7).port 2).sent.dropWhile fun f => f.1 != 6).length ∧ kget ((askedS 7).port 2).asked 9 0 < 8 ∧
    (((askedS 7).port 2).sent.dropWhile fun f => f.1 != 9).length = 0 := by decide +kernel
def fabricS (state dt : Nat) : State := { portS state 0 7 with regs := [(0x5200, 3 * 2 ^ 16)], cycle := 3 + 1100 * (base.reg 0x5240).toNat + dt }
theorem witness_LinksAndLostDevices_loss : ((fabricS 1 1).port 2).state ≠ 0 ∧ (fabricS 0 0).cycle ≤ 3 + 1100 * ((fabricS 0 0).reg 0x5240).toNat ∧
    ((fabricS 0 1).port 2).state = 0 ∧ ((fabricS 0 1).port 2).lost = false ∧ (fabricS 0 1).fabricSize 1 ≠ 1 ∧
    3 + 1100 * ((fabricS 0 1).reg 0x5240).toNat < (fabricS 0 1).cycle ∧ 2 < (fabricS 0 1).fabricSize 1 ∧ 0 < (fabricS 0 1).fabricSize 0 ∧
    (fabricS 0 1).fabricSize 0 ≤ 5 ∧ (fabricS 0 1).lostDevs.contains 16 = false ∧ State.reset.jobs = [] ∧ (fabricS 0 1).colls = [] := by decide +kernel
def powerS (tolerance power : Nat) : State :=
  { (base.modCore 0 fun k => k.vacate) with tasks := [], jobs := [], regs := [(0x5248, BitVec.ofNat 64 tolerance)], plat := { base.plat with power := power } }
theorem witness_BootAndPowerStates : 5000000 ≤ (powerS 5000000 0).tolerance ∧ (powerS 5000000 0).jobs = [] ∧ (powerS 4999999 0).tolerance < 5000000 ∧
    60000 ≤ (powerS 60000 0).tolerance ∧ (powerS 60000 0).quietForP2 = true ∧ (powerS 60000 0).memFlaws = [] ∧ (powerS 59999 0).tolerance < 60000 ∧ 2000 ≤ (powerS 2000 0).tolerance ∧
    (powerS 2000 0).idleCores.isEmpty = false ∧ (powerS 1999 0).tolerance < 2000 ∧ (powerS 0 0).plat.power ≠ 3 ∧ (powerS 0 3).plat.power = 3 ∧
    State.reset.plat.image = none := by decide +kernel

/-! ## Encodings, steps, the invariant -/

/-- Every class, at the ends of its fields. -/
theorem witness_StreamDecodesItsEncoding : ∀ i ∈ [Instr.add 63 0 (.imm 0x80000000), .br .geu 63 (.imm6 0x20) 0xFFFFFFFF, .amo .maxu .d false { oc := 15, scope := 5, hint := .retain, strong := true } 63 62 0xFFFFFFFF 61,
    .vld .w { qp := 15, z := true, pop := .sl, push := .la } 767 63 0xFFFFFFFF, .vcvt .fp32 .e4m3 .sr ctl 767 (.v 766) (.s 63) (.v 0),
    .vst .w vsc 767 63 0xFFFFFFFF, .ecgo .cl 63 62, .unpin 63 7, .xmc 63 0x7FFFF 62 15, .sectionHeader header5], i.wf = true ∧ i.isStream = true := by decide +kernel
theorem item_of {ε : Type} {r : Except ε (Instr × Nat)} {i : Instr} {n : Nat}
    (h : (match r with | .ok p => decide (p = (i, n)) | .error _ => false) = true) : r = .ok (i, n) := by
  cases r with
  | error e => cases h
  | ok p => exact congrArg _ (of_decide_eq_true h)
theorem witness_DecodedItemsAreTheirEncoding : decode (encode (.add 63 0 (.imm 5))) = .ok (.add 63 0 (.imm 5), 12) ∧
    12 ≤ (encode (.add 63 0 (.imm 5))).length := ⟨item_of (by decide +kernel), by decide +kernel⟩
theorem witness_CommandsDecodeTheirImage : ∀ i ∈ [Instr.mma hMx mma0, .drain hMx drain0, .zacc hMx 31, .twfill hMx tw0, 
    .kat { hMx with role := 3, katCmp := true, pushMA := false } kat0, .mma { hMx with strict := true } mma0,
    .nmatt hNm (att true), .nmopt hNm opt0, .nmxg hNm group0, .crs hNm (coll 1 0x700000 false), .cag hNm (coll 2 0 false), .car hNm (coll 2 0 true)],
    i.isEcb = true ∧ Vocab.headClear i = true := by decide +kernel

/-- The next turn of s, and the state in which its agent takes it. -/
def turnOf (s : State) : State := { s.pass s.nextTurn.1 s.nextTurn.2 with part := none }
theorem atWord_base : Vocab.AtWord ((turnOf base).at_ 0 false) := by unfold Vocab.AtWord; decide +kernel
/-- The word after a fetch of 4 and of 12 bytes. -/
theorem witness_StepRunsTheDecodedInstruction : base.nextTurn.1.who = .sq 0 ∧ base.nextTurn.1.part = none ∧ Vocab.AtWord ((turnOf base).at_ 0 false) ∧
    (let s0 := turnOf base
     let s1 := (s0.at_ 0 false).modArch fun a => { a with waits := [] }
     (s0.at_ 0 false).inHandler = false ∧ ∃ u v bs ws, s1.fetchBytes (offsetOf s1.arch.word) 4 = (u, .ok bs) ∧ leNat bs / 2 ^ 29 % 8 ≠ 7 ∧
      State.fetchBytes { u with regs := base.regs } (offsetOf s1.arch.word) 12 = (v, .ok ws) ∧ decode ws = .ok (.nop, 12) ∧ u.focus = 0 ∧
      (u.core 0).arch = s1.arch ∧ v.cur.flaws = []) := by
  refine ⟨by decide +kernel, by decide +kernel, atWord_base, by decide +kernel, ?_⟩
  let s1 := ((turnOf base).at_ 0 false).modArch fun a => { a with waits := [] }
  obtain ⟨u, bs, h, q⟩ := checked_of (p := s1.fetchBytes (offsetOf s1.arch.word) 4) (q := fun u bs =>
    decide (leNat bs / 2 ^ 29 % 8 ≠ 7) && decide (u.focus = 0) && decide ((u.core 0).arch = s1.arch) &&
      okAnd (State.fetchBytes { u with regs := base.regs } (offsetOf s1.arch.word) 12) fun v ws => decide (ws = List.replicate 12 0) && decide (v.cur.flaws = [])) (by decide +kernel)
  simp only [Bool.and_eq_true, decide_eq_true_eq] at q
  obtain ⟨v, ws, g, r⟩ := checked_of q.2
  simp only [Bool.and_eq_true, decide_eq_true_eq] at r
  exact ⟨u, v, bs, ws, h, q.1.1.1, g, by rw [r.1]; exact item_of (by decide +kernel), q.1.1.2, q.1.2, r.2⟩
/-- A header; an engine's queue; an event. -/
theorem witness_StepRunsTheDecodedInstruction_header : (let b := State.reset.withFetchWord 64 (7 * 2 ^ 29 + 12 * 2 ^ 20 + 2 * 2 ^ 16)
    b.nextTurn.1.who = .sq 0 ∧
    (let s1 := (turnOf b).at_ 0 false
     s1.cur.run.isSome = true ∧ s1.arch.ended = false ∧ s1.cur.ckpt = none ∧ s1.cur.flaws = [] ∧ s1.cur.resumed = none ∧ s1.arch.atHeader = true ∧ s1.inHandler = false ∧
      windowOf s1.arch.pc = .glob ∧ okAnd (s1.fetchBytes (offsetOf s1.arch.pc) 4) (fun u bs => decide (leNat bs / 2 ^ 29 % 8 = 7) &&
        okAnd (State.fetchBytes { u with regs := b.regs } (offsetOf s1.arch.pc) 8) fun _ ws => match decode ws with | .ok _ => true | _ => false) = true)) := by
  decide +kernel
def turned (s : State) (who : Who) : State := { s with agenda := [{ dt := 3, who := who }] }
theorem witness_StepRunsTheDecodedInstruction_engines : (turned (after vadd base) (.va 0)).nextTurn.1.who = .va 0 ∧
    ((turnOf (turned (after vadd base) (.va 0))).core 0).ckpt = none ∧ ((turnOf (turned (after vadd base) (.va 0))).core 0).flaws = [] ∧ ((turnOf (turned (after vadd base) (.va 0))).core 0).arch.va.map (·.instr) = [vadd] ∧
    (ecbQ ((turnOf (turned (mxS (entry (.zacc hMx 3))) (.mx 0))).core 0).arch .mx).map (fun x => (x.net, x.owing)) = [(false, false)] ∧
    (turned base (.event (.nmuCompletion 3))).nextTurn.1.who = .event (.nmuCompletion 3) ∧ (Instr.nmuCompletion 3).isEvent = true := by decide +kernel

/-- A register programmed to the limit, and a step that programs another. -/
theorem witness_EveryStepKeepsTheInvariant : (let s : State := turned { State.reset with regs := [(0x1048, 0x4000001)] } (.event (.mgmtRegisterWrite 0x3000 4096))
    s.Inv ∧ (match step s with | .next t => decide (t.regs ≠ s.regs) | _ => false) = true) := by
  unfold State.Inv; decide +kernel

/-! ## The toolchain -/

/-- The word of a source line outside any section, where the label `here` lies 60 bytes on. -/
def wordOf (s : String) : Option Nat :=
  (Etas.parse s).bind fun l => l.source.bind fun x => (Etas.assemble [("here", .label 0 60)] 0 0 x).map Etas.Enc.word
/-- The words of R297, R306, R328, R338, R365 and R426 from their source lines. -/
theorem test_etas_words :
    wordOf "ADD s3, s4, 5" = some 0x000000050000000000218804 ∧
    wordOf "LD.W.OC3.DEV s7, [s2+0x40]" = some 0x000000400000029A20038400 ∧
    wordOf "(p2) VADD.F32.Z v10, v20, s5 pop=LA push=AS ; a sum" = some 0x000001100020281460005140 ∧
    wordOf "ECGO s9, s4, MX" = some 0x0000000000000000A0044009 ∧
    wordOf "cpgo 3, 0x12, S4, s5" = some 0x000003120000000021200828 := by decide +kernel
theorem test_etas_words_of_sy_and_va :
    wordOf "FENCE.DEV OC0, OC1" = some 0x0000000300000280C0800000 ∧
    wordOf "XMC [s4+0x100], s5, s6" = some 0x0000010000000600C1C00828 ∧
    wordOf "VCVT.F32.E4M3.SR v20, v21, v22, v23" = some 0x0600000A05C0B0156200A000 ∧
    wordOf "B here" = wordOf "JMP here" ∧ wordOf "B here" = some 0x0000000F0000000004200004 := by decide +kernel
/-- R304: a field set twice, a modifier that the word does not use and a required one that is absent; R303: a value that does not fit. -/
theorem test_etas_errors : wordOf "LD.W.OC1.OC2 s3, [s4]" = none ∧ wordOf "ADD.W s3, s4, s5" = none ∧ wordOf "LD s3, [s4]" = none ∧
    wordOf "ADD s3, s4, 0x80000000" = none ∧ wordOf "(p1) ADD s3, s4, s5" = none := by decide +kernel
/-- The first lines of the complete source file of spec/14, as one task. -/
def store42 : List String :=
  ["        .text", "        .task    store42", "        .sect                         ; section 1, no waits", "        LD.D     s2, [tp+8]",
   "        LI32     s3, 42", "        ST.W     [s2], s3", "        TEND", "        .endtask"]
/-- The 56 bytes of the task, by the table of its parcels in spec/14. -/
theorem test_etas_store42 : ((Etas.etas store42).map fun o => (o.secs.map fun x => leNat x.bytes)) =
    some [0x0000000000000000C1600000 * 2 ^ 352 + 0x000000000000000220218400 * 2 ^ 256 + 0x0000002A0000000000218004 * 2 ^ 160 +
      0x000000080000000320017A00 * 2 ^ 64 + 0x00000000E0C10000, 0, 0] := by decide +kernel
/-- An image of one launch record whose only relocation is of a kind, with an addend. -/
def oneRel (type : Etas.RelType) (add : Int) : Etbin.Obj :=
  { image := true, loadVa := 0, syms := [⟨"lr", 0, 5, true, 0, 256⟩], rels := [⟨none, 0, 0, type, 48, add⟩],
    secs := [⟨".text", 0, 8, List.replicate 256 0, 0⟩] }
/-- A value that fits and one that does not; in the second the record's done pointer stays 0. -/
theorem witness_RelocationsFitOrTheImageIsRefused :
    Etbin.relValue .spoff19 0xFF0000000000 0xFEFF00000001000 0 = none ∧ Etbin.relValue .spoff19 (0xFF00 * 2 ^ 48) 524287 0 = some 524287 ∧
    Etbin.relValue .spoff19 0 524288 0 = none ∧ Etbin.relValue .pcrel32 0 8 12 = some 0xFFFFFFFF ∧ Etbin.relValue .pcrel32 0 6 4 = none ∧
    Etbin.relValue .ztile5 0 31 0 = some 31 ∧ Etbin.relValue .ztile5 0 32 0 = none ∧ Etbin.relValue .abs64 (-1) 0 0 = some (2 ^ 64 - 1) ∧
    (oneRel .tplidx8 0).image = true ∧ (oneRel .tplidx8 0).ok = true ∧ 256 % (oneRel .tplidx8 0).alignment = 0 ∧
    (oneRel .tplidx8 0).failing 256 [] = some (0, "") ∧ (oneRel .abs64 0x40).failing 256 [] = none ∧
    base.loadable fetchJob.id fetchTcb 256 = true := by decide +kernel

/-! ## Clauses of the statements, at the ends of their ranges -/

def isTask (s : State) : Bool := match s.cur.run with | some r => !r.exch | none => false
/-- A value in s4, in a task that has a handler or in the handler. -/
def sysS (v : Nat) (sv : Bool) : State := setr (if sv then inHandler 0x20000 else withVec) [(4, v)]
def sysHas (v : Nat) : Prop := (sysS v false).cur.free [4] = true ∧ ((sysS v false).arch.rd 4).toNat = v ∧ (sysS v false).arch.va = [] ∧
  HandlerThere (sysS v false) ∧ (sysS v true).cur.free [4] = true ∧ ((sysS v true).arch.rd 4).toNat = v ∧ (sysS v true).arch.sv = true
/-- Each ring has its registers; VA empty and not; a task and a handler; the last trace index and the longest scrub interval. -/
theorem witness_SystemRegistersMove : (∀ ring ∈ [Ring5.vrf, .acc, .sp, .twa, .queue], ∃ scrub log : Fin 4096, scrub.val = 0x070 + Ring5.code ring ∧
      log.val = 0x080 + Ring5.code ring) ∧ base.cur.free [63] = true ∧ isTask base = true ∧ base.arch.va = [] ∧ (after vadd base).arch.va ≠ [] ∧
    (core0 base fun k => { k with traceIdx := 2047 }).cur.traceIdx < 2048 ∧
    (let k := (core0 (inHandler 0x20000) fun k => { k with scrubs := [(2, { interval := 2 ^ 32 - 1, pass := true, pos := 0 })], errlogs := [(2, [7])] }).cur
     (k.scrub (Ring5.code .sp)).interval < 2 ^ 32 ∧ kwf k.errlogs = true ∧ k.arch.sv = true) :=
  ⟨fun ring _ => by cases ring <;> exact ⟨⟨_, by decide⟩, ⟨_, by decide⟩, rfl, rfl⟩, by decide +kernel⟩
/-- The last values within and the first beyond each field's limits, the slip limit of the launch among them. -/
theorem witness_SystemRegistersMove_written : (∀ v ∈ [0, 1, 2, 4, 7, 8, 31, 32, 59, 63, 64, 255, 256, 1024, 1025, base.runD.slip, base.runD.slip + 1, 2 ^ 32 - 1, 2 ^ 32,
      2 ^ 48 - 4, 2 ^ 48, 2047 * 2 ^ 48 + 0xFBFB, 2 ^ 64 - 4], sysHas v) ∧
    (59 < 64 ∧ 59 / 4 % 2 = 0 ∧ 1 ≤ base.runD.slip ∧ (sysS 1 false).runD.slip = base.runD.slip ∧ (2047 * 2 ^ 48 + 0xFBFB) / 4 % 2 = 0 ∧
      (2047 * 2 ^ 48 + 0xFBFB) / 2 ^ 10 % 2 = 0 ∧ (2047 * 2 ^ 48 + 0xFBFB) / 2 ^ 16 % 2 ^ 32 = 0 ∧ (2047 * 2 ^ 48 + 0xFBFB) / 2 ^ 48 ≤ 2047 ∧
      (2 ^ 48 - 4) % 4 = 0 ∧ (2 ^ 64 - 4) % 4 = 0 ∧ 2 ^ 32 % 2 ^ 32 = 0 ∧ 64 ≤ 64 % 2 ^ 32) ∧
    (4 / 4 % 2 = 1 ∧ 64 / 4 % 2 = 0 ∧ 2 ^ 48 % 4 = 0 ∧ 1 % 4 ≠ 0 ∧ 63 % 2 ^ 32 < 64 ∧ 1 ≤ 1 % 2 ^ 32) := by
  unfold sysHas HandlerThere; decide +kernel

/-- A task with the last vector register, tile and page undeclared, and addresses about the last declared page. -/
def vqS : State := setr (core0 (arch0 vecS fun a => { a with trapvec := 0x20300 }) fun k => { k with run := k.run.map fun r => { r with nvec := 767, ntile := 31, npage := 127 } })
  [(4, sp (4096 * 127 - 256)), (5, 0xFF02 * 2 ^ 48 + 2 ^ 18 - 512), (6, 4), (8, 16), (9, 63), (10, 2 ^ 64 - 4)]
def fitB (s : State) (n : Nat) (a : Word) : Bool := decide (a.toNat / 2 ^ 48 = 0xFF00 ∧ a.toNat % 2 ^ 48 + n ≤ 2 ^ 19 ∧ a.toNat % 2 ^ 48 + n ≤ 4096 * s.runD.npage)
theorem fits_iff (s : State) (n : Nat) (a : Word) : Vocab.fits s n a ↔ fitB s n a = true := by simp [Vocab.fits, fitB]
def lanesB (i : Instr) (p : Word → Nat → Bool) : Bool := match Vocab.lanes vqS i with | some (_, as, n) => as.all (p · n) | none => false
def someLane (i : Instr) (p : Word → Nat → Bool) : Bool := match Vocab.lanes vqS i with | some (_, as, n) => as.any (p · n) | none => false
/-- The last 256 bytes of the declared pages; one element beyond; an odd address; the first undeclared register. -/
theorem witness_VectorWordsAreQueued_lanes : vqS.atEngine = false ∧ vqS.inHandler = false ∧ HandlerThere vqS ∧ vqS.arch.slipOk = true ∧
    (∀ i ∈ [Instr.vld .w plain 10 4 0, .vlds .w plain 10 4 0 6, .vlds .w plain 10 4 252 10, .vldx .w plain 10 4 252 (.v 1), .vldb .w plain 10 4 252,
        .vst .h plain 766 4 0, .vstc .w plain 10 4 0, .vsts .w plain 10 4 252 10, .vstx .b plain 10 4 255 (.v 2)],
      vqS.undeclared (Machine.Instr.vuse i).vregs = none ∧ vqS.cur.free (Machine.Instr.vuse i).scal = true ∧
        lanesB i (fun a n => fitB vqS n a && a.toNat % n == 0) = true) ∧
    (∀ i ∈ [Instr.vld .w plain 10 4 4, .vlds .w plain 10 4 4 6, .vldx .w plain 10 4 256 (.v 1), .vldb .w plain 10 4 256, .vst .h plain 10 4 130,
        .vstc .w plain 10 4 4, .vsts .w plain 10 4 256 10, .vstx .b plain 10 4 256 (.v 2)],
      vqS.undeclared (Machine.Instr.vuse i).vregs = none ∧ someLane i (fun a n => !fitB vqS n a) = true) ∧
    (∀ i ∈ [Instr.vld .h plain 10 4 1, .vlds .w plain 10 4 250 10, .vldx .w plain 10 4 251 (.v 1), .vldb .h plain 10 4 253, .vst .h plain 10 4 127,
        .vstc .h plain 10 4 1, .vsts .w plain 10 4 251 10, .vstx .w plain 10 4 1 (.v 2)],
      vqS.undeclared (Machine.Instr.vuse i).vregs = none ∧ lanesB i (fun a n => fitB vqS n a) = true ∧ someLane i (fun a n => a.toNat % n != 0) = true) ∧
    (∀ i ∈ [vadd, .vld .w plain 10 4 0], (Vocab.vaWord i = true ∨ (Vocab.lanes vqS i).isSome = true)) ∧
    vqS.undeclared (Machine.Instr.vuse (.vmov .f32 plain 767 (.v 1))).vregs = some 767 := by
  unfold HandlerThere; decide +kernel
/-- Slot 1,022, for two slots; a width of 5; the scratchpad; an odd slot. Line 63 of the last declared tile, line 64, and tile 31. -/
theorem witness_VectorWordsAreQueued_tiles :
    (∀ i ∈ [Instr.vldt true 3 plain 766 5 0 8, .vldt false 0 plain 10 5 256 6, .vaccr true 30 plain 10 9 0, .vaccw false 30 plain 10 9 0, .vaccr true 31 plain 10 9 0],
      vqS.undeclared (Machine.Instr.vuse i).vregs = none ∧ vqS.cur.free (Machine.Instr.vuse i).scal = true) ∧
    ((vqS.arch.rd 8).toNat = 16 ∧ (Vocab.ea vqS 5 0).toNat / 2 ^ 48 = 0xFF02 ∧ (Vocab.ea vqS 5 0).toNat % 2 ^ 48 < 2 ^ 18 ∧ (Vocab.ea vqS 5 0).toNat % 512 = 0) ∧
    ((vqS.arch.rd 9).toNat = 63 ∧ (Vocab.ea vqS 4 0).toNat / 2 ^ 48 ≠ 0xFF02 ∧ (Vocab.ea vqS 5 512).toNat % 2 ^ 48 = 2 ^ 18 ∧
      (Vocab.ea vqS 5 256).toNat % 256 = 0 ∧ (Vocab.ea vqS 5 256).toNat % 512 ≠ 0) ∧
    ((Vocab.ea vqS 9 0).toNat < 64 ∧ 64 ≤ (Vocab.ea vqS 9 1).toNat ∧ (30 : Fin 32).val < vqS.runD.ntile ∧ vqS.runD.ntile ≤ (31 : Fin 32).val) := by
  decide +kernel

/-- An access that no partial turn has begun; one of which VL, or SQ, has read words already. -/
def latchedS : State := core0 (queued (.vld .w vlc 10 4 0)) fun k => { k with latched := [(0, [(0x100, 9)]), (1, [(2 ^ 19 - 256, 9)])] }
theorem witness_VectorAndTileAccesses_latched : base.part = none ∧ kfind base.cur.latched 0 = none ∧ atHeadB .vl (.vld .w vlc 10 4 0) = true ∧
    Vocab.sees latchedS.cur 1 (2 ^ 19 - 256) 1 = [9] ∧ (kfind latchedS.cur.latched 0).isSome = true := by decide +kernel

/-! Rounded results: the ends of FP32, the special operands, the exact powers. -/

def fval (w : Nat) : Option Int := Vocab.val .fp32 w
def fabs (w : Nat) : Nat := ((fval w).getD 1).natAbs
theorem witness_FloatOperationsRound : (RMode.rne ≠ .sr ∧ RMode.rdn ≠ .sr) ∧ (∀ w ∈ [0, 0x80000000, 1, 0x807FFFFF, 0x00800000, 0xFF7FFFFF, 0x3F800000], (fval w).isSome = true) ∧
    fabs 0x80000000 = 0 ∧ (fval 0x7F800000).isNone = true ∧ 0xFF800000 % 2 ^ 31 = 0x7F800000 ∧ isNan 0x7F800001 = true ∧ isNan 0x7F800000 = false := by decide +kernel
/-- -1 and 1; 128 and -150, beyond which VEXP2 overflows and underflows; -149 and 127, its least and greatest exact powers; powers of two for VLOG2. -/
theorem witness_FloatOperationsRound_powers : fabs 0xBF800000 = 2 ^ 149 ∧ fabs 0x3F800000 = 2 ^ 149 ∧ fabs 0x43000000 = 128 * 2 ^ 149 ∧ fabs 0xC3160000 = 150 * 2 ^ 149 ∧
    fabs 0xC3150000 = 149 * 2 ^ 149 ∧ fabs 0x42FE0000 = 127 * 2 ^ 149 ∧ fabs 1 = 2 ^ 0 ∧ fabs 0x7F000000 = 2 ^ 276 ∧
    (∀ w ∈ [0xBF800000, 0xC3160000, 0xC3150000], decide ((fval w).getD 0 < 0) = true) ∧
    (∀ w ∈ [0x3F800000, 0x43000000, 0x42FE0000, 1, 0x7F000000], decide (0 < (fval w).getD 0) = true) := by decide +kernel
/-- A product 0 × ∞ of either order (NV). -/
theorem witness_NanOperandsGiveTheCanonicalNan_product : (0x80000000 : W32).toNat % 2 ^ 31 = 0 ∧ (0xFF800000 : W32).toNat % 2 ^ 31 = 0x7F800000 := by decide
theorem witness_ConversionsDrainsAndChunksRound_sources : (∀ f ∈ [Fmt.fp32, .bf16, .fp16, .e4m3, .e5m2, .e2m3, .e3m2, .e2m1, .int4, .int6, .int8, .i32, .u32],
      (Vocab.val f 0).isSome = true ∧ (Vocab.val f (Vocab.most f true)).isSome = true ∧ (Vocab.val f (Vocab.most f false)).isSome = true) ∧
    (∀ p ∈ [(Fmt.fp32, 0x7F800000), (.fp32, 0xFFC00000), (.bf16, 0x7F80), (.fp16, 0xFC00), (.fp16, 0x7C01), (.e4m3, 0xFF), (.e5m2, 0x7C), (.e5m2, 0x7D)],
      Vocab.val p.1 p.2 = none) ∧ 0x7FFFFFFF % 2 ^ Fmt.i32.width = 0x7FFFFFFF := by decide +kernel
/-- Scales 0 and 254; a finite value, an infinity, a NaN; a block of zeros, and one with a largest magnitude. -/
theorem witness_ConversionsDrainsAndChunksRound_drains : (∀ f ∈ [Fmt.fp32, .bf16, .e4m3, .e5m2, .e2m3, .e3m2, .e2m1], f.isDrain = true) ∧
    (fval 0xFF7FFFFF).isSome = true ∧ 0xFF800000 % 2 ^ 31 = 0x7F800000 ∧ 0x7F800000 < 0x7FC00000 % 2 ^ 31 ∧
    (∀ w ∈ [0x80000000, 0x00000000], fabs w = 0) ∧ (∀ w ∈ [0xFF7FFFFF, 1, 0x80000000], decide (fabs w ≤ fabs 0xFF7FFFFF ∧ 0 < fabs 0xFF7FFFFF) = true) := by
  decide +kernel
/-- Operand elements with scales 0 and 254, the two-zero code of E2M1, the NaN scale; sums with a NaN, with one infinity and with none; a BF16 pair at
the least top position. -/
theorem witness_ConversionsDrainsAndChunksRound_chunks : (∀ p ∈ [(Fmt.bf16, 0xFF7F), (.e4m3, 0x7E), (.e5m2, 0xFB), (.e2m3, 0x3F), (.e3m2, 0x1F), (.e2m1, 0xF), (.int4, 8), (.int8, 0x81)],
      p.1.isMatrix = true ∧ p.2 < 2 ^ p.1.width ∧ (Vocab.val p.1 p.2).isSome = true) ∧ Fmt.e2m1.isMX = true ∧
    Val.nan ∈ [Val.nan, .inf true] ∧ Val.nan ∉ [Val.inf false, .num true 1 0] ∧ Val.inf (!false) ∉ [Val.inf false, .num true 1 0] ∧
    [Val.num true 1 0, .num false (2 ^ 60) 0].map (Vocab.over 0) = [(-1 : Int), 2 ^ 60].map some ∧
    (∀ v ∈ [(-1 : Int), 2 ^ 60], v.natAbs < 2 * 2 ^ 60) ∧ (∃ v ∈ [(-1 : Int), 2 ^ 60], 2 ^ 60 ≤ v.natAbs) ∧
    ([(-1 : Int), 1].sum = 0 ∧ ∀ v ∈ [(0 : Int), 0], v = 0) := by decide +kernel

/-- An access that arrives while its unit runs; one that has waited, behind another. -/
def rowW (pa at_ : Nat) : RowWait := { nmu := 256, write := true, pa := pa, value := 9, arrived := at_ }
def rowS : State := { nmDoneS 2148 false with rowWaits := [rowW 0x100020 2140, rowW 0x100010 2147] }
theorem witness_NearMemoryCompletesAfterItsWindow_rows : rowS.rowWaits = [rowW 0x100020 2140] ++ rowW 0x100010 2147 :: [] ∧
    (∀ v ∈ [rowW 0x100020 2140], v.pa ≠ 0x100010) ∧ (∀ w ∈ rowS.rowWaits, w.pa ≠ 0x100030) ∧ inHbm 0x100030 = true ∧ nmuOf 0x100030 = 256 ∧
    (rowS.nmu 256).run ≠ none ∧ (base.nmu 256).run = none := by decide +kernel

theorem noRaces (s : State) (h : s.strong = []) (core pa n : Nat) : ∀ a, s.racesAt core pa n a = none := fun a => by
  unfold State.racesAt; rw [h]; rfl
theorem noRaces_base : base.strong = [] := rfl

/-! A PUBV at version 5 of region 4, by version, size and FINAL; a REFSTOP. -/

def pubS (body : SnBody) (nib size : Nat) (quar : List QEntry) : State :=
  let s := released body
  { s with mem := Memory.writes s.mem (s.regionVa 0 4) (bytesOf 8 (0x50000 + nib * 2 ^ 60) ++ bytesOf 8 (size * 2 ^ 36)),
           tasks := s.tasks.map fun t => { t with quar := quar } }
def pubIn (s : State) (b : SnBody) : State × Option (XlFail × Nat) := (s.takeItem 0 (snItem b 6 100)).regionRead 0 4
def pubOk (s : State) (b : SnBody) (q : State → Bool) : Bool := decide (s.firstItem 0 = some (snItem b 6 100)) && (pubIn s b).2.isNone &&
  (pubIn s b).1.sentBy (snItem b 6 100) && q (pubIn s b).1
def newer5 : List QEntry := [{ qEntry 0x50000 8 5 with seq := 6 }, { qEntry 0x5003C 8 9 with seq := 6 }, { qEntry 0x50010 4 9 with seq := 7 }]
theorem witness_SafetyNetReleasesItsFirstItem_versions : pubOk (pubS (.pubv 3 4 6 true) 5 0 []) (.pubv 3 4 6 true) (fun v => v.regionSize 0 4 == 0) = true ∧
    pubOk (pubS (.pubv 3 4 6 true) 8 1 []) (.pubv 3 4 6 true) (fun v => v.regionSize 0 4 != 0 && decide (8 ≤ v.regionNibble 0 4)) = true ∧
    pubOk (pubS (.pubv 3 4 5 true) 5 1 []) (.pubv 3 4 5 true) (fun v => v.regionSize 0 4 != 0 && decide (5 ≤ v.regionNibble 0 4 ∧ v.regionNibble 0 4 < 8)) = true ∧
    pubOk (pubS (.pubv 3 4 7 true) 5 1 newer5) (.pubv 3 4 7 true) (fun v => v.regionSize 0 4 != 0 && decide (v.regionNibble 0 4 < 7) &&
      (match v.task 0 fetchTcb with
       | some tk =>
         let w := v.takeRegion 0 fetchTcb 6 (v.regionBase 0 4) (v.regionBase 0 4 + 64 * v.regionSize 0 4)
         let x := (w.1.applyEntries (some 0) 0 tk.launch w.2).1
         let y := x.setRegion 0 4 7 true
         Memory.wf v.mem && w.2.length == 2 && w.2.all (!·.strong) && (y.regionHi 0 4).field 0 36 == 0 && y.sentBy (snItem (.pubv 3 4 7 true) 6 100)
       | none => false)) = true ∧
    pubOk (pubS (.refstop 3 4) 5 0 []) (.refstop 3 4) (fun v => v.regionSize 0 4 == 0) = true ∧
    pubOk (pubS (.refstop 3 4) 15 1 []) (.refstop 3 4) (fun v => v.regionSize 0 4 != 0 && decide (8 ≤ v.regionNibble 0 4)) = true := by decide +kernel

/-- Streams that stand at XSYNC 7, at XSYNC 7 beside a TEND, and one that stands at neither. -/
def atTendS (l : List Stream) (ended : Bool) : State := core0 (asExch (syncS l)) fun k => { k with arch := { k.arch with ended := ended } }
theorem witness_DeliveriesAndExchangeBarriers_tend : (let l := [{ stream0 (some 7) with core := 9 }, stream0 none]
    (atTendS l true).atTend 0 (stream0 none) = true ∧ (atTendS l false).atTend 0 (stream0 none) = false ∧ (l.map (·.core)).Nodup ∧
      (kfind (atTendS l true).jobs 0).isSome = true) := by decide +kernel

/-- SPFILL of page 5 on channel 1, beside an older copy into the page that waits for its first fill, and under a write-locked range. -/
def fillC (expected : Nat) : Copy := { kind := .fill 5, addr := 0x20000, sec := 1, seq := 4, next := 0, counted := 0, net := 0, expected := expected, writeBack := none }
def olderC : Copy := { theCopy with seq := 2, kind := .copy tpl 0x50060 (4096 * 5) }
def spfillS (fills : List Nat) (copies : KMap Copy) (locks : List (Nat × Nat)) : State :=
  core0 (fillS fills) fun k => { k with copies := copies, windows := [{ cmds := [{ winCmd 1 1200 with reads := locks }], bypass := none, replays := 0 }] }
theorem witness_MemoryEventsAndPageFills_spfill :
    (((spfillS [] [(1, fillC 0)] []).core 0).fillOn 5 = some (1, fillC 0) ∧ ((spfillS [] [(1, fillC 0)] []).core 0).flaws = []) ∧
    (let k := (spfillS [5] [(1, fillC 1), (2, olderC)] []).core 0
     k.fillOn 5 = some (1, fillC 1) ∧ k.olderCopyOn 4 5 = true ∧ k.fills.contains 5 = true ∧ k.locked (4096 * 5) 4096 = false) ∧
    (let k := (spfillS [] [(1, fillC 1), (2, olderC)] [(4096 * 5 + 4095, 1)]).core 0
     k.olderCopyOn 4 5 = true ∧ k.fills.contains 5 = false ∧ k.locked (4096 * 5) 4096 = true) ∧
    (let k := (spfillS [] [(1, fillC 1)] [(4096 * 5 + 4095, 1)]).core 0; k.olderCopyOn 4 5 = false ∧ k.locked (4096 * 5) 4096 = true) ∧
    (let s := spfillS [] [(1, fillC 1)] [(4096 * 6, 4096)]
     (s.core 0).fillOn 5 = some (1, fillC 1) ∧ (s.core 0).olderCopyOn 4 5 = false ∧ (s.core 0).locked (4096 * 5) 4096 = false ∧ (fillC 1).writeBack = none) := by
  decide +kernel
/-- The fill of that SPFILL answers; whether or not its page was resident. -/
def fillOf (s : State) : State × Bool := s.fillPage 0 5 5 .normal
theorem witness_MemoryEventsAndPageFills_filled : ∃ u, (fillOf (spfillS [] [(1, fillC 1)] [])) = (u, true) ∧
    (match ((spfillS [] [(1, fillC 1)] []).core 0).tagFrom 5 5 with | some p => p.hint | none => .normal) = Hint.normal ∧
    ((fillS [5]).core 0).tagFrom 0 5 = some { page5 with res := false } ∧
    ((core0 (atCycle 5000) fun k => { k with arch := { k.arch with pages := [(5, page5)] } }).core 0).tagFrom 0 5 = some page5 :=
  ⟨_, pair_eta (p := fillOf (spfillS [] [(1, fillC 1)] [])) (by decide +kernel), by decide +kernel, by decide +kernel, by decide +kernel⟩
/-- A strong load that races with nothing. -/
theorem witness_MemoryEventsAndPageFills_strong : (∀ a, (loadS [{ loadPend 3 with kind := .load true }]).racesAt 0 0x50000 4 a = none) ∧
    (let s := loadS [{ loadPend 3 with kind := .load true }]
     s.loadWaits 0 { loadPend 3 with kind := .load true } = false ∧ (loadPend 3).xl.inRegion 4 = false ∧ s.mixHit 0 0x50000 4 = false) :=
  ⟨noRaces _ rfl 0 0x50000 4, by decide +kernel⟩
theorem witness_SafetyNetReleasesItsFirstItem_races : ∀ a, (core0 { atCycle 5000 with net := [snItem .atomic 7 200] } fun k => { k with pend := [amoPend] }).racesAt 0 0x50000 8 a = none :=
  noRaces _ rfl 0 0x50000 8

/-- A task past step 4, whose strike is counted at rung 0 and whose TEND goes on. -/
def pastS (s : State) : State := { s with tasks := s.tasks.map fun t => { t with past4 := true } }
theorem witness_TasksCommitWhole_past4 : ((pastS (endedS [])).task 0 fetchTcb).map (·.past4) = some true ∧ isTask (pastS (endedS [])) = true ∧
    (∀ a, (endedS []).racesAt 0 0x50000 8 a = none) := ⟨by decide +kernel, by decide +kernel, noRaces _ rfl 0 0x50000 8⟩
theorem witness_StrikesAreReported_past4 : ((pastS struck).task 0 fetchTcb).all (!·.past4) = false ∧ (struck.task 0 fetchTcb).all (!·.past4) = true ∧
    (pastS struck).departed 0 968 = [] ∧ (pastS struck).exchangeAt 0 (968 + 32) = [] ∧ (struck.core 0).flaws = [] ∧ (coll2 0 0).attached = true ∧
    ({ base with colls := [coll2 0 0] } : State).alone (coll2 0 0) = false := by decide +kernel
theorem witness_CollectivesCompleteOrFail_alone : (collS (coll2 0 0) [member1] 50).alone (coll2 0 0) = false ∧ (collS (coll2 0 7) [] 50).alone (coll2 0 7) = false ∧
    (collS (coll2 0 0) [member1] 50).part = none := by decide +kernel
/-- Members that do not agree: one too many, and another size. -/
theorem witness_CollectivesCompleteOrFail_disagree : (let s := collS (coll2 0 0) [member1, { member1 with rank := 0 }] 50; (coll2 0 0).cmd.m.toNat < (s.arrived (coll2 0 0)).length) ∧
    (let s := collS (coll2 0 0) [{ member1 with cmd := { member1.cmd with e := 64 } }] 50
     (s.arrived (coll2 0 0)).length = (coll2 0 0).cmd.m.toNat ∧ agree (s.arrived (coll2 0 0)) = false) := by decide +kernel

/-! CANCEL at each level: what is live, what is over, what there is not. -/

def cancelS (st : Nat) : State := base.setTcbState 0 0 fetchTcb st
def noTask (s : State) : State := { (s.modCore 0 fun k => k.vacate) with tasks := [] }
def graph9 (st : Nat) : Graph := { job := 0, id := 9, cw := 0x44000, launches := [0], succs := [(0, [])], status := st, cause := 0 }
def graphS (st : Nat) : State := { base with graphs := [graph9 st] }
def launchS (st : Nat) : State := { base with launches := [{ fetchLaunch with status := st }] }
def jobS (st : Nat) : State := { base with jobs := [(0, { fetchJob with status := st })] }
theorem witness_HostMessagesAboutJobs_cancelTask : base.launch 0 0 = some fetchLaunch ∧ fetchLaunch.count = 1 ∧ fetchLaunch.tcbs = fetchTcb ∧
    ((noTask (cancelS tDone)).tcbState 0 fetchTcb = tDone ∧ (noTask (cancelS tDone)).task 0 fetchTcb = none ∧ (cancelS tCancelled).tcbState 0 fetchTcb = tCancelled ∧
      (cancelS tFaulted).tcbState 0 fetchTcb = tFaulted ∧ ((pastS base).task 0 fetchTcb).map (·.past4) = some true) ∧
    ((noTask (cancelS tWaiting)).tcbState 0 fetchTcb = tWaiting ∧ (noTask (cancelS tWaiting)).task 0 fetchTcb = none ∧
      (noTask (cancelS tWaiting)).launch 0 0 = some fetchLaunch) ∧
    (base.tcbState 0 fetchTcb ≠ tDone ∧ base.tcbState 0 fetchTcb ≠ tCancelled ∧ base.tcbState 0 fetchTcb ≠ tFaulted ∧ base.task 0 fetchTcb = some fetchTask ∧
      fetchTask.past4 = false ∧ (base.tasks.filter fun t => t.job == 0 && t.tcb == fetchTcb) = [fetchTask]) := by decide +kernel
theorem witness_HostMessagesAboutJobs_cancelLevels :
    (fetchLaunch.live = true ∧ ((launchS stDone).launch 0 0).map (·.live) = some false ∧ base.launch 0 1 = none ∧ base.heldGraphs = [] ∧
      ({ fetchLaunch with hold := some .accept } : Lnch).accepted = false ∧ fetchLaunch.words ≠ []) ∧
    ((graphS stRunning).graphs.find? (fun g => g.job == 0 && g.id == 9) = some (graph9 stRunning) ∧
      (graphS stDone).graphs.find? (fun g => g.job == 0 && g.id == 9) = some (graph9 stDone) ∧ stDone ≠ stPending ∧ stDone ≠ stRunning ∧
      base.graphs.find? (fun g => g.job == 0 && g.id == 9) = none) ∧
    ((base.launches.filter fun l => l.job == 0 && !l.words.isEmpty && l.phase == 0).any (·.live) = true ∧
      (base.launches.filter fun l => l.job == 0 && !l.words.isEmpty && l.phase == 1) = [] ∧
      ((launchS stDone).launches.filter fun l => l.job == 0 && !l.words.isEmpty && l.phase == 0) ≠ [] ∧
      ((launchS stDone).launches.filter fun l => l.job == 0 && !l.words.isEmpty && l.phase == 0).any (·.live) = false ∧ fetchJob.phase = none) ∧
    ((kfind (jobS stRunning).jobs 0).map (·.status) = some stRunning ∧ (kfind (jobS stDone).jobs 0).map (·.status) = some stDone ∧ kfind base.jobs 3 = none) := by
  decide +kernel
def cwX : State × Except (XlFail × Nat) Xl := base.eachPage (fun s a => s.translateNow 0 a .write) fetchLaunch.cw 8
theorem witness_HostMessagesAboutJobs_word : ∃ u x, base.eachPage (fun s a => s.translateNow 0 a .write) fetchLaunch.cw 8 = (u, .ok x) ∧
    Memory.wf u.mem = true ∧ base.devHeld 0 fetchLaunch.record = false := by
  obtain ⟨x, h, q⟩ := ok_of (p := cwX) (fun _ => Memory.wf cwX.1.mem) (by decide +kernel)
  exact ⟨cwX.1, x, h, q, by decide +kernel⟩

/-- Nothing races with the host; a flit that no collective's step carries, and one that a step does; no core runs. -/
theorem witness_MemoryAndLinkMessagesPerform_races : (∀ x ∈ hostPieces 0x100000 4, ∀ a, (hostS 2).racesAt theHost x.1 x.2 a = none) ∧
    (∀ x ∈ hostPieces 0x100000 4096, ∀ a, (Vocab.heard (hostS 2) 6).racesAt theHost x.1 x.2 a = none) :=
  ⟨fun _ _ => noRaces _ rfl _ _ _, fun _ _ => noRaces _ rfl _ _ _⟩
theorem witness_LinksAndLostDevices_carries : kfind ((askedS 8).port 2).carries 6 = none ∧
    (∀ c ∈ ({ State.reset with cores := [(3, (base.core 3))] } : State).cores, c.2.run = none) := by decide +kernel

/-- Words that a delivery and then a stream wrote. -/
def provCore : Core := { deliveredCore with prov := [{ job := 0, launch := 0, seq := 4, write := .bytes 8 [1, 2] }, { job := 0, launch := 0, seq := 5, write := .bytes 9 [3] }] }
theorem witness_LaunchesAndPhasesAdvance_prov : provCore.run = none ∧ (∀ d ∈ provCore.deliv, d.job = 0) ∧ provCore.prov.length = 2 ∧
    ∀ p ∈ provCore.prov, p.job = 0 ∧ ∃ off bs, p.write = .bytes off bs :=
  ⟨by decide +kernel, by decide +kernel, rfl, by
    intro p m
    simp only [provCore, List.mem_cons, List.not_mem_nil, or_false] at m
    obtain rfl | rfl := m <;> exact ⟨rfl, _, _, rfl⟩⟩

/-- No aged requester stands in the turn's way, and no head of MX or NM waits for the bits of the next; the first item and the row wait that bound it. -/
theorem witness_StepRunsTheDecodedInstruction_turn : (base.pass base.nextTurn.1 base.nextTurn.2).losesTurn base.nextTurn.1 = none ∧
    ((turned (nmS (.nmxg hNm group0) groupMem) (.nm 0)).pass (turned (nmS (.nmxg hNm group0) groupMem) (.nm 0)).nextTurn.1 []).losesTurn { dt := 3, who := .nm 0 } = none ∧
    ((nmS (.nmxg hNm group0) groupMem).at_ 0 true).takesFirst .mx (ecbSlot (entry (.nmxg hNm group0)).slots 1) = false ∧
    ((clS (.cag hNm (coll 1 0 false))).at_ 0 true).takesFirst .nm 1 = false ∧
    ({ base with net := [snItem .store 6 100], cycle := 2147 } : State).firstItem 0 = some (snItem .store 6 100) ∧
    ({ base with net := [snItem .store 6 100], cycle := 2147 } : State).nextTurn.1.dt ≤ 1 ∧
    ({ rowS with cycle := 2183 } : State).nextTurn.1.dt ≤ 1 := by decide +kernel

end Sys2Proof.Tests
end

namespace Sys2Proof.Machine

/-! ## The window of an address below 2^48 (R69) -/

theorem windowOf_glob {a : Word} (h : a.toNat < 2 ^ 48) : windowOf a = .glob := by
  have : a.field 48 16 = 0 := by simp only [Word.field]; omega
  simp [windowOf, this]

theorem offsetOf_glob {a : Word} (h : a.toNat < 2 ^ 48) : offsetOf a = a.toNat := by
  simp only [offsetOf, Word.field]; omega

theorem Arch.ea_eq (s : State) (sa : SReg) (off : W32) : s.arch.ea sa off = Vocab.ea s sa off := rfl

theorem alignedFor_of {must : Bool} {a : Word} {n : Nat} (h : must = true → a.toNat % n = 0) : alignedFor must a n = true := by
  cases must <;> simp_all [alignedFor]

/-! ## The trace leaves the rest of its core alone (R257-R259) -/

theorem Core.freezeTrace_frame (k : Core) : k.freezeTrace.arch = k.arch ∧ k.freezeTrace.run = k.run := by
  unfold Core.freezeTrace; split <;> exact ⟨rfl, rfl⟩

theorem Core.record_frame (k : Core) (cycle kind eng pay : Nat) (w : Word) :
    (k.record cycle kind eng pay w).arch = k.arch ∧ (k.record cycle kind eng pay w).run = k.run := by
  unfold Core.record
  split
  · exact ⟨rfl, rfl⟩
  · exact Core.freezeTrace_frame _

theorem Core.trace_frame (k : Core) (cycle kind eng pay : Nat) (w : Word) :
    (k.trace cycle kind eng pay w).arch = k.arch ∧ (k.trace cycle kind eng pay w).run = k.run := by
  unfold Core.trace
  split
  · exact Core.record_frame k cycle kind eng pay w
  · exact ⟨rfl, rfl⟩

@[simp] theorem Core.trace_arch (k : Core) (cycle kind eng pay : Nat) (w : Word) :
    (k.trace cycle kind eng pay w).arch = k.arch := (k.trace_frame cycle kind eng pay w).1
@[simp] theorem Core.trace_run (k : Core) (cycle kind eng pay : Nat) (w : Word) :
    (k.trace cycle kind eng pay w).run = k.run := (k.trace_frame cycle kind eng pay w).2

/-! ## A task after an update -/

theorem find?_replaceFirst {α : Type} {p : α → Bool} {f : α → α} {l : List α} {x : α} (h : l.find? p = some x) (hf : p (f x) = true) :
    (replaceFirst p f l).find? p = some (f x) := by
  induction l with
  | nil => cases h
  | cons y t ih =>
    cases hy : p y with
    | true =>
      obtain rfl : y = x := by simpa [hy] using h
      simp [replaceFirst, hy, hf]
    | false => simpa [replaceFirst, hy] using ih (by simpa [hy] using h)

theorem State.task_names {s : State} {job tcb : Nat} {tk : Task} (h : s.task job tcb = some tk) : tk.job = job ∧ tk.tcb = tcb := by
  simpa using List.find?_some h

theorem State.task_modTask {s : State} {job tcb : Nat} {tk : Task} {f : Task → Task} (h : s.task job tcb = some tk)
    (hj : (f tk).job = tk.job) (ht : (f tk).tcb = tk.tcb) : (s.modTask job tcb f).task job tcb = some (f tk) := by
  obtain ⟨rfl, rfl⟩ := State.task_names h
  exact find?_replaceFirst h (by simp [hj, ht])

/-- The slices that a task wrote are noted beside its quarantine. -/
theorem State.noteWrites_task {s : State} {job tcb : Nat} {tk : Task} (pa : Nat) (h : s.task job tcb = some tk) :
    ∃ tk', (s.noteWrites job tcb pa).task job tcb = some tk' ∧ tk'.quar = tk.quar ∧ tk'.held = tk.held :=
  ⟨_, State.task_modTask h rfl rfl, rfl, rfl⟩

/-- A state whose tasks are ts. -/
def State.withTasks (s : State) (ts : List Task) : State := { s with tasks := ts }

/-- A task that holds more bytes and words for its TEND. -/
def Task.hold (t : Task) (es : List QEntry) (hs : List Held) : Task := { t with quar := t.quar ++ es, held := t.held ++ hs }

/-- The lines that the quota of a launch allows a task (R25). -/
def State.quotaLines (s : State) (job launch : Nat) : Nat := 32 * (match s.launch job launch with | some l => l.quota | none => 0)

/-- The quarantine takes what the quota holds (R25). -/
theorem State.quarPut_fits {s : State} {job launch tcb : Nat} {tk : Task} {es : List QEntry} {hs : List Held}
    (h : s.task job tcb = some tk) (hq : (tk.hold es hs).lines ≤ s.quotaLines job launch) :
    s.quarPut job launch tcb es hs = some (s.modTask job tcb fun _ => tk.hold es hs) := by
  simp only [State.quarPut, h]
  exact if_pos hq

@[simp] theorem bytesOf_length (n v : Nat) : (bytesOf n v).length = n := by
  show (leBytes n v).length = n
  induction n generalizing v with
  | zero => rfl
  | succ n ih => simp [leBytes, ih]

/-! ## A global access that translates (R70, R71, R39) -/

theorem Xl.inRegion_page {x : Xl} {n : Nat} (hm : inMgmt x.pa = false) (hp : x.pa % 4096 + n ≤ 4096) : x.inRegion n = false := by
  have : ¬ 4096 < x.pa % 4096 + n := by omega
  simp [Xl.inRegion, hm, this]

theorem State.globalAccess_maps {s u : State} {a : Word} {n : Nat} {must : Bool} {acc : Access} {x : Xl} (f : State → Nat → Xl → Sq)
    (hm : Vocab.Maps s a.toNat n acc u x) (hv : a.toNat < 2 ^ 48) (ha : must = true → a.toNat % n = 0) :
    s.globalAccess a n must acc f = f u a.toNat x := by
  obtain ⟨hr, he, ht, -⟩ := hm
  simp only [State.globalAccess, offsetOf_glob hv, hr, decide_true, guard_true, alignedFor_of ha, State.notExch, he, Bool.not_false, ht]

/-! ## An item enters the Safety Net (R215) -/

section
variable (s : State) (core seq oc payload : Nat) (body : SnBody)

@[simp] theorem State.netPut_mem : (s.netPut core seq oc payload body).mem = s.mem := by
  unfold State.netPut; split <;> rfl
@[simp] theorem State.netPut_tasks : (s.netPut core seq oc payload body).tasks = s.tasks := by
  unfold State.netPut; split <;> rfl
@[simp] theorem State.netPut_cur : (s.netPut core seq oc payload body).cur = s.cur := by
  unfold State.netPut; split <;> rfl
@[simp] theorem State.netPut_arch : (s.netPut core seq oc payload body).arch = s.arch := by
  rw [State.arch, State.netPut_cur, State.cur_arch]

end

/-- The item of an occupied core carries the occupant's TCB. -/
theorem State.netPut_net {s : State} {core seq oc payload : Nat} {body : SnBody} {r : Run} (h : (s.core core).run = some r) :
    ∃ i, (s.netPut core seq oc payload body).net = s.net ++ [i] ∧ i.body = body ∧ i.tcb = r.tcb := by
  simp only [State.netPut, h]
  exact ⟨_, rfl, rfl, rfl⟩

/-! ## The end of a word that sends a store -/

/-- The last steps of ST and WENQ: the item enters the Safety Net, the place in program order advances, the word completes. -/
def State.sendStore (s : State) (seq oc n : Nat) : State := ((s.netPut s.focus seq oc n .store).modArch (·.tick)).done

section
variable (s : State) (seq oc n : Nat)

@[simp] theorem State.sendStore_mem : (s.sendStore seq oc n).mem = s.mem := by simp [State.sendStore]
@[simp] theorem State.sendStore_tasks : (s.sendStore seq oc n).tasks = s.tasks := by simp [State.sendStore]
@[simp] theorem State.sendStore_net : (s.sendStore seq oc n).net = (s.netPut s.focus seq oc n .store).net := by
  simp [State.sendStore]
@[simp] theorem State.sendStore_arch : (s.sendStore seq oc n).arch = s.arch.tick.advance.retire := by
  simp [State.sendStore, State.done_eq]

end

/-! ## ST of the global window (R389) -/

section
variable {u : State} {r : Run} {tk : Task} {at_ : MemAttr} {x : Xl} {n : Nat} {v : Word}

/-- The entry that ST places in the quarantine. -/
def storeEntry (u : State) (n : Nat) (at_ : MemAttr) (va : Nat) (x : Xl) (v : Word) : QEntry :=
  { va := va, pa := x.pa, bytes := bytesOf n v.toNat, hint := x.hint at_.hint, strong := at_.strong, wenq := false, seq := u.arch.seq,
    oc := at_.oc.val }

theorem quarEntries_storeEntry (va : Nat) (hp : x.pa % 4096 + n ≤ 4096) :
    quarEntries u.arch.seq at_.oc.val va x (bytesOf n v.toNat) at_.hint at_.strong false = [storeEntry u n at_ va x v] := by
  have hn : min n (4096 - x.pa % 4096) = n := by omega
  simp [quarEntries, storeEntry, hn, List.take_of_length_le]

/-- A store within one page that the quota holds adds its entry to the quarantine; beside it only the slices that the task wrote are noted. -/
theorem State.quarStore_page (va : Nat) (ht : u.task r.job r.tcb = some tk) (hp : x.pa % 4096 + n ≤ 4096)
    (hq : (tk.hold [storeEntry u n at_ va x v] []).lines ≤ u.quotaLines r.job r.launch) :
    ∃ ts tk', u.quarStore r u.arch.seq at_.oc.val va x (bytesOf n v.toNat) at_.hint at_.strong false [] = some (u.withTasks ts) ∧
      (u.withTasks ts).task r.job r.tcb = some tk' ∧ tk'.quar = tk.quar ++ [storeEntry u n at_ va x v] ∧
      tk'.held = tk.held := by
  obtain ⟨t1, h1, q1, e1⟩ := State.noteWrites_task x.pa
    (State.task_modTask (f := fun _ => tk.hold [storeEntry u n at_ va x v] []) ht rfl rfl)
  obtain ⟨t2, h2, q2, e2⟩ := State.noteWrites_task (spanPa x.pa x.pa2 ((bytesOf n v.toNat).length - 1)) h1
  refine ⟨_, t2, ?_, h2, q2.trans q1, (e2.trans e1).trans (List.append_nil _)⟩
  rw [State.quarStore, quarEntries_storeEntry va hp, State.quarPut_fits ht hq]
  rfl

theorem State.storeWord_glob {s : State} {a : Word} (h : a.toNat < 2 ^ 48) : s.storeWord n at_ a v = s.globalStore n at_ a v := by
  simp only [State.storeWord, windowOf_glob h]

/-- A store of the global window that translates to one page outside the management region, follows what it must and fits. -/
theorem State.globalStore_page {s w : State} {a : Word} (hm : Vocab.Maps s a.toNat n .write u x) (hv : a.toNat < 2 ^ 48)
    (ha : at_.strong = true → a.toNat % n = 0) (hs : at_.scope.val ≠ 3) (hp : x.pa % 4096 + n ≤ 4096)
    (hf : u.netFits u.focus n = true) (hw : u.cur.storeWaits at_.oc.val a.toNat x.pa n false false = false)
    (hq : u.quarStore u.runD u.arch.seq at_.oc.val a.toNat x (bytesOf n v.toNat) at_.hint at_.strong false [] = some w) :
    s.globalStore n at_ a v = .ok ((w.traceMem at_ a.toNat).sendStore w.arch.seq at_.oc.val n) := by
  have hscope : (at_.scope.val == 3) = false := by simpa using hs
  rw [State.globalStore, State.globalAccess_maps _ hm hv ha]
  simp only [Xl.inRegion_page hm.2.2.2 hp, hf, hscope, hw, hq, if_neg hs, Bool.not_false, Bool.and_self, waitFor_true]
  rfl

end

/-! ## What the trace record of a global access leaves alone -/

@[simp] theorem State.traceMem_arch (s : State) (at_ : MemAttr) (va : Nat) : (s.traceMem at_ va).arch = s.arch := by
  simp [State.traceMem]
@[simp] theorem State.traceMem_run (s : State) (at_ : MemAttr) (va : Nat) : (s.traceMem at_ va).cur.run = s.cur.run := by
  simp [State.traceMem]

/-- Part of O17: ST of the global window. -/
theorem globalStoresAreQuarantined : Parts.GlobalStoresAreQuarantined := by
  intro s u sz at_ sd sa off x tk r hfree va n bs e hva hal hscope hpage hmaps hfocus hrun hrunD htask hfits hwaits hquota
  obtain rfl : u.runD = r := by simp [State.runD, hrun]
  have hlines : (tk.hold [e] []).lines ≤ u.quotaLines u.runD.job u.runD.launch := by
    rw [Task.hold, List.append_nil]
    exact hquota
  obtain ⟨ts, tk', hq, ht, hquar, hheld⟩ := State.quarStore_page (v := s.arch.rd sd) (at_ := at_) va htask hpage hlines
  let w := (u.withTasks ts).traceMem at_ va
  have hexec : exec (.st sz at_ sa off sd) s = .next { w.sendStore u.arch.seq at_.oc.val n with regs := s.regs } := by
    rw [exec_st, execSt, State.sq_pass _ (.inl rfl) hfree, Arch.ea_eq, State.storeWord_glob hva]
    exact congrArg s.run (State.globalStore_page hmaps hva hal hscope hpage hfits hwaits hq)
  obtain ⟨i, hnet, hbody, htcb⟩ := State.netPut_net (s := w) (core := w.focus) (seq := u.arch.seq) (oc := at_.oc.val) (payload := n)
    (body := .store) (r := u.runD) (by rw [State.core_at_focus, State.traceMem_run]; exact hrun)
  have hmem : (w.sendStore u.arch.seq at_.oc.val n).mem = u.mem := State.sendStore_mem ..
  refine ⟨_, hexec, fun a => congrArg (Memory.read · a) hmem, ⟨tk', ?_, hquar, hheld⟩, ?_, i, ?_, hbody, htcb⟩
  · exact (congrArg (List.find? _) (State.sendStore_tasks ..)).trans ht
  · exact (State.sendStore_arch ..).trans (congrArg (·.tick.advance.retire) (State.traceMem_arch ..))
  · exact (State.sendStore_net ..).trans hnet

/-! ## WENQ (R423, R424) -/

/-- Doubleword i of a queue descriptor at x, as the task in focus reads it through its own view (R424). -/
def State.descWord (u : State) (x : Xl) (i : Nat) : Word :=
  BitVec.ofNat 64 (leNat (u.viewBytes u.focus u.runD.job u.runD.tcb (fun j => x.pa + 8 * i + j) 8 false).1)

/-- The slot that the next entry of a ring takes. -/
theorem queueSlot_eq (w : Nat → Word) (t : Nat) :
    queueSlot w t = (w 2).toNat % 2 ^ 48 + (w 3).toNat % 2 ^ 16 * (t % ((w 3).toNat / 2 ^ 32)) := by
  have hcount : (w 3).field 32 32 = (w 3).toNat / 2 ^ 32 := by simp only [Word.field]; omega
  rw [queueSlot, hcount]
  simp [Word.field]

/-- A well-formed descriptor is 0 from byte 40 on (R423). -/
theorem queueOk_reserved {w : Nat → Word} {len : Nat} (h : queueOk w len = true) : w 5 = 0 ∧ w 6 = 0 ∧ w 7 = 0 := by
  simp only [queueOk, Bool.and_eq_true, beq_iff_eq] at h
  obtain ⟨⟨⟨-, h5⟩, h6⟩, h7⟩ := h
  exact ⟨h5, h6, h7⟩

/-- The slot that a WENQ of the task in focus fills, and where its bytes lie. -/
def State.descSlot (u : State) (x : Xl) : Nat := queueSlot (u.descWord x) (u.descWord x 0).toNat
def State.slotXl (u : State) (x : Xl) : Xl := u.provXl u.runD.job (u.descSlot x)

/-- What WENQ puts into the quarantine: the payload in its slot, then the new tail (R424). -/
def State.wenqEntries (u : State) (oc va o n : Nat) (x : Xl) (hint : Hint) : List QEntry :=
  quarEntries u.arch.seq oc (u.descSlot x) (u.slotXl x) (u.arch.spBytes o n) hint false true ++
    quarEntries u.arch.seq oc va x (bytesOf 8 (((u.descWord x 0).toNat + 1) % 2 ^ 64)) hint false true

/-- WENQ's read of its descriptor (R424). -/
def State.readDesc (u : State) (va : Nat) (x : Xl) (hint : Hint) : State :=
  (u.request u.runD.job u.runD.launch va x 64 false hint).noteReads u.runD.job u.runD.tcb x 64

/-- The trace record of a WENQ. -/
def State.traceWenq (v : State) (oc va : Nat) : State := v.modCur fun k => k.trace v.cycle 3 0 (16 * oc) (BitVec.ofNat 64 va)

/-- The state after a WENQ of the occupant r whose bytes stand in the quarantine of v. -/
def State.enqueued (v : State) (r : Run) (oc va n : Nat) (x : Xl) : State :=
  ((v.traceWenq oc va).noteWrites r.job r.tcb x.pa).sendStore (v.traceWenq oc va).arch.seq oc n

theorem State.traceWenq_arch (v : State) (oc va : Nat) : (v.traceWenq oc va).arch = v.arch := by simp [State.traceWenq]

theorem State.enqueued_mem (v : State) (r : Run) (oc va n : Nat) (x : Xl) : (v.enqueued r oc va n x).mem = v.mem :=
  State.sendStore_mem ..

theorem State.enqueued_arch (v : State) (r : Run) (oc va n : Nat) (x : Xl) :
    (v.enqueued r oc va n x).arch = v.arch.tick.advance.retire :=
  (State.sendStore_arch ..).trans (congrArg (·.tick.advance.retire) (v.traceWenq_arch oc va))

/-- A WENQ takes nothing from what its task already holds. -/
theorem State.enqueued_task {v : State} {r : Run} {tk : Task} (oc va n : Nat) (x : Xl) (h : v.task r.job r.tcb = some tk) :
    ∃ tk', (v.enqueued r oc va n x).task r.job r.tcb = some tk' ∧ tk'.quar = tk.quar ∧ tk'.held = tk.held := by
  obtain ⟨tk', ht, hq, hh⟩ := State.noteWrites_task (s := v.traceWenq oc va) x.pa h
  exact ⟨tk', (congrArg (List.find? _) (State.sendStore_tasks ..)).trans ht, hq, hh⟩

section
variable {s u v : State} {oc o n va : Nat} {hint : Hint} {x : Xl}

/-- WENQ of a well-formed queue whose payload may be read and whose bytes fit. -/
theorem State.enqueueAt_fits (a : Word) (hpend : ∀ q ∈ u.cur.pend, q.kind.counted = true → q.hits va x.pa 64 = false)
    (hmgmt : inMgmt x.pa = false) (hpois : u.poisoned x.pa 64 = false) (hok : queueOk (u.descWord x) n = true)
    (hreg : (u.slotXl x).inRegion n = false) (hsp : SpClear u o n) (hfits : u.netFits u.focus n = true)
    (htail : u.cur.storeWaits oc va x.pa 8 false false = false)
    (hslot : u.cur.storeWaits oc (u.descSlot x) (u.slotXl x).pa n false false = false)
    (hput : (u.readDesc va x hint).quarPut u.runD.job u.runD.launch u.runD.tcb (u.wenqEntries oc va o n x hint)
      [.wenq va (u.arch.spBytes o n) hint] = some v) :
    u.enqueueAt oc hint a o n va x = .ok (v.enqueued u.runD oc va n x) := by
  have hp : (u.cur.pend.any fun p => p.kind.counted && p.hits va x.pa 64) = false := by
    simpa [List.any_eq_false] using hpend
  unfold State.wenqEntries State.readDesc at hput
  unfold State.slotXl State.descSlot State.descWord at hreg hslot hput
  unfold State.descWord at hok
  simp only [State.enqueueAt, hp, hmgmt, hpois, hok, hreg, touch_clear hsp, Touch.sq, hfits, htail, hslot, hput, Bool.not_false,
    Bool.not_true, Bool.or_self, Bool.and_self, Bool.false_eq_true, if_false, waitFor_true]
  rfl

/-- WENQ of a descriptor that translates and a payload in the declared pages. -/
theorem State.wenq_maps {a pay len : Word} (hv : a.toNat < 2 ^ 48) (ha : a.toNat % 64 = 0) (ho : o % 16 = 0)
    (hpay : spOffset pay = some o) (hpages : o + len.toNat ≤ 4096 * s.runD.npage) (hsize : o + len.toNat ≤ 2 ^ 19)
    (hm : Vocab.Maps s a.toNat 64 .write u x) :
    s.wenq oc hint a pay len = u.enqueueAt oc hint a o len.toNat a.toNat x := by
  have hin : s.inPages o len.toNat = true := decide_eq_true hpages
  simp only [State.wenq, windowOf_glob hv, hpay, hin, decide_eq_true hsize, ha, ho, State.globalAccess_maps _ hm hv fun _ => ha,
    beq_self_eq_true, Bool.and_self, guard_true]

end

/-- Part of O17: WENQ. -/
theorem wenqIsHeldUntilTheCommit : Parts.WenqIsHeldUntilTheCommit := by
  intro s u v oc hint sa sd sb off x o ⟨hfree, hout⟩ va n r word base count size bs slot p hva hal ho hoff hpages hsize hmaps hpend
    hpois hok hreg hsp hfits htail hslot hput
  have hdesc : slot = u.descSlot x := (queueSlot_eq ..).symm
  clear_value slot
  subst hdesc
  have hexec : exec (.wenq oc hint sa off sd sb) s = .next { v.enqueued u.runD oc.val va n x with regs := s.regs } := by
    rw [exec_wenq, execWenq, State.sq_pass _ (.inr hout) hfree, Arch.ea_eq, State.wenq_maps hva hal ho hoff hpages hsize hmaps,
      State.enqueueAt_fits _ hpend hmaps.2.2.2 hpois hok hreg hsp hfits htail hslot hput]
    rfl
  refine ⟨queueOk_reserved hok, _, hexec, fun a => congrArg (Memory.read · a) (v.enqueued_mem ..), v.enqueued_arch .., fun tk h => ?_⟩
  exact State.enqueued_task oc.val va n x h

/-- Settles O17: the parts on ST and on WENQ, each from what the word leaves in the quarantine and what sending its item leaves alone. -/
theorem globalStoresAreHeldUntilTheCommit : Obligations.GlobalStoresAreHeldUntilTheCommit :=
  ⟨globalStoresAreQuarantined, wenqIsHeldUntilTheCommit⟩

end Sys2Proof.Machine

namespace Sys2Proof.Machine

/-! ## Work of the L2: it stores nothing (R142-R148, R225) -/

/-- t is s after work that stores no byte and notes no strong store, as the L2's requests and corrections are. -/
structure State.Serves (s t : State) : Prop where
  mem : t.mem = s.mem
  strong : t.strong = s.strong
  cores : t.cores = s.cores
  host : t.host = s.host

namespace State.Serves

theorem refl (s : State) : s.Serves s := ⟨rfl, rfl, rfl, rfl⟩

theorem trans {s t u : State} (h : s.Serves t) (g : t.Serves u) : s.Serves u :=
  ⟨g.mem.trans h.mem, g.strong.trans h.strong, g.cores.trans h.cores, g.host.trans h.host⟩

/-- A run of such steps is one. -/
theorem foldl {α : Type} {f : State → α → State} (hf : ∀ (s : State) a, s.Serves (f s a)) (l : List α) (s : State) :
    s.Serves (l.foldl f s) :=
  List.foldlRecOn l f (refl s) fun t ht a _ => ht.trans (hf t a)

/-- So is a run that carries something beside the state. -/
theorem foldl_fst {α β : Type} {f : State × β → α → State × β} (hf : ∀ (p : State × β) a, p.1.Serves (f p a).1)
    (l : List α) (p : State × β) :
    p.1.Serves (l.foldl f p).1 :=
  List.foldlRecOn (motive := fun q => p.1.Serves q.1) l f (refl p.1) fun q hq a _ => hq.trans (hf q a)

/-- Latent errors, poison, lines and counts are the L2's own. -/
theorem with_memFlaws {s t : State} (h : s.Serves t) (f : KMap Bool) : s.Serves { t with memFlaws := f } := ⟨h.mem, h.strong, h.cores, h.host⟩
theorem with_poison {s t : State} (h : s.Serves t) (p : NSet) : s.Serves { t with poison := p } := ⟨h.mem, h.strong, h.cores, h.host⟩
theorem with_l2Tick {s t : State} (h : s.Serves t) (l : KMap Line) (n : Nat) : s.Serves { t with l2 := l, l2Tick := n } :=
  ⟨h.mem, h.strong, h.cores, h.host⟩
theorem bump {s t : State} (h : s.Serves t) (off n : Nat) : s.Serves (t.bump off n) := ⟨h.mem, h.strong, h.cores, h.host⟩
theorem devLog {s t : State} (h : s.Serves t) (n : Nat) (e second : Word) : s.Serves (t.devLog n e second) :=
  ⟨h.mem, h.strong, h.cores, h.host⟩

end State.Serves

theorem State.unpoison_serves (s : State) (pa n : Nat) : s.Serves (s.unpoison pa n) := ⟨rfl, rfl, rfl, rfl⟩

theorem State.hot_serves (s : State) (job launch va n : Nat) (missed : Bool) : s.Serves (s.hot job launch va n missed) :=
  ⟨rfl, rfl, rfl, rfl⟩

theorem State.meetFlaw_serves (s : State) (kind k : Nat) (ok : Bool) : s.Serves (s.meetFlaw kind k ok) := by
  rcases hk : s.l2Sector k with ⟨valid, dirty⟩
  simp only [State.meetFlaw, hk]
  have hlog (n : Nat) (e second : Word) : s.Serves (({ s with memFlaws := kdel s.memFlaws k } : State).devLog n e second) :=
    ((State.Serves.refl s).with_memFlaws _).devLog n e second
  split
  · exact (hlog ..).bump _ _
  · split
    · exact hlog ..
    · exact (hlog ..).with_poison _

theorem State.meetFlaws_serves (s : State) (kind pa n : Nat) : s.Serves (s.meetFlaws kind pa n) :=
  State.Serves.foldl (fun t (f : Nat × Bool) => t.meetFlaw_serves kind f.1 f.2) _ s

theorem State.dropLines_serves (s : State) (out : Nat → Bool) : s.Serves (s.dropLines out) := by
  have hmet (t : State) (f : Nat × Bool) :
      t.Serves (if (t.l2Sector f.1).2 then t.meetFlaw 0 f.1 f.2 else { t with memFlaws := kdel t.memFlaws f.1 }) := by
    split
    · exact t.meetFlaw_serves 0 f.1 f.2
    · exact ⟨rfl, rfl, rfl, rfl⟩
  exact (State.Serves.foldl hmet _ s).trans ⟨rfl, rfl, rfl, rfl⟩

theorem State.lineCount_serves (s : State) (line : Nat) : s.Serves (s.lineCount line) := by
  unfold State.lineCount
  split
  · exact (State.Serves.refl s).bump _ _
  · exact .refl s

theorem State.lineServe_serves (s : State) (line : Nat) (secs : Nat → Bool) (store : Bool) (h : Hint) :
    s.Serves (s.lineServe line secs store h) := by
  have hvictim (ls : KMap Line) : s.Serves (if ls.length < 14 then s else match Machine.victim ls with
      | some v => s.dropLines fun l => l == v
      | none => s) := by
    split
    · exact .refl s
    · split
      · exact s.dropLines_serves _
      · exact .refl s
  have hrefused {t : State} (ht : s.Serves t) (keep : Bool) (off : Nat) : s.Serves (if keep then t else t.bump off 1) := by
    split
    · exact ht
    · exact ht.bump off 1
  simp only [State.lineServe]
  split
  · exact (State.Serves.refl s).with_l2Tick _ _
  · split
    · exact .refl s
    · refine State.Serves.with_l2Tick ?_ _ _
      cases retOwner s.regs (128 * line) with
      | none => exact hvictim _
      | some n => exact hrefused (hvictim _) _ _

/-- The lookups and the requests of applied bytes, which precede the bytes themselves (R147, R149). -/
theorem State.applyRequests_serves (s : State) (job launch : Nat) (es : List QEntry) : s.Serves (s.applyRequests job launch es) := by
  have hline (p : State × NSet) (line : Nat) (secs : Nat → Bool) (h : Hint) :
      p.1.Serves ((if p.2.contains line then p.1 else p.1.lineCount line).lineServe line secs true h) := by
    refine State.Serves.trans ?_ (State.lineServe_serves ..)
    split
    · exact .refl _
    · exact State.lineCount_serves ..
  have hlooks : s.Serves ((sectorMap es).foldl (fun s x => s.hot job launch x.2 1 (s.secMiss (32 * x.1))) s) :=
    State.Serves.foldl (fun t x => t.hot_serves ..) _ s
  exact hlooks.trans (State.Serves.foldl_fst (fun p e => State.Serves.foldl_fst (fun p line => hline p line _ e.hint) e.lines p) es (_, []))

theorem State.noteCommit_serves (s : State) (pa n : Nat) : s.Serves (s.noteCommit pa n) := by
  unfold State.noteCommit
  split
  · exact .refl s
  · exact ⟨rfl, rfl, rfl, rfl⟩

theorem State.noteStrong_serves (s : State) (core pa n : Nat) : s.Serves (s.noteStrong core pa n) := ⟨rfl, rfl, rfl, rfl⟩

/-! ## Strong stores that race (R165) -/

theorem State.synced_congr {s t : State} (hc : t.cores = s.cores) (hh : t.host = s.host) (core : Nat) : t.synced core = s.synced core := by
  simp only [State.synced, State.core, hc, hh]

/-- What races with a strong access follows from the strong stores and from what its issuer has acquired. -/
theorem State.racesAt_congr {s t : State} (hs : t.strong = s.strong) (hc : t.cores = s.cores) (hh : t.host = s.host) (core pa n a : Nat) :
    t.racesAt core pa n a = s.racesAt core pa n a := by
  simp only [State.racesAt, hs, State.synced_congr hc hh]

theorem State.Serves.racesAt {s t : State} (h : s.Serves t) (core pa n a : Nat) : t.racesAt core pa n a = s.racesAt core pa n a :=
  State.racesAt_congr h.strong h.cores h.host core pa n a

theorem State.racesAt_wrBytes (s : State) (q : Nat) (bs : List Byte) (core pa n a : Nat) :
    (s.wrBytes q bs).racesAt core pa n a = s.racesAt core pa n a := State.racesAt_congr rfl rfl rfl core pa n a

/-- A core's accesses do not race with its own stores. -/
theorem State.racesAt_noteStore (s : State) (core q : Nat) (old : List Byte) (pa n a : Nat) :
    (s.noteStore core q old).racesAt core pa n a = s.racesAt core pa n a := by
  have hsync : (s.noteStore core q old).synced core = s.synced core := State.synced_congr rfl rfl core
  by_cases hw : pa / 8 = q / 8
  · simp only [State.racesAt, hsync, hw]
    simp only [State.noteStore, kget_kset_same, List.find?_append]
    simp
  · simp only [State.racesAt, hsync]
    simp only [State.noteStore, kget_kset_ne _ _ _ hw]

/-- Where nothing races with it, a strong store leaves its own bytes. -/
theorem State.racingStore_eq {s : State} {core pa : Nat} {bs : List Byte} (h : ∀ a, s.racesAt core pa bs.length a = none) :
    s.racingStore core pa bs = bs := by
  simp [State.racingStore, h]

/-! ## Quarantine entries laid over memory (R26, R125) -/

theorem Memory.read_writes {m : List Host.Cell} (h : Memory.wf m = true) (pa : Nat) (bs : List Byte) (a : Nat) :
    Memory.read (Memory.writes m pa bs) a = if pa ≤ a ∧ a < pa + bs.length then bs.getD (a - pa) 0 else Memory.read m a := by
  split
  · next hin =>
    obtain ⟨i, rfl⟩ := Nat.exists_eq_add_of_le hin.1
    have hi : i < bs.length := by omega
    rw [Memory.read_writes_inside h pa bs i hi]
    simp [hi]
  · next hout => exact Memory.read_writes_outside h bs (by omega)

/-- t is s with the bytes of e stored, and what races with the accesses of the core is as before. -/
structure State.Lays (s t : State) (core : Option Nat) (e : QEntry) : Prop where
  mem : t.mem = Memory.writes s.mem e.pa e.bytes
  races : ∀ c pa n a, core = some c → t.racesAt c pa n a = s.racesAt c pa n a

/-- Bytes at their home slice: the poison of whole sectors goes, and the sectors are noted. -/
def State.layBytes (s : State) (pa : Nat) (bs : List Byte) : State := ((s.unpoison pa bs.length).wrBytes pa bs).noteCommit pa bs.length

theorem State.layBytes_mem (s : State) (pa : Nat) (bs : List Byte) : (s.layBytes pa bs).mem = Memory.writes s.mem pa bs :=
  (State.noteCommit_serves _ pa bs.length).mem

theorem State.layBytes_racesAt (s : State) (q : Nat) (bs : List Byte) (core pa n a : Nat) :
    (s.layBytes q bs).racesAt core pa n a = s.racesAt core pa n a := by
  rw [State.layBytes, (State.noteCommit_serves _ q bs.length).racesAt, State.racesAt_wrBytes, (s.unpoison_serves q bs.length).racesAt]

/-- An entry is stored at its home slice; a strong one that races with nothing leaves its own bytes (R165). -/
theorem State.applyEntry_lays {s : State} {core : Option Nat} {e : QEntry}
    (h : ∀ c a, core = some c → e.strong = true → s.racesAt c e.pa e.bytes.length a = none) :
    s.Lays (s.applyEntry core e).1 core e := by
  let u := s.meetFlaws 0 e.pa e.bytes.length
  have hu : s.Serves u := s.meetFlaws_serves ..
  have hput : s.Lays (u.layBytes e.pa e.bytes) core e :=
    ⟨by rw [State.layBytes_mem, hu.mem], fun c pa n a _ => by rw [State.layBytes_racesAt, hu.racesAt]⟩
  match core, hstrong : e.strong with
  | none, _ => exact hput
  | some c, false =>
    have hstep : (s.applyEntry (some c) e).1 = u.layBytes e.pa e.bytes := by
      simp only [State.applyEntry, hstrong]
      rfl
    rw [hstep]
    exact hput
  | some c, true =>
    have hown : u.racingStore c e.pa e.bytes = e.bytes := State.racingStore_eq fun a => (hu.racesAt ..).trans (h c a rfl hstrong)
    have hstep : (s.applyEntry (some c) e).1 = ((u.layBytes e.pa e.bytes).noteStrong c e.pa e.bytes.length).noteStore c e.pa
        (Memory.reads u.mem e.pa e.bytes.length) := by
      simp only [State.applyEntry, hstrong]
      exact congrArg (fun bs => ((u.layBytes e.pa bs).noteStrong c e.pa e.bytes.length).noteStore c e.pa
        (Memory.reads u.mem e.pa e.bytes.length)) hown
    rw [hstep]
    refine ⟨hput.mem, fun d pa n a hd => ?_⟩
    obtain rfl : c = d := by simpa using hd
    rw [State.racesAt_noteStore, (State.noteStrong_serves ..).racesAt]
    exact hput.races c pa n a rfl

/-- The entries of a task are laid over memory in their order. -/
theorem State.applyEntries_laid {core : Option Nat} {es : List QEntry} {s : State} (mix : Option Nat) (hwf : Memory.wf s.mem = true)
    (h : ∀ c e a, core = some c → e ∈ es → e.strong = true → s.racesAt c e.pa e.bytes.length a = none) (a : Nat) :
    Memory.read (es.foldl (fun (p : State × Option Nat) e => let (s, mix) := p.1.applyEntry core e; (s, p.2.or mix)) (s, mix)).1.mem a =
      Vocab.laid (Memory.read s.mem) es a := by
  induction es generalizing s mix with
  | nil => rfl
  | cons e es ih =>
    have hlay : s.Lays (s.applyEntry core e).1 core e := State.applyEntry_lays fun c a hc => h c e a hc (List.mem_cons_self ..)
    have hread : Memory.read (s.applyEntry core e).1.mem =
        fun b => if e.pa ≤ b ∧ b < e.pa + e.bytes.length then e.bytes.getD (b - e.pa) 0 else Memory.read s.mem b := by
      funext b
      rw [hlay.mem, Memory.read_writes hwf]
    rw [List.foldl_cons, ih _ (by rw [hlay.mem]; exact Memory.writes_wf hwf _ _)
      fun c f b hc hf hs => (hlay.races c _ _ b hc).trans (h c f b hc (List.mem_cons_of_mem _ hf) hs), hread]
    rfl

/-- Part of O41: step 4 makes the quarantine visible. -/
theorem applyQuarantine_laid {s : State} {core : Option Nat} {tk : Task} (hwf : Memory.wf s.mem = true)
    (h : ∀ c e a, core = some c → e ∈ tk.quar → e.strong = true → s.racesAt c e.pa e.bytes.length a = none) (a : Nat) :
    Memory.read (s.applyQuarantine core tk []).1.mem a = Vocab.laid (Memory.read s.mem) (tk.quar.filter fun e => !e.wenq) a := by
  let u := s.applyRequests tk.job tk.launch (tk.quar.filter fun e => !e.wenq)
  have hu : s.Serves u := s.applyRequests_serves ..
  have hlaid := State.applyEntries_laid (s := u) (core := core) (es := tk.quar.filter fun e => !e.wenq) none (by rw [hu.mem]; exact hwf)
    (fun c e b hc he hs => (hu.racesAt ..).trans (h c e b hc (List.mem_filter.mp he).1 hs)) a
  rw [hu.mem] at hlaid
  exact hlaid

/-! ## TASK_COMMIT (R26, R163, R393) -/

/-- A task that nothing binds is its own bound set, and comes first in its order. -/
theorem boundSet_self (bonds : List (Nat × Nat)) (tcb : Nat) : boundSet bonds 0 [tcb] = [tcb] := rfl

theorem forwardOrder_alone (tcb : Nat) : forwardOrder [] 1 [tcb] = [tcb] := rfl

section
variable {s : State} {core : Nat} {r : Run} {tk : Task}

theorem State.taskCommit_past4 (hr : (s.core core).run = some r) (hx : r.exch = false) (ht : s.task r.job r.tcb = some tk)
    (hp : tk.past4 = true) : s.taskCommit core = s.tendEnd core r.job r.tcb := by
  simp only [State.taskCommit, hr, hx, ht, hp, if_true, Bool.false_eq_true, if_false]

theorem State.taskCommit_busy (hr : (s.core core).run = some r) (hx : r.exch = false) (ht : s.task r.job r.tcb = some tk)
    (hp : tk.past4 = false) (hi : s.tendIdle core = false) : s.taskCommit core = s := by
  simp only [State.taskCommit, hr, hx, ht, hp, hi, Bool.not_false, if_true, Bool.false_eq_true, if_false]

/-- A task whose engines are idle, whose pages are clean and that no forwarded value binds commits alone once its items have left the
Safety Net. -/
theorem State.taskCommit_alone (hr : (s.core core).run = some r) (hx : r.exch = false) (ht : s.task r.job r.tcb = some tk)
    (hp : tk.past4 = false) (hi : s.tendIdle core = true) (hd : (s.core core).dirtyPages = false) (hb : s.bonds = []) :
    s.taskCommit core =
      if s.readyToCommit r.job r.tcb then s.commitTasks core [(s.coreOf r.job r.tcb, tk)] else s := by
  have hbonds : s.bondsOf r.job = [] := by simp [State.bondsOf, hb]
  simp [State.taskCommit, hr, hx, ht, hp, hi, hd, hb, hbonds, boundSet_self, forwardOrder_alone]

end

/-- Settles O41: the cases of TASK_COMMIT, and the quarantine laid over memory entry by entry. -/
theorem tasksCommitWhole : Obligations.TasksCommitWhole := by
  refine ⟨fun s core r tk hr hx ht => ?_, fun s t core tk mix _ hwf hraces happly a => ?_⟩
  · have hgives {t : State} (h : s.taskCommit core.val = t) : Gives (.taskCommit core) s { t with regs := s.regs } := by
      rw [Gives, exec_taskCommit, execTaskCommit, h, State.sealed]
    refine ⟨fun hp => hgives (State.taskCommit_past4 hr hx ht hp), fun hp hi => hgives (State.taskCommit_busy hr hx ht hp hi),
      fun hp hi hd hb hc => hgives ((State.taskCommit_alone hr hx ht hp hi hd hb).trans (if_pos hc)),
      fun hp hi hd hb hc => hgives ((State.taskCommit_alone hr hx ht hp hi hd hb).trans (if_neg (by simp [hc])))⟩
  · rw [← applyQuarantine_laid hwf hraces a, happly]

end Sys2Proof.Machine

namespace Sys2Proof.Machine

/-- An event that programs no register gives the state that it makes, with the registers as they were. -/
theorem gives_sealed {i : Instr} {s t u : State} (hi : exec i s = s.sealed t) (h : t = u) : Gives i s { u with regs := s.regs } := by
  rw [Gives, hi, h, State.sealed]

/-! ## LAUNCH_RUNNING (R34, R178, R180, R201) -/

section
variable {s : State} {job id : Nat} {l : Lnch}

theorem State.launchRunning_waits (hl : s.launch job id = some l)
    (h : l.status ≠ stPending ∨ l.hold.isSome = true ∨ l.deps ≠ 0 ∨ s.phaseOpen job l.phase = false) : s.launchRunning job id = s := by
  simp only [State.launchRunning, hl]
  exact if_pos h

end

/-- Part of O44: a launch becomes RUNNING. -/
theorem launchesBecomeRunning : Parts.LaunchesBecomeRunning := by
  intro s job id l hl
  refine ⟨fun h => gives_sealed rfl (State.launchRunning_waits hl h), ?_⟩
  intro u v w ins hst hhold hdeps hopen hw hlines htcbs hins
  refine gives_sealed rfl ?_
  have hgo : ¬(l.status ≠ stPending ∨ l.hold.isSome = true ∨ l.deps ≠ 0 ∨ s.phaseOpen job.toNat l.phase = false) := by
    simp [hst, hhold, hdeps, hopen]
  simp only [State.launchRunning, hl, if_neg hgo, hw, hlines, htcbs, hins, Bool.not_true, Bool.false_eq_true, if_false]
  rfl

theorem gives_withJob {i : Instr} {s t : State} {n : Nat} {j : Job} (hi : exec i s = s.sealed t) (h : t = Vocab.withJob s n j) :
    Gives i s (Vocab.withJob s n j) := gives_sealed hi h

/-! ## Phases (R38, R42, R43, R459) -/

theorem State.modJob_found {s : State} {n : Nat} {j : Job} (h : kfind s.jobs n = some j) (f : Job → Job) :
    s.modJob n f = Vocab.withJob s n (f j) := by
  simp only [State.modJob, h, Vocab.withJob]

/-- The minimum of a key along a list that takes the value m and none below it. -/
theorem foldl_min_eq {α : Type} {f : α → Nat} {m : Nat} {l : List α} {a : Nat} (hl : ∀ x ∈ l, m ≤ f x) (ha : m ≤ a)
    (hm : a = m ∨ ∃ x ∈ l, f x = m) : l.foldl (fun b x => min b (f x)) a = m := by
  induction l generalizing a with
  | nil => simpa using hm
  | cons y l ih =>
    have hy : m ≤ f y := hl y (List.mem_cons_self ..)
    refine ih (a := min a (f y)) (fun x hx => hl x (List.mem_cons_of_mem _ hx)) (by omega) ?_
    simp only [List.mem_cons, exists_eq_or_imp] at hm
    obtain h | h | h := hm
    · left; omega
    · left; omega
    · exact .inr h

/-- A launch that takes part in the next phase of job n (R459). -/
def Job.awaits (j : Job) (n : Nat) (l : Lnch) : Prop :=
  l.job = n ∧ l.accepted = true ∧ l.live = true ∧ ∀ c, j.confirmed = some c → c < l.phase

theorem State.phaseBegin_goesOn {s : State} {n : Nat} {j : Job} {p : Phase} (h : kfind s.jobs n = some j) (hp : j.phase = some p) :
    s.phaseBegin n = Vocab.withJob s n j := by
  rw [State.phaseBegin, State.modJob_found h]
  simp [hp]

/-- The lowest phase that launches wait for begins with its compute step. -/
theorem State.phaseBegin_lowest {s : State} {n : Nat} {j : Job} {l : Lnch} (h : kfind s.jobs n = some j) (hp : j.phase = none)
    (hmem : l ∈ s.launches) (hl : j.awaits n l)
    (hlow : ∀ x ∈ s.launches, j.awaits n x → l.phase ≤ x.phase ∧ (x.phase = l.phase → x.pass = l.pass)) :
    s.phaseBegin n = Vocab.withJob s n { j with phase := some { num := l.phase, pass := l.pass, part := .compute, streams := [] } } := by
  rw [State.phaseBegin, State.modJob_found h]
  simp only [hp, Option.isSome_none, Bool.false_eq_true, if_false]
  generalize hls : s.launches.filter _ = ls
  have hin (x : Lnch) : x ∈ ls ↔ x ∈ s.launches ∧ j.awaits n x := by
    subst hls
    cases hc : j.confirmed <;> simp [Job.awaits, hc, and_assoc]
  have hlls : l ∈ ls := (hin l).2 ⟨hmem, hl⟩
  have hmin (x : Lnch) (hx : x ∈ ls) : l.phase ≤ x.phase ∧ (x.phase = l.phase → x.pass = l.pass) :=
    hlow x ((hin x).1 hx).1 ((hin x).1 hx).2
  cases ls with
  | nil => cases hlls
  | cons y t =>
    have hnum : t.foldl (fun m x => min m x.phase) y.phase = l.phase :=
      foldl_min_eq (fun x hx => (hmin x (List.mem_cons_of_mem _ hx)).1) (hmin y (List.mem_cons_self ..)).1
        ((List.mem_cons.1 hlls).imp (fun h => congrArg Lnch.phase h.symm) fun h => ⟨l, h, rfl⟩)
    obtain ⟨x, hx⟩ : ∃ x, (y :: t).find? (fun x => x.phase == l.phase) = some x :=
      Option.isSome_iff_exists.1 (List.find?_isSome.2 ⟨l, hlls, beq_self_eq_true _⟩)
    have hpass : x.pass = l.pass := (hmin x (List.mem_of_find?_eq_some hx)).2 (beq_iff_eq.1 (List.find?_some hx :))
    simp only [hnum, hx, hpass]

section
variable {s : State} {n : Nat} {j : Job} {p : Phase}

theorem State.exchangeStart_live (h : kfind s.jobs n = some j) (hp : j.phase = some p) (hc : p.part = .compute)
    (hl : (s.ofPhase n p.num).any (·.live) = true) : s.exchangeStart n = s := by
  simp only [State.exchangeStart, h, hp, hc, hl, Bool.true_or, if_true]

/-- The exchange step of a phase whose compute step has ended starts the streams of its launches. -/
theorem State.exchangeStart_streams (h : kfind s.jobs n = some j) (hp : j.phase = some p) (hc : p.part = .compute)
    (hx : p.cancelled = false) (hl : (s.ofPhase n p.num).any (·.live) = false) (hs : s.streamsOf n p.num ≠ []) :
    s.exchangeStart n = (s.streamsOf n p.num).foldl (fun s x => s.startStream n x)
      (Vocab.withJob s n { j with phase := some { p with part := .exchange, streams := s.streamsOf n p.num } }) := by
  have hs' : (s.streamsOf n p.num).isEmpty = false := by simpa [List.isEmpty_iff] using hs
  simp only [State.exchangeStart, h, hp, hc, hx, hl, hs', Bool.or_self, Bool.false_eq_true, if_false, State.modJob_found h]

/-- The hold ends one strike window after the last TEND of a stream. -/
theorem State.holdExpiry_holding {since : Nat} (h : kfind s.jobs n = some j) (hp : j.phase = some p) (hc : p.part = .holding since) :
    s.holdExpiry n = Vocab.withJob s n (if since + 2048 ≤ s.cycle then { j with phase := some { p with part := .confirm } } else j) := by
  simp only [State.holdExpiry, State.modJob_found h, hp, hc]
  rfl

/-- The barrier waits for every delivery of the step, in the Safety Net or under way. -/
theorem State.confirmation_confirm (h : kfind s.jobs n = some j) (hp : j.phase = some p) (hc : p.part = .confirm) :
    s.confirmation n = if (s.net.any fun i => i.exch && i.job == n) || (s.xmcs.any fun x => x.job == n) then s else s.confirmPhase n p := by
  simp only [State.confirmation, h, hp, hc]

end

/-- Part of O44: phases and their steps. -/
theorem phasesFollowTheirSteps : Parts.PhasesFollowTheirSteps := by
  intro s job j hj
  refine ⟨fun p hp => gives_withJob rfl (State.phaseBegin_goesOn hj hp),
    fun l hp hmem hl hlow => gives_withJob rfl (State.phaseBegin_lowest hj hp hmem hl hlow), fun p hp => ⟨?_, ?_, ?_, ?_, ?_⟩⟩
  · exact fun hc hl => gives_sealed rfl (State.exchangeStart_live hj hp hc hl)
  · exact fun hc hx hl hs => gives_sealed rfl (State.exchangeStart_streams hj hp hc hx hl hs)
  · refine fun since hc => ⟨fun hlt => gives_withJob rfl ?_, fun hle => gives_withJob rfl ?_⟩
    · rw [State.holdExpiry_holding hj hp hc, if_neg (by omega)]
    · rw [State.holdExpiry_holding hj hp hc, if_pos hle]
  · exact fun hc hn hx => gives_sealed rfl ((State.confirmation_confirm hj hp hc).trans (if_neg (by rw [hn, hx]; decide)))
  · exact fun hc hn => gives_sealed rfl ((State.confirmation_confirm hj hp hc).trans (if_pos (by rw [hn, Bool.true_or])))

/-! ## Exchange streams (R38, R39, R41, R68) -/

theorem State.modJob_cores (s : State) (n : Nat) (f : Job → Job) : (s.modJob n f).cores = s.cores := by
  unfold State.modJob; split <;> rfl
theorem State.modJob_mem (s : State) (n : Nat) (f : Job → Job) : (s.modJob n f).mem = s.mem := by
  unfold State.modJob; split <;> rfl
theorem State.modStreams_core (s : State) (n : Nat) (f : Stream → Stream) (c : Nat) : (s.modStreams n f).core c = s.core c :=
  congrArg (kget · c Core.reset) (s.modJob_cores n _)
theorem State.modStreams_mem (s : State) (n : Nat) (f : Stream → Stream) : (s.modStreams n f).mem = s.mem := s.modJob_mem n _

/-- The occupant of a core on which a stream of launch l starts. -/
def State.streamRun (s : State) (job : Nat) (l : Lnch) : Run :=
  { exch := true, job := job, launch := l.id, index := 0, tcb := l.record, code := l.code, entry := l.exchEntry, nvec := l.vregs,
    ntile := l.tiles, npage := l.pages, slip := l.slip, since := s.cycle, icache := s.mem }

/-- A core that a stream enters: as a launch enters it, with its number in s1 (R38, R68). -/
def Core.enterStream (k : Core) (epoch : Nat) (r : Run) (seed : W32) (slip : Nat) (lattol : Word) (core : Nat) : Core :=
  let k := k.enter epoch r seed slip lattol
  { k with arch := { k.arch with sregs := (1, BitVec.ofNat 64 core) :: k.arch.sregs } }

/-- A stream that may start enters its core; beside that only its entry in the phase and the epoch change. -/
theorem State.startStream_free {s : State} {job : Nat} {x : Stream} {l : Lnch} (hl : s.launch job x.launch = some l)
    (hs : x.started = false) (hp : x.parked = false) (he : x.ended = false) (hr : (s.core x.core).run = none)
    (hz : (s.core x.core).scrubUntil ≤ s.cycle) :
    ∃ f, s.startStream job x = ({ s.setCore x.core ((s.core x.core).enterStream (s.epoch + 1) (s.streamRun job l) (s.seedOf job).1 l.slip
      (s.seedOf job).2 x.core) with epoch := s.epoch + 1 } : State).modStreams job f := by
  have hgo : ¬ s.cycle < (s.core x.core).scrubUntil := by omega
  simp only [State.startStream, hl, hs, hp, he, hr, hgo, Bool.true_eq_false, Bool.false_eq_true, or_self, if_false]
  exact ⟨_, rfl⟩

/-- Part of O44: the start of an exchange stream. -/
theorem startStream_enters {s : State} {job : Nat} {x : Stream} {l : Lnch} (hl : s.launch job x.launch = some l)
    (hs : x.started = false) (hp : x.parked = false) (he : x.ended = false) (hr : (s.core x.core).run = none)
    (hz : (s.core x.core).scrubUntil ≤ s.cycle) :
    let t := s.startStream job x
    (∃ r, (t.core x.core).run = some r ∧ r.exch = true ∧ r.job = job ∧ r.launch = l.id ∧ r.npage = l.pages) ∧
      (t.core x.core).arch.rd 1 = BitVec.ofNat 64 x.core ∧
      (t.core x.core).arch.pc = BitVec.ofNat 64 (l.code + 4 * l.exchEntry) ∧ (t.core x.core).arch.sp = (s.core x.core).arch.sp ∧
      (∀ c, c ≠ x.core → t.core c = s.core c) ∧ t.mem = s.mem := by
  obtain ⟨f, ht⟩ := State.startStream_free hl hs hp he hr hz
  intro t
  have hcore : t.core x.core = (s.core x.core).enterStream (s.epoch + 1) (s.streamRun job l) (s.seedOf job).1 l.slip
      (s.seedOf job).2 x.core := by
    rw [show t = _ from ht, State.modStreams_core]
    exact State.setCore_core_same ..
  rw [hcore]
  refine ⟨⟨s.streamRun job l, rfl, rfl, rfl, rfl, rfl⟩, rfl, rfl, rfl, fun c hc => ?_, ?_⟩
  · rw [show t = _ from ht, State.modStreams_core]
    exact State.setCore_core_ne s _ hc
  · rw [show t = _ from ht, State.modStreams_mem]
    rfl

/-! ## Writes of the scratchpad (R39, R122) -/

theorem kfind_putBytes (m : KMap Byte) (off : Nat) (bs : List Byte) (b : Nat) :
    kfind (putBytes m off bs) b = if off ≤ b ∧ b < off + bs.length then some (bs.getD (b - off) 0) else kfind m b := by
  induction bs generalizing m off with
  | nil =>
    rw [putBytes, if_neg]
    simp only [List.length_nil]
    omega
  | cons x bs ih =>
    rw [putBytes, ih]
    by_cases hb : b = off
    · subst hb
      rw [if_neg (by omega), kfind_kset_same, if_pos (by simp)]
      simp
    · rw [kfind_kset_ne _ _ hb]
      by_cases hin : off + 1 ≤ b ∧ b < off + 1 + bs.length
      · have hidx : b - off = b - (off + 1) + 1 := by omega
        rw [if_pos hin, if_pos (by simp only [List.length_cons]; omega), hidx, List.getD_cons_succ]
      · rw [if_neg hin, if_neg (by simp only [List.length_cons]; omega)]

/-- t is k after the writes ws of the scratchpad, in their order; its scalar registers and its TLB are as before. -/
structure Core.Stores (k t : Core) (ws : List (Nat × List Byte)) : Prop where
  bytes : t.arch.spByte = Vocab.stored k.arch.spByte ws
  sregs : t.arch.sregs = k.arch.sregs
  tlb : t.tlb = k.tlb

theorem stored_append (old : Nat → Byte) (ws vs : List (Nat × List Byte)) :
    Vocab.stored old (ws ++ vs) = Vocab.stored (Vocab.stored old ws) vs := by
  induction ws generalizing old with
  | nil => rfl
  | cons w ws ih => exact ih _

theorem Core.Stores.trans {k t u : Core} {ws vs : List (Nat × List Byte)} (h : k.Stores t ws) (g : t.Stores u vs) :
    k.Stores u (ws ++ vs) :=
  ⟨by rw [g.bytes, h.bytes, stored_append], g.sregs.trans h.sregs, g.tlb.trans h.tlb⟩

/-- A run of writes, each of which stores what g says. -/
theorem Core.Stores.foldl {α : Type} {f : Core → α → Core} {g : α → Nat × List Byte} {l : List α}
    (hf : ∀ (k : Core), ∀ a ∈ l, k.Stores (f k a) [g a]) (k : Core) : k.Stores (l.foldl f k) (l.map g) := by
  induction l generalizing k with
  | nil => exact ⟨rfl, rfl, rfl⟩
  | cons a l ih =>
    exact (hf k a (List.mem_cons_self ..)).trans (ih (fun k b hb => hf k b (List.mem_cons_of_mem _ hb)) (f k a))

theorem Core.put_stores (k : Core) (off : Nat) (bs : List Byte) : k.Stores (k.put off bs) [(off, bs)] := by
  have hsp : (k.put off bs).arch.sp = putBytes k.arch.sp off bs := rfl
  have hepoch : (k.put off bs).arch.spEpoch = k.arch.spEpoch := rfl
  refine ⟨funext fun b => ?_, rfl, rfl⟩
  by_cases hin : off ≤ b ∧ b < off + bs.length
  · simp only [Arch.spByte, hsp, kfind_putBytes, Vocab.stored, if_pos hin]
  · simp only [Arch.spByte, hsp, hepoch, kfind_putBytes, Vocab.stored, if_neg hin]

/-! ## One core at the confirmation barrier (R38, R39) -/

/-- A delivered word is written and full. -/
def Core.takeDeliv (k : Core) (d : Deliv) : Core :=
  let k := k.put (4 * d.word) (bytesOf 4 d.value.toNat)
  { k with arch := { k.arch with full := nins k.arch.full d.word } }

/-- The bytes of a delivery. -/
def Deliv.bytes (d : Deliv) : Nat × List Byte := (4 * d.word, bytesOf 4 d.value.toNat)

theorem Core.takeDeliv_stores (k : Core) (d : Deliv) : k.Stores (k.takeDeliv d) [d.bytes] :=
  have h := k.put_stores (4 * d.word) (bytesOf 4 d.value.toNat)
  ⟨h.bytes, h.sregs, h.tlb⟩

/-- A provisional write is made. -/
def Core.takeDraft (k : Core) (p : Draft) : Core :=
  match p.write with
  | .bytes off bs => k.put off bs
  | .bit w full => { k with arch := { k.arch with full := if full then nins k.arch.full w else ndel k.arch.full w } }

/-- The bytes of a provisional write. -/
def Draft.bytes (p : Draft) : Nat × List Byte :=
  match p.write with | .bytes off bs => (off, bs) | .bit .. => (0, [])

theorem Core.takeDraft_stores (k : Core) {p : Draft} (h : ∃ off bs, p.write = .bytes off bs) : k.Stores (k.takeDraft p) [p.bytes] := by
  obtain ⟨off, bs, hw⟩ := h
  simp only [Core.takeDraft, Draft.bytes, hw]
  exact k.put_stores off bs

theorem mem_nins {m : NSet} {a b : Nat} : b ∈ nins m a ↔ b = a ∨ b ∈ m := by
  induction m with
  | nil => simp [nins]
  | cons c m ih =>
    simp only [nins]
    split
    · simp
    · split
      · next h => simp [h]
      · simp only [List.mem_cons, ih]
        exact or_left_comm

theorem Core.takeDelivs_full (l : List Deliv) (k : Core) (w : Nat) :
    w ∈ (l.foldl Core.takeDeliv k).arch.full ↔ w ∈ k.arch.full ∨ ∃ d ∈ l, d.word = w := by
  induction l generalizing k with
  | nil => simp
  | cons d l ih =>
    rw [List.foldl_cons, ih, show (k.takeDeliv d).arch.full = nins k.arch.full d.word from rfl, mem_nins]
    simp only [List.mem_cons, exists_eq_or_imp, eq_comm (a := w)]
    exact or_assoc.trans or_left_comm

theorem Core.takeDrafts_full {l : List Draft} (h : ∀ p ∈ l, ∃ off bs, p.write = .bytes off bs) (k : Core) :
    (l.foldl Core.takeDraft k).arch.full = k.arch.full :=
  List.foldlRecOn (motive := fun (t : Core) => t.arch.full = k.arch.full) l _ rfl fun t ht p hp => by
    obtain ⟨off, bs, hw⟩ := h p hp
    simp only [Core.takeDraft, hw]
    exact ht

/-- A core without an occupant at the barrier: what was delivered, then what its streams wrote. -/
theorem Core.confirm_vacant {k : Core} {job : Nat} (hr : k.run = none) (hd : ∀ d ∈ k.deliv, d.job = job) (hp : ∀ p ∈ k.prov, p.job = job) :
    let t := k.prov.foldl Core.takeDraft (k.deliv.foldl Core.takeDeliv k)
    k.confirm job = { t with prov := [], deliv := [], clash := ndel k.clash job,
                             arch := { t.arch with delivered := k.deliv.foldl (fun m d => nins m d.word) [] } } := by
  have hd1 : k.deliv.filter (·.job == job) = k.deliv := List.filter_eq_self.2 fun d h => by simpa using hd d h
  have hp1 : k.prov.filter (·.job == job) = k.prov := List.filter_eq_self.2 fun p h => by simpa using hp p h
  have hd0 : k.deliv.filter (·.job != job) = [] := List.filter_eq_nil_iff.2 fun d h => by simpa using hd d h
  have hp0 : k.prov.filter (·.job != job) = [] := List.filter_eq_nil_iff.2 fun p h => by simpa using hp p h
  simp only [Core.confirm, hr, hd1, hp1, hd0, hp0, Option.isNone_none, Bool.false_eq_true, true_or, or_true, if_true, if_false]
  rfl

/-- Part of O44: the barrier at a core without an exchange stream. -/
theorem confirm_delivers {k : Core} {job : Nat} (hr : k.run = none) (hd : ∀ d ∈ k.deliv, d.job = job)
    (hp : ∀ p ∈ k.prov, p.job = job ∧ ∃ off bs, p.write = .bytes off bs) :
    let t := k.confirm job
    t.deliv = [] ∧ t.prov = [] ∧
    (∀ b, t.arch.spByte b = Vocab.stored k.arch.spByte (k.deliv.map Deliv.bytes ++ k.prov.map Draft.bytes) b) ∧
    (∀ w, w ∈ t.arch.full ↔ w ∈ k.arch.full ∨ ∃ d ∈ k.deliv, d.word = w) ∧ t.arch.sregs = k.arch.sregs ∧ t.tlb = k.tlb := by
  have hdeliv := Core.Stores.foldl (l := k.deliv) (fun k d _ => k.takeDeliv_stores d) k
  have hprov := Core.Stores.foldl (f := Core.takeDraft) (g := Draft.bytes) (fun k p h => k.takeDraft_stores (hp p h).2)
    (k.deliv.foldl Core.takeDeliv k)
  have hall := hdeliv.trans hprov
  rw [Core.confirm_vacant hr hd fun p h => (hp p h).1]
  refine ⟨rfl, rfl, fun b => congrFun hall.bytes b, fun w => Iff.trans ?_ (Core.takeDelivs_full k.deliv k w), hall.sregs, hall.tlb⟩
  exact iff_of_eq (congrArg (w ∈ ·) (Core.takeDrafts_full (fun p h => (hp p h).2) (k.deliv.foldl Core.takeDeliv k)))

/-- Settles O44: the launch event case by case, each phase event by its part of the phase, the start of a stream, and the barrier at one
core as a run of writes. -/
theorem launchesAndPhasesAdvance : Obligations.LaunchesAndPhasesAdvance :=
  ⟨launchesBecomeRunning, phasesFollowTheirSteps, fun _ _ _ _ hl hs hp he hr hz => startStream_enters hl hs hp he hr hz,
    fun _ _ hr hd hp => confirm_delivers hr hd hp⟩

end Sys2Proof.Machine

namespace Sys2Proof.Machine

/-! ## Fields and masks of a slot (R106, R107) -/

/-- A number below 2^n has no bit outside the mask of its n low bits. -/
theorem and_lowMask {x m : Nat} (n : Nat) (h : x < 2 ^ n) (hm : m = 2 ^ n - 1 := by rfl) : x &&& m = x := by
  rw [hm, Nat.and_two_pow_sub_one_eq_mod, Nat.mod_eq_of_lt h]

/-- A mask of k low bits, g reserved bits above them, and the rest of the mask. -/
theorem and_gappedMask {x m : Nat} (k g : Nat) (hx : x / 2 ^ k % 2 ^ g = 0) (hr : x / 2 ^ (k + g) &&& m / 2 ^ (k + g) = x / 2 ^ (k + g))
    (hm : m % 2 ^ (k + g) = 2 ^ k - 1 := by rfl) : x &&& m = x := by
  have hlow : x % 2 ^ (k + g) < 2 ^ k := by
    rw [Nat.pow_add, Nat.mod_mul, hx, Nat.mul_zero, Nat.add_zero]
    exact Nat.mod_lt _ (Nat.two_pow_pos k)
  have hmod : (x &&& m) % 2 ^ (k + g) = x % 2 ^ (k + g) := by
    rw [Nat.and_mod_two_pow, hm, and_lowMask k hlow]
  calc x &&& m = 2 ^ (k + g) * ((x &&& m) / 2 ^ (k + g)) + (x &&& m) % 2 ^ (k + g) := (Nat.div_add_mod ..).symm
    _ = x := by rw [Nat.and_div_two_pow, hr, hmod, Nat.div_add_mod]

theorem toNat_ofNat_and_mask {x m : Nat} (h : x &&& m = x) : (BitVec.ofNat 64 x).toNat &&& m = (BitVec.ofNat 64 x).toNat := by
  rw [BitVec.toNat_ofNat, ← Nat.and_two_pow_sub_one_eq_mod, Nat.and_assoc, Nat.and_comm (2 ^ 64 - 1), ← Nat.and_assoc, h]

section
variable {s : List Word} {k x : Nat}

/-- A slot that the encoder wrote as the number x reads back each field that x holds; so too for a tile, a flag and a whole slot below. -/
theorem field_read {lo n : Nat} {v : BitVec n} (hs : ecbSlot s k = BitVec.ofNat 64 x := by rfl)
    (h : x / 2 ^ lo % 2 ^ n = v.toNat := by omega) (hn : lo + n ≤ 64 := by omega) :
    BitVec.ofNat n ((ecbSlot s k).field lo n) = v := by
  refine BitVec.eq_of_toNat_eq ?_
  rw [hs, Word.field, BitVec.toNat_ofNat, BitVec.toNat_ofNat, Nat.mod_mod, ← h]
  refine Nat.eq_of_testBit_eq fun i => ?_
  rw [Nat.testBit_mod_two_pow, Nat.testBit_mod_two_pow, Nat.testBit_div_two_pow, Nat.testBit_div_two_pow, Nat.testBit_mod_two_pow]
  by_cases hi : i < n
  · simp [hi, show i + lo < 64 by omega]
  · simp [hi]

theorem fin_read {z : Fin 32} (hs : ecbSlot s k = BitVec.ofNat 64 x := by rfl) (h : x % 2 ^ 5 = z.val := by omega) :
    Fin.ofNat 32 ((ecbSlot s k).field 0 5) = z := by
  refine Fin.ext ?_
  rw [hs, Fin.val_ofNat, Word.field, BitVec.toNat_ofNat]
  omega

theorem bit_read {i : Nat} {b : Bool} (hs : ecbSlot s k = BitVec.ofNat 64 x := by rfl)
    (h : x / 2 ^ i % 2 = b.toNat := by omega) (hn : i < 64 := by omega) : (ecbSlot s k).getLsbD i = b := by
  rw [hs, BitVec.getLsbD_ofNat, Nat.testBit_eq_decide_div_mod_eq, h]
  cases b <;> simp [hn]

theorem word_read {v : Word} (hs : ecbSlot s k = BitVec.ofNat 64 v.toNat := by rfl) : ecbSlot s k = v :=
  hs.trans (by rw [BitVec.ofNat_toNat, BitVec.setWidth_eq])

end

/-! ## Loop levels (R106) -/

theorem encodeLevel_lt (l : LoopLevel) : (encodeLevel l).toNat < 2 ^ 43 := by
  have := l.kLevel.toNat_lt
  have := l.ragged.toNat_lt
  rw [encodeLevel, BitVec.toNat_ofNat]
  omega

theorem decodeLevel_encodeLevel {s : List Word} {k : Nat} {l : LoopLevel}
    (hs : ecbSlot s k = BitVec.ofNat 64 (encodeLevel l).toNat := by rfl) : decodeLevel (ecbSlot s k) = l := by
  have hx := word_read hs
  have := l.kLevel.toNat_lt
  have := l.ragged.toNat_lt
  exact (LoopLevel.mk.injEq ..).mpr ⟨field_read hx, field_read hx, field_read hx, field_read hx, bit_read hx, bit_read hx⟩

/-! ## The image that encodeEcb makes (R106, R108) -/

/-- The image of a command of engine e with the head h, the opcode op and slots 3 to 14. -/
def ecbImage (e : EcbEngine) (op : Nat) (h : EcbHead) (rest : List Nat) : List Word :=
  let body := encodeSlot0 h op e.code :: h.wait :: h.signal :: rest.map (BitVec.ofNat 64)
  body ++ [(ecbCrc body).setWidth 64]

theorem encodeEcb_eq {i : Instr} {e : EcbEngine} {op : Nat} {h : EcbHead} {rest : List Nat}
    (hs : encodeEcbSlots i = some (h, op, rest)) (he : ecbEngineOf op = some e) : encodeEcb i = some (ecbImage e op h rest) := by
  simp only [encodeEcb, hs, he, Option.map_some, Option.getD_some, ecbImage]

theorem ecbSlot_append_left {body t : List Word} {n : Nat} (hn : n < body.length) : ecbSlot (body ++ t) n = ecbSlot body n := by
  simp only [ecbSlot, List.getD_eq_getElem?_getD, List.getElem?_append_left hn]

theorem ecbSlot_append_length {body : List Word} {c : Word} {n : Nat} (hn : body.length = n) : ecbSlot (body ++ [c]) n = c := by
  simp only [← hn, ecbSlot, List.getD_eq_getElem?_getD, List.getElem?_concat_length, Option.getD_some]

theorem ecbCrc_append {body t : List Word} (hl : body.length = 15) : ecbCrc (body ++ t) = ecbCrc body := by
  have hslots : (List.range 15).map (fun n => leBytes 8 (ecbSlot (body ++ t) n).toNat) =
      (List.range 15).map (fun n => leBytes 8 (ecbSlot body n).toNat) :=
    List.map_congr_left fun n hn => by rw [ecbSlot_append_left (hl ▸ List.mem_range.1 hn)]
  rw [ecbCrc, ecbCrc, List.flatMap_def, List.flatMap_def, hslots]

section
variable {e : EcbEngine} {op : Nat} {h : EcbHead} {rest : List Nat}

theorem ecbImage_length (hl : rest.length = 12) : (ecbImage e op h rest).length = 16 := by
  simp [ecbImage, hl]

theorem ecbImage_crc (hl : rest.length = 12) :
    ecbSlot (ecbImage e op h rest) 15 = (ecbCrc (ecbImage e op h rest)).setWidth 64 := by
  have hb : (encodeSlot0 h op e.code :: h.wait :: h.signal :: rest.map (BitVec.ofNat 64)).length = 15 := by simp [hl]
  rw [ecbImage, ecbCrc_append hb, ecbSlot_append_length hb]

theorem engineCode_lt (e : EcbEngine) : e.code < 8 := by cases e <;> decide

theorem ecbImage_opcode (hop : op < 256) : (ecbSlot (ecbImage e op h rest) 0).field 0 8 = op := by
  change (encodeSlot0 h op e.code).field 0 8 = op
  rw [encodeSlot0, Word.field, BitVec.toNat_ofNat]
  omega

theorem ecbImage_engine (hop : op < 256) : (ecbSlot (ecbImage e op h rest) 0).field 8 3 = e.code := by
  change (encodeSlot0 h op e.code).field 8 3 = e.code
  have := engineCode_lt e
  rw [encodeSlot0, Word.field, BitVec.toNat_ofNat]
  omega

theorem decodeEcbHead_ecbImage (hop : op < 256) : decodeEcbHead (ecbImage e op h rest) = h := by
  have := engineCode_lt e
  have := h.pushMA.toNat_lt
  have := h.strict.toNat_lt
  have := h.katCmp.toNat_lt
  have := h.tsm.toNat_lt
  exact (EcbHead.mk.injEq ..).mpr ⟨field_read, field_read, bit_read, field_read, field_read, field_read, bit_read, bit_read, bit_read,
    rfl, rfl⟩

end

/-! ## The checks of slot masks (R107, R110) -/

/-- Slots 3 to 14 lie in their masks, and slot 15 has that of the CRC (R106). -/
def SlotsFit : List Nat → List Nat → Prop
  | [], ms => ms = [0xFFFF_FFFF]
  | x :: xs, m :: ms => x &&& m = x ∧ SlotsFit xs ms
  | _ :: _, [] => False

theorem badSlot_cons {n : Nat} {x : Word} {xs : List Word} {m : Nat} {ms : List Nat} (h : x.toNat &&& m = x.toNat) :
    badSlot n (x :: xs) (m :: ms) = badSlot (n + 1) xs ms := by
  simp only [badSlot, h, if_true]

theorem badSlot_of_slotsFit {c : W32} {xs ms : List Nat} (n : Nat) (h : SlotsFit xs ms) :
    badSlot n (xs.map (BitVec.ofNat 64) ++ [c.setWidth 64]) ms = none := by
  induction xs generalizing ms n with
  | nil =>
    have hc : (c.setWidth 64).toNat &&& 0xFFFF_FFFF = (c.setWidth 64).toNat := and_lowMask 32 (by rw [BitVec.toNat_setWidth]; omega)
    rw [h]
    exact badSlot_cons hc
  | cons x xs ih =>
    cases ms with
    | nil => exact h.elim
    | cons m ms => exact (badSlot_cons (toNat_ofNat_and_mask h.1)).trans (ih (n + 1) h.2)

theorem toNat_and_allOnes (w : Word) : w.toNat &&& 0xFFFF_FFFF_FFFF_FFFF = w.toNat := and_lowMask 64 w.isLt

/-! ### The reserved bits of slot 0 (R107, R262, R322, R329, R356) -/

section
variable {h : EcbHead} {op eng : Nat} (hop : op < 256) (heng : eng < 8)
include hop heng

theorem encodeSlot0_and_mmaMask (hc : (h.oc = 0 ∧ h.scope = 0) ∧ h.katCmp = false) :
    (encodeSlot0 h op eng).toNat &&& 0x0000_FFFF_FF80_EFFF = (encodeSlot0 h op eng).toNat := by
  obtain ⟨⟨hoc, hscope⟩, hkat⟩ := hc
  have := h.tsm.toNat_lt
  have := h.strict.toNat_lt
  have := h.pushMA.toNat_lt
  simp only [encodeSlot0, hoc, hscope, hkat, BitVec.ofNat_eq_ofNat, BitVec.toNat_zero, Bool.toNat_false]
  exact toNat_ofNat_and_mask (and_gappedMask 12 1 (by omega) (and_gappedMask 3 7 (by omega) (and_lowMask 25 (by omega))))

/-- DRAIN, ZACC and TWFILL: strict ragged belongs to MMA alone. -/
theorem encodeSlot0_and_tileMask (hc : ((h.oc = 0 ∧ h.scope = 0) ∧ h.katCmp = false) ∧ h.strict = false) :
    (encodeSlot0 h op eng).toNat &&& 0x0000_FFFF_FF80_CFFF = (encodeSlot0 h op eng).toNat := by
  obtain ⟨⟨⟨hoc, hscope⟩, hkat⟩, hstrict⟩ := hc
  have := h.tsm.toNat_lt
  have := h.pushMA.toNat_lt
  simp only [encodeSlot0, hoc, hscope, hkat, hstrict, BitVec.ofNat_eq_ofNat, BitVec.toNat_zero, Bool.toNat_false]
  exact toNat_ofNat_and_mask (and_gappedMask 12 2 (by omega) (and_gappedMask 2 7 (by omega) (and_lowMask 25 (by omega))))

theorem encodeSlot0_and_katMask (hc : (((h.oc = 0 ∧ h.scope = 0) ∧ h.strict = false) ∧ h.pushMA = false) ∧ h.budget = 0) :
    (encodeSlot0 h op eng).toNat &&& 0x0000_FFFF_0000_DFFF = (encodeSlot0 h op eng).toNat := by
  obtain ⟨⟨⟨⟨hoc, hscope⟩, hstrict⟩, hpush⟩, hbudget⟩ := hc
  have := h.tsm.toNat_lt
  have := h.katCmp.toNat_lt
  simp only [encodeSlot0, hoc, hscope, hstrict, hpush, hbudget, BitVec.ofNat_eq_ofNat, BitVec.toNat_zero, Bool.toNat_false]
  exact toNat_ofNat_and_mask (and_gappedMask 13 1 (by omega) (and_gappedMask 2 16 (by omega) (and_lowMask 16 (by omega))))

/-- The commands of NM and CL. -/
theorem encodeSlot0_and_nearMask (hc : ((((h.budget = 0 ∧ h.pushMA = false) ∧ h.role = 0) ∧ h.strict = false) ∧ h.katCmp = false) ∧ h.tsm = false) :
    (encodeSlot0 h op eng).toNat &&& 0x0000_FFFF_007F_07FF = (encodeSlot0 h op eng).toNat := by
  obtain ⟨⟨⟨⟨⟨hbudget, hpush⟩, hrole⟩, hstrict⟩, hkat⟩, htsm⟩ := hc
  simp only [encodeSlot0, hbudget, hpush, hrole, hstrict, hkat, htsm, BitVec.ofNat_eq_ofNat, BitVec.toNat_zero, Bool.toNat_false]
  exact toNat_ofNat_and_mask (and_gappedMask 11 5 (by omega) (and_gappedMask 7 9 (by omega) (and_lowMask 16 (by omega))))

end

/-! ## Decoding an image (R110, R299) -/

/-- What decodeEcb answers for an opcode once its checks have passed: the command with the head h and the fields of the image (R299). -/
def readCommand (op : Nat) (h : EcbHead) (s : List Word) : Except Nat Instr :=
  match op with
  | 0x01 => .ok (.mma h (decodeMma s))
  | 0x02 => .ok (.drain h (decodeDrain s))
  | 0x03 => .ok (.zacc h (Fin.ofNat 32 ((ecbSlot s 5).field 0 5)))
  | 0x04 => .ok (.twfill h (decodeTwfill s))
  | 0x05 => .ok (.kat h (decodeKat s))
  | 0x21 => .ok (.nmatt h (decodeNmatt s))
  | 0x22 => .ok (.nmopt h (decodeNmopt s))
  | 0x23 => .ok (.nmxg h (decodeNmxg s))
  | 0x41 => .ok (.crs h (decodeColl s))
  | 0x42 => .ok (.cag h (decodeColl s))
  | _ => .ok (.car h (decodeColl s))

section
variable {e f : EcbEngine} {op : Nat} {s : List Word} {ms : List Nat}

theorem decodeEcb_passed (ho : (ecbSlot s 0).field 0 8 = op) (hm : ecbMasks op = some ms) (he : ecbEngineOf op = some e)
    (hc : (ecbSlot s 0).field 8 3 = e.code) (hb : badSlot 0 (s.take 16) ms = none) :
    decodeEcb e s = readCommand op (decodeEcbHead s) s := by
  simp only [decodeEcb, ho, hm, he, hc, hb, ne_eq, not_true_eq_false, or_self, if_false]
  rfl

theorem decodeEcb_wrongEngine (ho : (ecbSlot s 0).field 0 8 = op) (he : ecbEngineOf op = some e) (hf : f ≠ e) :
    decodeEcb f s = .error 0 := by
  have hne : ecbEngineOf op ≠ some f := he ▸ fun h => hf (Option.some.inj h).symm
  cases hm : ecbMasks op with
  | none => simp only [decodeEcb, ho, hm]
  | some ms => simp only [decodeEcb, ho, hm, ne_eq, hne, not_false_eq_true, true_or, if_true]

end

/-- The command has an image of 16 slots with its CRC that its own engine alone decodes. -/
def DecodesAlone (i : Instr) : Prop :=
  ∃ slots e, encodeEcb i = some slots ∧ slots.length = 16 ∧ ecbSlot slots 15 = (ecbCrc slots).setWidth 64 ∧
    decodeEcb e slots = .ok i ∧ ∀ f, f ≠ e → decodeEcb f slots = .error 0

/-- What a command owes for its image: an opcode of R299, slots within the opcode's masks, and fields that read back. -/
theorem decodesAlone_of_slots {i : Instr} {e : EcbEngine} {op m0 : Nat} {h : EcbHead} {rest ms : List Nat}
    (hs : encodeEcbSlots i = some (h, op, rest)) (hl : rest.length = 12) (hop : op < 256) (he : ecbEngineOf op = some e)
    (hm : ecbMasks op = some (m0 :: 0xFFFF_FFFF_FFFF_FFFF :: 0xFFFF_FFFF_FFFF_FFFF :: ms))
    (h0 : (encodeSlot0 h op e.code).toNat &&& m0 = (encodeSlot0 h op e.code).toNat) (hfit : SlotsFit rest ms)
    (hread : readCommand op h (ecbImage e op h rest) = .ok i) : DecodesAlone i := by
  have hlen := ecbImage_length (e := e) (op := op) (h := h) hl
  have hbad : badSlot 0 ((ecbImage e op h rest).take 16) (m0 :: 0xFFFF_FFFF_FFFF_FFFF :: 0xFFFF_FFFF_FFFF_FFFF :: ms) = none := by
    rw [List.take_of_length_le (Nat.le_of_eq hlen), ecbImage, List.cons_append, List.cons_append, List.cons_append,
      badSlot_cons h0, badSlot_cons (toNat_and_allOnes _), badSlot_cons (toNat_and_allOnes _)]
    exact badSlot_of_slotsFit 3 hfit
  refine ⟨_, e, encodeEcb_eq hs he, hlen, ecbImage_crc hl, ?_, fun f hf => decodeEcb_wrongEngine (ecbImage_opcode hop) he hf⟩
  rw [decodeEcb_passed (ecbImage_opcode hop) hm he (ecbImage_engine hop) hbad, decodeEcbHead_ecbImage hop, hread]

/-! ## Each command (R107, R263, R265, R270, R329) -/

theorem mma_decodesAlone {h : EcbHead} {m : MmaCmd} (hc : Vocab.headClear (.mma h m) = true) : DecodesAlone (.mma h m) := by
  have hbypass := m.bypass.toNat_lt
  have htransp := m.transp.toNat_lt
  have hover := m.overwrite.toNat_lt
  refine decodesAlone_of_slots (e := .mx) rfl rfl (by decide) rfl rfl ?slot0 ?fit ?read
  case slot0 => exact encodeSlot0_and_mmaMask (by decide) (by decide) (by simpa [Vocab.headClear] using hc)
  case fit =>
    simp only [SlotsFit, Nat.zero_and, and_true]
    exact ⟨and_lowMask 43 (by omega), and_lowMask 21 (by omega), and_lowMask 6 (by omega), and_lowMask 43 (encodeLevel_lt _), and_lowMask 43 (encodeLevel_lt _),
      and_lowMask 43 (encodeLevel_lt _), and_lowMask 43 (encodeLevel_lt _), and_lowMask 43 (encodeLevel_lt _), and_lowMask 43 (encodeLevel_lt _),
      and_lowMask 32 (by omega)⟩
  case read =>
    exact congrArg (Except.ok ∘ Instr.mma h) ((MmaCmd.mk.injEq ..).mpr
      ⟨field_read, bit_read, field_read, field_read, field_read, bit_read, field_read, field_read, fin_read, bit_read,
        decodeLevel_encodeLevel, decodeLevel_encodeLevel, decodeLevel_encodeLevel, decodeLevel_encodeLevel, decodeLevel_encodeLevel,
        decodeLevel_encodeLevel, field_read, field_read⟩)

theorem drain_decodesAlone {h : EcbHead} {d : DrainCmd} (hc : Vocab.headClear (.drain h d) = true) : DecodesAlone (.drain h d) := by
  have hbypass := d.toBypass.toNat_lt
  have hfrozen := d.frozen.toNat_lt
  have hstatus := d.statusCopy.toNat_lt
  refine decodesAlone_of_slots (e := .mx) rfl rfl (by decide) rfl rfl ?slot0 ?fit ?read
  case slot0 => exact encodeSlot0_and_tileMask (by decide) (by decide) (by simpa [Vocab.headClear] using hc)
  case fit =>
    simp only [SlotsFit, Nat.zero_and, true_and, and_true]
    exact ⟨and_gappedMask 5 1 (by omega) (and_lowMask 58 (by omega)), and_gappedMask 0 32 (by omega) (and_lowMask 16 (by omega)), and_lowMask 20 (by omega)⟩
  case read =>
    exact congrArg (Except.ok ∘ Instr.drain h) ((DrainCmd.mk.injEq ..).mpr
      ⟨fin_read, field_read, field_read, field_read, bit_read, field_read, field_read, bit_read, field_read, bit_read, field_read⟩)

theorem zacc_decodesAlone {h : EcbHead} {z : Fin 32} (hc : Vocab.headClear (.zacc h z) = true) : DecodesAlone (.zacc h z) := by
  refine decodesAlone_of_slots (e := .mx) rfl rfl (by decide) rfl rfl ?slot0 ?fit ?read
  case slot0 => exact encodeSlot0_and_tileMask (by decide) (by decide) (by simpa [Vocab.headClear] using hc)
  case fit =>
    simp only [SlotsFit, Nat.zero_and, true_and, and_true]
    exact and_lowMask 5 z.isLt
  case read => exact congrArg (Except.ok ∘ Instr.zacc h) fin_read

theorem twfill_decodesAlone {h : EcbHead} {t : TwfillCmd} (hc : Vocab.headClear (.twfill h t) = true) : DecodesAlone (.twfill h t) := by
  refine decodesAlone_of_slots (e := .mx) rfl rfl (by decide) rfl rfl ?slot0 ?fit ?read
  case slot0 => exact encodeSlot0_and_tileMask (by decide) (by decide) (by simpa [Vocab.headClear] using hc)
  case fit =>
    simp only [SlotsFit, Nat.zero_and, true_and, and_true]
    exact ⟨and_gappedMask 19 1 (by omega) (and_lowMask 23 (by omega)), and_lowMask 10 (by omega), and_lowMask 16 (by omega), and_lowMask 10 (by omega),
      toNat_and_allOnes _⟩
  case read =>
    exact congrArg (Except.ok ∘ Instr.twfill h) ((TwfillCmd.mk.injEq ..).mpr
      ⟨field_read, field_read, field_read, field_read, field_read, field_read, word_read⟩)

theorem kat_decodesAlone {h : EcbHead} {k : KatCmd} (hc : Vocab.headClear (.kat h k) = true) : DecodesAlone (.kat h k) := by
  refine decodesAlone_of_slots (e := .mx) rfl rfl (by decide) rfl rfl ?slot0 ?fit ?read
  case slot0 => exact encodeSlot0_and_katMask (by decide) (by decide) (by simpa [Vocab.headClear] using hc)
  case fit =>
    simp only [SlotsFit, Nat.zero_and, true_and, and_true]
    exact ⟨and_gappedMask 3 17 (by omega) (and_lowMask 4 (by omega)), and_gappedMask 0 11 (by omega) (and_lowMask 4 (by omega)),
      and_gappedMask 0 6 (by omega) (and_lowMask 4 (by omega)), and_lowMask 19 (by omega), toNat_and_allOnes _⟩
  case read =>
    exact congrArg (Except.ok ∘ Instr.kat h) ((KatCmd.mk.injEq ..).mpr
      ⟨field_read, field_read, field_read, field_read, field_read, word_read⟩)

theorem nmatt_decodesAlone {h : EcbHead} {a : NmattCmd} (hc : Vocab.headClear (.nmatt h a) = true) : DecodesAlone (.nmatt h a) := by
  have hglobal := a.toGlobal.toNat_lt
  refine decodesAlone_of_slots (e := .nm) rfl rfl (by decide) rfl rfl ?slot0 ?fit ?read
  case slot0 => exact encodeSlot0_and_nearMask (by decide) (by decide) (by simpa [Vocab.headClear] using hc)
  case fit =>
    simp only [SlotsFit, Nat.zero_and, and_true]
    exact ⟨and_lowMask 48 (by omega), and_lowMask 48 (by omega), and_gappedMask 48 15 (by omega) (and_lowMask 1 (by omega)),
      and_gappedMask 9 7 (by omega) (and_lowMask 24 (by omega)), and_lowMask 32 (by omega)⟩
  case read =>
    exact congrArg (Except.ok ∘ Instr.nmatt h) ((NmattCmd.mk.injEq ..).mpr
      ⟨field_read, field_read, bit_read, field_read, field_read, field_read, field_read⟩)

theorem nmopt_decodesAlone {h : EcbHead} {o : NmoptCmd} (hc : Vocab.headClear (.nmopt h o) = true) : DecodesAlone (.nmopt h o) := by
  refine decodesAlone_of_slots (e := .nm) rfl rfl (by decide) rfl rfl ?slot0 ?fit ?read
  case slot0 => exact encodeSlot0_and_nearMask (by decide) (by decide) (by simpa [Vocab.headClear] using hc)
  case fit =>
    simp only [SlotsFit, and_true]
    exact ⟨and_lowMask 52 (by omega), and_lowMask 48 (by omega), and_lowMask 48 (by omega), and_lowMask 48 (by omega), and_lowMask 52 (by omega),
      and_lowMask 48 (by omega), and_lowMask 64 (by omega), and_lowMask 64 (by omega), and_lowMask 64 (by omega), and_lowMask 64 (by omega),
      and_lowMask 64 (by omega), and_lowMask 64 (by omega)⟩
  case read =>
    exact congrArg (Except.ok ∘ Instr.nmopt h) ((NmoptCmd.mk.injEq ..).mpr
      ⟨field_read, field_read, field_read, field_read, field_read, field_read, field_read, field_read, field_read, field_read, field_read,
        field_read, field_read, field_read, field_read, field_read, field_read, field_read, field_read, field_read, field_read⟩)

theorem nmxg_decodesAlone {h : EcbHead} {x : NmxgCmd} (hc : Vocab.headClear (.nmxg h x) = true) : DecodesAlone (.nmxg h x) := by
  refine decodesAlone_of_slots (e := .nm) rfl rfl (by decide) rfl rfl ?slot0 ?fit ?read
  case slot0 => exact encodeSlot0_and_nearMask (by decide) (by decide) (by simpa [Vocab.headClear] using hc)
  case fit =>
    simp only [SlotsFit, Nat.zero_and, and_true]
    exact ⟨and_lowMask 48 (by omega), and_lowMask 9 (by omega)⟩
  case read => exact congrArg (Except.ok ∘ Instr.nmxg h) ((NmxgCmd.mk.injEq ..).mpr ⟨field_read, field_read⟩)

/-- The three collectives, whose images differ in the opcode alone (R329). -/
theorem coll_decodesAlone {op : Nat} {h : EcbHead} {c : CollCmd} (k : EcbHead → CollCmd → Instr)
    (hk : encodeEcbSlots (k h c) = some (h, op, encodeEcbSlots.collSlots c)) (hop : op < 256) (he : ecbEngineOf op = some .cl)
    (hm : ecbMasks op = ecbMasks 0x41) (hr : ∀ s, readCommand op h s = .ok (k h (decodeColl s)))
    (hc : Vocab.headClear (.crs h c) = true) : DecodesAlone (k h c) := by
  have harr := c.arr.toNat_lt
  refine decodesAlone_of_slots (e := .cl) hk rfl hop he hm ?slot0 ?fit ?read
  case slot0 => exact encodeSlot0_and_nearMask hop (by decide) (by simpa [Vocab.headClear] using hc)
  case fit =>
    simp only [SlotsFit, encodeEcbSlots.collSlots, Nat.zero_and, and_true]
    exact ⟨and_lowMask 48 (by omega), and_lowMask 48 (by omega), and_lowMask 33 (by omega), and_gappedMask 37 3 (by omega) (and_lowMask 5 (by omega)),
      and_lowMask 32 (by omega), and_lowMask 48 (by omega)⟩
  case read =>
    exact (hr _).trans (congrArg (Except.ok ∘ k h) ((CollCmd.mk.injEq ..).mpr
      ⟨field_read, field_read, bit_read, field_read, field_read, field_read, field_read, field_read, field_read, field_read⟩))

/-- Settles O56, command by command: slot 0 and slots 3 to 14 lie in the masks of the opcode, and every field reads back. -/
theorem commandsDecodeTheirImage : Obligations.CommandsDecodeTheirImage := by
  intro i hi hc
  change DecodesAlone i
  cases i with
  | mma => exact mma_decodesAlone hc
  | drain => exact drain_decodesAlone hc
  | zacc => exact zacc_decodesAlone hc
  | twfill => exact twfill_decodesAlone hc
  | kat => exact kat_decodesAlone hc
  | nmatt => exact nmatt_decodesAlone hc
  | nmopt => exact nmopt_decodesAlone hc
  | nmxg => exact nmxg_decodesAlone hc
  | crs => exact coll_decodesAlone .crs rfl (by decide) rfl rfl (fun _ => rfl) hc
  | cag => exact coll_decodesAlone .cag rfl (by decide) rfl rfl (fun _ => rfl) hc
  | car => exact coll_decodesAlone .car rfl (by decide) rfl rfl (fun _ => rfl) hc
  | _ => cases hi

end Sys2Proof.Machine

namespace Sys2Proof.Machine

/-! ## The policy for a victim (R190) -/

section
variable {drain ckpt kill : Bool} {rm limit c p : Nat}

/-- Each row of R190 needs a policy that is permitted. -/
theorem policyOf_eq_none : policyOf drain ckpt kill rm limit c p = none ↔ drain = false ∧ ckpt = false ∧ kill = false := by
  unfold policyOf
  split
  case isTrue h => exact iff_of_false nofun fun ⟨hd, _, _⟩ => Bool.false_ne_true (hd ▸ (Bool.and_eq_true_iff.1 h).1)
  split
  case isTrue h => exact iff_of_false nofun fun ⟨_, hk, _⟩ => Bool.false_ne_true (hk ▸ (Bool.and_eq_true_iff.1 h).1)
  split
  case isTrue h => exact iff_of_false nofun fun ⟨_, _, hx⟩ => Bool.false_ne_true (hx ▸ h)
  split
  case isTrue h => exact iff_of_false nofun fun ⟨_, hk, _⟩ => Bool.false_ne_true (hk ▸ h)
  split
  case isTrue h => exact iff_of_false nofun fun ⟨hd, _, _⟩ => Bool.false_ne_true (hd ▸ h)
  case isFalse hx hk hd => exact iff_of_true rfl ⟨eq_false_of_ne_true hd, eq_false_of_ne_true hk, eq_false_of_ne_true hx⟩

/-- A row of R190 does not apply: its policy is not permitted, or its condition fails. -/
theorem policyRow_false {permitted : Bool} {q : Prop} [Decidable q] (h : permitted = false ∨ ¬q) : ¬(permitted && decide q) = true :=
  fun hrow =>
    have ⟨hp, hq⟩ := Bool.and_eq_true_iff.1 hrow
    h.elim (fun hf => Bool.false_ne_true (hf.symm.trans hp)) fun hn => hn (of_decide_eq_true hq)

theorem policyOf_drain (hd : drain = true) (hr : rm ≤ limit) : policyOf drain ckpt kill rm limit c p = some .drain :=
  if_pos (Bool.and_eq_true_iff.2 ⟨hd, decide_eq_true hr⟩)

theorem policyOf_checkpoint (hd : drain = false ∨ limit < rm) (hk : ckpt = true) (hc : c < p) :
    policyOf drain ckpt kill rm limit c p = some .checkpoint :=
  (if_neg (policyRow_false (hd.imp_right Nat.not_le.2))).trans (if_pos (Bool.and_eq_true_iff.2 ⟨hk, decide_eq_true hc⟩))

theorem policyOf_kill (hd : drain = false ∨ limit < rm) (hk : ckpt = false ∨ p ≤ c) (hx : kill = true) :
    policyOf drain ckpt kill rm limit c p = some .kill :=
  (if_neg (policyRow_false (hd.imp_right Nat.not_le.2))).trans ((if_neg (policyRow_false (hk.imp_right Nat.not_lt.2))).trans (if_pos hx))

end

/-! ## PREEMPTION (R189, R191) -/

/-- A victim's core, reserved for e, with the request that the policy makes of it. -/
def Core.claimed (k : Core) (e : Ready) (cycle : Nat) : Policy → Core
  | .drain => { k with reserved := some (e.job, e.tcb) }
  | .checkpoint => { k with reserved := some (e.job, e.tcb), ckpt := some { held := none, since := cycle } }
  | .kill => { k with reserved := some (e.job, e.tcb), killAt := some cycle }

theorem Core.claimed_reserved (k : Core) (e : Ready) (cycle : Nat) (p : Policy) :
    (k.claimed e cycle p).reserved = some (e.job, e.tcb) := by cases p <;> rfl

theorem State.setCore_setCore (s : State) (c : Nat) (k l : Core) : (s.setCore c k).setCore c l = s.setCore c l := by
  simp [State.setCore]

/-- A request to checkpoint a core whose SQ does not itself wait for it. -/
theorem State.startCkpt_unheld (s : State) (c : Nat) :
    s.startCkpt c none = s.setCore c { s.core c with ckpt := some { held := none, since := s.cycle } } := rfl

/-- A token is spent and the victim's core claimed; beside them only a counter of the die may have changed. -/
theorem State.preempt_first {s : State} {die : Nat} {e : Ready} {l : List Ready} {b : Bind} {j : Job} {c : Nat} {p : Policy}
    (hscan : (s.ring die).scan = e :: l) (hb : s.bindingOf e = some b) (hj : kfind s.jobs e.job = some j) (hn : b.nmus = false)
    (ht : j.tokens ≠ 0) (hf : s.freeTargets e b = []) (hr : ∀ k ∈ s.cores, k.2.reserved ≠ some (e.job, e.tcb))
    (hv : s.victim die e b = some (c, p)) :
    { s.preempt die with stat := s.stat } = (Vocab.withJob s e.job j.spend).setCore c ((s.core c).claimed e s.cycle p) := by
  have hnone : (s.cores.any fun c => c.2.reserved == some (e.job, e.tcb)) = false := by simpa using hr
  simp only [State.preempt, hscan, List.findSome?_cons, hb, hj, hn, ht, hf, hnone, hv, List.isEmpty_nil, Bool.not_true, Bool.false_eq_true,
    or_self, if_false, Option.map_some, State.modJob_found hj]
  cases p with
  | drain => rfl
  | checkpoint =>
    simp only [State.startCkpt_unheld, State.modCore, State.setCore_core_same, State.setCore_setCore]
    rfl
  | kill =>
    simp only [State.modCore, State.setCore_core_same, State.setCore_setCore]
    rfl

theorem Ringm.scan_nil {r : Ringm} (h : r.ready = []) : r.scan = [] := by rw [Ringm.scan, h]; rfl

theorem State.preempt_idle {s : State} {die : Nat} (h : (s.ring die).ready = []) : s.preempt die = s := by
  simp only [State.preempt, Ringm.scan_nil h, List.findSome?_nil]

/-! ## SLICE_EXPIRY (R197) -/

section
variable {s : State} {core : Nat} {r : Run} {tk : Task} {slice floor : Nat}

theorem State.sliceExpiry_early (hr : (s.core core).run = some r) (ht : s.task r.job r.tcb = some tk)
    (hsl : (s.reg (mRing (dieOf core) + 0x38)).toNat = slice) (hfl : (s.ring (dieOf core)).floor = floor)
    (h : slice = 0 ∨ s.cycle < r.since + 1100 * max slice floor) : s.sliceExpiry core = s := by
  simp only [State.sliceExpiry, hr, ht, hsl, hfl]
  exact if_pos (h.imp_right fun h => .inr (.inl h))

/-- A slice that has run out: SLICEFLR where the floor is longer, and a checkpoint. -/
theorem State.sliceExpiry_expired (hr : (s.core core).run = some r) (ht : s.task r.job r.tcb = some tk)
    (hsl : (s.reg (mRing (dieOf core) + 0x38)).toNat = slice) (hfl : (s.ring (dieOf core)).floor = floor)
    (hs : slice ≠ 0) (hc : r.since + 1100 * max slice floor ≤ s.cycle) (hx : r.exch = false) (hk : (s.core core).ckpt = none)
    (hv : (s.core core).reserved = none) (hp : tk.past4 = false) (hw : s.waitsFor core tk.cls = true) (ho : s.ckptOk core = true) :
    s.sliceExpiry core = s.setCore core { s.core core with
      ckpt := some { held := none, since := s.cycle },
      arch := { (s.core core).arch with sliceflr := (s.core core).arch.sliceflr || decide (slice < floor) } } := by
  have hgo : s.sliceExpiry core =
      (if slice < floor then s.modArchOf core fun a => { a with sliceflr := true } else s).startCkpt core none := by
    simp only [State.sliceExpiry, hr, ht, hsl, hfl]
    exact if_neg (by simp [hs, hx, hc, hk, hv, hp, hw, ho, Config.cyclesPerUs])
  rw [hgo]
  split
  case isTrue hf =>
    simp only [State.startCkpt_unheld, State.modArchOf, State.modCore, State.setCore_core_same, State.setCore_setCore, hf, decide_true,
      Bool.or_true]
    rfl
  case isFalse hf => simp only [State.startCkpt_unheld, hf, decide_false, Bool.or_false]

end

/-- Settles O42: the frames of PREEMPTION and SLICE_EXPIRY, and the rows of R190. -/
theorem preemptionAndSlices : Obligations.PreemptionAndSlices := by
  refine ⟨?preempts, fun s die h => gives_sealed rfl (State.preempt_idle h), ?slices, ?rows⟩
  case preempts =>
    intro s die e l b j c p hscan hb hj hn ht hf hr hv
    have h := State.preempt_first hscan hb hj hn ht hf hr hv
    have hjobs : kfind (s.preempt die.val).jobs e.job = some j.spend :=
      (congrArg (kfind ·.jobs e.job) h).trans (kfind_kset_same ..)
    have hmem : SameMemory s (s.preempt die.val) := fun a => congrArg (Memory.read ·.mem a) h
    have hcore : (s.preempt die.val).core c = (s.core c).claimed e s.cycle p :=
      (congrArg (State.core · c) h).trans (State.setCore_core_same ..)
    refine ⟨_, rfl, (congrArg Core.reserved hcore).trans (Core.claimed_reserved ..), ?_, ?_, ?_⟩
    · rintro rfl; exact ⟨hjobs, hcore, hmem⟩
    · rintro rfl; exact ⟨hjobs, hmem, hcore⟩
    · rintro rfl; exact ⟨hjobs, hmem, hcore⟩
  case slices =>
    intro s core r tk hr ht
    refine ⟨fun h => gives_sealed rfl (State.sliceExpiry_early hr ht rfl rfl h), ?_⟩
    intro hs hc hx hk hv hp hw ho
    obtain ⟨hmem, -, hothers, hcore⟩ := onlyCore_setCore s core.val _
    exact ⟨_, gives_sealed rfl (State.sliceExpiry_expired hr ht rfl rfl hs hc hx hk hv hp hw ho), hmem, hothers, hcore⟩
  case rows => exact fun _ _ _ _ _ _ _ => ⟨policyOf_eq_none, policyOf_drain, policyOf_checkpoint, policyOf_kill⟩

end Sys2Proof.Machine
